-- ==== Sys2Proof/Word.lean ====
section
/-! DEFINITION. Word.lean: the words and index types of the part (spec/00 0.4, 0.5). -/

namespace Sys2Proof

/-- One character's data byte on a link. -/
abbrev Byte := BitVec 8

/-- A value of the 32-bit uptime counter, in ms (spec/00 0.5). -/
abbrev Uptime := BitVec 32

/-- A value of a lane's 32-bit unwrapped set counter (R15). -/
abbrev SetNo := BitVec 32

/-- A raw 16-bit code of a SAMPLE cell, two's complement (R1). -/
abbrev RawCode := BitVec 16

/-- Banks 1 to 6: bank b is the index b - 1. -/
abbrev Bank := Fin 6

/-- Outlet positions 1 to 8 within a bank: position p is the index p - 1. -/
abbrev Position := Fin 8

/-- Outlets 1 to 48: outlet n is the index n - 1. -/
abbrev Outlet := Fin 48

/-- Server groups 1 to 32: group g is the index g - 1. -/
abbrev Group := Fin 32

/-- Supply phases: L1, L2, L3 are the indexes 0, 1, 2. -/
abbrev SupplyPhase := Fin 3

/-- Report streams 1 to 4: stream i is the index i - 1. -/
abbrev Stream := Fin 4

/-- A timer: its start uptime while it runs, `none` while it is stopped. -/
abbrev Timer := Option Uptime

end Sys2Proof
end

