-- ==== Sys2Proof/Syntax.lean ====
section
/-! DEFINITION. Syntax.lean: the commands of spec/opcode_table.json, one constructor per row. -/

namespace Sys2Proof

/-- A character as a receiver hears it: its data bits, and whether its stop bit was good (R2, R156). -/
structure LineChar where
  byte : Byte
  stopOk : Bool
deriving DecidableEq, Repr

/-- The commands of the part, in the order of spec/opcode_table.json. A row that takes a command cell from
link 0 carries the cell's tag byte and its payload bytes as received (spec/12 12.3). -/
inductive Instr where
  /-- Supply is applied. -/
  | powerOn
  /-- One character is received on the lane of bank `b`. -/
  | laneCharacter (b : Bank) (c : LineChar)
  /-- A cell ends at an idle gap on the lane of bank `b`; `chars` are the characters of it not reported one by one. -/
  | laneCellReceived (b : Bank) (chars : List LineChar)
  /-- The lane of bank `b` is held low for at least 2 character times. -/
  | laneBreak (b : Bank)
  /-- The metering engine takes the head cell of the lane's input FIFO. -/
  | takeSampleCell (b : Bank)
  | silenceTimerExpiry (b : Bank)
  | signalTimerExpiry (b : Bank)
  /-- The downward line of bank `b` is free and the transmitter starts a cell. -/
  | laneCellStart (b : Bank)
  | intervalClose
  | shedTimerExpiry (b : Bank)
  | restoreTimerExpiry (b : Bank)
  | dispatchOpportunity
  | settleTimerExpiry (b : Bank)
  | refillTimerExpiry (p : SupplyPhase)
  /-- The WAITING CLOSE of outlet `o` reaches the grant timeout. -/
  | grantTimeout (o : Outlet)
  | dwellExpiry (g : Group)
  | staggerExpiry (g : Group)
  | bootWindowExpiry (g : Group)
  | deadlineExpiry (g : Group)
  | graceExpiry (g : Group)
  | budgetWindowExpiry (g : Group)
  /-- An idle gap on link 0, after `chars`, the characters since the event before; with none, the gap alone. -/
  | link0CellReceived (chars : List LineChar)
  /-- Link 0 is held low after `chars`, the characters since the event before. -/
  | link0Break (chars : List LineChar)
  /-- The upstream line is free and the arbiter starts a cell. -/
  | upstreamCellStart
  /-- HOLD_IN takes the level given (`true` is asserted). -/
  | holdInChange (asserted : Bool)
  /-- The SAFE pin takes the level given (`true` is asserted). -/
  | safePinChange (asserted : Bool)
  /-- The transmission of a RESTART's OK response ends. -/
  | restartTakesEffect
  | unknownCommand (kind tag : Byte) (payload : List Byte)
  | readEntry (tag : Byte) (payload : List Byte)
  | writeEntry (tag : Byte) (payload : List Byte)
  | discard (tag : Byte) (payload : List Byte)
  | commit (tag : Byte) (payload : List Byte)
  | lockCal (tag : Byte) (payload : List Byte)
  | switch (tag : Byte) (payload : List Byte)
  | clearFault (tag : Byte) (payload : List Byte)
  | clearEnergy (tag : Byte) (payload : List Byte)
  | readOutlet (tag : Byte) (payload : List Byte)
  | cycle (tag : Byte) (payload : List Byte)
  | groupOff (tag : Byte) (payload : List Byte)
  | groupOn (tag : Byte) (payload : List Byte)
  | cancel (tag : Byte) (payload : List Byte)
  | readGroup (tag : Byte) (payload : List Byte)
  | clearLockout (tag : Byte) (payload : List Byte)
  | token (tag : Byte) (payload : List Byte)
  | setLevel (tag : Byte) (payload : List Byte)
  | setMask (tag : Byte) (payload : List Byte)
  | bindStream (tag : Byte) (payload : List Byte)
  | unbindStream (tag : Byte) (payload : List Byte)
  | triggerStream (tag : Byte) (payload : List Byte)
  | capture (tag : Byte) (payload : List Byte)
  | readCapture (tag : Byte) (payload : List Byte)
  | forceSafe (tag : Byte) (payload : List Byte)
  | resume (tag : Byte) (payload : List Byte)
  | status (tag : Byte) (payload : List Byte)
  | restart (tag : Byte) (payload : List Byte)
  | clearLinkErrors (tag : Byte) (payload : List Byte)
deriving DecidableEq, Repr

end Sys2Proof
end

