-- ==== Sys2Proof/Decode.lean ====
section
/-! DEFINITION. Decode.lean: the commands that a word of spec/opcode_table.json spells. No row of the table gives
bits ("fixed" or "fields"), so no word spells a command. How a command cell's bytes are read is Machine/Operands.lean. -/

namespace Sys2Proof

/-- The command that the `nbits` low bits of `w` spell by the table: the table gives no row any bits. -/
def decodeTableWord (_nbits _w : Nat) : Option Instr := none

end Sys2Proof
end

