-- ==== Sys2Proof/Config.lean ====
section
/-! DEFINITION. Config.lean: the fixed numbers of spec/00 0.10 and of the chapters that state them.
The spec leaves no result of a command open, so there is no free value here. -/

namespace Sys2Proof.Config

/-- Cells of a bank lane's input FIFO (R4) and of the command FIFO (R159). -/
def fifoDepth : Nat := 4
/-- The fill at which HOLD_OUT is asserted (R159). -/
def holdOutFill : Nat := 3
/-- Slots of the response queue, cells of the notice queue and of the record queue (spec/09 9.1). -/
def responseSlots : Nat := 8
def noticeDepth : Nat := 8
def recordDepth : Nat := 16
/-- Entries of the pending set (R173). -/
def pendingSlots : Nat := 64
/-- Consecutive good cells that bring a lane UP (R9). -/
def runToUp : Nat := 16
/-- Oscillator time between two takings from one lane FIFO, in µs (R4). -/
def takeSpacing : Nat := 200
/-- Silence and signal timeouts, in ms (R12, R7). -/
def silenceMs : Nat := 20
def signalMs : Nat := 1000
/-- Shortest window a crossing closes as aligned, and the length that closes a window by itself (R26, R27). -/
def minAligned : Nat := 56
def fullWindow : Nat := 96
/-- Substitutes a valid window may hold in a row and in total (R28). -/
def maxSubRun : Nat := 2
def maxSubTotal : Nat := 4
/-- Energy units in one counter unit, and the value at which the counter holds (R37). -/
def energyUnit : Nat := 28800000000
def energyMax : Nat := 4294967295
/-- Bound of a saturating window count of an interval (spec/03 3.2). -/
def countMax : Nat := 65535
/-- Sets between actuate-at and the verification point, and the least lead of actuate-at (R67, R68). -/
def verifyLag : Nat := 24
def leadSets : Nat := 4
/-- Consecutive closes that find a weld or an open output (R74, R75). -/
def watchCount : Nat := 3
/-- Uptime between dispatch opportunities, in ms (R88). -/
def dispatchMs : Nat := 5
/-- Values of a group's power history (R47). -/
def historyDepth : Nat := 16
/-- Kind bytes of the lane cells (spec/12 12.2). -/
def kindSample : Byte := 0x31
def kindRelay : Byte := 0x32
def kindIndicate : Byte := 0x33
/-- Bytes of a SAMPLE cell, kind and CRC-8 included (R1). -/
def sampleBytes : Nat := 23
/-- Largest payload of a management link cell (spec/09 9.2). -/
def maxPayload : Nat := 128

end Sys2Proof.Config
end

