-- ==== Sys2Proof/Machine/State.lean ====
section
/-! DEFINITION. Machine/State.lean: the state of the part as plain data, and the part after power-on. -/

namespace Sys2Proof.Machine

/-! ## Names of the part -/

/-- Lane states (R7 to R14), in the order of R189. -/
inductive LinkState where
  | absent | syncing | up | lost
deriving DecidableEq, Repr

/-- Error kinds of a link's error record (R5, R158). -/
inductive ErrorKind where
  | character | crc | length | overrun | brk
deriving DecidableEq, Repr

/-- A relay movement (R84). -/
inductive Action where
  | close | opens
deriving DecidableEq, Repr

/-- What an indicator shows (R80). -/
inductive Mode where
  | on | blink | off
deriving DecidableEq, Repr

/-- Kinds of a closed line window (R28). -/
inductive WindowKind where
  | valid | noLine | invalid
deriving DecidableEq, Repr

/-- States of a threshold machine (spec/03 3.5). -/
inductive Level where
  | normal | warn | critical
deriving DecidableEq, Repr

/-- Relay states, in the order of spec/04 4.2. -/
inductive RelayState where
  | unknown | off | on | closing | opening | faultOpen | faultWelded
deriving DecidableEq, Repr

/-- Details of a relay fault (spec/04 4.1). -/
inductive FaultDetail where
  | noOperate | noOutput | contactClosed | outputLive
deriving DecidableEq, Repr

/-- Requesters of the switching queue, in rank order (spec/05 5.2). -/
inductive Origin where
  | safe | shed | group (g : Group) | restore | manual
deriving DecidableEq, Repr

/-- Results of a queue entry's completion (R98). -/
inductive Completion where
  | done | fault | lost | expired
deriving DecidableEq, Repr

/-- Answers of the switching queue to a request (R85). -/
inductive QueueAnswer where
  | queued | merged | replaced | refusedRank | refusedBusy
deriving DecidableEq, Repr

/-- Operation states of a group (R105). -/
inductive OpState where
  | idle | offing | dwell | oning | verifying
deriving DecidableEq, Repr

/-- Kinds of a group operation (spec/06 6.3). -/
inductive OpKind where
  | cycle | off | on
deriving DecidableEq, Repr

/-- Causes of an operation (spec/06 6.3). -/
inductive OpCause where
  | manual | hang
deriving DecidableEq, Repr

/-- Causes of a pass of an operation (spec/06 6.3). -/
inductive PassCause where
  | manual | hang | retry
deriving DecidableEq, Repr

/-- Results of an operation (R121). -/
inductive OpResult where
  | done | cancelled | failed
deriving DecidableEq, Repr

/-- Reasons of a cancelled or failed operation (R121). -/
inductive OpReason where
  | command | safe | welded | noBoot | bankLost | grantTimeout
deriving DecidableEq, Repr

/-- Progress of one member in an operation (spec/06 6.3). -/
inductive Progress where
  | pending | awaiting | opened | closed | faulted | passed
deriving DecidableEq, Repr

/-- Derived power states of a group (R103). -/
inductive PowerState where
  | allOn | allOff | partly
deriving DecidableEq, Repr

/-- States of a hang monitor (spec/07 7.1). -/
inductive MonitorState where
  | offline | disarmed | armed | suspect | declared | cycling | lockedOut
deriving DecidableEq, Repr

/-- The group engine's answers to a hang cycle request (R123). -/
inductive EngineAnswer where
  | accepted | busy | bankDown | state
deriving DecidableEq, Repr

/-- States of a staged table (R144). -/
inductive TableState where
  | clean | dirty | committing | deferred
deriving DecidableEq, Repr

/-- The seven staged tables, numbered 1 to 7 as sources (spec/10 10.1). -/
inductive TableId where
  | outlet | bank | phase | calibration | group | grant | system
deriving DecidableEq, Repr

/-- Kinds of RESTART (R167). -/
inductive RestartKind where
  | engine | all
deriving DecidableEq, Repr

/-- Last restart causes (spec/09 9.1). -/
inductive RestartCause where
  | powerOn | restartAll | restartEngine
deriving DecidableEq, Repr

/-- Causes of the safe state (R181). -/
inductive SafeCause where
  | command | pin
deriving DecidableEq, Repr

/-- States of the capture unit (spec/11 11.4). -/
inductive CaptureState where
  | empty | armed | filling | full
deriving DecidableEq, Repr

/-- Results of a capture (spec/11 11.4). -/
inductive CaptureResult where
  | complete | aborted
deriving DecidableEq, Repr

/-- Safe actions of an outlet (spec/08 8.2). -/
inductive SafeAction where
  | hold | on | off
deriving DecidableEq, Repr

/-- Indicator modes of an outlet (spec/08 8.2). -/
inductive IndicatorMode where
  | auto | on | blink | off
deriving DecidableEq, Repr

/-- Verify fields of a group (spec/06 6.1). -/
inductive Verify where
  | none | current | token
deriving DecidableEq, Repr

/-- Hang policies of a group (spec/07 7.1). -/
inductive HangPolicy where
  | none | notify | cycle | cycleIfFlat
deriving DecidableEq, Repr

/-- Status codes, in the order of spec/09 9.6. -/
inductive Status where
  | ok | merged | deferred | busy | state | badArg | locked | safe | bankDown | unknown
deriving DecidableEq, Repr

/-- Event kinds, in the order of their numbers 1 to 24 (spec/10 10.1). -/
inductive EventKind where
  | safeEntered | pendingOverflow | bankLost | relayFault | branchLimit | phaseLimit
  | hangDeclared | lockout | bankUp | bankAbsent | shed | linkError
  | groupDone | hangSuspect | hangBusy | outletLimit | loadLost | reconcile
  | hangCleared | tableApplied | captureDone | streamEnd | intervalClosed | switchDone
deriving DecidableEq, Repr

/-- How a relay fault was found (R73 to R75). -/
inductive Finding where
  | verifyClose | verifyOpen | watch
deriving DecidableEq, Repr

/-- What a SHED event reports (R57, R58, R60). -/
inductive ShedReport where
  | shedOutlet (o : Outlet) | exhausted | restored (o : Outlet)
deriving DecidableEq, Repr

/-- Causes of a RECONCILE (R65, R66). -/
inductive ReconcileCause where
  | uncommanded | atUp
deriving DecidableEq, Repr

/-- What a HANG_BUSY reports (R133). -/
inductive BusyReport where
  | notFlat (spread : Nat) | insufficient (present : Nat) | notAccepted (answer : EngineAnswer)
deriving DecidableEq, Repr

/-- The timers of a group operation (R124). -/
inductive OpTimer where
  | dwell | stagger | boot
deriving DecidableEq, Repr

/-! ## Lanes (spec/01) -/

/-- The raw content of one set: codes, relay-closed bits and load-present bits; bit p - 1 is position p (R1). -/
structure RawSet where
  volt : RawCode
  cur : Vector RawCode 8
  closed : BitVec 8
  load : BitVec 8
deriving DecidableEq, Repr

/-- A good SAMPLE cell (R1). -/
structure SampleCell where
  seq : Byte
  set : RawSet
deriving DecidableEq, Repr

/-- A link's error record (R5): the kinds seen, each at most once, in the order in which they came. -/
structure ErrorRecord where
  kinds : List ErrorKind
  first : Option ErrorKind
  captured : List Byte
deriving DecidableEq, Repr

/-- A RELAY cell (R1, R67); `at8` is the actuate-at set modulo 256. -/
structure RelayCell where
  pos : Position
  action : Action
  at8 : Byte
deriving DecidableEq, Repr

/-- One lane receiver and transmitter (spec/01 1.1). -/
structure Lane where
  link : LinkState
  fifo : List SampleCell
  runCount : Nat
  runSeq : Option Byte
  counter : SetNo
  lastGood : Option RawSet
  silence : Timer
  signal : Timer
  errors : ErrorRecord
  relayList : List RelayCell
  /-- The INDICATE cell waiting to be sent: the eight modes it carries. -/
  indicator : Option (Vector Mode 8)
  /-- Bytes of the cell last started downward (R16, R17: a cell in progress is finished). -/
  line : Option (List Byte)
  /-- Characters of the cell being framed (R2, R3). -/
  partialCell : List LineChar
  /-- An idle gap has been seen since the lane left ABSENT or since a BREAK (R2, R3). -/
  framing : Bool
  /-- Oscillator time since the previous taking from this FIFO, in µs, saturating at 200 (R4). -/
  sinceTake : Nat
deriving DecidableEq, Repr

/-! ## Metering (spec/02) -/

/-- Window sums of one outlet (R31). -/
structure OutletSums where
  i2 : Nat
  vi : Int
deriving DecidableEq, Repr

/-- The newest received set of a window: its number and bits (R70). -/
structure ReceivedSet where
  num : SetNo
  closed : BitVec 8
  load : BitVec 8
deriving DecidableEq, Repr

/-- An open line window (spec/02 2.1, R25, R28, R31). -/
structure Window where
  aligned : Bool
  first : SetNo
  n : Nat
  subTotal : Nat
  subRun : Nat
  invalid : Bool
  voltOver : Bool
  curOver : BitVec 8
  sumV2 : Nat
  sumI2 : Nat
  sums : Vector OutletSums 8
  lastReceived : Option ReceivedSet
  /-- Bits of the window's last set (R74, R75). -/
  closed : BitVec 8
  load : BitVec 8
deriving DecidableEq, Repr

/-- Latest published bank results (R32); the frequency is the bank's (R39). -/
structure BankResult where
  kind : WindowKind
  last : SetNo
  time : Uptime
  n : Nat
  vrms : Nat
  irms : Nat
  overRange : Bool
deriving DecidableEq, Repr

/-- Metering state of one bank (spec/02 2.1). -/
structure BankMeter where
  /-- Calibrated voltages of the newest 0 to 4 sets, newest first (R22). -/
  history : List Int
  armed : Bool
  window : Option Window
  crossing : Option SetNo
  winLen : Option Nat
  lastKind : Option WindowKind
  freqList : List Nat
  frequency : Nat
  latest : Option BankResult
deriving DecidableEq, Repr

/-- Latest published outlet results (R32 to R36). -/
structure OutletResult where
  irms : Nat
  pCode : Int
  pf : Int
  power : Int
  overRange : Bool
  creep : Bool
deriving DecidableEq, Repr

/-- Interval sums of one outlet (spec/03 3.2). -/
structure IntervalSums where
  n : Nat
  i2 : Nat
  vi : Int
  maxIrms : Nat
  valid : Nat
  estimated : Nat
  reverse : Bool
  overRange : Bool
deriving DecidableEq, Repr

/-- Metering state of one outlet (spec/02 2.1, spec/03 3.2). -/
structure OutletMeter where
  latest : Option OutletResult
  lastValidP : Option Int
  energy : Nat
  residue : Nat
  sums : IntervalSums
deriving DecidableEq, Repr

/-- The interval clock (R43). -/
structure IntervalClock where
  start : Uptime
  length : Nat
  number : BitVec 32
deriving DecidableEq, Repr

/-! ## Limits and shedding (spec/03) -/

/-- A threshold machine (R49, R50). -/
structure Threshold where
  level : Level
  candidate : Option Level
  run : Nat
deriving DecidableEq, Repr

/-- A load-lost detector (R55). -/
structure LoadLost where
  lost : Bool
  run : Nat
deriving DecidableEq, Repr

/-- The shed unit of one bank (spec/03 3.7); the stack's head is its top. -/
structure ShedUnit where
  stack : List Outlet
  shedTimer : Timer
  shedFlight : Option Outlet
  exhausted : Bool
  restoreTimer : Timer
  restoreFlight : Option Outlet
deriving DecidableEq, Repr

/-! ## Relays and the switching queue (spec/04, spec/05) -/

/-- An action in flight (R67). -/
structure Flight where
  action : Action
  actuateAt : SetNo
  verifyAt : SetNo
deriving DecidableEq, Repr

/-- One outlet's relay record (spec/04 4.1). -/
structure Relay where
  state : RelayState
  detail : Option FaultDetail
  flight : Option Flight
  weld : Nat
  dead : Nat
deriving DecidableEq, Repr

/-- State of a queue entry (R84); an ISSUED entry keeps the uptime of its issue (R99). -/
inductive EntryState where
  | waiting | issued (at_ : Uptime)
deriving DecidableEq, Repr

/-- An entry of the switching queue (R84). -/
structure QueueEntry where
  outlet : Outlet
  action : Action
  origin : Origin
  enqueued : Uptime
  state : EntryState
deriving DecidableEq, Repr

/-! ## Groups and monitors (spec/06, spec/07) -/

/-- The record of an ended operation (R121). -/
structure OpRecord where
  group : Group
  kind : OpKind
  cause : OpCause
  result : OpResult
  reason : Option OpReason
  start : Uptime
  stop : Uptime
  retries : Nat
  faulted : List Outlet
deriving DecidableEq, Repr

/-- The group engine's state of one group (spec/06 6.3). -/
structure GroupOp where
  op : OpState
  kind : Option OpKind
  cause : Option OpCause
  passCause : Option PassCause
  repower : Bool
  cancel : Bool
  start : Uptime
  retry : Nat
  progress : List Progress
  turn : Nat
  /-- The turn in progress waits out an entry that refused its request BUSY (R111). -/
  busyWait : Bool
  awaited : List Outlet
  dwell : Timer
  stagger : Timer
  boot : Timer
  faulted : List Outlet
  lastRecord : Option OpRecord
  /-- Oldest first; `none` is ABSENT (R47). -/
  history : List (Option Int)
deriving DecidableEq, Repr

/-- A running grace timer, and whether it runs as a retry (R133). -/
structure Grace where
  start : Uptime
  retry : Bool
deriving DecidableEq, Repr

/-- One hang monitor (spec/07 7.1). -/
structure Monitor where
  state : MonitorState
  deadline : Timer
  grace : Option Grace
  busy : Nat
  window : Timer
  budget : Nat
  lastToken : Option Uptime
deriving DecidableEq, Repr

/-! ## Staged tables (spec/08) -/

structure OutletEntry where
  safeAction : SafeAction
  shedPriority : Nat
  indicator : IndicatorMode
  operateDelay : Nat
  offOffset : Nat
  warn : Nat
  crit : Nat
  low : Nat
  hysteresis : Nat
  persistence : Nat
  weld : Nat
  creep : Nat
deriving DecidableEq, Repr

structure BankEntry where
  phase : SupplyPhase
  warn : Nat
  crit : Nat
  hysteresis : Nat
  persistence : Nat
  shedDelay : Nat
  restoreDelay : Nat
  settle : Nat
  zeroCross : Nat
deriving DecidableEq, Repr

structure PhaseEntry where
  capacity : Nat
  refill : Nat
  warn : Nat
  crit : Nat
  hysteresis : Nat
  persistence : Nat
deriving DecidableEq, Repr

/-- A calibration entry; the delay of a bank voltage entry (49 to 54) is not a field of it and stays 0. -/
structure CalEntry where
  gain : Nat
  offset : Int
  delay : Nat
deriving DecidableEq, Repr

/-- A group table entry; `members` are the outlet numbers as written, judged at COMMIT (R146, R148). -/
structure GroupEntry where
  enabled : Bool
  members : List Nat
  offDwell : Nat
  onStagger : Nat
  verify : Verify
  bootThreshold : Nat
  bootWindow : Nat
  retries : Nat
  policy : HangPolicy
  deadline : Nat
  grace : Nat
  flatBand : Nat
  flatIntervals : Nat
  budget : Nat
  budgetWindow : Nat
deriving DecidableEq, Repr

structure SystemEntry where
  intervalLength : Nat
  grantTimeout : Nat
deriving DecidableEq, Repr

/-- A staged table of `n` entries whose commits wait in units of `Fin m`: entries of the table, or banks (R144). -/
structure Staged (α : Type) (n m : Nat) where
  active : Vector α n
  pending : Vector α n
  state : TableState
  waiting : List (Fin m)
  written : Bool
  /-- Entries that the commit in force placed in the waiting set (R153). -/
  waited : Nat
  /-- The tag of the COMMIT whose response is held (R150). -/
  held : Option Byte
deriving DecidableEq, Repr

/-! ## Capture (spec/11) -/

/-- One pair of the capture buffer (R187). -/
structure Pair where
  v : Int
  i : Int
  substituted : Bool
deriving DecidableEq, Repr

/-- A capture header, with the fields of spec/12 12.5 that may be absent. -/
structure CaptureHeader where
  outlet : Option Outlet
  result : Option CaptureResult
  kind : Option WindowKind
  n : Nat
  first : Option SetNo
  /-- Interval number and uptime of the end. -/
  stamp : Option (BitVec 32 × Uptime)
deriving DecidableEq, Repr

/-- The capture unit (spec/11 11.4); its bank is the outlet's. -/
structure Capture where
  state : CaptureState
  outlet : Option Outlet
  buffer : List Pair
  first : Option SetNo
  header : Option CaptureHeader
deriving DecidableEq, Repr

/-! ## Events, records and responses (spec/09, spec/10, spec/12) -/

/-- The outlet action record (R99, spec/12 12.4), with the parts that may be absent. -/
structure ActionRecord where
  outlet : Outlet
  /-- Action, origin and enqueue uptime. -/
  request : Option (Action × Origin × Uptime)
  /-- Result and completion uptime. -/
  result : Option (Completion × Uptime)
  /-- Issue uptime and actuate-at set. -/
  issue : Option (Uptime × SetNo)
  relay : RelayState
  detail : Option FaultDetail
deriving DecidableEq, Repr

/-- The part of an interval record that INTERVAL_CLOSED carries as its detail (R46). -/
structure IntervalHead where
  number : BitVec 32
  time : Uptime
  length : Nat
  bank : Bank
  link : LinkState
deriving DecidableEq, Repr

/-- One outlet's block of an interval record (spec/12 12.4). -/
structure OutletBlock where
  pos : Position
  irms : Option Nat
  power : Option Int
  maxIrms : Nat
  valid : Nat
  estimated : Nat
  relay : RelayState
  reverse : Bool
  overRange : Bool
  energy : Nat
deriving DecidableEq, Repr

/-- What a report stream sends (spec/10 10.6); an interval record travels as parts 1 and 2 (R191). -/
inductive RecordBody where
  | interval (part : Nat) (head : IntervalHead) (blocks : List OutletBlock)
  | action (r : ActionRecord)
  | operation (r : Option OpRecord)
  | capture (h : CaptureHeader)
deriving DecidableEq, Repr

/-- A record cell in the record queue; its gap field is given when it is started (R164). -/
structure Record where
  triggered : Bool
  body : RecordBody
deriving DecidableEq, Repr

/-- The details of events, by the rules that raise them (spec/10 10.1). -/
inductive Detail where
  | safeEntered (cause : SafeCause) (withdrawn queued merged replaced followUp : Nat)
  | overflow (kind : EventKind) (source : Nat)
  | bankLost (last : SetNo)
  /-- The closed bit is absent for the finding WATCH, the Irms for an INVALID close. -/
  | relayFault (state : RelayState) (detail : Option FaultDetail) (finding : Finding)
      (closed : Option Bool) (load : Bool) (irms : Option Nat)
  | limit (old new : Level) (mA : Nat)
  | hangDeclaredNotify (busy : Nat)
  | hangDeclaredCycle (busy budget : Nat) (windowEnd : Uptime) (spread : Option Nat)
  | lockout (budget count : Nat) (windowEnd : Uptime)
  | bankUp (left : LinkState)
  | bankAbsent
  | shed (r : ShedReport)
  | linkError (kind first : ErrorKind) (captured : List Byte)
  | groupDone (r : OpRecord)
  | hangSuspect (deadline : Nat) (lastToken : Option Uptime)
  | hangBusy (r : BusyReport) (busy : Nat)
  | loadLost (mA low : Nat)
  | reconcile (old new : RelayState) (cause : ReconcileCause)
  | hangCleared (left : MonitorState) (lastToken : Uptime)
  | tableApplied (count : Nat)
  | captureDone (h : CaptureHeader)
  | streamEnd (kind : EventKind) (source : Option Nat) (count : Nat)
  | intervalClosed (h : IntervalHead)
  | switchDone (r : ActionRecord)
deriving DecidableEq, Repr

/-- An event as its block raises it (R170): the records are those a bound stream makes of it (R177). -/
structure Event where
  kind : EventKind
  source : Nat
  detail : Detail
  records : List RecordBody
deriving DecidableEq, Repr

/-- An entry of the pending set (spec/10 10.4); its level is that of its kind. -/
structure PendingEntry where
  kind : EventKind
  source : Nat
  count : Nat
  time : Uptime
  detail : Detail
deriving DecidableEq, Repr

/-- The overflow entry while it is set (R174): the latest event dropped. -/
structure Overflow where
  count : Nat
  time : Uptime
  kind : EventKind
  source : Nat
deriving DecidableEq, Repr

/-- A notice cell (R175). -/
structure Notice where
  kind : EventKind
  source : Nat
  level : Nat
  count : Nat
  time : Uptime
  detail : Detail
deriving DecidableEq, Repr

/-- A bound report stream (spec/10 10.6); a source of `none` is ANY. -/
structure Binding where
  kind : EventKind
  source : Option Nat
  remaining : Nat
  bound : Nat
deriving DecidableEq, Repr

/-- The notifier (spec/10). -/
structure Notifier where
  levels : Vector Nat 24
  mask : Nat
  entries : List PendingEntry
  overflow : Option Overflow
  streams : Vector (Option Binding) 4
deriving DecidableEq, Repr

/-- The answer to READ_OUTLET (R40). -/
structure OutletReport where
  link : LinkState
  /-- Bank results, bank frequency and outlet results; absent until a first published close. -/
  results : Option (BankResult × Nat × OutletResult)
  relay : RelayState
  detail : Option FaultDetail
  level : Level
  loadLost : Bool
  energy : Nat
deriving DecidableEq, Repr

/-- What READ_GROUP tells of one member (R124). -/
structure MemberReport where
  outlet : Outlet
  relay : RelayState
  shed : Bool
  progress : Progress
deriving DecidableEq, Repr

/-- The answer to READ_GROUP (R124, R143). -/
structure GroupReport where
  enabled : Bool
  members : List MemberReport
  power : PowerState
  op : OpState
  kind : Option OpKind
  cause : Option OpCause
  passCause : Option PassCause
  retry : Nat
  turn : Option Outlet
  repower : Bool
  cancel : Bool
  timer : Option (OpTimer × Uptime)
  faulted : List Outlet
  monitor : MonitorState
  /-- Uptime at which the running timer of the monitor expires, and whether it is the grace timer. -/
  monitorTimer : Option (Uptime × Bool)
  busy : Nat
  budget : Nat
  budgetEnd : Option Uptime
  lastToken : Option Uptime
  lastRecord : Option OpRecord
  history : List (Option Int)
deriving DecidableEq, Repr

/-- The answer to STATUS (R165). -/
structure StatusReport where
  safe : Option SafeCause
  links : Vector LinkState 6
  anyRelayFault : Bool
  anyNotUp : Bool
  anyCritical : Bool
  anyLockout : Bool
  anyLinkError : Bool
  pendingCount : Nat
  overflow : Bool
  tables : List TableState
  calLock : Bool
  uptime : Uptime
  interval : BitVec 32
  cause : RestartCause
deriving DecidableEq, Repr

/-- The answer fields of a response (spec/12 12.3). -/
inductive Answer where
  | empty
  | waiting (n : Nat)
  | offending (index : Option Nat)
  | entry (waiting : Bool) (group : Nat) (area : List Byte)
  | clamped (mask : Nat)
  | outlet (r : OutletReport)
  | group (r : GroupReport)
  | capture (h : CaptureHeader) (pairs : List Pair)
  | status (r : StatusReport)
deriving DecidableEq, Repr

/-- A response cell (R161). -/
structure Response where
  tag : Byte
  kind : Byte
  status : Status
  answer : Answer
deriving DecidableEq, Repr

/-- A command cell of the command FIFO (spec/09 9.2). -/
structure CommandCell where
  kind : Byte
  tag : Byte
  payload : List Byte
deriving DecidableEq, Repr

/-- A response slot that waits for its answer: the command's tag and kind (R162). -/
structure HeldSlot where
  tag : Byte
  kind : Byte
deriving DecidableEq, Repr

/-- A RESTART in force (R167); `sending` while its OK response is the cell in progress upstream. -/
structure RestartPending where
  kind : RestartKind
  sending : Bool
deriving DecidableEq, Repr

/-- The management link unit (spec/09 9.1). -/
structure Link0 where
  partialCell : List LineChar
  framing : Bool
  fifo : List CommandCell
  reserved : List HeldSlot
  filled : List Response
  notices : List Notice
  records : List Record
  gap : Nat
  restart : Option RestartPending
  lastCause : RestartCause
  errors : ErrorRecord
  /-- Bytes of the cell last started upstream (R163). -/
  line : Option (List Byte)
deriving DecidableEq, Repr

/-- Safe control (R181): `cause` is `none` while the part is not in SAFE. -/
structure SafeControl where
  cause : Option SafeCause
  followUp : List Outlet
deriving DecidableEq, Repr

/-! ## The machine -/

/-- The part. `pending` is the queue of commands that wait for the part, front first. -/
structure State where
  pending : List Instr
  uptime : Uptime
  /-- µs of the reference oscillator since `uptime` took its value. -/
  subMs : Nat
  /-- The dispatch opportunity of the present uptime value has been taken (R88). -/
  opportunityTaken : Bool
  safePin : Bool
  holdIn : Bool
  lanes : Vector Lane 6
  meters : Vector BankMeter 6
  outlets : Vector OutletMeter 48
  interval : IntervalClock
  outletLimits : Vector Threshold 48
  bankLimits : Vector Threshold 6
  phaseLimits : Vector Threshold 3
  loadLost : Vector LoadLost 48
  phaseElements : Vector (Option Nat) 6
  sheds : Vector ShedUnit 6
  relays : Vector Relay 48
  shown : Vector (Vector Mode 8) 6
  queue : List QueueEntry
  grantPtr : Fin 32
  turnOn : Vector (Option Outlet) 6
  settle : Vector Timer 6
  tokens : Vector Nat 3
  refill : Vector Timer 3
  groups : Vector GroupOp 32
  monitors : Vector Monitor 32
  outletTable : Staged OutletEntry 48 48
  bankTable : Staged BankEntry 6 6
  phaseTable : Staged PhaseEntry 3 3
  calTable : Staged CalEntry 54 6
  groupTable : Staged GroupEntry 32 32
  grantTable : Staged (Option Bank) 32 32
  systemTable : Staged SystemEntry 1 1
  calLock : Bool
  link0 : Link0
  notifier : Notifier
  safe : SafeControl
  capture : Capture
deriving DecidableEq, Repr

/-- Faults: none. The spec names no event that stops the part, so no command raises a fault. -/
inductive Fault where
deriving DecidableEq, Repr

/-- Refusals. -/
inductive Refusal where
  /-- Raised by an arm of `exec` whose command has no meaning yet; safe. No arm raises it now. -/
  | notModelled (mnemonic : String)
deriving DecidableEq, Repr

/-! ## The part after power-on -/

def ErrorRecord.clear : ErrorRecord := { kinds := [], first := none, captured := [] }

/-- A lane after power-on (spec/01 1.1). The first taking after power-on waits for nothing: the time since the previous
one begins at 200 µs (DESIGN CHOICE, entry 28). -/
def Lane.reset : Lane :=
  { link := .absent, fifo := [], runCount := 0, runSeq := none, counter := 0, lastGood := none, silence := none,
    signal := none, errors := .clear, relayList := [], indicator := none, line := none, partialCell := [],
    framing := false, sinceTake := Config.takeSpacing }

/-- A bank's metering state after power-on (spec/02 2.1). -/
def BankMeter.reset : BankMeter :=
  { history := [], armed := false, window := none, crossing := none, winLen := none, lastKind := none,
    freqList := [], frequency := 0, latest := none }

/-- Cleared interval sums (R45, R48). -/
def IntervalSums.clear : IntervalSums :=
  { n := 0, i2 := 0, vi := 0, maxIrms := 0, valid := 0, estimated := 0, reverse := false, overRange := false }

def OutletMeter.reset : OutletMeter :=
  { latest := none, lastValidP := none, energy := 0, residue := 0, sums := .clear }

/-- A threshold machine after each reset (R54). -/
def Threshold.reset : Threshold := { level := .normal, candidate := none, run := 0 }

def LoadLost.reset : LoadLost := { lost := false, run := 0 }

/-- A shed unit after each reset (R63). -/
def ShedUnit.reset : ShedUnit :=
  { stack := [], shedTimer := none, shedFlight := none, exhausted := false, restoreTimer := none,
    restoreFlight := none }

/-- A relay record after each reset (R79). -/
def Relay.reset : Relay := { state := .unknown, detail := none, flight := none, weld := 0, dead := 0 }

/-- A group of the engine after each reset (R125). -/
def GroupOp.reset : GroupOp :=
  { op := .idle, kind := none, cause := none, passCause := none, repower := false, cancel := false, start := 0,
    retry := 0, progress := [], turn := 0, busyWait := false, awaited := [], dwell := none, stagger := none,
    boot := none, faulted := [], lastRecord := none, history := [] }

/-- A monitor after a reset that leaves it in `st` (R142). -/
def Monitor.reset (st : MonitorState) : Monitor :=
  { state := st, deadline := none, grace := none, busy := 0, window := none, budget := 0, lastToken := none }

/-- The default table entries (spec/08 8.2, spec/06 6.1, spec/07 7.1). -/
def OutletEntry.default : OutletEntry :=
  { safeAction := .hold, shedPriority := 0, indicator := .auto, operateDelay := 20, offOffset := 0, warn := 5000,
    crit := 8000, low := 0, hysteresis := 100, persistence := 10, weld := 50, creep := 20 }

def BankEntry.default (p : SupplyPhase) : BankEntry :=
  { phase := p, warn := 6400, crit := 8000, hysteresis := 200, persistence := 25, shedDelay := 2000,
    restoreDelay := 30, settle := 100, zeroCross := 400 }

def PhaseEntry.default : PhaseEntry :=
  { capacity := 2, refill := 250, warn := 0, crit := 0, hysteresis := 200, persistence := 25 }

def CalEntry.default : CalEntry := { gain := 32768, offset := 0, delay := 0 }

def GroupEntry.default : GroupEntry :=
  { enabled := false, members := [], offDwell := 10, onStagger := 2, verify := .none, bootThreshold := 250,
    bootWindow := 300, retries := 1, policy := .none, deadline := 120, grace := 30, flatBand := 50,
    flatIntervals := 8, budget := 3, budgetWindow := 6 }

def SystemEntry.default : SystemEntry := { intervalLength := 1, grantTimeout := 60 }

/-- Banks 1 and 4 on L1, 2 and 5 on L2, 3 and 6 on L3 (spec/08 8.2). -/
def defaultBanks : Vector BankEntry 6 :=
  #v[.default 0, .default 1, .default 2, .default 0, .default 1, .default 2]

/-- Phases 0 to 29 name banks 1 to 6 in turn, five times; 30 and 31 are skips (spec/08 8.2). -/
def defaultGrants : Vector (Option Bank) 32 :=
  #v[some 0, some 1, some 2, some 3, some 4, some 5, some 0, some 1, some 2, some 3, some 4, some 5,
     some 0, some 1, some 2, some 3, some 4, some 5, some 0, some 1, some 2, some 3, some 4, some 5,
     some 0, some 1, some 2, some 3, some 4, some 5, none, none]

/-- A table with both copies equal, CLEAN (R155). -/
def Staged.ofActive {α : Type} {n m : Nat} (v : Vector α n) : Staged α n m :=
  { active := v, pending := v, state := .clean, waiting := [], written := false, waited := 0, held := none }

/-- The default levels of kinds 1 to 24 (spec/10 10.1). -/
def defaultLevels : Vector Nat 24 :=
  #v[7, 7, 6, 6, 5, 5, 5, 5, 4, 4, 4, 4, 3, 3, 3, 3, 3, 3, 2, 2, 2, 2, 0, 0]

def Notifier.reset : Notifier :=
  { levels := defaultLevels, mask := 0, entries := [], overflow := none, streams := Vector.replicate 4 none }

/-- The management link unit after power-on (R169). -/
def Link0.reset : Link0 :=
  { partialCell := [], framing := false, fifo := [], reserved := [], filled := [], notices := [], records := [],
    gap := 0, restart := none, lastCause := .powerOn, errors := .clear, line := none }

/-- The capture unit after each reset (R185). -/
def Capture.reset : Capture := { state := .empty, outlet := none, buffer := [], first := none, header := none }

/-- The part right after power-on, with no command waiting and both input lines deasserted
(DESIGN CHOICE, entry 9: the levels of the SAFE pin and of HOLD_IN are the outside's). -/
def State.reset : State :=
  { pending := [], uptime := 0, subMs := 0, opportunityTaken := false, safePin := false, holdIn := false,
    lanes := Vector.replicate 6 .reset,
    meters := Vector.replicate 6 .reset,
    outlets := Vector.replicate 48 .reset,
    interval := { start := 0, length := 1, number := 0 },
    outletLimits := Vector.replicate 48 .reset,
    bankLimits := Vector.replicate 6 .reset,
    phaseLimits := Vector.replicate 3 .reset,
    loadLost := Vector.replicate 48 .reset,
    phaseElements := Vector.replicate 6 none,
    sheds := Vector.replicate 6 .reset,
    relays := Vector.replicate 48 .reset,
    shown := Vector.replicate 6 (Vector.replicate 8 .off),
    queue := [], grantPtr := 0,
    turnOn := Vector.replicate 6 none,
    settle := Vector.replicate 6 none,
    tokens := Vector.replicate 3 2,
    refill := Vector.replicate 3 none,
    groups := Vector.replicate 32 .reset,
    monitors := Vector.replicate 32 (.reset .offline),
    outletTable := .ofActive (Vector.replicate 48 .default),
    bankTable := .ofActive defaultBanks,
    phaseTable := .ofActive (Vector.replicate 3 .default),
    calTable := .ofActive (Vector.replicate 54 .default),
    groupTable := .ofActive (Vector.replicate 32 .default),
    grantTable := .ofActive defaultGrants,
    systemTable := .ofActive (Vector.replicate 1 .default),
    calLock := false,
    link0 := .reset,
    notifier := .reset,
    safe := { cause := none, followUp := [] },
    capture := .reset }

end Sys2Proof.Machine
end

