-- ==== Sys2Proof/Machine/Arith.lean ====
section
/-! DEFINITION. Machine/Arith.lean: the arithmetic conventions of spec/00 0.6, differences of counters (spec/00 0.5,
R15), and the CRC-8 of every link (R1, spec/12). -/

namespace Sys2Proof.Machine

/-- Division rounded to nearest, halves away from zero (spec/00 0.6); a divisor of 0 gives 0. -/
def roundDiv (a : Int) (n : Nat) : Int :=
  if 0 ≤ a then (((2 * a.toNat + n) / (2 * n) : Nat) : Int)
  else -(((2 * (-a).toNat + n) / (2 * n) : Nat) : Int)

/-- `roundDiv` of a sum of squares. -/
def roundDivNat (a n : Nat) : Nat := (2 * a + n) / (2 * n)

/-- The root's bits below `2 ^ k`, found from the top, on `r`. -/
def isqrtBits (n : Nat) : Nat → Nat → Nat
  | 0, r => r
  | k + 1, r => isqrtBits n k (if (r + 2 ^ k) * (r + 2 ^ k) ≤ n then r + 2 ^ k else r)

/-- Floor of the square root (spec/00 0.6). -/
def isqrt (n : Nat) : Nat := isqrtBits n (n.log2 / 2 + 1) 0

/-- The nearest bound of `lo..hi` (spec/00 0.6 "a clamped value"). -/
def clampNat (lo hi x : Nat) : Nat := if x < lo then lo else if hi < x then hi else x

def clampInt (lo hi x : Int) : Int := if x < lo then lo else if hi < x then hi else x

/-- A count that stays at its largest value (spec/00 0.6). -/
def satSucc (max x : Nat) : Nat := if x < max then x + 1 else max

/-- A difference of two set numbers, read as signed (R15). -/
def setDiff (a b : SetNo) : Int := (a - b).toInt

/-- Uptime since `start` (spec/00 0.5: a wrap does not disturb it). -/
def elapsed (now start : Uptime) : Nat := (now - start).toNat

/-- The timer runs and has run for `len` ms. -/
def due (t : Timer) (now : Uptime) (len : Nat) : Bool :=
  match t with
  | none => false
  | some start => decide (len ≤ elapsed now start)

/-- The uptime `ms` after `start`, as reported of a running timer. -/
def expiryOf (start : Uptime) (ms : Nat) : Uptime := start + BitVec.ofNat 32 ms

/-- One bit of the CRC-8 register, polynomial x⁸+x⁵+x⁴+1 (R1). -/
def crcShift (c : Byte) : Byte := if c.msb then (c <<< 1) ^^^ 0x31 else c <<< 1

def crcByte (c b : Byte) : Byte :=
  crcShift (crcShift (crcShift (crcShift (crcShift (crcShift (crcShift (crcShift (c ^^^ b))))))))

/-- The CRC-8 of every cell on every link: initial value 0xFF, no final inversion (R1). -/
def crc8 (bytes : List Byte) : Byte := bytes.foldl crcByte 0xFF

/-- A cell's bytes, ended by its CRC-8. -/
def sealCell (bytes : List Byte) : List Byte := bytes ++ [crc8 bytes]

/-- The value of bytes sent most significant first (R189). -/
def beNat (bytes : List Byte) : Nat := bytes.foldl (fun acc b => acc * 256 + b.toNat) 0

/-- `k` bytes of `n`, most significant first (R189). -/
def toBytes : Nat → Nat → List Byte
  | 0, _ => []
  | k + 1, n => BitVec.ofNat 8 (n / 256 ^ k) :: toBytes k n

/-- `k` bytes of a two's complement number (R189). -/
def intBytes (k : Nat) (i : Int) : List Byte := toBytes k (i % ((256 ^ k : Nat) : Int)).toNat

/-- A two's complement number from its bytes (R189). -/
def beInt (bytes : List Byte) : Int :=
  if 2 * beNat bytes < 256 ^ bytes.length then (beNat bytes : Int)
  else (beNat bytes : Int) - ((256 ^ bytes.length : Nat) : Int)

/-- The bytes of a 32-bit count. -/
def wordBytes (w : BitVec 32) : List Byte := toBytes 4 w.toNat

/-- A mask with bit i set where the list's element i is true (R190). -/
def maskOf : List Bool → Nat
  | [] => 0
  | b :: bs => (if b then 1 else 0) + 2 * maskOf bs

/-- Calibration (R20): offset, gain, division by 32768 rounded, saturation to ±32767; and whether it saturated. -/
def calibrate (e : CalEntry) (raw : RawCode) : Int × Bool :=
  let x := roundDiv ((raw.toInt - e.offset) * (e.gain : Int)) 32768
  (clampInt (-32767) 32767 x, decide (x < -32767 ∨ 32767 < x))

/-- A channel over range (R21). -/
def overRange (e : CalEntry) (raw : RawCode) : Bool :=
  decide (raw.toInt = -32768) || decide (raw.toInt = 32767) || (calibrate e raw).2

/-- The root of a mean of squares (R32, R45). -/
def rmsCode (sum n : Nat) : Nat := isqrt (roundDivNat sum n)

/-- Power factor in thousandths (R34); `creep` is the outlet's creep mark. -/
def powerFactor (pCode : Int) (vrms irms : Nat) (creep : Bool) : Int :=
  if creep || decide (vrms * irms = 0) then 0
  else clampInt (-1000) 1000 (roundDiv (1000 * pCode) (vrms * irms))

/-- Whole counter units are moved from the residue to the counter, which holds at its largest value (R37). -/
def carryEnergy (energy residue : Nat) : Nat × Nat :=
  (min Config.energyMax (energy + residue / Config.energyUnit), residue % Config.energyUnit)

/-- Frequency in centihertz from the list of window lengths (R39). -/
def frequencyOf (lens : List Nat) : Nat :=
  if lens.length = 8 then roundDivNat 3200000 lens.sum else 0

end Sys2Proof.Machine
end

