-- ==== Sys2Proof/Machine/Operands.lean ====
section
/-! DEFINITION. Machine/Operands.lean: how numbers, enumerations, tables, indexes and table entries are read from and
written to cells (R189, spec/12), and the numbering of the part's objects (spec/00 0.4). -/

namespace Sys2Proof.Machine

/-! ## Numbering -/

/-- outlet number = (bank − 1) × 8 + position (spec/00 0.4). -/
def outletAt (b : Bank) (p : Position) : Outlet := ⟨b.val * 8 + p.val, by omega⟩
def bankOf (o : Outlet) : Bank := ⟨o.val / 8, by omega⟩
def posOf (o : Outlet) : Position := ⟨o.val % 8, by omega⟩

def allBanks : List Bank := List.finRange 6
def allPositions : List Position := List.finRange 8
def allOutlets : List Outlet := List.finRange 48
def allGroups : List Group := List.finRange 32
def allPhases : List SupplyPhase := List.finRange 3
def outletsOf (b : Bank) : List Outlet := allPositions.map (outletAt b)

/-- The object numbered `k` of `n` objects numbered from 1. -/
def indexed (n k : Nat) : Option (Fin n) :=
  if h : 1 ≤ k ∧ k ≤ n then some ⟨k - 1, by omega⟩ else none

/-- The number of an object counted from 1. -/
def numberOf {n : Nat} (i : Fin n) : Nat := i.val + 1

/-! ## Enumerations (R189): one byte, numbered from 0 in the order in which the defining chapter lists the values -/

def LinkState.code : LinkState → Nat
  | .absent => 0 | .syncing => 1 | .up => 2 | .lost => 3

def ErrorKind.code : ErrorKind → Nat
  | .character => 0 | .crc => 1 | .length => 2 | .overrun => 3 | .brk => 4

/-- The explicit codes of the RELAY cell's action (spec/12 12.2); entry 10 for its other uses (DEDUCED). -/
def Action.code : Action → Nat
  | .opens => 0 | .close => 1

/-- The explicit codes of the INDICATE modes (spec/12 12.2). -/
def Mode.code : Mode → Nat
  | .off => 0 | .on => 1 | .blink => 2

def WindowKind.code : WindowKind → Nat
  | .valid => 0 | .noLine => 1 | .invalid => 2

def Level.code : Level → Nat
  | .normal => 0 | .warn => 1 | .critical => 2

def RelayState.code : RelayState → Nat
  | .unknown => 0 | .off => 1 | .on => 2 | .closing => 3 | .opening => 4 | .faultOpen => 5 | .faultWelded => 6

def FaultDetail.code : FaultDetail → Nat
  | .noOperate => 1 | .noOutput => 2 | .contactClosed => 3 | .outputLive => 4

def Origin.code : Origin → Nat
  | .safe => 0 | .shed => 1 | .group _ => 2 | .restore => 3 | .manual => 4

def Completion.code : Completion → Nat
  | .done => 0 | .fault => 1 | .lost => 2 | .expired => 3

def OpState.code : OpState → Nat
  | .idle => 0 | .offing => 1 | .dwell => 2 | .oning => 3 | .verifying => 4

def OpKind.code : OpKind → Nat
  | .cycle => 0 | .off => 1 | .on => 2

def OpCause.code : OpCause → Nat
  | .manual => 0 | .hang => 1

def PassCause.code : PassCause → Nat
  | .manual => 0 | .hang => 1 | .retry => 2

def OpResult.code : OpResult → Nat
  | .done => 0 | .cancelled => 1 | .failed => 2

def OpReason.code : OpReason → Nat
  | .command => 1 | .safe => 2 | .welded => 3 | .noBoot => 4 | .bankLost => 5 | .grantTimeout => 6

def Progress.code : Progress → Nat
  | .pending => 0 | .awaiting => 1 | .opened => 2 | .closed => 3 | .faulted => 4 | .passed => 5

def PowerState.code : PowerState → Nat
  | .allOn => 0 | .allOff => 1 | .partly => 2

def MonitorState.code : MonitorState → Nat
  | .offline => 0 | .disarmed => 1 | .armed => 2 | .suspect => 3 | .declared => 4 | .cycling => 5 | .lockedOut => 6

def EngineAnswer.code : EngineAnswer → Nat
  | .accepted => 0 | .busy => 1 | .bankDown => 2 | .state => 3

def TableState.code : TableState → Nat
  | .clean => 0 | .dirty => 1 | .committing => 2 | .deferred => 3

/-- A table's source number (spec/10 10.1), which also names it in a command payload (R189). -/
def TableId.code : TableId → Nat
  | .outlet => 1 | .bank => 2 | .phase => 3 | .calibration => 4 | .group => 5 | .grant => 6 | .system => 7

def TableId.ofByte (b : Byte) : Option TableId :=
  match b.toNat with
  | 1 => some .outlet | 2 => some .bank | 3 => some .phase | 4 => some .calibration | 5 => some .group
  | 6 => some .grant | 7 => some .system | _ => none

def RestartCause.code : RestartCause → Nat
  | .powerOn => 0 | .restartAll => 1 | .restartEngine => 2

def SafeCause.code : SafeCause → Nat
  | .command => 0 | .pin => 1

def CaptureResult.code : CaptureResult → Nat
  | .complete => 0 | .aborted => 1

def SafeAction.code : SafeAction → Nat
  | .hold => 0 | .on => 1 | .off => 2

def SafeAction.ofByte (b : Byte) : Option SafeAction :=
  match b.toNat with
  | 0 => some .hold | 1 => some .on | 2 => some .off | _ => none

def IndicatorMode.code : IndicatorMode → Nat
  | .auto => 0 | .on => 1 | .blink => 2 | .off => 3

def IndicatorMode.ofByte (b : Byte) : Option IndicatorMode :=
  match b.toNat with
  | 0 => some .auto | 1 => some .on | 2 => some .blink | 3 => some .off | _ => none

def Verify.code : Verify → Nat
  | .none => 0 | .current => 1 | .token => 2

def Verify.ofByte (b : Byte) : Option Verify :=
  match b.toNat with
  | 0 => some .none | 1 => some .current | 2 => some .token | _ => Option.none

def HangPolicy.code : HangPolicy → Nat
  | .none => 0 | .notify => 1 | .cycle => 2 | .cycleIfFlat => 3

def HangPolicy.ofByte (b : Byte) : Option HangPolicy :=
  match b.toNat with
  | 0 => some .none | 1 => some .notify | 2 => some .cycle | 3 => some .cycleIfFlat | _ => Option.none

/-- The field "yes / no" of a table entry, numbered in that order (R189; entry 10, DEDUCED). -/
def yesNoCode (b : Bool) : Nat := if b then 0 else 1

def yesNoOfByte (b : Byte) : Option Bool :=
  match b.toNat with
  | 0 => some true | 1 => some false | _ => none

/-- A supply phase as an enumeration, L1 as 0 (R189). -/
def phaseOfByte (b : Byte) : Option SupplyPhase :=
  if h : b.toNat < 3 then some ⟨b.toNat, h⟩ else none

def Status.code : Status → Nat
  | .ok => 0 | .merged => 1 | .deferred => 2 | .busy => 3 | .state => 4 | .badArg => 5 | .locked => 6
  | .safe => 7 | .bankDown => 8 | .unknown => 9

/-- The number of an event kind, 1 to 24 (spec/10 10.1). -/
def EventKind.number : EventKind → Nat
  | .safeEntered => 1 | .pendingOverflow => 2 | .bankLost => 3 | .relayFault => 4 | .branchLimit => 5
  | .phaseLimit => 6 | .hangDeclared => 7 | .lockout => 8 | .bankUp => 9 | .bankAbsent => 10 | .shed => 11
  | .linkError => 12 | .groupDone => 13 | .hangSuspect => 14 | .hangBusy => 15 | .outletLimit => 16
  | .loadLost => 17 | .reconcile => 18 | .hangCleared => 19 | .tableApplied => 20 | .captureDone => 21
  | .streamEnd => 22 | .intervalClosed => 23 | .switchDone => 24

def allKinds : List EventKind :=
  [.safeEntered, .pendingOverflow, .bankLost, .relayFault, .branchLimit, .phaseLimit, .hangDeclared, .lockout,
   .bankUp, .bankAbsent, .shed, .linkError, .groupDone, .hangSuspect, .hangBusy, .outletLimit, .loadLost,
   .reconcile, .hangCleared, .tableApplied, .captureDone, .streamEnd, .intervalClosed, .switchDone]

/-- The kind numbered `n`, 1 to 24. -/
def EventKind.ofNumber (n : Nat) : Option EventKind :=
  if n = 0 then none else allKinds[n - 1]?

def EventKind.index (k : EventKind) : Fin 24 := ⟨k.number - 1, by cases k <;> decide⟩

def Finding.code : Finding → Nat
  | .verifyClose => 0 | .verifyOpen => 1 | .watch => 2

def ReconcileCause.code : ReconcileCause → Nat
  | .uncommanded => 0 | .atUp => 1

def OpTimer.code : OpTimer → Nat
  | .dwell => 0 | .stagger => 1 | .boot => 2

/-- Rank of an origin, highest 0 (spec/05 5.2). -/
def Origin.rank : Origin → Nat
  | .safe => 0 | .shed => 1 | .group _ => 2 | .restore => 3 | .manual => 4

/-- Rank of a level: CRITICAL above WARN above NORMAL (R49). -/
def Level.rank : Level → Nat
  | .normal => 0 | .warn => 1 | .critical => 2

def Level.max (a b : Level) : Level := if a.rank < b.rank then b else a

/-! ## Table entries in their 26-byte areas (R189) -/

/-- The unsigned number of `len` bytes at `off`. -/
def areaNat (area : List Byte) (off len : Nat) : Nat := beNat ((area.drop off).take len)

def areaByte (area : List Byte) (off : Nat) : Byte := area.getD off 0

/-- An entry's fields, followed by zeros up to 26 bytes (R189). -/
def padArea (fields : List Byte) : List Byte := (fields ++ List.replicate 26 0).take 26

/-- The outlet entry as written, before any clamping; `none` for an undefined enumeration value (R146). -/
def OutletEntry.read (a : List Byte) : Option OutletEntry :=
  match SafeAction.ofByte (areaByte a 0), IndicatorMode.ofByte (areaByte a 2) with
  | some act, some ind =>
    some { safeAction := act, shedPriority := areaNat a 1 1, indicator := ind, operateDelay := areaNat a 3 1,
           offOffset := areaNat a 4 1, warn := areaNat a 5 2, crit := areaNat a 7 2, low := areaNat a 9 2,
           hysteresis := areaNat a 11 2, persistence := areaNat a 13 1, weld := areaNat a 14 2,
           creep := areaNat a 16 2 }
  | _, _ => none

/-- What a WRITE_ENTRY stores: clamped fields, and the two current levels exchanged when both are nonzero and warn
exceeds crit (R146). -/
def OutletEntry.store (e : OutletEntry) : OutletEntry :=
  let warn := clampNat 0 32767 e.warn
  let crit := clampNat 0 32767 e.crit
  let swap := decide (warn ≠ 0 ∧ crit ≠ 0 ∧ crit < warn)
  { safeAction := e.safeAction
    shedPriority := clampNat 0 15 e.shedPriority
    indicator := e.indicator
    operateDelay := clampNat 0 40 e.operateDelay
    offOffset := clampNat 0 20 e.offOffset
    warn := if swap then crit else warn
    crit := if swap then warn else crit
    low := clampNat 0 32767 e.low
    hysteresis := clampNat 0 4095 e.hysteresis
    persistence := clampNat 1 255 e.persistence
    weld := clampNat 10 1000 e.weld
    creep := clampNat 0 1000 e.creep }

/-- The fields whose stored value differs from the written one, in the order of the field table (R146, R190). -/
def OutletEntry.changed (w s : OutletEntry) : List Bool :=
  [w.safeAction != s.safeAction, w.shedPriority != s.shedPriority, w.indicator != s.indicator,
   w.operateDelay != s.operateDelay, w.offOffset != s.offOffset, w.warn != s.warn, w.crit != s.crit,
   w.low != s.low, w.hysteresis != s.hysteresis, w.persistence != s.persistence, w.weld != s.weld,
   w.creep != s.creep]

def OutletEntry.area (e : OutletEntry) : List Byte :=
  padArea (toBytes 1 e.safeAction.code ++ toBytes 1 e.shedPriority ++ toBytes 1 e.indicator.code
    ++ toBytes 1 e.operateDelay ++ toBytes 1 e.offOffset ++ toBytes 2 e.warn ++ toBytes 2 e.crit ++ toBytes 2 e.low
    ++ toBytes 2 e.hysteresis ++ toBytes 1 e.persistence ++ toBytes 2 e.weld ++ toBytes 2 e.creep)

def BankEntry.read (a : List Byte) : Option BankEntry :=
  match phaseOfByte (areaByte a 0) with
  | some p =>
    some { phase := p, warn := areaNat a 1 3, crit := areaNat a 4 3, hysteresis := areaNat a 7 2,
           persistence := areaNat a 9 1, shedDelay := areaNat a 10 2, restoreDelay := areaNat a 12 2,
           settle := areaNat a 14 2, zeroCross := areaNat a 16 2 }
  | none => none

def BankEntry.store (e : BankEntry) : BankEntry :=
  { phase := e.phase
    warn := clampNat 0 262136 e.warn
    crit := clampNat 0 262136 e.crit
    hysteresis := clampNat 0 4095 e.hysteresis
    persistence := clampNat 1 255 e.persistence
    shedDelay := clampNat 100 60000 e.shedDelay
    restoreDelay := clampNat 1 3600 e.restoreDelay
    settle := clampNat 20 2000 e.settle
    zeroCross := clampNat 0 8191 e.zeroCross }

def BankEntry.changed (w s : BankEntry) : List Bool :=
  [w.phase != s.phase, w.warn != s.warn, w.crit != s.crit, w.hysteresis != s.hysteresis,
   w.persistence != s.persistence, w.shedDelay != s.shedDelay, w.restoreDelay != s.restoreDelay,
   w.settle != s.settle, w.zeroCross != s.zeroCross]

def BankEntry.area (e : BankEntry) : List Byte :=
  padArea (toBytes 1 e.phase.val ++ toBytes 3 e.warn ++ toBytes 3 e.crit ++ toBytes 2 e.hysteresis
    ++ toBytes 1 e.persistence ++ toBytes 2 e.shedDelay ++ toBytes 2 e.restoreDelay ++ toBytes 2 e.settle
    ++ toBytes 2 e.zeroCross)

def PhaseEntry.read (a : List Byte) : PhaseEntry :=
  { capacity := areaNat a 0 1, refill := areaNat a 1 2, warn := areaNat a 3 3, crit := areaNat a 6 3,
    hysteresis := areaNat a 9 2, persistence := areaNat a 11 1 }

def PhaseEntry.store (e : PhaseEntry) : PhaseEntry :=
  { capacity := clampNat 1 8 e.capacity
    refill := clampNat 50 5000 e.refill
    warn := clampNat 0 524272 e.warn
    crit := clampNat 0 524272 e.crit
    hysteresis := clampNat 0 4095 e.hysteresis
    persistence := clampNat 1 255 e.persistence }

def PhaseEntry.changed (w s : PhaseEntry) : List Bool :=
  [w.capacity != s.capacity, w.refill != s.refill, w.warn != s.warn, w.crit != s.crit,
   w.hysteresis != s.hysteresis, w.persistence != s.persistence]

def PhaseEntry.area (e : PhaseEntry) : List Byte :=
  padArea (toBytes 1 e.capacity ++ toBytes 2 e.refill ++ toBytes 3 e.warn ++ toBytes 3 e.crit
    ++ toBytes 2 e.hysteresis ++ toBytes 1 e.persistence)

/-- Calibration entries 49 to 54 have no delay field: the byte is ignored (R189, spec/08 8.2). -/
def CalEntry.read (i : Fin 54) (a : List Byte) : CalEntry :=
  { gain := areaNat a 0 2, offset := beInt ((a.drop 2).take 2), delay := if i.val < 48 then areaNat a 4 1 else 0 }

def CalEntry.store (e : CalEntry) : CalEntry :=
  { gain := clampNat 0 65535 e.gain, offset := clampInt (-2048) 2047 e.offset, delay := clampNat 0 3 e.delay }

def CalEntry.changed (w s : CalEntry) : List Bool :=
  [w.gain != s.gain, decide (w.offset ≠ s.offset), w.delay != s.delay]

def CalEntry.area (i : Fin 54) (e : CalEntry) : List Byte :=
  padArea (toBytes 2 e.gain ++ intBytes 2 e.offset ++ (if i.val < 48 then toBytes 1 e.delay else []))

/-- A group entry; a member count above 4 is refused (R146, R189), and what stands in unused outlet bytes is ignored
(DESIGN CHOICE, entry 26). -/
def GroupEntry.read (a : List Byte) : Option GroupEntry :=
  match yesNoOfByte (areaByte a 0), Verify.ofByte (areaByte a 9), HangPolicy.ofByte (areaByte a 16) with
  | some en, some ver, some pol =>
    if areaNat a 1 1 ≤ 4 then
      some { enabled := en, members := ((a.drop 2).take (areaNat a 1 1)).map BitVec.toNat,
             offDwell := areaNat a 6 2, onStagger := areaNat a 8 1, verify := ver,
             bootThreshold := areaNat a 10 3, bootWindow := areaNat a 13 2, retries := areaNat a 15 1,
             policy := pol, deadline := areaNat a 17 2, grace := areaNat a 19 2, flatBand := areaNat a 21 2,
             flatIntervals := areaNat a 23 1, budget := areaNat a 24 1, budgetWindow := areaNat a 25 1 }
    else none
  | _, _, _ => none

/-- The member list is stored as written; the numeric fields are clamped (R146). -/
def GroupEntry.store (e : GroupEntry) : GroupEntry :=
  { e with
    offDwell := clampNat 1 600 e.offDwell
    onStagger := clampNat 0 60 e.onStagger
    bootThreshold := clampNat 0 262136 e.bootThreshold
    bootWindow := clampNat 5 900 e.bootWindow
    retries := clampNat 0 3 e.retries
    deadline := clampNat 5 3600 e.deadline
    grace := clampNat 0 600 e.grace
    flatBand := clampNat 0 65535 e.flatBand
    flatIntervals := clampNat 2 16 e.flatIntervals
    budget := clampNat 0 7 e.budget
    budgetWindow := clampNat 1 24 e.budgetWindow }

def GroupEntry.changed (w s : GroupEntry) : List Bool :=
  [w.enabled != s.enabled, w.members != s.members, w.offDwell != s.offDwell, w.onStagger != s.onStagger,
   w.verify != s.verify, w.bootThreshold != s.bootThreshold, w.bootWindow != s.bootWindow,
   w.retries != s.retries, w.policy != s.policy, w.deadline != s.deadline, w.grace != s.grace,
   w.flatBand != s.flatBand, w.flatIntervals != s.flatIntervals, w.budget != s.budget,
   w.budgetWindow != s.budgetWindow]

def GroupEntry.area (e : GroupEntry) : List Byte :=
  padArea (toBytes 1 (yesNoCode e.enabled) ++ toBytes 1 e.members.length
    ++ ((e.members.map (BitVec.ofNat 8)) ++ List.replicate 4 0).take 4
    ++ toBytes 2 e.offDwell ++ toBytes 1 e.onStagger ++ toBytes 1 e.verify.code ++ toBytes 3 e.bootThreshold
    ++ toBytes 2 e.bootWindow ++ toBytes 1 e.retries ++ toBytes 1 e.policy.code ++ toBytes 2 e.deadline
    ++ toBytes 2 e.grace ++ toBytes 2 e.flatBand ++ toBytes 1 e.flatIntervals ++ toBytes 1 e.budget
    ++ toBytes 1 e.budgetWindow)

/-- A grant entry is stored as the bank its clamped number names, 0 as a skip (spec/08 8.2). -/
def grantOfNumber (n : Nat) : Option Bank := indexed 6 (clampNat 0 6 n)

def grantNumber : Option Bank → Nat
  | none => 0
  | some b => numberOf b

def SystemEntry.read (a : List Byte) : SystemEntry :=
  { intervalLength := areaNat a 0 1, grantTimeout := areaNat a 1 2 }

def SystemEntry.store (e : SystemEntry) : SystemEntry :=
  { intervalLength := clampNat 1 60 e.intervalLength, grantTimeout := clampNat 5 300 e.grantTimeout }

def SystemEntry.changed (w s : SystemEntry) : List Bool :=
  [w.intervalLength != s.intervalLength, w.grantTimeout != s.grantTimeout]

def SystemEntry.area (e : SystemEntry) : List Byte :=
  padArea (toBytes 1 e.intervalLength ++ toBytes 2 e.grantTimeout)

/-- The member outlets a list of written numbers names (06 6.1; a committed list names outlets 1 to 48 only, R148). -/
def memberOutlets (e : GroupEntry) : List Outlet := e.members.filterMap (indexed 48)

/-! ## Lane cells (spec/12 12.2) -/

/-- The raw set of a SAMPLE cell's 23 bytes. -/
def sampleOf (bytes : List Byte) : SampleCell :=
  { seq := areaByte bytes 1
    set := { volt := BitVec.ofNat 16 (areaNat bytes 2 2)
             cur := Vector.ofFn fun p => BitVec.ofNat 16 (areaNat bytes (4 + 2 * p.val) 2)
             closed := areaByte bytes 20
             load := areaByte bytes 21 } }

/-- The bytes of a RELAY cell. -/
def RelayCell.bytes (c : RelayCell) : List Byte :=
  sealCell ([Config.kindRelay] ++ toBytes 1 (numberOf c.pos) ++ toBytes 1 c.action.code ++ [c.at8])

/-- The bytes of an INDICATE cell: two bits per position, position 1 in the two most significant bits. -/
def indicateBytes (modes : Vector Mode 8) : List Byte :=
  sealCell ([Config.kindIndicate] ++ toBytes 2 (modes.toList.foldl (fun acc m => acc * 4 + m.code) 0))

end Sys2Proof.Machine
end

