-- ==== Sys2Proof/Machine/Flags.lean ====
section
/-! DEFINITION. Machine/Flags.lean: what the part computes from its state and does not hold: HOLD_OUT, the summary flags
of STATUS, an outlet's group, a group's derived power state, the modes to be shown. -/

namespace Sys2Proof.Machine

/-- HOLD_OUT is asserted while the command FIFO holds 3 or more cells (R159). -/
def State.holdOut (s : State) : Bool := decide (Config.holdOutFill ≤ s.link0.fifo.length)

def State.isUp (s : State) (b : Bank) : Bool := s.lanes[b].link == .up

def State.inSafe (s : State) : Bool := s.safe.cause.isSome

/-- The members of a group, in the order of its active list (spec/06 6.1). -/
def State.members (s : State) (g : Group) : List Outlet := memberOutlets s.groupTable.active[g]

/-- An outlet's group is the group whose active member list names it (spec/06 6.1). -/
def State.groupOf (s : State) (o : Outlet) : Option Group :=
  allGroups.find? fun g => decide (o ∈ s.members g)

/-- The outlet's group has an operation. -/
def State.groupBusy (s : State) (o : Outlet) : Bool :=
  match s.groupOf o with
  | none => false
  | some g => s.groups[g].op != .idle

/-- An outlet on its bank's shed stack is shed (spec/03 3.7). -/
def State.isShed (s : State) (o : Outlet) : Bool := decide (o ∈ s.sheds[bankOf o].stack)

def RelayState.faulted : RelayState → Bool
  | .faultOpen => true
  | .faultWelded => true
  | .unknown => false
  | .off => false
  | .on => false
  | .closing => false
  | .opening => false

/-- A member counts as on (R103). -/
def State.countsOn (s : State) (o : Outlet) : Bool := s.relays[o].state == .on && !s.isShed o

/-- A member counts as off (R103). -/
def State.countsOff (s : State) (o : Outlet) : Bool :=
  s.isShed o || s.relays[o].state == .off || s.relays[o].state.faulted

/-- Derived power state of a group (R103). -/
def State.power (s : State) (g : Group) : PowerState :=
  if (s.members g).all s.countsOff then .allOff
  else if (s.members g).all s.countsOn then .allOn
  else .partly

/-- The condition under which AUTO shows BLINK (R80). -/
def State.blinks (s : State) (o : Outlet) : Bool :=
  s.relays[o].state == .closing || s.relays[o].state == .opening || s.relays[o].state.faulted
    || s.isShed o || s.groupBusy o

/-- The mode an outlet's indicator is to show (R80). -/
def State.modeOf (s : State) (o : Outlet) : Mode :=
  match s.outletTable.active[o].indicator with
  | .on => .on
  | .blink => .blink
  | .off => .off
  | .auto => if s.blinks o then .blink else if s.relays[o].state == .on then .on else .off

/-- The eight modes of a bank (R81). -/
def State.modesOf (s : State) (b : Bank) : Vector Mode 8 := Vector.ofFn fun p => s.modeOf (outletAt b p)

/-- Summary flags of STATUS (R165). -/
def State.anyRelayFault (s : State) : Bool := allOutlets.any fun o => s.relays[o].state.faulted
def State.anyNotUp (s : State) : Bool := allBanks.any fun b => !s.isUp b
def State.anyCritical (s : State) : Bool :=
  (allOutlets.any fun o => s.outletLimits[o].level == .critical)
    || (allBanks.any fun b => s.bankLimits[b].level == .critical)
    || (allPhases.any fun p => s.phaseLimits[p].level == .critical)
def State.anyLockout (s : State) : Bool := allGroups.any fun g => s.monitors[g].state == .lockedOut
def State.anyLinkError (s : State) : Bool :=
  !s.link0.errors.kinds.isEmpty || allBanks.any fun b => !s.lanes[b].errors.kinds.isEmpty

/-- Free response slots: 8 less those reserved and filled (spec/09 9.1). -/
def Link0.freeSlots (l : Link0) : Nat := Config.responseSlots - (l.reserved.length + l.filled.length)

end Sys2Proof.Machine
end

