-- ==== Sys2Proof/Machine/Formats.lean ====
section
/-! DEFINITION. Machine/Formats.lean: the bytes of every upstream cell: responses, notices and records (R189 to R191,
spec/12 12.3 to 12.5). Readings of R190 that the spec leaves open are entries 11 and 12. -/

namespace Sys2Proof.Machine

def flagByte (b : Bool) : List Byte := toBytes 1 (if b then 1 else 0)

/-- The bytes of a field that may be absent: zeros of its width then (R189). -/
def optBytes {α : Type} (width : Nat) (f : α → List Byte) : Option α → List Byte
  | none => List.replicate width 0
  | some a => f a

/-- `n` little-end-first bytes of a bit mask. -/
def maskBytes : Nat → Nat → List Byte
  | 0, _ => []
  | n + 1, m => BitVec.ofNat 8 m :: maskBytes n (m / 256)

/-- Presence bytes (R190): one bit per field or item that may be absent, from the least significant bit of the first
byte upward, in as few bytes as hold them. -/
def presence (bits : List Bool) : List Byte := maskBytes ((bits.length + 7) / 8) (maskOf bits)

/-- A list of variable length: a count byte and its elements (R190). -/
def countedBytes {α : Type} (f : α → List Byte) (l : List α) : List Byte := toBytes 1 l.length ++ l.flatMap f

def outletByte (o : Outlet) : List Byte := toBytes 1 (numberOf o)

/-- A fault detail, 0 when absent (R189). -/
def faultByte (d : Option FaultDetail) : List Byte := toBytes 1 (match d with | none => 0 | some d => d.code)

/-- An operation reason, 0 when absent (R189). -/
def reasonByte (r : Option OpReason) : List Byte := toBytes 1 (match r with | none => 0 | some r => r.code)

/-- Reported Irms in mA (R33): 2 bytes for an outlet, 3 for a bank or phase. -/
def milliAmps (code : Nat) : Nat := code * 2

/-- The fields of an operation record under R190: in a READ_GROUP answer and a GROUP_DONE detail. -/
def OpRecord.fields (r : OpRecord) : List Byte :=
  toBytes 1 (numberOf r.group) ++ toBytes 1 r.kind.code ++ toBytes 1 r.cause.code ++ toBytes 1 r.result.code
    ++ reasonByte r.reason ++ wordBytes r.start ++ wordBytes r.stop ++ toBytes 1 r.retries
    ++ countedBytes outletByte r.faulted

/-- A value of a power history: 3 bytes signed, 0x800000 for ABSENT (R190). -/
def historyBytes : Option Int → List Byte
  | none => [0x80, 0, 0]
  | some v => intBytes 3 v

/-! ## Answers -/

/-- READ_OUTLET (R40): the results are one item that may be absent as a whole. -/
def OutletReport.bytes (r : OutletReport) : List Byte :=
  presence [r.results.isSome] ++ toBytes 1 r.link.code
    ++ optBytes 27 (fun x : BankResult × Nat × OutletResult =>
        toBytes 1 x.1.kind.code ++ toBytes 1 x.1.n ++ wordBytes x.1.last ++ wordBytes x.1.time
          ++ toBytes 2 (roundDivNat x.1.vrms 4) ++ toBytes 3 (milliAmps x.1.irms) ++ toBytes 2 x.2.1
          ++ flagByte x.1.overRange ++ toBytes 2 (milliAmps x.2.2.irms) ++ intBytes 3 x.2.2.power
          ++ intBytes 2 x.2.2.pf ++ flagByte x.2.2.overRange ++ flagByte x.2.2.creep) r.results
    ++ toBytes 1 r.relay.code ++ faultByte r.detail ++ toBytes 1 r.level.code ++ flagByte r.loadLost
    ++ toBytes 4 r.energy

def MemberReport.bytes (m : MemberReport) : List Byte :=
  toBytes 1 m.relay.code ++ flagByte m.shed ++ toBytes 1 m.progress.code

/-- READ_GROUP (R124, R143): the member list carries the count, the members' states follow without another; an absent
last operation record is 15 zero bytes (DESIGN CHOICE, entry 27). -/
def GroupReport.bytes (r : GroupReport) : List Byte :=
  presence [r.kind.isSome, r.cause.isSome, r.passCause.isSome, r.turn.isSome, r.timer.isSome,
            r.monitorTimer.isSome, r.budgetEnd.isSome, r.lastToken.isSome, r.lastRecord.isSome]
    ++ flagByte r.enabled ++ countedBytes outletByte (r.members.map (·.outlet))
    ++ r.members.flatMap MemberReport.bytes
    ++ toBytes 1 r.power.code ++ toBytes 1 r.op.code
    ++ optBytes 1 (fun k : OpKind => toBytes 1 k.code) r.kind
    ++ optBytes 1 (fun k : OpCause => toBytes 1 k.code) r.cause
    ++ optBytes 1 (fun k : PassCause => toBytes 1 k.code) r.passCause
    ++ toBytes 1 r.retry ++ optBytes 1 outletByte r.turn
    ++ flagByte r.repower ++ flagByte r.cancel
    ++ optBytes 5 (fun t : OpTimer × Uptime => toBytes 1 t.1.code ++ wordBytes t.2) r.timer
    ++ countedBytes outletByte r.faulted
    ++ toBytes 1 r.monitor.code
    ++ optBytes 5 (fun t : Uptime × Bool => wordBytes t.1 ++ flagByte t.2) r.monitorTimer
    ++ toBytes 1 r.busy ++ toBytes 1 r.budget ++ optBytes 4 wordBytes r.budgetEnd ++ optBytes 4 wordBytes r.lastToken
    ++ optBytes 15 OpRecord.fields r.lastRecord
    ++ countedBytes historyBytes r.history

/-- STATUS (R165). -/
def StatusReport.bytes (r : StatusReport) : List Byte :=
  presence [r.safe.isSome] ++ flagByte r.safe.isSome ++ optBytes 1 (fun c : SafeCause => toBytes 1 c.code) r.safe
    ++ r.links.toList.flatMap (fun l => toBytes 1 l.code)
    ++ flagByte r.anyRelayFault ++ flagByte r.anyNotUp ++ flagByte r.anyCritical ++ flagByte r.anyLockout
    ++ flagByte r.anyLinkError ++ toBytes 1 r.pendingCount ++ flagByte r.overflow
    ++ r.tables.flatMap (fun t => toBytes 1 t.code) ++ flagByte r.calLock ++ wordBytes r.uptime
    ++ wordBytes r.interval ++ toBytes 1 r.cause.code

/-- The capture header (spec/12 12.5). -/
def CaptureHeader.bytes (h : CaptureHeader) : List Byte :=
  optBytes 2 (fun o => outletByte o ++ toBytes 1 (numberOf (bankOf o))) h.outlet
    ++ optBytes 1 (fun r : CaptureResult => toBytes 1 r.code) h.result
    ++ optBytes 1 (fun k : WindowKind => toBytes 1 k.code) h.kind
    ++ toBytes 1 h.n ++ optBytes 4 wordBytes h.first
    ++ optBytes 8 (fun s : BitVec 32 × Uptime => wordBytes s.1 ++ wordBytes s.2) h.stamp

/-- Presence bits 1 to 4 of a capture header. -/
def CaptureHeader.bits (h : CaptureHeader) : List Bool :=
  [h.outlet.isSome, h.result.isSome, h.kind.isSome, h.first.isSome]

/-- A capture pair, 5 bytes (spec/12 12.5). -/
def Pair.bytes (p : Pair) : List Byte := intBytes 2 p.v ++ intBytes 2 p.i ++ flagByte p.substituted

/-- The flag byte of a record: bit 0 the triggered mark, then the presence bits (spec/12 12.4). -/
def flagsOf (triggered : Bool) (bits : List Bool) : List Byte := toBytes 1 (maskOf (triggered :: bits))

/-- The answer fields of a response (spec/12 12.3). A READ_CAPTURE answer carries the header bytes of 12.5 without
presence bytes: the unit is FULL then, and a COMPLETE header has no absent field. -/
def Answer.bytes : Answer → List Byte
  | .empty => []
  | .waiting n => toBytes 1 n
  | .offending none => [0xFF]
  | .offending (some i) => toBytes 1 i
  | .entry w g fields => flagByte w ++ toBytes 1 g ++ fields
  | .clamped mask => toBytes 4 mask
  | .outlet r => r.bytes
  | .group r => r.bytes
  | .capture h ps => h.bytes ++ toBytes 1 ps.length ++ ps.flatMap Pair.bytes
  | .status r => r.bytes

/-- An upstream cell: kind, tag, length, payload, CRC-8 (spec/12 12.3). -/
def upstreamCell (kind tag : Byte) (payload : List Byte) : List Byte :=
  sealCell ([kind, tag] ++ toBytes 1 payload.length ++ payload)

/-- RESPONSE cell: the command kind as received, the status code, the answer fields (spec/12 12.3). -/
def Response.bytes (r : Response) : List Byte :=
  upstreamCell 0x80 r.tag ([r.kind] ++ toBytes 1 r.status.code ++ r.answer.bytes)

/-! ## Details of events (R190) -/

def ShedReport.bytes : ShedReport → List Byte
  | .shedOutlet o => presence [true] ++ toBytes 1 0 ++ outletByte o
  | .exhausted => presence [false] ++ toBytes 1 1 ++ [0]
  | .restored o => presence [true] ++ toBytes 1 2 ++ outletByte o

/-- Outcome, then the spread, the present count and the engine's answer, each present under its own outcome. -/
def BusyReport.bytes : BusyReport → List Byte × List Byte
  | .notFlat spread => (presence [true, false, false], toBytes 1 0 ++ toBytes 3 spread ++ [0] ++ [0])
  | .insufficient n => (presence [false, true, false], toBytes 1 1 ++ [0, 0, 0] ++ toBytes 1 n ++ [0])
  | .notAccepted a => (presence [false, false, true], toBytes 1 2 ++ [0, 0, 0] ++ [0] ++ toBytes 1 a.code)

/-- The group number of a GROUP origin (R99). -/
def Origin.groupNumber : Origin → Option Nat
  | .group g => some (numberOf g)
  | _ => none

/-- The outlet action record as the detail of a SWITCH_DONE notice (R99, R190). -/
def ActionRecord.detailBytes (r : ActionRecord) : List Byte :=
  presence [(r.request.bind (·.2.1.groupNumber)).isSome, r.issue.isSome, r.issue.isSome]
    ++ outletByte r.outlet ++ toBytes 1 (numberOf (bankOf r.outlet))
    ++ optBytes 2 (fun q : Action × Origin × Uptime => toBytes 1 q.1.code ++ toBytes 1 q.2.1.code) r.request
    ++ optBytes 1 (toBytes 1) (r.request.bind (·.2.1.groupNumber))
    ++ optBytes 1 (fun x : Completion × Uptime => toBytes 1 x.1.code) r.result
    ++ optBytes 4 (fun q : Action × Origin × Uptime => wordBytes q.2.2) r.request
    ++ optBytes 8 (fun x : Uptime × SetNo => wordBytes x.1 ++ wordBytes x.2) r.issue
    ++ optBytes 4 (fun x : Completion × Uptime => wordBytes x.2) r.result
    ++ toBytes 1 r.relay.code ++ faultByte r.detail

/-- The capture header as the detail of CAPTURE_DONE (spec/11 11.4, R190). -/
def CaptureHeader.detailBytes (h : CaptureHeader) : List Byte :=
  presence [h.kind.isSome, h.first.isSome]
    ++ optBytes 2 (fun o => outletByte o ++ toBytes 1 (numberOf (bankOf o))) h.outlet
    ++ optBytes 1 (fun r : CaptureResult => toBytes 1 r.code) h.result
    ++ optBytes 1 (fun k : WindowKind => toBytes 1 k.code) h.kind
    ++ toBytes 1 h.n ++ optBytes 4 wordBytes h.first
    ++ optBytes 8 (fun s : BitVec 32 × Uptime => wordBytes s.1 ++ wordBytes s.2) h.stamp

/-- The width of the mA value of a limit event: 2 bytes for an outlet, 3 for a bank or a phase (R50, R190). -/
def limitWidth : EventKind → Nat
  | .outletLimit => 2
  | _ => 3

/-- The detail of an event of kind `k` (R190). The spread of HANG_DECLARED is that of a FLAT outcome, at most the flat
band (R132), so it has the band's 2 bytes. -/
def Detail.bytes (k : EventKind) : Detail → List Byte
  | .safeEntered cause withdrawn queued merged replaced followUp =>
    toBytes 1 cause.code ++ toBytes 1 withdrawn ++ toBytes 1 queued ++ toBytes 1 merged ++ toBytes 1 replaced
      ++ toBytes 1 followUp
  | .overflow kind source => toBytes 1 kind.number ++ toBytes 1 source
  | .bankLost last => wordBytes last
  | .relayFault st d finding closed load irms =>
    presence [closed.isSome, irms.isSome] ++ toBytes 1 st.code ++ faultByte d ++ toBytes 1 finding.code
      ++ optBytes 1 flagByte closed ++ flagByte load ++ optBytes 2 (toBytes 2) irms
  | .limit old new mA => toBytes 1 old.code ++ toBytes 1 new.code ++ toBytes (limitWidth k) mA
  | .hangDeclaredNotify busy =>
    presence [false, false] ++ toBytes 1 0 ++ toBytes 1 busy ++ [0] ++ [0, 0, 0, 0] ++ [0, 0]
  | .hangDeclaredCycle busy budget windowEnd spread =>
    presence [true, spread.isSome] ++ toBytes 1 1 ++ toBytes 1 busy ++ toBytes 1 budget ++ wordBytes windowEnd
      ++ optBytes 2 (toBytes 2) spread
  | .lockout budget count windowEnd => toBytes 1 budget ++ toBytes 1 count ++ wordBytes windowEnd
  | .bankUp left => toBytes 1 left.code
  | .bankAbsent => []
  | .shed r => r.bytes
  | .linkError kind first captured =>
    toBytes 1 kind.code ++ toBytes 1 first.code ++ countedBytes (fun b => [b]) captured
  | .groupDone r => r.fields
  | .hangSuspect deadline lastToken =>
    presence [lastToken.isSome] ++ toBytes 2 deadline ++ optBytes 4 wordBytes lastToken
  | .hangBusy r busy => r.bytes.1 ++ r.bytes.2 ++ toBytes 1 busy
  | .loadLost mA low => toBytes 2 mA ++ toBytes 2 low
  | .reconcile old new cause => toBytes 1 old.code ++ toBytes 1 new.code ++ toBytes 1 cause.code
  | .hangCleared left lastToken =>
    toBytes 1 left.code ++ wordBytes lastToken
  | .tableApplied count => toBytes 1 count
  | .captureDone h => h.detailBytes
  | .streamEnd kind source count =>
    toBytes 1 kind.number ++ toBytes 1 (match source with | none => 0xFF | some n => n) ++ toBytes 3 count
  | .intervalClosed h =>
    wordBytes h.number ++ wordBytes h.time ++ toBytes 1 h.length ++ toBytes 1 (numberOf h.bank)
      ++ toBytes 1 h.link.code
  | .switchDone r => r.detailBytes

/-- NOTICE cell (spec/12 12.4); its tag is 0 (R189). -/
def Notice.bytes (n : Notice) : List Byte :=
  upstreamCell 0x81 0 (toBytes 1 n.kind.number ++ toBytes 1 n.source ++ toBytes 1 n.level ++ toBytes 1 n.count
    ++ wordBytes n.time ++ n.detail.bytes n.kind)

/-! ## Records (spec/12 12.4, 12.5) -/

/-- An outlet block of an interval record: 0xFFFF and 0x800000 mark ABSENT values. -/
def OutletBlock.bytes (b : OutletBlock) : List Byte :=
  toBytes 1 (numberOf b.pos)
    ++ (match b.irms with | none => [0xFF, 0xFF] | some x => toBytes 2 x)
    ++ historyBytes b.power
    ++ toBytes 2 b.maxIrms ++ toBytes 2 b.valid ++ toBytes 2 b.estimated
    ++ toBytes 1 (b.relay.code + (if b.reverse then 64 else 0) + (if b.overRange then 128 else 0))
    ++ toBytes 4 b.energy

/-- The kind byte of a record cell. -/
def RecordBody.kind : RecordBody → Byte
  | .interval _ _ _ => 0x82
  | .action _ => 0x83
  | .operation _ => 0x84
  | .capture _ => 0x85

/-- The presence bits of a record's flag byte, in the order its table lists its optional fields. -/
def RecordBody.bits : RecordBody → List Bool
  | .interval _ _ _ => []
  | .action r => [r.request.isSome, r.result.isSome, r.issue.isSome]
  | .operation r => [r.isSome]
  | .capture h => h.bits

/-- The record's bytes from offset 5. -/
def RecordBody.fields : RecordBody → List Byte
  | .interval part h blocks =>
    toBytes 1 part ++ wordBytes h.number ++ wordBytes h.time ++ toBytes 1 h.length ++ toBytes 1 (numberOf h.bank)
      ++ toBytes 1 h.link.code ++ blocks.flatMap OutletBlock.bytes
  | .action r =>
    outletByte r.outlet ++ toBytes 1 (numberOf (bankOf r.outlet))
      ++ optBytes 2 (fun q : Action × Origin × Uptime => toBytes 1 q.1.code ++ toBytes 1 q.2.1.code) r.request
      ++ toBytes 1 ((r.request.bind (·.2.1.groupNumber)).getD 0)
      ++ optBytes 1 (fun x : Completion × Uptime => toBytes 1 x.1.code) r.result
      ++ optBytes 4 (fun q : Action × Origin × Uptime => wordBytes q.2.2) r.request
      ++ optBytes 8 (fun x : Uptime × SetNo => wordBytes x.1 ++ wordBytes x.2) r.issue
      ++ optBytes 4 (fun x : Completion × Uptime => wordBytes x.2) r.result
      ++ toBytes 1 r.relay.code ++ faultByte r.detail
  | .operation none => List.replicate 19 0
  | .operation (some r) =>
    toBytes 1 (numberOf r.group) ++ toBytes 1 r.kind.code ++ toBytes 1 r.cause.code ++ toBytes 1 r.result.code
      ++ reasonByte r.reason ++ wordBytes r.start ++ wordBytes r.stop ++ toBytes 1 r.retries
      ++ toBytes 1 r.faulted.length ++ (r.faulted.flatMap outletByte ++ List.replicate 4 0).take 4
  | .capture h => h.bytes

/-- A record cell as it is started, with the gap count of that moment (R164). -/
def Record.bytes (r : Record) (gap : Nat) : List Byte :=
  upstreamCell r.body.kind 0 (toBytes 1 gap ++ flagsOf r.triggered r.body.bits ++ r.body.fields)

end Sys2Proof.Machine
end

