-- ==== Sys2Proof/Machine/Ops.lean ====
section
/-! DEFINITION. Machine/Ops.lean: the named operations shared by the commands: events and notices, error records, relay
states and indicators, shed stacks and timers, the switching queue, the issue of an action, the taking of a command. -/

namespace Sys2Proof.Machine

/-- Outcome of a command. -/
abbrev Result := Host.Outcome State Fault Refusal

/-- The vector with its element at `i` changed by `f`. -/
def upd {α : Type} {n : Nat} (v : Vector α n) (i : Fin n) (f : α → α) : Vector α n := v.set i.val (f v[i]) i.isLt

/-! ## The notifier (spec/10) -/

/-- The level of a kind, which is that of its pending entries (spec/10 10.4). -/
def Notifier.levelOf (n : Notifier) (k : EventKind) : Nat := n.levels[k.index]

/-- A pending entry may be sent (R172). -/
def Notifier.eligible (n : Notifier) (e : PendingEntry) : Bool :=
  decide (n.mask < n.levelOf e.kind) || decide (n.levelOf e.kind = 7)

/-- `a` is sent before `b`: higher level, then lower kind number, then lower source number (R175). -/
def Notifier.sentBefore (n : Notifier) (a b : PendingEntry) : Bool :=
  if n.levelOf a.kind = n.levelOf b.kind then
    if a.kind.number = b.kind.number then decide (a.source < b.source) else decide (a.kind.number < b.kind.number)
  else decide (n.levelOf b.kind < n.levelOf a.kind)

/-- The overflow entry as an entry of kind PENDING_OVERFLOW, source none (R174). -/
def Overflow.entry (o : Overflow) : PendingEntry :=
  { kind := .pendingOverflow, source := 0, count := o.count, time := o.time, detail := .overflow o.kind o.source }

/-- The entries that may be sent, the overflow entry among them (R174, R175). -/
def Notifier.candidates (n : Notifier) : List PendingEntry :=
  ((n.overflow.map Overflow.entry).toList ++ n.entries).filter n.eligible

/-- The first of a list in the sending order. -/
def Notifier.first (n : Notifier) : List PendingEntry → Option PendingEntry
  | [] => none
  | e :: es =>
    match n.first es with
    | none => some e
    | some f => if n.sentBefore f e then some f else some e

def PendingEntry.hasKey (e : PendingEntry) (kind : EventKind) (source : Nat) : Bool :=
  e.kind == kind && e.source == source

/-- The notifier without an entry that is moved to the notice queue; the overflow entry becomes clear (R174, R175). -/
def Notifier.without (n : Notifier) (e : PendingEntry) : Notifier :=
  if e.kind = .pendingOverflow then { n with overflow := none }
  else { n with entries := n.entries.filter fun x => !x.hasKey e.kind e.source }

def Notifier.notice (n : Notifier) (e : PendingEntry) : Notice :=
  { kind := e.kind, source := e.source, level := n.levelOf e.kind, count := e.count, time := e.time,
    detail := e.detail }

/-- Eligible entries are moved into the notice queue while it has room, at most `fuel` of them (R175). -/
def moveNotices : Nat → Notifier × Link0 → Notifier × Link0
  | 0, x => x
  | fuel + 1, x =>
    if x.2.notices.length < Config.noticeDepth then
      match x.1.first x.1.candidates with
      | none => x
      | some e => moveNotices fuel (x.1.without e, { x.2 with notices := x.2.notices ++ [x.1.notice e] })
    else x

/-- The notifier looks for entries to move (R175): the queue has room for at most 8. -/
def fillNotices (x : Notifier × Link0) : Notifier × Link0 := moveNotices Config.noticeDepth x

/-- A dropped event is recorded in the overflow entry (R174). -/
def Overflow.record (o : Option Overflow) (now : Uptime) (e : Event) : Overflow :=
  match o with
  | none => { count := 0, time := now, kind := e.kind, source := e.source }
  | some o => { count := satSucc 255 o.count, time := now, kind := e.kind, source := e.source }

def PendingEntry.merge (p : PendingEntry) (now : Uptime) (e : Event) : PendingEntry :=
  { p with count := satSucc 255 p.count, time := now, detail := e.detail }

/-- An event is settled against the pending set (R173). -/
def Notifier.settle (n : Notifier) (now : Uptime) (e : Event) : Notifier :=
  if n.entries.any fun p => p.hasKey e.kind e.source then
    { n with entries := n.entries.map fun p => if p.hasKey e.kind e.source then p.merge now e else p }
  else if n.entries.length < Config.pendingSlots then
    { n with
      entries := n.entries ++ [{ kind := e.kind, source := e.source, count := 0, time := now, detail := e.detail }] }
  else { n with overflow := some (Overflow.record n.overflow now e) }

/-- An event that no stream takes: dropped at level 0, else offered to the pending set (R170). -/
def raiseUnbound (now : Uptime) (e : Event) (x : Notifier × Link0) : Notifier × Link0 :=
  if x.1.levelOf e.kind = 0 then x else fillNotices (x.1.settle now e, x.2)

/-- A record is queued, or discarded with the gap count raised (R164). -/
def Link0.offerRecord (l : Link0) (r : Record) : Link0 :=
  if l.records.length < Config.recordDepth then { l with records := l.records ++ [r] }
  else { l with gap := satSucc 255 l.gap }

/-- A stream's binding takes an event of this kind and source (R170). -/
def Binding.takes (b : Binding) (kind : EventKind) (source : Nat) : Bool :=
  b.kind == kind && (b.source == none || b.source == some source)

def allStreams : List Stream := List.finRange 4

/-- The stream that takes the event; no kind is bound to two streams (R176). -/
def Notifier.streamFor (n : Notifier) (kind : EventKind) (source : Nat) : Option Stream :=
  allStreams.find? fun i => match n.streams[i] with | none => false | some b => b.takes kind source

/-- A stream has produced one occurrence's record or records: they are offered to the record queue and one count is
taken; the last count unbinds the stream and raises STREAM_END (R177). -/
def streamProduces (now : Uptime) (i : Stream) (b : Binding) (records : List Record) (x : Notifier × Link0) :
    Notifier × Link0 :=
  let l := records.foldl Link0.offerRecord x.2
  if b.remaining ≤ 1 then
    raiseUnbound now
      { kind := .streamEnd, source := numberOf i, detail := .streamEnd b.kind b.source b.bound, records := [] }
      ({ x.1 with streams := upd x.1.streams i fun _ => none }, l)
  else
    ({ x.1 with streams := upd x.1.streams i fun _ => some { b with remaining := b.remaining - 1 } }, l)

/-- The notifier takes an event (R170). -/
def notify (now : Uptime) (e : Event) (x : Notifier × Link0) : Notifier × Link0 :=
  match x.1.streamFor e.kind e.source with
  | none => raiseUnbound now e x
  | some i =>
    match x.1.streams[i] with
    | none => raiseUnbound now e x
    | some b => streamProduces now i b (e.records.map fun r => { triggered := false, body := r }) x

/-- The state with its notifier and link unit changed together. -/
def State.onReports (s : State) (f : Notifier × Link0 → Notifier × Link0) : State :=
  { s with notifier := (f (s.notifier, s.link0)).1, link0 := (f (s.notifier, s.link0)).2 }

/-- An event is raised now. -/
def State.raiseEvent (s : State) (e : Event) : State := s.onReports (notify s.uptime e)

/-- An event of a kind that no stream can bind. -/
def State.raise (s : State) (kind : EventKind) (source : Nat) (detail : Detail) : State :=
  s.raiseEvent { kind := kind, source := source, detail := detail, records := [] }

/-! ## Receivers (R2, R156) -/

/-- The cell in progress once `chars` have been received. Characters that stand before a receiver's first idle gap, after
power-on, ABSENT or a BREAK, are discarded (R2, R3, R156, R157). -/
def framedCell (framing : Bool) (held chars : List LineChar) : List LineChar := if framing then held ++ chars else []

/-! ## Error records (R5, R158) -/

/-- An error enters a record: the first one is kept with its bytes, each kind once. -/
def ErrorRecord.add (r : ErrorRecord) (k : ErrorKind) (bytes : List Byte) : ErrorRecord :=
  { kinds := if k ∈ r.kinds then r.kinds else r.kinds ++ [k]
    first := if r.kinds = [] then some k else r.first
    captured := if r.kinds = [] then bytes.take 4 else r.captured }

/-- LINK_ERROR for the link numbered `link`, when the kind was not yet in the record `before` (R5). -/
def State.raiseLinkError (s : State) (link : Nat) (before after : ErrorRecord) (k : ErrorKind) : State :=
  if k ∈ before.kinds then s
  else s.raise .linkError link (.linkError k (after.first.getD k) after.captured)

/-! ## Lanes -/

def State.onLane (s : State) (b : Bank) (f : Lane → Lane) : State := { s with lanes := upd s.lanes b f }

/-- An INDICATE cell with the bank's shown modes is placed in the slot of an UP lane (R9, R16, R18). -/
def State.placeIndicate (s : State) (b : Bank) : State :=
  if s.isUp b then s.onLane b fun l => { l with indicator := some s.shown[b] } else s

/-- The shown modes of a bank are computed again; a change is recorded, and sent if the lane is UP (R81, R17). -/
def State.refreshModes (s : State) (b : Bank) : State :=
  if s.modesOf b = s.shown[b] then s
  else State.placeIndicate { s with shown := upd s.shown b fun _ => s.modesOf b } b

/-- The banks of some outlets have their modes computed again. -/
def State.refreshModesOf (s : State) (outlets : List Outlet) : State :=
  allBanks.foldl (fun s b => if outlets.any (fun o => bankOf o == b) then s.refreshModes b else s) s

/-! ## Monitors: what other blocks hand them -/

def State.onMonitor (s : State) (g : Group) (f : Monitor → Monitor) : State :=
  { s with monitors := upd s.monitors g f }

/-- Timers stopped and busy-retry count 0, in state `st`. -/
def Monitor.enter (m : Monitor) (st : MonitorState) : Monitor :=
  { m with state := st, deadline := none, grace := none, busy := 0 }

/-- The group has become ALL_OFF (R139). -/
def Monitor.allOff (m : Monitor) : Monitor :=
  match m.state with
  | .disarmed => m.enter .disarmed
  | .armed => m.enter .disarmed
  | .suspect => m.enter .disarmed
  | .declared => m.enter .disarmed
  | .lockedOut => m.enter .disarmed
  | .cycling => m
  | .offline => m

/-- The monitor of `g` is told when the group's derived power state has become ALL_OFF since `before` (R103, R139). -/
def State.notePower (s before : State) (g : Group) : State :=
  if s.power g = .allOff ∧ before.power g ≠ .allOff then s.onMonitor g Monitor.allOff else s

/-- The group of an outlet whose relay state or shed mark has changed is looked at. -/
def State.notePowerOf (s before : State) (o : Outlet) : State :=
  match s.groupOf o with
  | none => s
  | some g => s.notePower before g

/-! ## Relay states -/

def State.onRelay (s : State) (o : Outlet) (f : Relay → Relay) : State := { s with relays := upd s.relays o f }

/-- A relay record changes; its readers follow: the shown modes (R80) and the group's derived power state (R103). -/
def State.setRelay (s : State) (o : Outlet) (f : Relay → Relay) : State :=
  ((s.onRelay o f).refreshModes (bankOf o)).notePowerOf s o

/-! ## Shed units (R56, R59) -/

def State.onShed (s : State) (b : Bank) (f : ShedUnit → ShedUnit) : State := { s with sheds := upd s.sheds b f }

/-- The conditions under which a shed timer runs (R56). -/
def State.shedRuns (s : State) (b : Bank) : Bool :=
  s.bankLimits[b].level == .critical && s.isUp b && s.sheds[b].shedFlight.isNone

/-- The conditions under which a restore timer runs (R59). -/
def State.restoreRuns (s : State) (b : Bank) : Bool :=
  s.bankLimits[b].level == .normal && s.isUp b && !s.sheds[b].stack.isEmpty && s.sheds[b].restoreFlight.isNone
    && !s.inSafe

/-- A timer that runs while `cond` holds: it starts from zero when the condition becomes true. -/
def runWhile (cond : Bool) (now : Uptime) (t : Timer) : Timer :=
  if cond then (match t with | none => some now | some u => some u) else none

/-- The shed and restore timers of a bank follow their conditions (R56, R59). -/
def State.refreshSheds (s : State) (b : Bank) : State :=
  s.onShed b fun u =>
    { u with shedTimer := runWhile (s.shedRuns b) s.uptime u.shedTimer
             restoreTimer := runWhile (s.restoreRuns b) s.uptime u.restoreTimer }

/-- The stack of outlet `o`'s bank becomes `f` of itself: modes, derived power state and timers follow. -/
def State.setStack (s : State) (o : Outlet) (f : List Outlet → List Outlet) : State :=
  State.refreshSheds
    (((s.onShed (bankOf o) fun u => { u with stack := f u.stack }).refreshModes (bankOf o)).notePowerOf s o)
    (bankOf o)

def State.pushShed (s : State) (o : Outlet) : State := s.setStack o fun st => o :: st
def State.unshed (s : State) (o : Outlet) : State :=
  if s.isShed o then s.setStack o fun st => st.filter (· != o) else s

/-- The entry of `o` has completed or was removed: a shed or restore in flight of it ends (R58, R60). -/
def State.endFlights (s : State) (o : Outlet) : State :=
  (s.onShed (bankOf o) fun u =>
    { u with shedFlight := if u.shedFlight = some o then none else u.shedFlight
             restoreFlight := if u.restoreFlight = some o then none else u.restoreFlight }).refreshSheds (bankOf o)

/-! ## The switching queue (R84 to R87) -/

def State.entryOf (s : State) (o : Outlet) : Option QueueEntry := s.queue.find? fun e => e.outlet == o

def QueueEntry.isWaiting (e : QueueEntry) : Bool :=
  match e.state with
  | .waiting => true
  | .issued _ => false

def State.isIssued (s : State) (o : Outlet) : Bool :=
  match s.entryOf o with
  | none => false
  | some e => !e.isWaiting

def State.dropEntry (s : State) (o : Outlet) : State := { s with queue := s.queue.filter fun e => e.outlet != o }

def State.joinQueue (s : State) (o : Outlet) (a : Action) (r : Origin) : State :=
  { s with
    queue := s.queue ++ [{ outlet := o, action := a, origin := r, enqueued := s.uptime, state := .waiting }] }

/-- A request is put to the queue (R85); a replaced entry leaves without completion (R86). -/
def State.request (s : State) (o : Outlet) (a : Action) (r : Origin) : QueueAnswer × State :=
  match s.entryOf o with
  | none => (.queued, s.joinQueue o a r)
  | some e =>
    match e.state with
    | .issued _ => (.refusedBusy, s)
    | .waiting =>
      if e.action = a then (.merged, s)
      else if e.origin.rank < r.rank then (.refusedRank, s)
      else (.replaced, ((s.dropEntry o).endFlights o).joinQueue o a r)

/-- The queue took the request into an entry (QUEUED, MERGED or REPLACED). -/
def QueueAnswer.accepted : QueueAnswer → Bool
  | .queued => true
  | .merged => true
  | .replaced => true
  | .refusedRank => false
  | .refusedBusy => false

/-- WAITING entries that satisfy `p` are removed without completion, and their requesters are told (R87). -/
def State.withdraw (s : State) (p : QueueEntry → Bool) : State :=
  (s.queue.filter fun e => e.isWaiting && p e).foldl (fun s e => s.endFlights e.outlet)
    { s with queue := s.queue.filter fun e => !(e.isWaiting && p e) }

/-! ## Issuing an action (R67 to R69) -/

/-- The first prediction whose actuate-at lies 4 or more sets after the newest set (R68): with `gone` sets since the
last crossing, the smallest j ≥ 1 with j × L − od + ofs − gone ≥ 4. -/
def predictionIndex (len : Nat) (od ofs gone : Int) : Int :=
  max 1 (-((-(od - ofs + gone + Config.leadSets)) / (len : Int)))

/-- The actuate-at set of an action issued now (R68, R69). -/
def State.actuateAt (s : State) (o : Outlet) (a : Action) : SetNo :=
  let m := s.meters[bankOf o]
  let now := s.lanes[bankOf o].counter
  let e := s.outletTable.active[o]
  let od : Int := e.operateDelay
  let ofs : Int := match a with | .opens => e.offOffset | .close => 0
  let untimed := now + BitVec.ofNat 32 Config.leadSets
  match m.crossing, m.winLen, m.lastKind with
  | some c, some len, some kind =>
    match kind with
    | .noLine => untimed
    | .valid => c + BitVec.ofInt 32 (predictionIndex len od ofs (setDiff now c) * len - od + ofs)
    | .invalid => c + BitVec.ofInt 32 (predictionIndex len od ofs (setDiff now c) * len - od + ofs)
  | _, _, _ => untimed

/-- The relay state while an action is in flight (R67). -/
def Action.moving : Action → RelayState
  | .close => .closing
  | .opens => .opening

/-- What the relay block does with an issued action (R67). -/
def State.issueRelay (s : State) (o : Outlet) (a : Action) : State :=
  let act := s.actuateAt o a
  ((s.setRelay o fun _ =>
    { state := a.moving, detail := none, weld := 0, dead := 0
      flight := some { action := a, actuateAt := act
                       verifyAt := act + BitVec.ofNat 32 Config.verifyLag } })).onLane (bankOf o)
    fun l => { l with relayList := l.relayList ++ [{ pos := posOf o, action := a, at8 := act.truncate 8 }] }

/-- An entry becomes ISSUED and its action is handed to the relay block (R89, R92). -/
def State.issue (s : State) (o : Outlet) (a : Action) : State :=
  State.issueRelay
    { s with queue := s.queue.map fun e => if e.outlet = o then { e with state := .issued s.uptime } else e } o a

/-! ## Taking a command (R160, R161) -/

/-- What a command's owner answers: nothing yet for a held COMMIT. -/
structure Reply where
  answer : Option (Status × Answer)
  state : State

/-- An answer with no fields; BAD_ARG carries 0xFF for "no offending index" (spec/12 12.3). -/
def State.reply (s : State) (st : Status) : Reply :=
  { answer := some (st, match st with | .badArg => .offending none | _ => .empty), state := s }

def State.replyWith (s : State) (st : Status) (a : Answer) : Reply := { answer := some (st, a), state := s }

/-- The cell can be taken now (R160): no RESTART is pending, a slot is free if one is needed, and the cell is the head
of the command FIFO. With the FIFO empty the cell arrives and is taken in one step (DESIGN CHOICE, entry 4). -/
def State.canTake (s : State) (c : CommandCell) (needsSlot : Bool) : Bool :=
  s.link0.restart.isNone && (!needsSlot || decide (0 < s.link0.freeSlots))
    && (match s.link0.fifo with | [] => true | h :: _ => h == c)

def State.onLink0 (s : State) (f : Link0 → Link0) : State := { s with link0 := f s.link0 }

/-- The head cell leaves the command FIFO. -/
def State.popCommand (s : State) : State := s.onLink0 fun l => { l with fifo := l.fifo.tail }

/-- The answer fills the command's slot, or the slot stays reserved (R161, R162). -/
def State.fillSlot (s : State) (tag kind : Byte) : Option (Status × Answer) → State
  | none => s.onLink0 fun l => { l with reserved := l.reserved ++ [{ tag := tag, kind := kind }] }
  | some (st, a) =>
    s.onLink0 fun l => { l with filled := l.filled ++ [{ tag := tag, kind := kind, status := st, answer := a }] }

/-- The owner's reply to a taken command: BAD_ARG for a payload not of the kind's length (R161). -/
def State.replyTo (s : State) (payload : List Byte) (len : Nat) (run : State → Reply) : Reply :=
  if payload.length = len then run s else s.reply .badArg

/-- A command cell of kind `kind` is taken and answered by its owner `run`. A cell that cannot be taken now is not:
nothing changes (entry 2). -/
def State.take (s : State) (kind tag : Byte) (payload : List Byte) (len : Nat) (run : State → Reply) : Result :=
  if s.canTake { kind := kind, tag := tag, payload := payload } true then
    .next ((s.popCommand.replyTo payload len run).state.fillSlot tag kind (s.popCommand.replyTo payload len run).answer)
  else .next s

/-- Byte `i` of a payload as a number. -/
def arg (payload : List Byte) (i : Nat) : Nat := (payload.getD i 0).toNat

end Sys2Proof.Machine
end

