-- ==== Sys2Proof/Machine/Tables.lean ====
section
/-! DEFINITION. Machine/Tables.lean: the points at which committed table entries apply (R149 to R153), with what the
blocks do when an entry applies to them (R90, R96, R126, R140). -/

namespace Sys2Proof.Machine

/-! ## Outlet entries (R151) -/

def State.applyOutlet (s : State) (o : Outlet) : State :=
  State.refreshModes
    { s with outletTable :=
        { s.outletTable with active := upd s.outletTable.active o fun _ => s.outletTable.pending[o] } } (bankOf o)

/-- A DEFERRED table whose waiting set is empty (R153). -/
def Staged.endDeferral {α : Type} {n m : Nat} (t : Staged α n m) : Staged α n m :=
  { t with state := if t.written then .dirty else .clean, written := false }

def State.raiseApplied (s : State) (t : TableId) (count : Nat) : State :=
  s.raise .tableApplied t.code (.tableApplied count)

/-- The outlet's queue entry has completed: its deferred table entry applies (R151, R153). -/
def State.releaseOutlet (s : State) (o : Outlet) : State :=
  if o ∈ s.outletTable.waiting then
    let t := (s.applyOutlet o).outletTable
    let rest := t.waiting.filter (· != o)
    let s' : State := { s.applyOutlet o with outletTable := { t with waiting := rest } }
    if rest = [] then
      State.raiseApplied { s' with outletTable := s'.outletTable.endDeferral } .outlet t.waited
    else s'
  else s

/-! ## Bank and calibration parts (R30, R150) -/

/-- The calibration entry of a bank's voltage: 48 + b (spec/02 2.2). -/
def voltEntry (b : Bank) : Fin 54 := ⟨48 + b.val, by omega⟩

/-- The calibration entry of an outlet's current (spec/02 2.2). -/
def currentEntry (o : Outlet) : Fin 54 := ⟨o.val, by omega⟩

/-- The calibration entries of bank `b`: its eight outlets and its voltage (R150). -/
def calEntriesOf (b : Bank) : List (Fin 54) := (outletsOf b).map currentEntry ++ [voltEntry b]

/-- The entries at `is` are copied from the pending to the active copy. -/
def Staged.copyEntries {α : Type} {n m : Nat} (t : Staged α n m) (is : List (Fin n)) : Staged α n m :=
  { t with active := is.foldl (fun v i => upd v i fun _ => t.pending[i]) t.active }

/-- The held COMMIT of a table that has become CLEAN is answered OK: its slot is filled (R150, R162). -/
def State.fillHeld (s : State) (tag : Option Byte) : State :=
  match tag with
  | none => s
  | some tag =>
    s.onLink0 fun l =>
      { l with reserved := l.reserved.erase { tag := tag, kind := 0x03 }
               filled := l.filled ++ [{ tag := tag, kind := 0x03, status := .ok, answer := .empty }] }

/-- Bank `b` leaves the waiting set of a COMMITTING table as its part applies (R150). -/
def Staged.releaseBank {α : Type} {n : Nat} (t : Staged α n 6) (b : Bank) (is : List (Fin n)) : Staged α n 6 :=
  let t' := t.copyEntries is
  let rest := t.waiting.filter (· != b)
  if rest = [] then { t' with waiting := [], state := .clean, held := none } else { t' with waiting := rest }

/-- The COMMIT to answer when bank `b` leaves the waiting set: it was the last. -/
def Staged.answers {α : Type} {n : Nat} (t : Staged α n 6) (b : Bank) : Option Byte :=
  if t.waiting.filter (· != b) = [] then t.held else none

def State.releaseCal (s : State) (b : Bank) : State :=
  if b ∈ s.calTable.waiting then
    State.fillHeld { s with calTable := s.calTable.releaseBank b (calEntriesOf b) } (s.calTable.answers b)
  else s

def State.releaseBankEntry (s : State) (b : Bank) : State :=
  if b ∈ s.bankTable.waiting then
    State.fillHeld { s with bankTable := s.bankTable.releaseBank b [b] } (s.bankTable.answers b)
  else s

/-- Bank `b`'s window boundary, or its lane's entry to LOST: waiting parts apply (R30, R13), the calibration table's
first (DESIGN CHOICE, entry 7). -/
def State.boundary (s : State) (b : Bank) : State := (s.releaseCal b).releaseBankEntry b

/-! ## Phase entries (R96) -/

/-- A phase's token count and refill timer are brought into line with its new entry (R96). -/
def State.alignPhase (s : State) (p : SupplyPhase) : State :=
  let cap := s.phaseTable.active[p].capacity
  if cap < s.tokens[p] then
    { s with tokens := upd s.tokens p fun _ => cap, refill := upd s.refill p fun _ => none }
  else if s.tokens[p] = cap then { s with refill := upd s.refill p fun _ => none }
  else { s with refill := upd s.refill p fun t => match t with | none => some s.uptime | some u => some u }

/-! ## Group entries (R126, R140, R152) -/

def State.onGroup (s : State) (g : Group) (f : GroupOp → GroupOp) : State := { s with groups := upd s.groups g f }

/-- A monitor watches a group that is enabled with a policy other than NONE (R128). -/
def GroupEntry.watched (e : GroupEntry) : Bool := e.enabled && e.policy != .none

/-- What a monitor does when its group's entry applies (R140, R136). -/
def Monitor.entryApplied (m : Monitor) (old new : GroupEntry) (inSafe : Bool) : Monitor :=
  let m' :=
    if !new.watched then m.enter .offline
    else if m.state = .offline then (if inSafe then m else m.enter .disarmed)
    else if old.members ≠ new.members then m.enter .disarmed
    else m
  { m' with budget := min m.budget new.budget }

/-- What the engine does when a group's entry applies (R126); a changed member list leaves no member progress. -/
def GroupOp.entryApplied (r : GroupOp) (old new : GroupEntry) : GroupOp :=
  { r with history := if old.members ≠ new.members ∨ old.enabled ≠ new.enabled then [] else r.history
           progress := if old.members ≠ new.members then [] else r.progress }

/-- The blocks are told that group `g`'s entry has applied; `before` is the state before the application. -/
def State.groupApplied (before s : State) (g : Group) : State :=
  let old := before.groupTable.active[g]
  let new := s.groupTable.active[g]
  State.notePower
    (State.refreshModesOf
      ((s.onGroup g fun r => r.entryApplied old new).onMonitor g fun m => m.entryApplied old new s.inSafe)
      (before.members g ++ s.members g)) before g

/-- Group entries that apply together (R152). -/
def State.applyGroups (s : State) (gs : List Group) : State :=
  gs.foldl (fun s' g => State.groupApplied s s' g) { s with groupTable := s.groupTable.copyEntries gs }

/-- Groups of `set` whose new lists add no outlet still held by a group of `changed` outside `set` (R152). -/
def State.freeOfOthers (s : State) (changed set : List Group) : List Group :=
  set.filter fun g =>
    (memberOutlets s.groupTable.pending[g]).all fun o =>
      decide (o ∈ s.members g)
        || changed.all fun h => h == g || decide (h ∈ set) || !decide (o ∈ s.members h)

/-- The test repeated until nothing more is held back. -/
def State.pruneGroups (s : State) (changed : List Group) : Nat → List Group → List Group
  | 0, set => set
  | n + 1, set => s.pruneGroups changed n (s.freeOfOthers changed set)

/-- The largest set of `changed` entries that can apply together (R152): each pass removes a group or none. -/
def State.applicable (s : State) (changed : List Group) : List Group :=
  s.pruneGroups changed 32 (changed.filter fun g => s.groups[g].op == .idle)

/-- Waiting group entries that can now apply do so (R152, R153). -/
def State.releaseGroups (s : State) : State :=
  let set := s.applicable s.groupTable.waiting
  let rest := s.groupTable.waiting.filter fun g => !decide (g ∈ set)
  if set = [] then s
  else
    let s' := s.applyGroups set
    if rest = [] then
      State.raiseApplied
        { s' with groupTable := { s'.groupTable with waiting := [] }.endDeferral } .group s.groupTable.waited
    else { s' with groupTable := { s'.groupTable with waiting := rest } }

end Sys2Proof.Machine
end

