-- ==== Sys2Proof/Machine/Groups.lean ====
section
/-! DEFINITION. Machine/Groups.lean: the group engine (spec/06): starting, running and ending the operations of a group,
and what the engine takes from the switching queue, the lanes and safe control. -/

namespace Sys2Proof.Machine

/-- The engine's fields of a group's active entry. -/
def State.groupEntry (s : State) (g : Group) : GroupEntry := s.groupTable.active[g]

/-- The start of an operation, as the monitor takes it (R138). -/
def Monitor.opStart (m : Monitor) : Monitor := if m.state = .offline then m else m.enter .cycling

/-- The end of an operation, as the monitor takes it; `verified` when a TOKEN verification ended it DONE (R138). -/
def Monitor.opEnd (m : Monitor) (now : Uptime) (verified : Bool) : Monitor :=
  if m.state = .offline then m
  else if verified then { m.enter .armed with deadline := some now }
  else m.enter .disarmed

/-- A member's progress is marked. -/
def State.mark (s : State) (g : Group) (o : Outlet) (p : Progress) : State :=
  s.onGroup g fun r => { r with progress := r.progress.set ((s.members g).idxOf o) p }

/-- An outlet joins the group's awaited set (R104). -/
def State.await (s : State) (g : Group) (o : Outlet) : State :=
  (s.onGroup g fun r => { r with awaited := if o ∈ r.awaited then r.awaited else r.awaited ++ [o] }).mark g o .awaiting

/-- A member is added to the faulted members, kept in member order. -/
def State.addFaulted (s : State) (g : Group) (o : Outlet) : State :=
  (s.onGroup g fun r =>
    { r with faulted := (s.members g).filter fun m => m == o || decide (m ∈ r.faulted) }).mark g o .faulted

/-! ## The end of an operation (R121) -/

/-- The record of an operation that ends now. -/
def GroupOp.record (r : GroupOp) (g : Group) (result : OpResult) (reason : Option OpReason) (now : Uptime) :
    OpRecord :=
  { group := g, kind := r.kind.getD .cycle, cause := r.cause.getD .manual, result := result, reason := reason,
    start := r.start, stop := now, retries := r.retry, faulted := r.faulted }

/-- IDLE again: timers stopped, awaited set empty, marks clear, kind and causes absent, history cleared (R121). -/
def GroupOp.toIdle (r : GroupOp) (rec : OpRecord) : GroupOp :=
  { r with op := .idle, kind := none, cause := none, passCause := none, repower := false, cancel := false,
           busyWait := false, awaited := [], dwell := none, stagger := none, boot := none,
           lastRecord := some rec, history := [] }

/-- An operation ends (R121): the record, IDLE, GROUP_DONE, and the return to IDLE handed to the monitor, the relay
block and the table store. -/
def State.endOp (s : State) (g : Group) (result : OpResult) (reason : Option OpReason) (verified : Bool) : State :=
  let rec' := s.groups[g].record g result reason s.uptime
  State.releaseGroups
    (State.refreshModesOf
      (((s.onGroup g fun r => r.toIdle rec').raiseEvent
          { kind := .groupDone, source := numberOf g, detail := .groupDone rec',
            records := [.operation (some rec')] }).onMonitor g fun m => m.opEnd s.uptime verified)
      (s.members g))

/-- WAITING entries of the group's own origin in its awaited set are withdrawn; those of another origin stay, and every
outlet whose entry is not ISSUED leaves the set (R87, R117, R118). Its member's progress stays AWAITING (DESIGN CHOICE,
entry 14). -/
def State.withdrawAwaited (s : State) (g : Group) : State :=
  let s' := s.withdraw fun e => e.origin == .group g && decide (e.outlet ∈ s.groups[g].awaited)
  s'.onGroup g fun r => { r with awaited := r.awaited.filter s'.isIssued }

/-- An operation fails: its awaited WAITING entries are withdrawn and it ends FAILED (R87, R119). -/
def State.failOp (s : State) (g : Group) (reason : OpReason) : State :=
  (s.withdrawAwaited g).endOp g .failed (some reason) false

/-! ## Switching the members on (R111 to R113) -/

/-- VERIFYING begins; with verify NONE success is found at entry (R113). -/
def State.enterVerifying (s : State) (g : Group) : State :=
  let s' := s.onGroup g fun r => { r with op := .verifying, boot := some s.uptime }
  if (s.groupEntry g).verify = .none then s'.endOp g .done none false else s'

/-- The turn of the last member is over (R112). -/
def State.oningOver (s : State) (g : Group) : State :=
  if s.groups[g].repower then s.endOp g .failed (some .welded) false else s.enterVerifying g

/-- The members from position `i` on take their turns until one awaits an entry (R111). -/
def State.takeTurns : Nat → Group → Nat → State → State
  | 0, _, _, s => s
  | fuel + 1, g, i, s =>
    match (s.members g)[i]? with
    | none => s.oningOver g
    | some o =>
      let s' := s.onGroup g fun r => { r with turn := i, busyWait := false }
      if s'.isShed o then State.takeTurns fuel g (i + 1) (s'.mark g o .passed)
      else if s'.relays[o].state.faulted then State.takeTurns fuel g (i + 1) (s'.addFaulted g o)
      else if s'.relays[o].state = .on then State.takeTurns fuel g (i + 1) (s'.mark g o .closed)
      else
        let q := s'.request o .close (.group g)
        match q.1 with
        | .queued => q.2.await g o
        | .merged => q.2.await g o
        | .replaced => q.2.await g o
        | .refusedBusy => (q.2.await g o).onGroup g fun r => { r with busyWait := true }
        | .refusedRank => State.takeTurns fuel g (i + 1) (q.2.mark g o .passed)

/-- The turns end after at most one look more than the group has members. -/
def State.turnsFrom (s : State) (g : Group) (i : Nat) : State :=
  State.takeTurns ((s.members g).length + 1) g i s

/-- ONING is entered and the first member's turn taken (R107, R109, R110). -/
def State.enterOning (s : State) (g : Group) : State :=
  (s.onGroup g fun r => { r with op := .oning, dwell := none }).turnsFrom g 0

/-- A member's CLOSE has completed DONE or FAULT: the stagger runs, or with a stagger of 0 the next turn is taken; none
follows the last member (R112). -/
def State.afterClose (s : State) (g : Group) : State :=
  let i := s.groups[g].turn
  if (s.members g).length ≤ i + 1 then s.oningOver g
  else if (s.groupEntry g).onStagger = 0 then s.turnsFrom g (i + 1)
  else s.onGroup g fun r => { r with stagger := some s.uptime }

/-! ## Switching the members off (R108, R109) -/

/-- An OPEN is requested for a member, which is then awaited whatever the answer (R108). -/
def State.requestOpen (s : State) (g : Group) (o : Outlet) : State := (s.request o .opens (.group g)).2.await g o

def State.anyWelded (s : State) (g : Group) : Bool :=
  (s.members g).any fun o => s.relays[o].state == .faultWelded

/-- OFFING is over when no entry is awaited (R109, R118). -/
def State.offingOver (s : State) (g : Group) : State :=
  let r := s.groups[g]
  if r.awaited ≠ [] then s
  else if r.cancel then s.endOp g .cancelled (some .command) false
  else if r.kind = some .off then
    if s.anyWelded g then s.endOp g .failed (some .welded) false else s.endOp g .done none false
  else if s.anyWelded g then (s.onGroup g fun r => { r with repower := true }).enterOning g
  else s.onGroup g fun r => { r with op := .dwell, dwell := some s.uptime }

/-- OFFING is entered: OPENs for the members that are not OFF, the others marked OPENED (R108). -/
def State.enterOffing (s : State) (g : Group) : State :=
  State.offingOver
    ((s.members g).foldl
      (fun s o => if s.relays[o].state = .off then s.mark g o .opened else s.requestOpen g o)
      (s.onGroup g fun r => { r with op := .offing, busyWait := false })) g

/-! ## Starting an operation (R106, R107, R122, R123) -/

/-- The fields of an operation that starts (R107). -/
def GroupOp.started (r : GroupOp) (op : OpState) (kind : OpKind) (cause : OpCause) (members : Nat) (now : Uptime) :
    GroupOp :=
  { r with op := op, kind := some kind, cause := some cause
           passCause := some (match cause with | .manual => .manual | .hang => .hang)
           retry := 0, start := now, progress := List.replicate members .pending, turn := 0, busyWait := false
           awaited := [], faulted := [], repower := false, cancel := false }

/-- The start of an operation, handed to the monitor and to the relay block (R107). -/
def State.startOp (s : State) (g : Group) (op : OpState) (kind : OpKind) (cause : OpCause) : State :=
  State.refreshModesOf
    ((s.onGroup g fun r => r.started op kind cause (s.members g).length s.uptime).onMonitor g Monitor.opStart)
    (s.members g)

def State.startCycle (s : State) (g : Group) (cause : OpCause) : State :=
  (s.startOp g .offing .cycle cause).enterOffing g

def State.startOff (s : State) (g : Group) : State := (s.startOp g .offing .off .manual).enterOffing g

/-- GROUP_ON takes its shed members off their stacks, but not a bank's shed in flight (R122). -/
def State.unshedMembers (s : State) (g : Group) : State :=
  (s.members g).foldl
    (fun s o => if s.sheds[bankOf o].shedFlight = some o then s else s.unshed o) s

def State.startOn (s : State) (g : Group) : State :=
  ((s.unshedMembers g).startOp g .oning .on .manual).enterOning g

def State.banksUp (s : State) (g : Group) : Bool := (s.members g).all fun o => s.isUp (bankOf o)

def State.allShed (s : State) (g : Group) : Bool := (s.members g).all s.isShed

/-- The tests of R106 that come before the operation state. -/
def State.groupRefusal (s : State) (g : Group) : Option Status :=
  if s.inSafe then some .safe
  else if !(s.groupEntry g).enabled then some .state
  else if !s.banksUp g then some .bankDown
  else none

/-- The engine's answer to a hang cycle request (R123). -/
def State.hangAnswer (s : State) (g : Group) : EngineAnswer :=
  if !(s.groupEntry g).enabled then .state
  else if !s.banksUp g then .bankDown
  else if s.groups[g].op ≠ .idle then .busy
  else if s.allShed g then .state
  else .accepted

/-! ## What the engine takes from other blocks -/

/-- The group whose awaited set holds the outlet (R104). -/
def State.awaiter (s : State) (o : Outlet) : Option Group :=
  allGroups.find? fun g => decide (o ∈ s.groups[g].awaited)

/-- A completion in OFFING (R109, R118). With the cancel mark set no OPEN is requested again (entry 13, DEDUCED), and a
CLOSE that was waited out leaves its member's progress AWAITING (DESIGN CHOICE, entry 14). -/
def State.offingCompletion (s : State) (g : Group) (o : Outlet) (a : Action) (res : Completion) : State :=
  match res, s.groups[g].cancel with
  | .lost, false => s.failOp g .bankLost
  | .lost, true => s.offingOver g
  | _, cancel =>
    match a with
    | .opens => (s.mark g o .opened).offingOver g
    | .close =>
      if cancel then s.offingOver g
      else if s.relays[o].state = .off then (s.mark g o .opened).offingOver g
      else (s.requestOpen g o).offingOver g

/-- A completion in ONING (R111, R112). A member whose AWAITING ends EXPIRED or LOST reads PENDING again (entry 14). -/
def State.oningCompletion (s : State) (g : Group) (o : Outlet) (res : Completion) : State :=
  if s.groups[g].busyWait then
    if res = .lost then (s.mark g o .pending).failOp g .bankLost else s.turnsFrom g s.groups[g].turn
  else
    match res with
    | .done => (s.mark g o .closed).afterClose g
    | .fault => (s.addFaulted g o).afterClose g
    | .expired => (s.mark g o .pending).failOp g .grantTimeout
    | .lost => (s.mark g o .pending).failOp g .bankLost

/-- A completion handed to the engine (R104): one for an outlet in no awaited set is ignored. -/
def State.groupCompletion (s : State) (o : Outlet) (a : Action) (res : Completion) : State :=
  match s.awaiter o with
  | none => s
  | some g =>
    let s' := s.onGroup g fun r => { r with awaited := r.awaited.filter (· != o) }
    match s'.groups[g].op with
    | .offing => s'.offingCompletion g o a res
    | .oning => s'.oningCompletion g o res
    | .idle => s'
    | .dwell => s'
    | .verifying => s'

/-- The loss of bank `b`'s lane ends the operations that need it (R119). -/
def State.groupBankLost (s : State) (b : Bank) : State :=
  allGroups.foldl
    (fun s g =>
      let r := s.groups[g]
      if (r.op = .offing ∨ r.op = .dwell ∨ r.op = .oning) ∧ r.cancel = false ∧ (s.members g).any (bankOf · == b)
      then s.failOp g .bankLost else s) s

/-- Entry to SAFE ends every operation CANCELLED, reason SAFE (R120). -/
def State.groupsSafe (s : State) : State :=
  allGroups.foldl
    (fun s g => if s.groups[g].op = .idle then s else s.endOp g .cancelled (some .safe) false) s

/-- A liveness token for the group is taken by the engine (R114). -/
def State.groupToken (s : State) (g : Group) : State :=
  if s.groups[g].op = .verifying ∧ (s.groupEntry g).verify = .token then s.endOp g .done none true else s

/-- A sum that is ABSENT when a summand is (R47). -/
def addPower (x y : Option Int) : Option Int :=
  match x, y with
  | some a, some b => some (a + b)
  | _, _ => none

/-- The sum of the members' interval P, ABSENT when any is (R47). -/
def memberSum (power : Outlet → Option Int) (ms : List Outlet) : Option Int :=
  ms.foldl (fun acc o => addPower acc (power o)) (some 0)

/-- The operation of group `g` after the append of an interval close: enabled groups with members have one (R47). -/
def State.appended (s : State) (power : Outlet → Option Int) (g : Group) (r : GroupOp) : GroupOp :=
  if (s.groupEntry g).enabled ∧ s.members g ≠ [] then
    { r with history :=
        (r.history ++ [memberSum power (s.members g)]).drop (r.history.length + 1 - Config.historyDepth) }
  else r

/-- An interval close appends to the power histories (R47); `power` gives each outlet's interval P, `none` for ABSENT. -/
def State.appendHistories (s : State) (power : Outlet → Option Int) : State :=
  allGroups.foldl (fun s g => s.onGroup g (s.appended power g)) s

/-- An interval close tests the groups in VERIFYING with verify CURRENT (R113); `irms` gives each outlet's interval
Irms_code, 0 for ABSENT. -/
def State.verifyCurrent (s : State) (irms : Outlet → Nat) : State :=
  allGroups.foldl
    (fun s g =>
      if s.groups[g].op = .verifying ∧ (s.groupEntry g).verify = .current
          ∧ (s.groupEntry g).bootThreshold ≤ ((s.members g).map irms).sum
      then s.endOp g .done none false else s) s

/-! ## The engine's timers -/

/-- DWELL_EXPIRY (R110). -/
def execDwellExpiry (g : Group) (s : State) : Result :=
  if s.groups[g].op = .dwell ∧ due s.groups[g].dwell s.uptime ((s.groupEntry g).offDwell * 1000) then
    .next ((s.onGroup g fun r => { r with repower := r.repower || s.anyWelded g }).enterOning g)
  else .next s

/-- STAGGER_EXPIRY (R112). -/
def execStaggerExpiry (g : Group) (s : State) : Result :=
  if s.groups[g].op = .oning ∧ due s.groups[g].stagger s.uptime ((s.groupEntry g).onStagger * 1000) then
    .next ((s.onGroup g fun r => { r with stagger := none }).turnsFrom g (s.groups[g].turn + 1))
  else .next s

/-- The pass that a boot window's expiry begins (R115). -/
def State.retryOp (s : State) (g : Group) : State :=
  let s' := s.onGroup g fun r =>
    { r with retry := r.retry + 1, passCause := some .retry, boot := none }
  if s.banksUp g then
    (s'.onGroup g fun r =>
      { r with kind := some .cycle, progress := List.replicate (s.members g).length .pending }).enterOffing g
  else s'.failOp g .bankLost

/-- BOOT_WINDOW_EXPIRY (R115). -/
def execBootWindowExpiry (g : Group) (s : State) : Result :=
  if s.groups[g].op = .verifying ∧ due s.groups[g].boot s.uptime ((s.groupEntry g).bootWindow * 1000) then
    if s.groups[g].retry < (s.groupEntry g).retries then .next (s.retryOp g)
    else .next (s.failOp g .noBoot)
  else .next s

/-! ## The group commands -/

/-- CYCLE once its group is known (R106, R107, R116). -/
def State.cycleGroup (s : State) (g : Group) : Reply :=
  match s.groupRefusal g with
  | some st => s.reply st
  | none =>
    let r := s.groups[g]
    match r.op with
    | .idle => if s.allShed g then s.reply .state else (s.startCycle g .manual).reply .ok
    | .offing =>
      if r.cancel then s.reply .busy else (s.onGroup g fun r => { r with kind := some .cycle }).reply .merged
    | .dwell => if r.cancel then s.reply .busy else s.reply .merged
    | .oning => s.reply .busy
    | .verifying => s.reply .busy

/-- CYCLE (R106). -/
def execCycle (tag : Byte) (payload : List Byte) (s : State) : Result :=
  s.take 0x0A tag payload 1 fun s =>
    match indexed 32 (arg payload 0) with
    | none => s.reply .badArg
    | some g => s.cycleGroup g

/-- GROUP_OFF once its group is known (R106, R107, R117). -/
def State.offGroup (s : State) (g : Group) : Reply :=
  match s.groupRefusal g with
  | some st => s.reply st
  | none =>
    let r := s.groups[g]
    if r.op ≠ .idle ∧ r.cancel = true then s.reply .busy
    else
      let s' := s.onGroup g fun r => { r with kind := some .off, cause := some .manual }
      match r.op with
      | .idle => (s.startOff g).reply .ok
      | .offing => s'.reply .merged
      | .dwell => ((s'.onGroup g fun r => { r with dwell := none }).endOp g .done none false).reply .ok
      | .oning =>
        ((((s'.onGroup g fun r => { r with stagger := none, repower := false }).withdrawAwaited g)).enterOffing
          g).reply .ok
      | .verifying => ((s'.onGroup g fun r => { r with boot := none }).enterOffing g).reply .ok

/-- GROUP_OFF (R106, R117). -/
def execGroupOff (tag : Byte) (payload : List Byte) (s : State) : Result :=
  s.take 0x0B tag payload 1 fun s =>
    match indexed 32 (arg payload 0) with
    | none => s.reply .badArg
    | some g => s.offGroup g

/-- GROUP_ON once its group is known (R106, R107, R116, R122). -/
def State.onGroupPower (s : State) (g : Group) : Reply :=
  match s.groupRefusal g with
  | some st => s.reply st
  | none =>
    let r := s.groups[g]
    match r.op with
    | .idle => (s.startOn g).reply .ok
    | .offing => s.reply .busy
    | .dwell => s.reply .busy
    | .oning => if r.cancel then s.reply .busy else (s.unshedMembers g).reply .merged
    | .verifying => if r.cancel then s.reply .busy else (s.unshedMembers g).reply .merged

/-- GROUP_ON (R106, R116). -/
def execGroupOn (tag : Byte) (payload : List Byte) (s : State) : Result :=
  s.take 0x0C tag payload 1 fun s =>
    match indexed 32 (arg payload 0) with
    | none => s.reply .badArg
    | some g => s.onGroupPower g

/-- CANCEL in OFFING (R118): the operation ends at once, or when its last ISSUED entry completes. -/
def State.cancelOffing (s : State) (g : Group) : State :=
  ((s.withdrawAwaited g).onGroup g fun r => { r with cancel := true }).offingOver g

/-- CANCEL once its group is known (R118). -/
def State.cancelGroup (s : State) (g : Group) : Reply :=
  let r := s.groups[g]
  match r.op with
  | .idle => s.reply .state
  | .offing => if r.cancel then s.reply .merged else (s.cancelOffing g).reply .ok
  | .dwell => if r.cancel then s.reply .merged else (s.endOp g .cancelled (some .command) false).reply .ok
  | .oning =>
    if r.cancel then s.reply .merged
    else ((s.withdrawAwaited g).endOp g .cancelled (some .command) false).reply .ok
  | .verifying => if r.cancel then s.reply .merged else (s.endOp g .cancelled (some .command) false).reply .ok

/-- CANCEL (R118). -/
def execCancel (tag : Byte) (payload : List Byte) (s : State) : Result :=
  s.take 0x0D tag payload 1 fun s =>
    match indexed 32 (arg payload 0) with
    | none => s.reply .badArg
    | some g => s.cancelGroup g

/-! ## READ_GROUP (R124, R143) -/

/-- The running timer of the operation, and the uptime at which it expires. -/
def State.opTimer (s : State) (g : Group) : Option (OpTimer × Uptime) :=
  let r := s.groups[g]
  let e := s.groupEntry g
  match r.dwell, r.stagger, r.boot with
  | some t, _, _ => some (.dwell, expiryOf t (e.offDwell * 1000))
  | none, some t, _ => some (.stagger, expiryOf t (e.onStagger * 1000))
  | none, none, some t => some (.boot, expiryOf t (e.bootWindow * 1000))
  | none, none, none => none

/-- The length of a running grace timer, in ms (R133). -/
def State.graceMs (s : State) (g : Group) (c : Grace) : Nat :=
  if c.retry then max (s.groupEntry g).grace s.systemTable.active[0].intervalLength * 1000
  else (s.groupEntry g).grace * 1000

/-- The monitor's running timer: its expiry, and whether it is the grace timer (R143). -/
def State.monitorTimer (s : State) (g : Group) : Option (Uptime × Bool) :=
  let m := s.monitors[g]
  match m.deadline, m.grace with
  | some t, _ => some (expiryOf t ((s.groupEntry g).deadline * 1000), false)
  | none, some c => some (expiryOf c.start (s.graceMs g c), true)
  | none, none => none

/-- The uptime at which the budget window that began at `start` ends (R136, R143). -/
def State.budgetEnd (s : State) (g : Group) (start : Uptime) : Uptime :=
  expiryOf start ((s.groupEntry g).budgetWindow * 3600000)

/-- A group as READ_GROUP reports it. A member with no progress yet reads PENDING (entry 14); the turn is given as an
outlet number (DESIGN CHOICE, entry 27). -/
def State.groupReport (s : State) (g : Group) : GroupReport :=
  let r := s.groups[g]
  let m := s.monitors[g]
  { enabled := (s.groupEntry g).enabled
    members := (s.members g).mapIdx fun i o =>
      { outlet := o, relay := s.relays[o].state, shed := s.isShed o, progress := r.progress.getD i .pending }
    power := s.power g
    op := r.op, kind := r.kind, cause := r.cause, passCause := r.passCause, retry := r.retry
    turn := if r.op = .oning then (s.members g)[r.turn]? else none
    repower := r.repower, cancel := r.cancel
    timer := s.opTimer g
    faulted := if r.op = .idle then [] else r.faulted
    monitor := m.state
    monitorTimer := s.monitorTimer g
    busy := m.busy, budget := m.budget
    budgetEnd := m.window.map (s.budgetEnd g)
    lastToken := m.lastToken
    lastRecord := r.lastRecord
    history := r.history }

/-- READ_GROUP (R124). -/
def execReadGroup (tag : Byte) (payload : List Byte) (s : State) : Result :=
  s.take 0x0F tag payload 1 fun s =>
    match indexed 32 (arg payload 0) with
    | none => s.reply .badArg
    | some g => s.replyWith .ok (.group (s.groupReport g))

end Sys2Proof.Machine
end

