-- ==== Sys2Proof/Machine/Safe.lean ====
section
/-! DEFINITION. Machine/Safe.lean: safe control (R181 to R184). -/

namespace Sys2Proof.Machine

/-- The relay action a safe action asks for (R182). -/
def SafeAction.request : SafeAction → Option Action
  | .hold => none
  | .on => some .close
  | .off => some .opens

/-- How the queue answered the safe requests of one entry to SAFE (R182). -/
structure SafeTally where
  queued : Nat
  merged : Nat
  replaced : Nat
  followUp : List Outlet
deriving DecidableEq, Repr

def SafeTally.count (t : SafeTally) (o : Outlet) : QueueAnswer → SafeTally
  | .queued => { t with queued := t.queued + 1 }
  | .merged => { t with merged := t.merged + 1 }
  | .replaced => { t with replaced := t.replaced + 1 }
  | .refusedBusy => { t with followUp := t.followUp ++ [o] }
  | .refusedRank => t

/-- The safe actions of outlets 1 to 48 are requested (R182). -/
def State.requestSafe (s : State) : SafeTally × State :=
  allOutlets.foldl
    (fun x o =>
      match x.2.outletTable.active[o].safeAction.request with
      | none => x
      | some a => (x.1.count o (x.2.request o a .safe).1, (x.2.request o a .safe).2))
    ({ queued := 0, merged := 0, replaced := 0, followUp := [] }, s)

/-- Entries that entry to SAFE withdraws when they are WAITING (R182). -/
def QueueEntry.notSafeOrShed (e : QueueEntry) : Bool := e.origin != .safe && e.origin != .shed

/-- Every monitor enters OFFLINE (R128). -/
def State.monitorsOffline (s : State) : State :=
  { s with monitors := Vector.ofFn fun g => s.monitors[g].enter .offline }

def State.refreshAllSheds (s : State) : State := allBanks.foldl State.refreshSheds s

/-- Entry to SAFE (R182, R120, R128, R62). -/
def State.enterSafe (s : State) (c : SafeCause) : State :=
  let s1 : State := { s with safe := { cause := some c, followUp := [] } }
  let withdrawn := (s1.queue.filter fun e => e.isWaiting && e.notSafeOrShed).length
  let x := (s1.withdraw QueueEntry.notSafeOrShed).requestSafe
  State.refreshAllSheds
    (State.monitorsOffline
      (State.groupsSafe
        (State.raise { x.2 with safe := { cause := some c, followUp := x.1.followUp } } .safeEntered 0
          (.safeEntered c withdrawn x.1.queued x.1.merged x.1.replaced x.1.followUp.length))))

/-- An entry to SAFE that finds the part in SAFE changes nothing (R181). -/
def State.enterSafeOnce (s : State) (c : SafeCause) : State := if s.inSafe then s else s.enterSafe c

/-- The completion of a follow-up outlet's entry (R183). -/
def State.safeFollowUp (s : State) (o : Outlet) : State :=
  if o ∈ s.safe.followUp then
    let s1 : State := { s with safe := { s.safe with followUp := s.safe.followUp.filter (· != o) } }
    if s1.inSafe then
      match s1.outletTable.active[o].safeAction with
      | .hold => s1
      | .on => if s1.relays[o].state = .on then s1 else (s1.request o .close .safe).2
      | .off => if s1.relays[o].state = .off then s1 else (s1.request o .opens .safe).2
    else s1
  else s

/-- SAFE is left (R184): monitors of watched groups are DISARMED, restore timers start. -/
def State.leaveSafe (s : State) : State :=
  State.refreshAllSheds
    { s with safe := { cause := none, followUp := [] }
             monitors := Vector.ofFn fun g =>
               if (s.groupEntry g).watched then s.monitors[g].enter .disarmed else s.monitors[g] }

/-- FORCE_SAFE (R181). -/
def execForceSafe (tag : Byte) (payload : List Byte) (s : State) : Result :=
  s.take 0x18 tag payload 0 fun s => (s.enterSafeOnce .command).reply .ok

/-- RESUME (R184). -/
def execResume (tag : Byte) (payload : List Byte) (s : State) : Result :=
  s.take 0x19 tag payload 0 fun s =>
    if s.inSafe ∧ s.safePin = false then s.leaveSafe.reply .ok else s.reply .state

/-- SAFE_PIN_CHANGE (R181). -/
def execSafePinChange (asserted : Bool) (s : State) : Result :=
  if asserted = s.safePin then .next s
  else if asserted then .next (State.enterSafeOnce { s with safePin := true } .pin)
  else .next { s with safePin := false }

end Sys2Proof.Machine
end

