-- ==== Sys2Proof/Machine/Switching.lean ====
section
/-! DEFINITION. Machine/Switching.lean: completions of the switching queue (R98, R99), dispatch opportunities and grants
(R88 to R92), settle and refill timers, expiry (R93 to R97), and SWITCH (R82). -/

namespace Sys2Proof.Machine

/-! ## Completion -/

/-- The outlet action record of a completion (R99); `act` is the actuate-at set of an ISSUED action. -/
def State.actionRecord (s : State) (e : QueueEntry) (res : Completion) (act : Option SetNo) : ActionRecord :=
  { outlet := e.outlet
    request := some (e.action, e.origin, e.enqueued)
    result := some (res, s.uptime)
    issue := match e.state, act with
      | .issued t, some a => some (t, a)
      | .issued _, none => none
      | .waiting, _ => none
    relay := s.relays[e.outlet].state
    detail := s.relays[e.outlet].detail }

/-- The end of a bank's turn-on in flight, with the settle timer started for DONE and FAULT (R93, R98). -/
def State.endTurnOn (s : State) (b : Bank) (res : Completion) : State :=
  { s with turnOn := upd s.turnOn b fun _ => none
           settle := upd s.settle b fun t =>
             match res with | .done => some s.uptime | .fault => some s.uptime | .lost => t | .expired => t }

/-- SWITCH_DONE is raised with the outlet action record (R99). -/
def State.raiseSwitchDone (s : State) (r : ActionRecord) : State :=
  s.raiseEvent { kind := .switchDone, source := numberOf r.outlet, detail := .switchDone r, records := [.action r] }

/-- The entry of `o` completes with `res` (R98): it leaves the queue, the table store applies its deferred entry, a CLOSE
that was ISSUED ends the turn-on in flight, SWITCH_DONE is raised, and the blocks that await it are told. -/
def State.complete (s : State) (o : Outlet) (res : Completion) (act : Option SetNo) : State :=
  match s.entryOf o with
  | none => s
  | some e =>
    let s1 := (s.dropEntry o).releaseOutlet o
    let s2 := if e.action = .close ∧ e.isWaiting = false then s1.endTurnOn (bankOf o) res else s1
    let s3 := s2.raiseSwitchDone (s2.actionRecord e res act)
    ((s3.endFlights o).groupCompletion o e.action res).safeFollowUp o

/-! ## Dispatch opportunities -/

/-- WAITING OPENs whose bank is UP are issued in queue order (R88, R89). -/
def State.issueOpens (s : State) : State :=
  (s.queue.filter fun e => e.isWaiting && e.action == .opens && s.isUp (bankOf e.outlet)).foldl
    (fun s e => s.issue e.outlet .opens) s

/-- A WAITING CLOSE of bank `b` is eligible for a grant (R91). -/
def State.eligible (s : State) (b : Bank) (e : QueueEntry) : Bool :=
  e.isWaiting && e.action == .close && bankOf e.outlet == b && s.isUp b && s.turnOn[b].isNone && s.settle[b].isNone
    && s.bankLimits[b].level != .critical && !s.relays[e.outlet].state.faulted
    && decide (0 < s.tokens[s.bankTable.active[b].phase])

/-- One token is taken from a phase, whose refill timer starts if it was stopped (R92, R95). -/
def State.takeToken (s : State) (p : SupplyPhase) : State :=
  { s with tokens := upd s.tokens p fun n => n - 1
           refill := upd s.refill p fun t => match t with | none => some s.uptime | some u => some u }

/-- A CLOSE of bank `b` is granted and issued (R92). -/
def State.grant (s : State) (b : Bank) (o : Outlet) : State :=
  let s1 := s.takeToken s.bankTable.active[b].phase
  State.issue { s1 with turnOn := upd s1.turnOn b fun _ => some o } o .close

/-- The oldest eligible CLOSE of the bank that the grant phase names is granted (R88, R92). -/
def State.grantTurn (s : State) : State :=
  match s.grantTable.active[s.grantPtr] with
  | none => s
  | some b =>
    match s.queue.find? (s.eligible b) with
    | none => s
    | some e => s.grant b e.outlet

/-- DISPATCH_OPPORTUNITY (R88): at an uptime that is a multiple of 5 ms, once. -/
def execDispatchOpportunity (s : State) : Result :=
  if s.uptime.toNat % Config.dispatchMs = 0 ∧ s.opportunityTaken = false then
    let s1 := s.issueOpens.grantTurn
    .next { s1 with grantPtr := s1.grantPtr + 1, opportunityTaken := true }
  else .next s

/-! ## Timers of the switching block -/

/-- SETTLE_TIMER_EXPIRY (R93). -/
def execSettleTimerExpiry (b : Bank) (s : State) : Result :=
  if due s.settle[b] s.uptime s.bankTable.active[b].settle then
    .next { s with settle := upd s.settle b fun _ => none }
  else .next s

/-- REFILL_TIMER_EXPIRY (R95). -/
def execRefillTimerExpiry (p : SupplyPhase) (s : State) : Result :=
  let e := s.phaseTable.active[p]
  if due s.refill[p] s.uptime e.refill then
    .next { s with tokens := upd s.tokens p fun n => n + 1
                   refill := upd s.refill p fun _ => if s.tokens[p] + 1 < e.capacity then some s.uptime else none }
  else .next s

/-- GRANT_TIMEOUT (R97). -/
def execGrantTimeout (o : Outlet) (s : State) : Result :=
  match s.entryOf o with
  | none => .next s
  | some e =>
    if e.action = .close ∧ e.isWaiting ∧ s.systemTable.active[0].grantTimeout * 1000 ≤ elapsed s.uptime e.enqueued then
      .next (s.complete o .expired none)
    else .next s

/-! ## SWITCH -/

/-- The response to a SWITCH for the queue's answer (R82, R86). -/
def QueueAnswer.status : QueueAnswer → Status
  | .queued => .ok
  | .replaced => .ok
  | .merged => .merged
  | .refusedRank => .busy
  | .refusedBusy => .busy

/-- SWITCH with its outlet and action known (R82); an accepted ON takes the outlet off its shed stack (R61). -/
def State.switchOutlet (s : State) (o : Outlet) (a : Action) : Reply :=
  if s.inSafe then s.reply .safe
  else if !s.isUp (bankOf o) then s.reply .bankDown
  else if s.groupBusy o then s.reply .busy
  else
    let q := s.request o a .manual
    (if q.1.accepted && a == .close then q.2.unshed o else q.2).reply q.1.status

/-- The SWITCH direction: 0 OFF, 1 ON (spec/12 12.3). -/
def directionOf (n : Nat) : Option Action :=
  match n with
  | 0 => some .opens
  | 1 => some .close
  | _ => none

/-- SWITCH (R82). -/
def execSwitch (tag : Byte) (payload : List Byte) (s : State) : Result :=
  s.take 0x06 tag payload 2 fun s =>
    match indexed 48 (arg payload 0), directionOf (arg payload 1) with
    | some o, some a => s.switchOutlet o a
    | some _, none => s.reply .badArg
    | none, _ => s.reply .badArg

end Sys2Proof.Machine
end

