-- ==== Sys2Proof/Machine/Monitors.lean ====
section
/-! DEFINITION. Machine/Monitors.lean: the hang monitors (spec/07) and TOKEN. -/

namespace Sys2Proof.Machine

/-- The outcomes of the flat test (R132), with the numbers HANG_BUSY and HANG_DECLARED carry. -/
inductive FlatOutcome where
  | insufficient (present : Nat) | notFlat (spread : Nat) | flat (spread : Nat)
deriving DecidableEq, Repr

/-- Largest minus smallest of a list of values. -/
def spreadOf : List Int → Nat
  | [] => 0
  | v :: vs => (vs.foldl max v - vs.foldl min v).toNat

/-- The flat test on the newest `w` values of a history (R132). -/
def flatTest (history : List (Option Int)) (w band : Nat) : FlatOutcome :=
  let newest := history.drop (history.length - w)
  let present := newest.filterMap id
  if present.length < w then .insufficient present.length
  else if band < spreadOf present then .notFlat (spreadOf present)
  else .flat (spreadOf present)

/-- A failed flat test or a refused request keeps the monitor in SUSPECT with a retried grace (R133). -/
def State.hangBusy (s : State) (g : Group) (r : BusyReport) : State :=
  let s' := s.onMonitor g fun m =>
    { m with busy := satSucc 255 m.busy, grace := some { start := s.uptime, retry := true } }
  s'.raise .hangBusy (numberOf g) (.hangBusy r s'.monitors[g].busy)

/-- An accepted hang cycle (R135): counted, started with cause HANG, and reported. -/
def State.hangAccepted (s : State) (g : Group) (spread : Option Nat) : State :=
  let busy := s.monitors[g].busy
  let s1 := s.onMonitor g fun m => { m with budget := m.budget + 1, grace := none }
  let m := s1.monitors[g]
  (s1.startCycle g .hang).raise .hangDeclared (numberOf g)
    (.hangDeclaredCycle busy m.budget (s.budgetEnd g (m.window.getD s.uptime)) spread)

/-- A hang cycle is due (R135); `spread` is the flat test's, if one was made. -/
def State.hangCycle (s : State) (g : Group) (spread : Option Nat) : State :=
  let s1 := s.onMonitor g fun m =>
    match m.window with
    | none => { m with window := some s.uptime, budget := 0 }
    | some _ => m
  let m := s1.monitors[g]
  let budget := (s.groupEntry g).budget
  if budget ≤ m.budget then
    (s1.onMonitor g fun m => { m with state := .lockedOut, grace := none }).raise .lockout (numberOf g)
      (.lockout budget m.budget (s.budgetEnd g (m.window.getD s.uptime)))
  else
    match s1.hangAnswer g with
    | .accepted => s1.hangAccepted g spread
    | .busy => s1.onMonitor g fun m => { m with state := .disarmed, grace := none }
    | .bankDown => s1.hangBusy g (.notAccepted .bankDown)
    | .state => s1.hangBusy g (.notAccepted .state)

/-- The monitor acts by its hang policy at grace expiry (R131). -/
def State.graceActs (s : State) (g : Group) : State :=
  let e := s.groupEntry g
  match e.policy with
  | .none => s
  | .notify =>
    (s.onMonitor g fun m => { m with state := .declared, grace := none }).raise .hangDeclared (numberOf g)
      (.hangDeclaredNotify s.monitors[g].busy)
  | .cycle => s.hangCycle g none
  | .cycleIfFlat =>
    match flatTest s.groups[g].history e.flatIntervals e.flatBand with
    | .flat spread => s.hangCycle g (some spread)
    | .notFlat spread => s.hangBusy g (.notFlat spread)
    | .insufficient n => s.hangBusy g (.insufficient n)

/-- DEADLINE_EXPIRY (R130); a grace of 0 lets the policy act at once (R131). -/
def execDeadlineExpiry (g : Group) (s : State) : Result :=
  let e := s.groupEntry g
  if s.monitors[g].state = .armed ∧ due s.monitors[g].deadline s.uptime (e.deadline * 1000) then
    let s1 := (s.onMonitor g fun m =>
      { m with state := .suspect, deadline := none, busy := 0
               grace := some { start := s.uptime, retry := false } }).raise .hangSuspect (numberOf g)
        (.hangSuspect e.deadline s.monitors[g].lastToken)
    .next (if e.grace = 0 then s1.graceActs g else s1)
  else .next s

/-- The grace timer of a monitor in SUSPECT has run out (R131, R133). -/
def State.graceDue (s : State) (g : Group) : Bool :=
  match s.monitors[g].grace with
  | none => false
  | some c => s.monitors[g].state == .suspect && decide (s.graceMs g c ≤ elapsed s.uptime c.start)

/-- GRACE_EXPIRY (R131). -/
def execGraceExpiry (g : Group) (s : State) : Result :=
  if s.graceDue g then .next (s.graceActs g) else .next s

/-- BUDGET_WINDOW_EXPIRY (R136). -/
def execBudgetWindowExpiry (g : Group) (s : State) : Result :=
  if due s.monitors[g].window s.uptime ((s.groupEntry g).budgetWindow * 3600000) then
    .next (s.onMonitor g fun m => { m with window := none, budget := 0 })
  else .next s

/-- CLEAR_LOCKOUT (R137). -/
def execClearLockout (tag : Byte) (payload : List Byte) (s : State) : Result :=
  s.take 0x0E tag payload 1 fun s =>
    match indexed 32 (arg payload 0) with
    | none => s.reply .badArg
    | some g =>
      (s.onMonitor g fun m =>
        { m with window := none, budget := 0
                 state := if m.state = .lockedOut then .disarmed else m.state }).reply .ok

/-- A token as the group's monitor takes it (R129, R130, R131, R134, R137, R138). -/
def State.monitorToken (s : State) (g : Group) : State :=
  match s.monitors[g].state with
  | .disarmed =>
    if s.groups[g].op = .idle ∧ s.power g ≠ .allOff then
      s.onMonitor g fun m => { m with state := .armed, deadline := some s.uptime }
    else s
  | .armed => s.onMonitor g fun m => { m with deadline := some s.uptime }
  | .suspect =>
    (s.onMonitor g fun m => { m.enter .armed with deadline := some s.uptime }).raise .hangCleared (numberOf g)
      (.hangCleared .suspect s.uptime)
  | .declared =>
    (s.onMonitor g fun m => { m with state := .armed, deadline := some s.uptime }).raise .hangCleared (numberOf g)
      (.hangCleared .declared s.uptime)
  | .offline => s
  | .cycling => s
  | .lockedOut => s

/-- A liveness token for a group (R127): recorded, then handed to the monitor first and to the engine after it (DESIGN
CHOICE, entry 7). -/
def State.tokenFor (s : State) (g : Group) : State :=
  if (s.groupEntry g).enabled then
    ((s.onMonitor g fun m => { m with lastToken := some s.uptime }).monitorToken g).groupToken g
  else s

/-- The numbers of a TOKEN list are taken in order; a number outside 1 to 32 is ignored (R127). -/
def State.takeTokens (s : State) (numbers : List Byte) : State :=
  numbers.foldl (fun s n => match indexed 32 n.toNat with | none => s | some g => s.tokenFor g) s

/-- The list a TOKEN payload of 17 bytes holds; one of no number or more than 16 is ignored whole (R127). -/
def tokenList (payload : List Byte) : List Byte :=
  if payload.length = 17 ∧ arg payload 0 ≤ 16 then (payload.drop 1).take (arg payload 0) else []

/-- TOKEN (R127, R160, R161): it needs no slot and is never answered. -/
def execToken (tag : Byte) (payload : List Byte) (s : State) : Result :=
  if s.canTake { kind := 0x10, tag := tag, payload := payload } false then
    .next (s.popCommand.takeTokens (tokenList payload))
  else .next s

end Sys2Proof.Machine
end

