-- ==== Sys2Proof/Machine/Limits.lean ====
section
/-! DEFINITION. Machine/Limits.lean: threshold machines, phase sums, load-lost detectors (R49 to R55), and the shed
unit's timers (R56 to R62). -/

namespace Sys2Proof.Machine

/-- Parameters of a threshold machine (spec/03 3.5). -/
structure LimitParams where
  warn : Nat
  crit : Nat
  hysteresis : Nat
  persistence : Nat
deriving DecidableEq, Repr

def OutletEntry.limits (e : OutletEntry) : LimitParams :=
  { warn := e.warn, crit := e.crit, hysteresis := e.hysteresis, persistence := e.persistence }
def BankEntry.limits (e : BankEntry) : LimitParams :=
  { warn := e.warn, crit := e.crit, hysteresis := e.hysteresis, persistence := e.persistence }
def PhaseEntry.limits (e : PhaseEntry) : LimitParams :=
  { warn := e.warn, crit := e.crit, hysteresis := e.hysteresis, persistence := e.persistence }

/-- The release point of a level (R49). -/
def LimitParams.release (p : LimitParams) (level : Nat) : Nat := max (level - p.hysteresis) 1

/-- The reached level (R49). -/
def LimitParams.reached (p : LimitParams) (x : Nat) : Level :=
  if p.crit ≠ 0 ∧ p.crit ≤ x then .critical else if p.warn ≠ 0 ∧ p.warn ≤ x then .warn else .normal

/-- The held level of a machine in `now` (R49). -/
def LimitParams.held (p : LimitParams) (now : Level) (x : Nat) : Level :=
  if now = .critical ∧ p.crit ≠ 0 ∧ p.release p.crit ≤ x then .critical
  else if now ≠ .normal ∧ p.warn ≠ 0 ∧ p.release p.warn ≤ x then .warn
  else .normal

/-- The target state of an evaluation: the higher of the two levels (R49). -/
def LimitParams.target (p : LimitParams) (now : Level) (x : Nat) : Level := (p.reached x).max (p.held now x)

/-- Candidate and run count against a target, before the persistence is looked at (R50). -/
def Threshold.count (t : Threshold) (target : Level) : Threshold :=
  if target = t.level then { t with candidate := none, run := 0 }
  else if t.candidate = some target then { t with run := t.run + 1 }
  else { t with candidate := some target, run := 1 }

/-- One evaluation of a machine (R50). -/
def Threshold.evaluate (t : Threshold) (p : LimitParams) (x : Nat) : Threshold :=
  let target := p.target t.level x
  let t' := t.count target
  if target ≠ t.level ∧ p.persistence ≤ t'.run then { level := target, candidate := none, run := 0 } else t'

/-- A limit event, when the state has changed (R50). -/
def State.raiseLimit (s : State) (kind : EventKind) (source : Nat) (old new : Level) (x : Nat) : State :=
  if old = new then s else s.raise kind source (.limit old new (milliAmps x))

/-- An outlet's machine is evaluated (R51). -/
def State.evalOutlet (s : State) (o : Outlet) (x : Nat) : State :=
  let t := s.outletLimits[o].evaluate s.outletTable.active[o].limits x
  State.raiseLimit { s with outletLimits := upd s.outletLimits o fun _ => t } .outletLimit (numberOf o)
    s.outletLimits[o].level t.level x

/-- A bank's machine is evaluated (R51); leaving CRITICAL clears the exhausted mark, and the shed unit's timers follow
the state (R56, R59). -/
def State.evalBank (s : State) (b : Bank) (x : Nat) : State :=
  let t := s.bankLimits[b].evaluate s.bankTable.active[b].limits x
  let s1 := State.raiseLimit { s with bankLimits := upd s.bankLimits b fun _ => t } .branchLimit (numberOf b)
    s.bankLimits[b].level t.level x
  (s1.onShed b fun u => { u with exhausted := u.exhausted && t.level == .critical }).refreshSheds b

/-- The phase sum: the elements of the banks whose active entry names the phase (R52). -/
def State.phaseSum (s : State) (p : SupplyPhase) : Nat :=
  ((allBanks.filter fun b => s.bankTable.active[b].phase == p).map fun b => (s.phaseElements[b]).getD 0).sum

/-- The closing bank's element is updated and its phase's machine evaluated (R53). -/
def State.evalPhase (s : State) (b : Bank) (x : Nat) : State :=
  let p := s.bankTable.active[b].phase
  let s1 : State := { s with phaseElements := upd s.phaseElements b fun _ => some x }
  let sum := s1.phaseSum p
  let t := s1.phaseLimits[p].evaluate s1.phaseTable.active[p].limits sum
  State.raiseLimit { s1 with phaseLimits := upd s1.phaseLimits p fun _ => t } .phaseLimit (numberOf p)
    s1.phaseLimits[p].level t.level sum

/-- A load-lost detector acts on an Irms_code (R55); the result says whether LOAD_LOST is raised. -/
def LoadLost.step (d : LoadLost) (e : OutletEntry) (relay : RelayState) (x : Nat) : LoadLost × Bool :=
  if relay ≠ .on ∨ e.low = 0 then ({ lost := false, run := 0 }, false)
  else if d.lost then
    if e.low + e.hysteresis ≤ x then ({ lost := false, run := 0 }, false) else (d, false)
  else if x < e.low then
    if e.persistence ≤ d.run + 1 then ({ lost := true, run := d.run + 1 }, true)
    else ({ d with run := d.run + 1 }, false)
  else ({ d with run := 0 }, false)

/-- An outlet's load-lost detector at a valid close (R55). -/
def State.evalLoad (s : State) (o : Outlet) (x : Nat) : State :=
  let e := s.outletTable.active[o]
  let r := s.loadLost[o].step e s.relays[o].state x
  let s1 : State := { s with loadLost := upd s.loadLost o fun _ => r.1 }
  if r.2 then s1.raise .loadLost (numberOf o) (.loadLost (milliAmps x) (milliAmps e.low)) else s1

/-- A valid close of bank `b` is taken by the limit unit (R51, R53, R55): `irms` is the outlets' Irms_code. -/
def State.limitsAtClose (s : State) (b : Bank) (irms : Outlet → Nat) (bankIrms : Nat) : State :=
  let s1 := (outletsOf b).foldl (fun s o => (s.evalOutlet o (irms o)).evalLoad o (irms o)) s
  (s1.evalBank b bankIrms).evalPhase b bankIrms

/-! ## Shedding (R57, R58) -/

/-- An outlet is a shed candidate (R57). -/
def State.isCandidate (s : State) (o : Outlet) : Bool :=
  s.relays[o].state == .on && decide (1 ≤ s.outletTable.active[o].shedPriority) && !s.isShed o && !s.groupBusy o

/-- The bank's candidates in the order of choice: lowest priority, then highest outlet number (R57). -/
def State.shedOrder (s : State) (b : Bank) : List Outlet :=
  (List.range 16).flatMap fun p =>
    (outletsOf b).reverse.filter fun o => s.isCandidate o && s.outletTable.active[o].shedPriority == p

/-- The first candidate whose OPEN the queue accepts is shed; with none, EXHAUSTED (R57, R58). -/
def State.shedFirst (b : Bank) : List Outlet → State → State
  | [], s =>
    if s.sheds[b].exhausted then s
    else (s.onShed b fun u => { u with exhausted := true }).raise .shed (numberOf b) (.shed .exhausted)
  | o :: rest, s =>
    let q := s.request o .opens .shed
    if q.1.accepted then
      ((q.2.onShed b fun u => { u with shedFlight := some o }).pushShed o).raise .shed (numberOf b)
        (.shed (.shedOutlet o))
    else State.shedFirst b rest s

/-- SHED_TIMER_EXPIRY (R56 to R58): the timer starts again when nothing was shed. -/
def execShedTimerExpiry (b : Bank) (s : State) : Result :=
  if due s.sheds[b].shedTimer s.uptime s.bankTable.active[b].shedDelay then
    let s1 := s.onShed b fun u => { u with shedTimer := none }
    .next ((State.shedFirst b (s1.shedOrder b) s1).refreshSheds b)
  else .next s

/-- The restore of the top of the stack (R60). -/
def State.restoreTop (s : State) (b : Bank) : State :=
  match s.sheds[b].stack with
  | [] => s
  | o :: _ =>
    if s.groupBusy o then s
    else
      let q := s.request o .close .restore
      if q.1.accepted then
        ((q.2.onShed b fun u => { u with restoreFlight := some o }).unshed o).raise .shed (numberOf b)
          (.shed (.restored o))
      else s

/-- RESTORE_TIMER_EXPIRY (R59, R60): the timer starts again when nothing was restored. -/
def execRestoreTimerExpiry (b : Bank) (s : State) : Result :=
  if due s.sheds[b].restoreTimer s.uptime (s.bankTable.active[b].restoreDelay * 1000) then
    .next (((s.onShed b fun u => { u with restoreTimer := none }).restoreTop b).refreshSheds b)
  else .next s

end Sys2Proof.Machine
end

