-- ==== Sys2Proof/Machine/Relays.lean ====
section
/-! DEFINITION. Machine/Relays.lean: the relay block: what it reads of each set (R64 to R66), verification (R70 to R73),
the continuous watch (R74, R75), bank loss (R78), and CLEAR_FAULT (R77). -/

namespace Sys2Proof.Machine

/-- A relay record in state `st`, with no action in flight and both watch counts 0. -/
def Relay.settled (st : RelayState) (d : Option FaultDetail) : Relay :=
  { state := st, detail := d, flight := none, weld := 0, dead := 0 }

/-! ## Sets -/

/-- The state a closed bit gives. -/
def stateOfBit (closed : Bool) : RelayState := if closed then .on else .off

/-- A difference between the recorded state and a closed bit is adopted (R65, R66). -/
def State.reconcile (s : State) (o : Outlet) (old new : RelayState) (c : ReconcileCause) : State :=
  (s.setRelay o fun _ => .settled new none).raise .reconcile (numberOf o) (.reconcile old new c)

/-- What one set tells of outlet `o` (R64, R65, R66): UNKNOWN is resolved by any set, OFF and ON are compared with a
received one. -/
def State.relaySees (s : State) (o : Outlet) (closed substituted : Bool) (c : ReconcileCause) : State :=
  match s.relays[o].state with
  | .unknown => s.setRelay o fun _ => .settled (stateOfBit closed) none
  | .off => if closed && !substituted then s.reconcile o .off .on c else s
  | .on => if !closed && !substituted then s.reconcile o .on .off c else s
  | .closing => s
  | .opening => s
  | .faultOpen => s
  | .faultWelded => s

/-- The relay block reads a set of bank `b`, positions 1 to 8 in order (DESIGN CHOICE, entry 7). -/
def State.relaySet (s : State) (b : Bank) (closed : BitVec 8) (substituted : Bool) (c : ReconcileCause) : State :=
  allPositions.foldl (fun s p => s.relaySees (outletAt b p) (closed.getLsbD p.val) substituted c) s

/-! ## Verification -/

/-- A window's last set number. -/
def Window.last (w : Window) : SetNo := w.first + BitVec.ofNat 32 (w.n - 1)

/-- The bits a close verifies an action by, when it does (R70). -/
def Flight.verifiedBy (f : Flight) (w : Window) : Option ReceivedSet :=
  match w.lastReceived with
  | none => none
  | some r => if 0 ≤ setDiff w.last f.verifyAt ∧ 0 ≤ setDiff r.num f.verifyAt then some r else none

/-- The verification of a CLOSE (R71). -/
def verifyClose (closed linePresent load : Bool) : RelayState × Option FaultDetail :=
  if !closed then (.faultOpen, some .noOperate)
  else if linePresent && !load then (.faultOpen, some .noOutput)
  else (.on, none)

/-- The verification of an OPEN (R72); `irms` is absent for an INVALID close. -/
def verifyOpen (closed load : Bool) (irms : Option Nat) (weld : Nat) : RelayState × Option FaultDetail :=
  if closed then (.faultWelded, some .contactClosed)
  else if load then (.faultWelded, some .outputLive)
  else
    match irms with
    | none => (.off, none)
    | some x => if x < weld then (.off, none) else (.faultWelded, some .outputLive)

/-- An action is verified: the state, the completion, and RELAY_FAULT for a fault (R73). -/
def State.verified (s : State) (o : Outlet) (f : Flight) (closed load : Bool) (irms : Option Nat)
    (result : RelayState × Option FaultDetail) : State :=
  let s1 := s.setRelay o fun _ => .settled result.1 result.2
  if result.1.faulted then
    (s1.complete o .fault (some f.actuateAt)).raise .relayFault (numberOf o)
      (.relayFault result.1 result.2
        (match f.action with | .close => .verifyClose | .opens => .verifyOpen)
        (some closed) load (irms.map milliAmps))
  else s1.complete o .done (some f.actuateAt)

/-! ## The watch -/

/-- A fault that the watch finds at its third close (R74, R75). -/
def State.watchFault (s : State) (o : Outlet) (st : RelayState) (d : FaultDetail) (load : Bool) (irms : Option Nat) :
    State :=
  (s.setRelay o fun _ => .settled st (some d)).raise .relayFault (numberOf o)
    (.relayFault st (some d) .watch none load (irms.map milliAmps))

/-- The weld watch of an OFF outlet at a published close (R74). -/
def State.weldWatch (s : State) (o : Outlet) (load : Bool) (irms : Nat) : State :=
  let r := s.relays[o]
  if load || decide (s.outletTable.active[o].weld ≤ irms) then
    if Config.watchCount ≤ r.weld + 1 then s.watchFault o .faultWelded .outputLive load (some irms)
    else s.onRelay o fun r => { r with weld := r.weld + 1 }
  else s.onRelay o fun r => { r with weld := 0 }

/-- The open watch of an ON outlet at a valid or NO_LINE close (R75). -/
def State.openWatch (s : State) (o : Outlet) (kind : WindowKind) (load : Bool) (irms : Option Nat) : State :=
  let r := s.relays[o]
  if kind = .valid ∧ load = false then
    if Config.watchCount ≤ r.dead + 1 then s.watchFault o .faultOpen .noOutput load irms
    else s.onRelay o fun r => { r with dead := r.dead + 1 }
  else s.onRelay o fun r => { r with dead := 0 }

/-- A window close as the relay block takes it for one outlet (R70 to R75); `irms` is absent for an INVALID close. -/
def State.relayAtClose (s : State) (o : Outlet) (w : Window) (kind : WindowKind) (atCrossing : Bool)
    (irms : Option Nat) : State :=
  let p := (posOf o).val
  let r := s.relays[o]
  match r.flight with
  | some f =>
    match f.verifiedBy w with
    | none => s
    | some x =>
      s.verified o f (x.closed.getLsbD p) (x.load.getLsbD p) irms
        (match f.action with
          | .close => verifyClose (x.closed.getLsbD p) atCrossing (x.load.getLsbD p)
          | .opens => verifyOpen (x.closed.getLsbD p) (x.load.getLsbD p) irms s.outletTable.active[o].weld)
  | none =>
    match r.state, irms with
    | .off, some x => s.weldWatch o (w.load.getLsbD p) x
    | .on, some x => s.openWatch o kind (w.load.getLsbD p) (some x)
    | _, _ => s

/-! ## Bank loss (R78) -/

/-- One outlet at entry of its lane to LOST (R78). -/
def State.relayLost (s : State) (o : Outlet) : State :=
  match s.relays[o].flight with
  | some f => (s.setRelay o fun _ => .settled .unknown none).complete o .lost (some f.actuateAt)
  | none => s.onRelay o fun r => { r with weld := 0, dead := 0 }

/-! ## CLEAR_FAULT (R77) -/

/-- CLEAR_FAULT (R77). -/
def execClearFault (tag : Byte) (payload : List Byte) (s : State) : Result :=
  s.take 0x07 tag payload 1 fun s =>
    match indexed 48 (arg payload 0) with
    | none => s.reply .badArg
    | some o =>
      if s.relays[o].state.faulted then (s.setRelay o fun _ => .settled .unknown none).reply .ok
      else s.reply .state

end Sys2Proof.Machine
end

