-- ==== Sys2Proof/Machine/Captures.lean ====
section
/-! DEFINITION. Machine/Captures.lean: the capture unit (R185 to R188). -/

namespace Sys2Proof.Machine

/-- The unit captures an outlet of bank `b`. -/
def Capture.onBank (c : Capture) (b : Bank) : Bool :=
  match c.outlet with
  | none => false
  | some o => bankOf o == b

/-- A window of bank `b` opens with set `first` (R187). -/
def Capture.windowOpens (c : Capture) (b : Bank) (first : SetNo) : Capture :=
  if c.state = .armed ∧ c.onBank b then { c with state := .filling, first := some first } else c

/-- A set of bank `b` is added to the window; `pair` gives the pair of a position (R187). -/
def Capture.setAdded (c : Capture) (b : Bank) (pair : Position → Pair) : Capture :=
  match c.outlet with
  | none => c
  | some o =>
    if c.state = .filling ∧ bankOf o = b then { c with buffer := c.buffer ++ [pair (posOf o)] } else c

/-- The header as it stands (R188, spec/12 12.5). -/
def Capture.view (c : Capture) : CaptureHeader :=
  match c.state, c.header with
  | .full, some h => h
  | .filling, _ =>
    { outlet := c.outlet, result := none, kind := none, n := c.buffer.length, first := c.first, stamp := none }
  | _, _ => { outlet := none, result := none, kind := none, n := 0, first := none, stamp := none }

/-- CAPTURE_DONE with its header (R187). -/
def State.raiseCaptureDone (s : State) (o : Outlet) (h : CaptureHeader) : State :=
  s.raiseEvent { kind := .captureDone, source := numberOf o, detail := .captureDone h, records := [.capture h] }

/-- A window of bank `b` closes, of any kind: a filling capture is COMPLETE (R187). -/
def State.captureAtClose (s : State) (b : Bank) (kind : WindowKind) : State :=
  match s.capture.outlet with
  | none => s
  | some o =>
    if s.capture.state = .filling ∧ bankOf o = b then
      let h : CaptureHeader :=
        { outlet := some o, result := some .complete, kind := some kind, n := s.capture.buffer.length,
          first := s.capture.first, stamp := some (s.interval.number, s.uptime) }
      State.raiseCaptureDone { s with capture := { s.capture with state := .full, header := some h } } o h
    else s

/-- The lane of bank `b` enters LOST: a capture ARMED or FILLING on it is ABORTED (R187). -/
def State.captureLost (s : State) (b : Bank) : State :=
  match s.capture.outlet with
  | none => s
  | some o =>
    if (s.capture.state = .armed ∨ s.capture.state = .filling) ∧ bankOf o = b then
      State.raiseCaptureDone { s with capture := .reset } o
        { outlet := some o, result := some .aborted, kind := none, n := s.capture.buffer.length,
          first := s.capture.first, stamp := some (s.interval.number, s.uptime) }
    else s

/-- CAPTURE (R186). -/
def execCapture (tag : Byte) (payload : List Byte) (s : State) : Result :=
  s.take 0x16 tag payload 1 fun s =>
    match indexed 48 (arg payload 0) with
    | none => s.reply .badArg
    | some o =>
      if s.capture.state = .armed ∨ s.capture.state = .filling then s.reply .busy
      else if !s.isUp (bankOf o) then s.reply .bankDown
      else
        State.reply
          { s with capture := { state := .armed, outlet := some o, buffer := [], first := none, header := none } } .ok

/-- READ_CAPTURE (R188). -/
def execReadCapture (tag : Byte) (payload : List Byte) (s : State) : Result :=
  s.take 0x17 tag payload 1 fun s =>
    let first := arg payload 0
    if first < 1 ∨ 96 < first then s.reply .badArg
    else if s.capture.state ≠ .full then s.reply .state
    else if s.capture.view.n < first then s.reply .badArg
    else s.replyWith .ok (.capture s.capture.view ((s.capture.buffer.drop (first - 1)).take 16))

end Sys2Proof.Machine
end

