-- ==== Sys2Proof/Machine/Metering.lean ====
section
/-! DEFINITION. Machine/Metering.lean: the metering engine (spec/02): the handing over of a set, windows and their closes,
results, energy and frequency; READ_OUTLET and CLEAR_ENERGY. -/

namespace Sys2Proof.Machine

/-! ## Results of a window (R32 to R39) -/

/-- An outlet's creep threshold in power codes (R36). -/
def OutletEntry.creepCodes (e : OutletEntry) : Nat := e.creep * 1000

/-- The results of one outlet at a published close (R32 to R34, R36). -/
def OutletSums.result (x : OutletSums) (n vrms creepT : Nat) (mark : Bool) : OutletResult :=
  let p := roundDiv x.vi n
  let irms := rmsCode x.i2 n
  let creep := decide (p.natAbs < creepT)
  { irms := irms, pCode := p, pf := powerFactor p vrms irms creep
    power := if creep then 0 else roundDiv p 2000, overRange := mark, creep := creep }

/-- The energy fields after `units` have been added to the residue (R37). -/
def OutletMeter.addEnergy (m : OutletMeter) (units : Nat) : OutletMeter :=
  { m with energy := (carryEnergy m.energy (m.residue + units)).1
           residue := (carryEnergy m.energy (m.residue + units)).2 }

/-- The interval sums after a valid close (R44). -/
def IntervalSums.addValid (t : IntervalSums) (x : OutletSums) (n creepT : Nat) (r : OutletResult) : IntervalSums :=
  { n := t.n + n, i2 := t.i2 + x.i2, vi := t.vi + x.vi, maxIrms := max t.maxIrms r.irms
    valid := satSucc Config.countMax t.valid, estimated := t.estimated
    reverse := t.reverse || decide (r.pCode < 0 ∧ r.pCode ≤ -(creepT : Int))
    overRange := t.overRange || r.overRange }

/-- One outlet at a valid close (R32, R36, R37, R44). -/
def OutletMeter.validClose (m : OutletMeter) (x : OutletSums) (n creepT : Nat) (r : OutletResult) : OutletMeter :=
  let m1 : OutletMeter :=
    { m with latest := some r, lastValidP := some r.pCode, sums := m.sums.addValid x n creepT r }
  if 0 < r.pCode ∧ (creepT : Int) ≤ r.pCode then m1.addEnergy x.vi.toNat else m1

/-- One outlet at a NO_LINE close (R27, R36, R44). -/
def OutletMeter.noLineClose (m : OutletMeter) (r : OutletResult) : OutletMeter :=
  { m with latest := some r, lastValidP := none
           sums := { m.sums with overRange := m.sums.overRange || r.overRange } }

/-- The energy estimated for an INVALID window of `n` sets (R38). -/
def OutletMeter.estimate (m : OutletMeter) (n creepT : Nat) : Nat :=
  match m.lastValidP with
  | none => 0
  | some p => if 0 < p ∧ (creepT : Int) ≤ p then p.toNat * n else 0

/-- One outlet at an INVALID close (R38, R44). -/
def OutletMeter.invalidClose (m : OutletMeter) (n creepT : Nat) : OutletMeter :=
  { m.addEnergy (m.estimate n creepT) with
    sums := { m.sums with estimated := satSucc Config.countMax m.sums.estimated } }

/-- The kind of a window that closes (R28). -/
def Window.kind (w : Window) (atCrossing : Bool) : WindowKind :=
  if w.invalid || (!w.aligned && atCrossing) then .invalid else if atCrossing then .valid else .noLine

def Window.vrms (w : Window) : Nat := rmsCode w.sumV2 w.n
def Window.bankIrms (w : Window) : Nat := rmsCode w.sumI2 w.n
def Window.irms (w : Window) (p : Position) : Nat := rmsCode w.sums[p].i2 w.n

/-- An outlet's OVER_RANGE at a published close (R21). -/
def Window.outletOver (w : Window) (p : Position) : Bool := w.voltOver || w.curOver.getLsbD p.val

/-- One outlet of the bank at a close of kind `k`. -/
def OutletMeter.atClose (m : OutletMeter) (w : Window) (k : WindowKind) (p : Position) (e : OutletEntry) :
    OutletMeter :=
  let r := w.sums[p].result w.n w.vrms e.creepCodes (w.outletOver p)
  match k with
  | .valid => m.validClose w.sums[p] w.n e.creepCodes r
  | .noLine => m.noLineClose r
  | .invalid => m.invalidClose w.n e.creepCodes

/-- The bank's published results (R32). -/
def Window.result (w : Window) (k : WindowKind) (now : Uptime) : BankResult :=
  { kind := k, last := w.last, time := now, n := w.n, vrms := w.vrms, irms := w.bankIrms
    overRange := w.voltOver || w.curOver != 0 }

/-- The bank's tracker, frequency and results after a close; no window is open (R24, R32, R39). -/
def BankMeter.atClose (m : BankMeter) (w : Window) (k : WindowKind) (now : Uptime) : BankMeter :=
  match k with
  | .valid =>
    let list := (m.freqList ++ [w.n]).drop (m.freqList.length + 1 - 8)
    { m with window := none, winLen := some w.n, lastKind := some .valid, freqList := list
             frequency := frequencyOf list, latest := some (w.result .valid now) }
  | .noLine =>
    { m with window := none, lastKind := some .noLine, freqList := [], frequency := 0
             latest := some (w.result .noLine now) }
  | .invalid => { m with window := none, lastKind := some .invalid, freqList := [], frequency := 0 }

/-! ## Windows -/

def State.onMeter (s : State) (b : Bank) (f : BankMeter → BankMeter) : State := { s with meters := upd s.meters b f }

def State.onOutlet (s : State) (o : Outlet) (f : OutletMeter → OutletMeter) : State :=
  { s with outlets := upd s.outlets o f }

/-- The eight outlets of a bank act on a close (R32 to R38, R44). -/
def State.metersAtClose (s : State) (b : Bank) (w : Window) (k : WindowKind) : State :=
  allPositions.foldl
    (fun s p => s.onOutlet (outletAt b p) fun m =>
      m.atClose w k p s.outletTable.active[outletAt b p])
    (s.onMeter b fun m => m.atClose w k s.uptime)

/-- The relay block takes the close for the eight outlets of the bank (R70 to R75). -/
def State.relaysAtClose (s : State) (b : Bank) (w : Window) (k : WindowKind) (atCrossing : Bool) : State :=
  allPositions.foldl
    (fun s p => s.relayAtClose (outletAt b p) w k atCrossing
      (match k with | .valid => some (w.irms p) | .noLine => some (w.irms p) | .invalid => none)) s

/-- The limit unit takes a valid close (R35). -/
def State.limitsAt (s : State) (b : Bank) (w : Window) (k : WindowKind) : State :=
  match k with
  | .valid => s.limitsAtClose b (fun o => w.irms (posOf o)) w.bankIrms
  | .noLine => s
  | .invalid => s

/-- The open window of bank `b` closes, at a crossing or at its 96th set, and is handed to its consumers, the table
store last (R26 to R28, R30, R35). The boundary is passed here, not at the next set (DESIGN CHOICE, entry 24). -/
def State.closeWindow (s : State) (b : Bank) (atCrossing : Bool) : State :=
  match s.meters[b].window with
  | none => s
  | some w =>
    let k := w.kind atCrossing
    (((((s.metersAtClose b w k).limitsAt b w k).relaysAtClose b w k atCrossing).captureAtClose b k).boundary b)

/-- A window with nothing in it (R25). -/
def Window.opened (aligned : Bool) (first : SetNo) : Window :=
  { aligned := aligned, first := first, n := 0, subTotal := 0, subRun := 0, invalid := false, voltOver := false,
    curOver := 0, sumV2 := 0, sumI2 := 0, sums := Vector.replicate 8 { i2 := 0, vi := 0 }, lastReceived := none,
    closed := 0, load := 0 }

/-- A window of bank `b` opens with set `num` (R25); an aligned one moves c (R24). -/
def State.openWindow (s : State) (b : Bank) (num : SetNo) (aligned : Bool) : State :=
  let s1 := s.onMeter b fun m =>
    { m with window := some (.opened aligned num), crossing := if aligned then some num else m.crossing }
  { s1 with capture := s1.capture.windowOpens b num }

/-- A set as it is added to a window: its calibrated values under the entries active then. -/
structure CalSet where
  num : SetNo
  substituted : Bool
  raw : RawSet
  v : Int
  voltOver : Bool
  /-- Calibrated current and over-range mark of each position. -/
  cur : Vector (Int × Bool) 8
  /-- The aligned voltage of each position (R22). -/
  aligned : Vector Int 8
deriving DecidableEq, Repr

/-- The voltage of the history that pairs with a delay of `d` sets, or the earliest held (R22). -/
def alignedVoltage (history : List Int) (d : Nat) : Int := history.getD (min d (history.length - 1)) 0

/-- The set calibrated for adding (R20 to R22); the history already holds the set's own voltage. -/
def State.calSet (s : State) (b : Bank) (num : SetNo) (raw : RawSet) (substituted : Bool) : CalSet :=
  let ve := s.calTable.active[voltEntry b]
  { num := num, substituted := substituted, raw := raw
    v := (calibrate ve raw.volt).1, voltOver := overRange ve raw.volt
    cur := Vector.ofFn fun p =>
      let e := s.calTable.active[currentEntry (outletAt b p)]
      ((calibrate e raw.cur[p]).1, overRange e raw.cur[p])
    aligned := Vector.ofFn fun p =>
      alignedVoltage s.meters[b].history s.calTable.active[currentEntry (outletAt b p)].delay }

/-- A mask with bit p - 1 of each position that satisfies `f`. -/
def positionMask (f : Position → Bool) : BitVec 8 := BitVec.ofNat 8 (maskOf (allPositions.map f))

/-- A set is added to a window (R21, R28, R31). -/
def Window.add (w : Window) (x : CalSet) : Window :=
  let run := if x.substituted then w.subRun + 1 else 0
  let total := if x.substituted then w.subTotal + 1 else w.subTotal
  let ib := (x.cur.toList.map (·.1)).sum
  { w with
    n := w.n + 1, subTotal := total, subRun := run
    invalid := w.invalid || decide (Config.maxSubRun < run ∨ Config.maxSubTotal < total)
    voltOver := w.voltOver || x.voltOver
    curOver := w.curOver ||| positionMask fun p => x.cur[p].2
    sumV2 := w.sumV2 + x.v.natAbs * x.v.natAbs
    sumI2 := w.sumI2 + ib.natAbs * ib.natAbs
    sums := Vector.ofFn fun p =>
      { i2 := w.sums[p].i2 + x.cur[p].1.natAbs * x.cur[p].1.natAbs
        vi := w.sums[p].vi + x.aligned[p] * x.cur[p].1 }
    lastReceived :=
      if x.substituted then w.lastReceived
      else some { num := x.num, closed := x.raw.closed, load := x.raw.load }
    closed := x.raw.closed, load := x.raw.load }

/-- The pair the capture unit takes of a set (R187). -/
def CalSet.pair (x : CalSet) (p : Position) : Pair := { v := x.aligned[p], i := x.cur[p].1, substituted := x.substituted }

/-- The set is added to the open window of bank `b` and to a filling capture (R31, R187). -/
def State.addSet (s : State) (b : Bank) (x : CalSet) : State :=
  let s1 := s.onMeter b fun m => { m with window := m.window.map fun w => w.add x }
  { s1 with capture := s1.capture.setAdded b x.pair }

/-- A window reset of bank `b` (R29). -/
def BankMeter.windowReset (m : BankMeter) : BankMeter :=
  { m with history := [], armed := false, window := none, crossing := none, winLen := none, lastKind := none
           freqList := [], frequency := 0 }

/-! ## The handing over of a set -/

/-- A positive-going zero crossing at a set of calibrated voltage `v` (R23). -/
def BankMeter.crosses (m : BankMeter) (v : Int) (substituted : Bool) : Bool :=
  match m.history with
  | [] => false
  | u :: _ => decide (u < 0 ∧ 0 ≤ v) && m.armed && !substituted

/-- History and arming after a set (R22, R23). -/
def BankMeter.enterVoltage (m : BankMeter) (v : Int) (crossing : Bool) (hysteresis : Nat) : BankMeter :=
  { m with history := (v :: m.history).take 4
           armed := if crossing then false else m.armed || decide (v < -(hysteresis : Int)) }

/-- Whether a crossing closes the open window (R26). -/
def Window.endsAtCrossing (w : Window) : Bool := !w.aligned || decide (Config.minAligned ≤ w.n)

/-- The window is brought to where the set can be added: one is opened if none is open (R25), and a crossing that is
not ignored closes the open one and opens the next (R26). -/
def State.placeSet (s : State) (b : Bank) (num : SetNo) (crossing : Bool) : State :=
  match s.meters[b].window with
  | none => s.openWindow b num crossing
  | some w => if crossing && w.endsAtCrossing then (s.closeWindow b true).openWindow b num true else s

/-- The window's length has reached 96 sets (R27). -/
def BankMeter.isFull (m : BankMeter) : Bool :=
  match m.window with
  | none => false
  | some w => decide (Config.fullWindow ≤ w.n)

/-- A window of 96 sets closes after its last (R27). -/
def State.closeFull (s : State) (b : Bank) : State := if s.meters[b].isFull then s.closeWindow b false else s

/-- Set `num` of bank `b` is handed over (R20 to R31). The relay block reads the set after a crossing's close and
before the set is added (entry 8). -/
def State.handSet (s : State) (b : Bank) (num : SetNo) (raw : RawSet) (substituted : Bool) : State :=
  let v := (calibrate s.calTable.active[voltEntry b] raw.volt).1
  let crossing := s.meters[b].crosses v substituted
  let s1 := s.onMeter b fun m => m.enterVoltage v crossing s.bankTable.active[b].zeroCross
  let s2 := (s1.placeSet b num crossing).relaySet b raw.closed substituted .uncommanded
  State.closeFull (s2.addSet b (s2.calSet b num raw substituted)) b

/-! ## Commands -/

/-- What READ_OUTLET reports (R40). -/
def State.outletReport (s : State) (o : Outlet) : OutletReport :=
  let m := s.meters[bankOf o]
  { link := s.lanes[bankOf o].link
    results := match m.latest, s.outlets[o].latest with
      | some bank, some r => some (bank, m.frequency, r)
      | _, _ => none
    relay := s.relays[o].state, detail := s.relays[o].detail
    level := s.outletLimits[o].level, loadLost := s.loadLost[o].lost, energy := s.outlets[o].energy }

/-- READ_OUTLET (R40). -/
def execReadOutlet (tag : Byte) (payload : List Byte) (s : State) : Result :=
  s.take 0x09 tag payload 1 fun s =>
    match indexed 48 (arg payload 0) with
    | none => s.reply .badArg
    | some o => s.replyWith .ok (.outlet (s.outletReport o))

/-- Energy counter and residue set to 0 (R41). -/
def OutletMeter.clearEnergy (m : OutletMeter) : OutletMeter := { m with energy := 0, residue := 0 }

/-- CLEAR_ENERGY (R41); 0 names ALL (spec/12 12.3). -/
def execClearEnergy (tag : Byte) (payload : List Byte) (s : State) : Result :=
  s.take 0x08 tag payload 1 fun s =>
    if arg payload 0 = 0 then
      State.reply { s with outlets := Vector.ofFn fun o => s.outlets[o].clearEnergy } .ok
    else
      match indexed 48 (arg payload 0) with
      | none => s.reply .badArg
      | some o => (s.onOutlet o OutletMeter.clearEnergy).reply .ok

end Sys2Proof.Machine
end

