-- ==== Sys2Proof/Machine/Intervals.lean ====
section
/-! DEFINITION. Machine/Intervals.lean: interval results and records, and the interval close (R43 to R47, R191). -/

namespace Sys2Proof.Machine

/-- Interval Irms_code, absent when no valid window closed (R45). -/
def IntervalSums.irms (t : IntervalSums) : Option Nat := if t.n = 0 then none else some (rmsCode t.i2 t.n)

/-- Interval P in 0.1 W, absent when no valid window closed (R45). -/
def IntervalSums.power (t : IntervalSums) (creepT : Nat) : Option Int :=
  if t.n = 0 then none
  else if (roundDiv t.vi t.n).natAbs < creepT then some 0
  else some (roundDiv (roundDiv t.vi t.n) 2000)

/-- Interval P of an outlet from the sums as they stand. -/
def State.intervalPower (s : State) (o : Outlet) : Option Int :=
  s.outlets[o].sums.power s.outletTable.active[o].creepCodes

/-- Interval Irms_code of an outlet, 0 when absent (R113). -/
def State.intervalIrms (s : State) (o : Outlet) : Nat := s.outlets[o].sums.irms.getD 0

/-- The block of the outlet at position `p` of bank `b` (R46, spec/12 12.4). -/
def State.outletBlock (s : State) (b : Bank) (p : Position) : OutletBlock :=
  let o := outletAt b p
  let t := s.outlets[o].sums
  { pos := p, irms := t.irms.map milliAmps, power := s.intervalPower o, maxIrms := milliAmps t.maxIrms
    valid := t.valid, estimated := t.estimated, relay := s.relays[o].state, reverse := t.reverse
    overRange := t.overRange, energy := s.outlets[o].energy }

/-- The head of bank `b`'s interval record, with the uptime of the close or of a trigger (R46). -/
def State.intervalHead (s : State) (b : Bank) (time : Uptime) : IntervalHead :=
  { number := s.interval.number, time := time, length := s.interval.length, bank := b, link := s.lanes[b].link }

/-- The two parts of bank `b`'s interval record (R191). -/
def State.intervalParts (s : State) (b : Bank) (time : Uptime) : List RecordBody :=
  [.interval 1 (s.intervalHead b time) ((allPositions.take 4).map (s.outletBlock b)),
   .interval 2 (s.intervalHead b time) ((allPositions.drop 4).map (s.outletBlock b))]

/-- INTERVAL_CLOSED of bank `b`, made from the state before the close (R46). -/
def State.intervalEvent (s : State) (b : Bank) (time : Uptime) : Event :=
  { kind := .intervalClosed, source := numberOf b, detail := .intervalClosed (s.intervalHead b time)
    records := s.intervalParts b time }

/-- The uptime at which the interval in progress closes (R43). -/
def State.intervalEnd (s : State) : Uptime := expiryOf s.interval.start (s.interval.length * 1000)

/-- The sums of all outlets are cleared (R45). -/
def State.clearSums (s : State) : State :=
  { s with outlets := Vector.ofFn fun o => { s.outlets[o] with sums := IntervalSums.clear } }

/-- The interval close (R43 to R47): records and events of banks 1 to 6, the next interval, then the group side. -/
def State.closeInterval (s : State) : State :=
  let s1 := allBanks.foldl (fun t b => t.raiseEvent (s.intervalEvent b s.intervalEnd)) s
  let s2 : State :=
    { s1.clearSums with
      interval := { start := s.intervalEnd, length := s.systemTable.active[0].intervalLength
                    number := s.interval.number + 1 } }
  (s2.appendHistories s.intervalPower).verifyCurrent s.intervalIrms

/-- INTERVAL_CLOSE (R43). -/
def execIntervalClose (s : State) : Result :=
  if s.interval.length * 1000 ≤ elapsed s.uptime s.interval.start then .next s.closeInterval else .next s

end Sys2Proof.Machine
end

