-- ==== Sys2Proof/Machine/Lanes.lean ====
section
/-! DEFINITION. Machine/Lanes.lean: the lane receivers and transmitters (spec/01). -/

namespace Sys2Proof.Machine

/-! ## Receiving -/

/-- The run is given up (R7, R8, R14). -/
def Lane.clearRun (l : Lane) : Lane := { l with runCount := 0, runSeq := none }

def LinkState.hears : LinkState → Bool
  | .absent => false
  | .syncing => true
  | .up => true
  | .lost => true

/-- A character is heard (R7): the signal timer restarts, and an ABSENT lane becomes SYNCING, with no framing yet. -/
def Lane.hear (l : Lane) (now : Uptime) : Lane :=
  if l.link.hears then { l with signal := some now }
  else { l.clearRun with link := .syncing, signal := some now, framing := false, partialCell := [] }

/-- One character joins the partial cell; before framing has begun it is discarded (R2). -/
def Lane.receive (l : Lane) (now : Uptime) (c : LineChar) : Lane :=
  let l' := l.hear now
  if l'.framing then { l' with partialCell := l'.partialCell ++ [c] } else l'

/-- LANE_CHARACTER (R7). -/
def execLaneCharacter (b : Bank) (c : LineChar) (s : State) : Result :=
  .next (s.onLane b fun l => l.receive s.uptime c)

/-- What a cell on a lane turns out to be (R2). -/
inductive LaneVerdict where
  | bad (k : ErrorKind) | good (c : SampleCell)
deriving DecidableEq, Repr

/-- The classification of a lane cell (R2). -/
def classifySample (cell : List LineChar) : LaneVerdict :=
  let bytes := cell.map (·.byte)
  if cell.any fun c => !c.stopOk then .bad .character
  else if areaByte bytes 0 ≠ Config.kindSample ∨ bytes.length ≠ Config.sampleBytes then .bad .length
  else if crc8 (bytes.take (Config.sampleBytes - 1)) ≠ areaByte bytes (Config.sampleBytes - 1) then .bad .crc
  else .good (sampleOf bytes)

/-- An error on the lane of bank `b` is recorded, and gives up a run (R5, R8). -/
def State.laneError (s : State) (b : Bank) (k : ErrorKind) (bytes : List Byte) : State :=
  let before := s.lanes[b].errors
  let after := before.add k bytes
  State.raiseLinkError (s.onLane b fun l => { l.clearRun with errors := after }) (numberOf b) before after k

/-- A good cell enters the lane's FIFO, or is an OVERRUN (R4). -/
def State.offerSample (s : State) (b : Bank) (c : SampleCell) (bytes : List Byte) : State :=
  if s.lanes[b].fifo.length < Config.fifoDepth then s.onLane b fun l => { l with fifo := l.fifo ++ [c] }
  else s.laneError b .overrun bytes

/-- A framed cell of the lane ends (R2). -/
def State.laneCell (s : State) (b : Bank) (cell : List LineChar) : State :=
  match classifySample cell with
  | .bad k => s.laneError b k (cell.map (·.byte))
  | .good c => s.offerSample b c (cell.map (·.byte))

/-- An idle gap ends the cell in progress and begins framing (R2). -/
def Lane.gap (l : Lane) : Lane := { l with framing := true, partialCell := [] }

/-- LANE_CELL_RECEIVED (R2 to R5): an idle gap, after `chars`. In ABSENT they only bring the lane to SYNCING (R7). -/
def execLaneCellReceived (b : Bank) (chars : List LineChar) (s : State) : Result :=
  let l := s.lanes[b]
  if !l.link.hears then
    .next (if chars = [] then s else s.onLane b fun l => (l.hear s.uptime).gap)
  else
    let cell := framedCell l.framing l.partialCell chars
    let s1 := s.onLane b fun l => (if chars = [] then l else l.hear s.uptime).gap
    .next (if cell = [] then s1 else s1.laneCell b cell)

/-- LANE_BREAK (R3). -/
def execLaneBreak (b : Bank) (s : State) : Result :=
  if s.lanes[b].link.hears then
    .next ((s.onLane b fun l => { l with framing := false, partialCell := [] }).laneError b .brk
      (s.lanes[b].partialCell.map (·.byte)))
  else .next s

/-! ## Taking a cell (R8 to R11) -/

/-- The run after a cell is counted (R8). -/
def Lane.countRun (l : Lane) (seq : Byte) : Lane :=
  let next := match l.runSeq with
    | none => 1
    | some q => if seq = q + 1 then l.runCount + 1 else 1
  { l with runCount := next, runSeq := some seq }

/-- The counter's advance to the first set of an UP period, 1 to 256 (R9). -/
def advance (counter : SetNo) (seq : Byte) : Nat :=
  let d := (seq - counter.truncate 8).toNat
  if d = 0 then 256 else d

/-- The lane's own part of entry to UP (R9). -/
def Lane.enterUp (l : Lane) (c : SampleCell) (now : Uptime) : Lane :=
  { l.clearRun with link := .up, counter := l.counter + BitVec.ofNat 32 (advance l.counter c.seq)
                    lastGood := some c.set, silence := some now }

/-- The lane of bank `b` enters UP with its sixteenth cell (R9, R29, R52, R56, R59, R66). BANK_UP is raised before the
relay block's RECONCILEs (DESIGN CHOICE, entry 7). -/
def State.enterUp (s : State) (b : Bank) (c : SampleCell) : State :=
  let left := s.lanes[b].link
  let s1 := (s.onLane b fun l => l.enterUp c s.uptime).onMeter b BankMeter.windowReset
  let s2 := State.raise { s1 with phaseElements := upd s1.phaseElements b fun _ => none } .bankUp (numberOf b)
    (.bankUp left)
  let s3 := ((s2.relaySet b c.set.closed false .atUp).placeIndicate b).refreshSheds b
  s3.handSet b s3.lanes[b].counter c.set false

/-- The counter moves to the next set, which is handed over (R10, R11). -/
def State.handNext (s : State) (b : Bank) (raw : RawSet) (substituted : Bool) : State :=
  let s1 := s.onLane b fun l => { l with counter := l.counter + 1 }
  s1.handSet b s1.lanes[b].counter raw substituted

/-- `n` substitutes of `raw` are handed over (R11). -/
def State.handSubstitutes : Nat → Bank → RawSet → State → State
  | 0, _, _, s => s
  | n + 1, b, raw, s => State.handSubstitutes n b raw (s.handNext b raw true)

/-- A cell taken in UP (R10, R11). -/
def State.takeInUp (s : State) (b : Bank) (c : SampleCell) : State :=
  let l := s.lanes[b]
  let d := (c.seq - l.counter.truncate 8).toNat
  if 1 ≤ d ∧ d ≤ 128 then
    ((State.handSubstitutes (d - 1) b (l.lastGood.getD c.set) s).handNext b c.set false).onLane b
      fun l => { l with lastGood := some c.set, silence := some s.uptime }
  else s

/-- A cell taken in SYNCING or LOST (R8, R9). -/
def State.takeInRun (s : State) (b : Bank) (c : SampleCell) : State :=
  if Config.runToUp ≤ (s.lanes[b].countRun c.seq).runCount then s.enterUp b c
  else s.onLane b fun l => l.countRun c.seq

/-- TAKE_SAMPLE_CELL (R4): the head cell is taken, not sooner than 200 µs after the lane's previous one. -/
def execTakeSampleCell (b : Bank) (s : State) : Result :=
  match s.lanes[b].fifo with
  | [] => .next s
  | c :: rest =>
    if Config.takeSpacing ≤ s.lanes[b].sinceTake then
      let s1 := s.onLane b fun l => { l with fifo := rest, sinceTake := 0 }
      match s.lanes[b].link with
      | .absent => .next s
      | .syncing => .next (s1.takeInRun b c)
      | .up => .next (s1.takeInUp b c)
      | .lost => .next (s1.takeInRun b c)
    else .next s

/-! ## Timers -/

/-- The lane's own part of entry to LOST (R13, R17). -/
def Lane.enterLost (l : Lane) : Lane :=
  { l.clearRun with link := .lost, silence := none, relayList := [], indicator := none }

/-- The bank's window is discarded and its phase element leaves (R29, R52). -/
def State.discardWindow (s : State) (b : Bank) : State :=
  let s1 := s.onMeter b fun m => { m with window := none }
  { s1 with phaseElements := upd s1.phaseElements b fun _ => none }

/-- The lane of bank `b` enters LOST (R13); the blocks act in the order of entry 7. -/
def State.enterLost (s : State) (b : Bank) : State :=
  let s1 := State.raise ((s.onLane b Lane.enterLost).discardWindow b) .bankLost (numberOf b)
    (.bankLost s.lanes[b].counter)
  let s2 := (s1.refreshSheds b).groupBankLost b
  (((outletsOf b).foldl State.relayLost s2).captureLost b).boundary b

/-- SILENCE_TIMER_EXPIRY (R12). -/
def execSilenceTimerExpiry (b : Bank) (s : State) : Result :=
  if s.lanes[b].link = .up ∧ due s.lanes[b].silence s.uptime Config.silenceMs then .next (s.enterLost b)
  else .next s

/-- A lane falls silent (R7, R14). -/
def Lane.enterAbsent (l : Lane) : Lane :=
  { l.clearRun with link := .absent, fifo := [], signal := none, framing := false, partialCell := [] }

/-- SIGNAL_TIMER_EXPIRY (R7, R14). -/
def execSignalTimerExpiry (b : Bank) (s : State) : Result :=
  if due s.lanes[b].signal s.uptime Config.signalMs then
    match s.lanes[b].link with
    | .syncing => .next (s.onLane b Lane.enterAbsent)
    | .lost => .next ((s.onLane b Lane.enterAbsent).raise .bankAbsent (numberOf b) .bankAbsent)
    | .absent => .next s
    | .up => .next s
  else .next s

/-! ## Sending -/

/-- The lane transmitter starts a cell (R16): the oldest of the relay list, else the one in the indicator slot. -/
def Lane.startCell (l : Lane) : Lane :=
  match l.relayList, l.indicator with
  | c :: rest, _ => { l with relayList := rest, line := some c.bytes }
  | [], some m => { l with indicator := none, line := some (indicateBytes m) }
  | [], none => { l with line := none }

/-- LANE_CELL_START (R16). -/
def execLaneCellStart (b : Bank) (s : State) : Result := .next (s.onLane b Lane.startCell)

end Sys2Proof.Machine
end

