-- ==== Sys2Proof/WellFormed.lean ====
section
/-! DEFINITION. WellFormed.lean: which commands can be put to the part (spec/09 9.2, R156, R161). -/

namespace Sys2Proof

/-- A command cell that the receiver lets through holds at most 128 payload bytes (R156). -/
def payloadOk (payload : List Byte) : Bool := decide (payload.length ≤ Config.maxPayload)

/-- The kind names a command of the part: 0x01 READ_ENTRY to 0x1C CLEAR_LINK_ERRORS (spec/12 12.3). -/
def namesCommand (kind : Byte) : Bool := decide (1 ≤ kind.toNat ∧ kind.toNat ≤ 0x1C)

/-- The checks on a command's operands. Banks, phases, outlets and groups are in range by their types. -/
def Instr.wellFormed : Instr → Bool
  | .powerOn => true
  | .laneCharacter _ _ => true
  | .laneCellReceived _ _ => true
  | .laneBreak _ => true
  | .takeSampleCell _ => true
  | .silenceTimerExpiry _ => true
  | .signalTimerExpiry _ => true
  | .laneCellStart _ => true
  | .intervalClose => true
  | .shedTimerExpiry _ => true
  | .restoreTimerExpiry _ => true
  | .dispatchOpportunity => true
  | .settleTimerExpiry _ => true
  | .refillTimerExpiry _ => true
  | .grantTimeout _ => true
  | .dwellExpiry _ => true
  | .staggerExpiry _ => true
  | .bootWindowExpiry _ => true
  | .deadlineExpiry _ => true
  | .graceExpiry _ => true
  | .budgetWindowExpiry _ => true
  | .link0CellReceived _ => true
  | .link0Break _ => true
  | .upstreamCellStart => true
  | .holdInChange _ => true
  | .safePinChange _ => true
  | .restartTakesEffect => true
  | .unknownCommand kind _ payload => !namesCommand kind && payloadOk payload
  | .readEntry _ payload => payloadOk payload
  | .writeEntry _ payload => payloadOk payload
  | .discard _ payload => payloadOk payload
  | .commit _ payload => payloadOk payload
  | .lockCal _ payload => payloadOk payload
  | .switch _ payload => payloadOk payload
  | .clearFault _ payload => payloadOk payload
  | .clearEnergy _ payload => payloadOk payload
  | .readOutlet _ payload => payloadOk payload
  | .cycle _ payload => payloadOk payload
  | .groupOff _ payload => payloadOk payload
  | .groupOn _ payload => payloadOk payload
  | .cancel _ payload => payloadOk payload
  | .readGroup _ payload => payloadOk payload
  | .clearLockout _ payload => payloadOk payload
  | .token _ payload => payloadOk payload
  | .setLevel _ payload => payloadOk payload
  | .setMask _ payload => payloadOk payload
  | .bindStream _ payload => payloadOk payload
  | .unbindStream _ payload => payloadOk payload
  | .triggerStream _ payload => payloadOk payload
  | .capture _ payload => payloadOk payload
  | .readCapture _ payload => payloadOk payload
  | .forceSafe _ payload => payloadOk payload
  | .resume _ payload => payloadOk payload
  | .status _ payload => payloadOk payload
  | .restart _ payload => payloadOk payload
  | .clearLinkErrors _ payload => payloadOk payload

end Sys2Proof
end

