-- ==== Sys2Proof/Machine/Link.lean ====
section
/-! DEFINITION. Machine/Link.lean: the management link unit (spec/09): the link 0 receiver, the upstream arbiter, and the
commands STATUS, RESTART, CLEAR_LINK_ERRORS and the cell of unknown kind. -/

namespace Sys2Proof.Machine

/-! ## Receiving (R156 to R159) -/

/-- What a cell on link 0 turns out to be (R156). -/
inductive CellVerdict where
  | bad (k : ErrorKind) | good (c : CommandCell)
deriving DecidableEq, Repr

/-- The classification of a link 0 cell (R156). -/
def classifyCommand (cell : List LineChar) : CellVerdict :=
  let bytes := cell.map (·.byte)
  let len := (areaByte bytes 2).toNat
  if cell.any fun c => !c.stopOk then .bad .character
  else if bytes.length < 4 ∨ Config.maxPayload < len ∨ bytes.length ≠ len + 4 then .bad .length
  else if crc8 (bytes.take (len + 3)) ≠ areaByte bytes (len + 3) then .bad .crc
  else .good { kind := areaByte bytes 0, tag := areaByte bytes 1, payload := (bytes.drop 3).take len }

/-- An error on link 0 is recorded (R158). -/
def State.linkError (s : State) (k : ErrorKind) (bytes : List Byte) : State :=
  let before := s.link0.errors
  let after := before.add k bytes
  State.raiseLinkError (s.onLink0 fun l => { l with errors := after }) 0 before after k

/-- A good cell enters the command FIFO, or is an OVERRUN (R159). -/
def State.offerCommand (s : State) (c : CommandCell) (bytes : List Byte) : State :=
  if s.link0.fifo.length < Config.fifoDepth then s.onLink0 fun l => { l with fifo := l.fifo ++ [c] }
  else s.linkError .overrun bytes

/-- LINK0_CELL_RECEIVED (R156): an idle gap, after `chars`. -/
def execLink0CellReceived (chars : List LineChar) (s : State) : Result :=
  let cell := framedCell s.link0.framing s.link0.partialCell chars
  let s1 := s.onLink0 fun l => { l with framing := true, partialCell := [] }
  .next (if cell = [] then s1
    else match classifyCommand cell with
      | .bad k => s1.linkError k (cell.map (·.byte))
      | .good c => s1.offerCommand c (cell.map (·.byte)))

/-- LINK0_BREAK (R157). -/
def execLink0Break (chars : List LineChar) (s : State) : Result :=
  .next ((s.onLink0 fun l => { l with fifo := [], framing := false, partialCell := [] }).linkError .brk
    ((framedCell s.link0.framing s.link0.partialCell chars).map (·.byte)))

/-! ## Sending (R163, R164) -/

/-- The response is that of a valid RESTART. -/
def Response.isRestartOk (r : Response) : Bool := r.kind == 0x1B && r.status == .ok

/-- The response filled earliest is started; its slot becomes free. -/
def State.startResponse (s : State) (r : Response) (rest : List Response) : State :=
  s.onLink0 fun l =>
    { l with filled := rest, line := some r.bytes
             restart := if r.isRestartOk then l.restart.map fun p => { p with sending := true } else l.restart }

/-- The oldest notice is started; the room is handed to the notifier (R175). -/
def State.startNotice (s : State) (n : Notice) (rest : List Notice) : State :=
  (s.onLink0 fun l => { l with notices := rest, line := some n.bytes }).onReports fillNotices

/-- The oldest record is started with the gap count, which returns to 0 (R164). -/
def State.startRecord (s : State) (r : Record) (rest : List Record) : State :=
  s.onLink0 fun l => { l with records := rest, line := some (r.bytes l.gap), gap := 0 }

/-- What the arbiter starts on a free line (R163); nothing leaves the line idle. -/
def State.startUpstream (s : State) : State :=
  match s.link0.filled, s.link0.notices, s.link0.records with
  | r :: rest, _, _ => s.startResponse r rest
  | [], n :: rest, _ => s.startNotice n rest
  | [], [], r :: rest => s.startRecord r rest
  | [], [], [] => s.onLink0 fun l => { l with line := none }

/-- The OK response of a RESTART is the cell in progress. -/
def Link0.sendingRestart (l : Link0) : Bool :=
  match l.restart with
  | none => false
  | some p => p.sending

/-- UPSTREAM_CELL_START (R163). -/
def execUpstreamCellStart (s : State) : Result :=
  if s.holdIn || s.link0.sendingRestart then .next s else .next s.startUpstream

/-- HOLD_IN_CHANGE (R163). -/
def execHoldInChange (asserted : Bool) (s : State) : Result := .next { s with holdIn := asserted }

/-! ## Commands -/

/-- A cell of a kind that names no command is taken (R161); a kind that names one is no such cell (entry 2). -/
def execUnknownCommand (kind tag : Byte) (payload : List Byte) (s : State) : Result :=
  if namesCommand kind then .next s else s.take kind tag payload payload.length fun s => s.reply .unknown

/-- What STATUS reports (R165). -/
def State.statusReport (s : State) : StatusReport :=
  { safe := s.safe.cause
    links := Vector.ofFn fun b => s.lanes[b].link
    anyRelayFault := s.anyRelayFault, anyNotUp := s.anyNotUp, anyCritical := s.anyCritical
    anyLockout := s.anyLockout, anyLinkError := s.anyLinkError
    pendingCount := s.notifier.entries.length, overflow := s.notifier.overflow.isSome
    tables := [s.outletTable.state, s.bankTable.state, s.phaseTable.state, s.calTable.state, s.groupTable.state,
               s.grantTable.state, s.systemTable.state]
    calLock := s.calLock, uptime := s.uptime, interval := s.interval.number, cause := s.link0.lastCause }

/-- STATUS (R165). -/
def execStatus (tag : Byte) (payload : List Byte) (s : State) : Result :=
  s.take 0x1A tag payload 0 fun s => s.replyWith .ok (.status s.statusReport)

/-- The kind a RESTART names: 0 ENGINE, 1 ALL (spec/12 12.3). -/
def restartKindOf (n : Nat) : Option RestartKind :=
  match n with
  | 0 => some .engine
  | 1 => some .all
  | _ => none

/-- RESTART (R167). -/
def execRestart (tag : Byte) (payload : List Byte) (s : State) : Result :=
  s.take 0x1B tag payload 1 fun s =>
    match restartKindOf (arg payload 0) with
    | none => s.reply .badArg
    | some k => (s.onLink0 fun l => { l with restart := some { kind := k, sending := false } }).reply .ok

/-- The error records of all seven links are emptied (R6). -/
def State.clearLinkErrors (s : State) : State :=
  { s with lanes := Vector.ofFn fun b => { s.lanes[b] with errors := ErrorRecord.clear }
           link0 := { s.link0 with errors := ErrorRecord.clear } }

/-- CLEAR_LINK_ERRORS (R6, R166). -/
def execClearLinkErrors (tag : Byte) (payload : List Byte) (s : State) : Result :=
  s.take 0x1C tag payload 0 fun s => s.clearLinkErrors.reply .ok

end Sys2Proof.Machine
end

