-- ==== Sys2Proof/Machine/NotifierCommands.lean ====
section
/-! DEFINITION. Machine/NotifierCommands.lean: SET_LEVEL, SET_MASK, BIND_STREAM, UNBIND_STREAM and TRIGGER_STREAM
(R171, R172, R176 to R179). -/

namespace Sys2Proof.Machine

/-! ## Levels and the mask -/

/-- A kind's level is set; level 0 removes the kind's pending entries (R171). -/
def Notifier.setLevel (n : Notifier) (k : EventKind) (level : Nat) : Notifier :=
  { n with levels := upd n.levels k.index fun _ => level
           entries := if level = 0 then n.entries.filter fun e => e.kind != k else n.entries }

/-- The kinds whose level can be set: all but 1 and 2 (R171). -/
def settableKind (n : Nat) : Option EventKind := if n = 1 ∨ n = 2 then none else EventKind.ofNumber n

/-- SET_LEVEL (R171, R175). -/
def execSetLevel (tag : Byte) (payload : List Byte) (s : State) : Result :=
  s.take 0x11 tag payload 2 fun s =>
    match settableKind (arg payload 0) with
    | none => s.reply .badArg
    | some k =>
      if 6 < arg payload 1 then s.reply .badArg
      else (s.onReports fun x => fillNotices (x.1.setLevel k (arg payload 1), x.2)).reply .ok

/-- SET_MASK (R172, R175). -/
def execSetMask (tag : Byte) (payload : List Byte) (s : State) : Result :=
  s.take 0x12 tag payload 1 fun s =>
    if 7 < arg payload 0 then s.reply .badArg
    else (s.onReports fun x => fillNotices ({ x.1 with mask := arg payload 0 }, x.2)).reply .ok

/-! ## Streams -/

/-- The largest source number of a kind that can be bound (spec/10 10.6); `none` for a kind that cannot. -/
def sourcesOf (k : EventKind) : Option Nat :=
  match k with
  | .intervalClosed => some 6
  | .switchDone => some 48
  | .groupDone => some 32
  | .captureDone => some 48
  | _ => none

/-- The source named is a number of the kind's source type. -/
def validSource (k : EventKind) (n : Nat) : Bool :=
  match sourcesOf k with
  | none => false
  | some last => decide (1 ≤ n ∧ n ≤ last)

/-- The source a BIND_STREAM names: ANY is 0xFF (spec/12 12.3). The outer `none` is an undefined source. -/
def bindSource (k : EventKind) (n : Nat) : Option (Option Nat) :=
  if (sourcesOf k).isNone then none
  else if n = 0xFF then some none
  else if validSource k n then some (some n) else none

/-- A remaining count of 0 stands for 65,536 (R176). -/
def boundCount (n : Nat) : Nat := if n = 0 then 65536 else n

/-- The kind is bound to some stream (R176). -/
def Notifier.kindBound (n : Notifier) (k : EventKind) : Bool :=
  allStreams.any fun i => match n.streams[i] with | none => false | some b => b.kind == k

/-- A stream takes a binding, or none. -/
def State.setStream (s : State) (i : Stream) (b : Option Binding) : State :=
  { s with notifier := { s.notifier with streams := upd s.notifier.streams i fun _ => b } }

/-- BIND_STREAM (R176). -/
def execBindStream (tag : Byte) (payload : List Byte) (s : State) : Result :=
  s.take 0x13 tag payload 5 fun s =>
    match indexed 4 (arg payload 0), EventKind.ofNumber (arg payload 1) with
    | some i, some k =>
      match bindSource k (arg payload 2) with
      | none => s.reply .badArg
      | some src =>
        let n := boundCount (areaNat payload 3 2)
        if s.notifier.streams[i].isSome then s.reply .busy
        else if s.notifier.kindBound k then s.reply .state
        else (s.setStream i (some { kind := k, source := src, remaining := n, bound := n })).reply .ok
    | some _, none => s.reply .badArg
    | none, _ => s.reply .badArg

/-- UNBIND_STREAM (R178). -/
def execUnbindStream (tag : Byte) (payload : List Byte) (s : State) : Result :=
  s.take 0x14 tag payload 1 fun s =>
    match indexed 4 (arg payload 0) with
    | none => s.reply .badArg
    | some i => if s.notifier.streams[i].isNone then s.reply .state else (s.setStream i none).reply .ok

/-- The outlet action record of a trigger (R179); that of an ISSUED entry carries its issue uptime and actuate-at set
(DESIGN CHOICE, entry 25). -/
def State.presentAction (s : State) (o : Outlet) : ActionRecord :=
  { outlet := o
    request := (s.entryOf o).map fun e => (e.action, e.origin, e.enqueued)
    result := none
    issue := match s.entryOf o, s.relays[o].flight with
      | some e, some f => (match e.state with | .issued t => some (t, f.actuateAt) | .waiting => none)
      | some _, none => none
      | none, _ => none
    relay := s.relays[o].state, detail := s.relays[o].detail }

/-- The record or records of source number `n` from the present state (R179). -/
def State.triggeredRecords (s : State) (k : EventKind) (n : Nat) : List RecordBody :=
  match k with
  | .intervalClosed => (match indexed 6 n with | none => [] | some b => s.intervalParts b s.uptime)
  | .switchDone => (match indexed 48 n with | none => [] | some o => [.action (s.presentAction o)])
  | .groupDone => (match indexed 32 n with | none => [] | some g => [.operation s.groups[g].lastRecord])
  | .captureDone => [.capture s.capture.view]
  | _ => []

/-- A bound stream is triggered for source `n` (R179). -/
def State.triggerBound (s : State) (i : Stream) (b : Binding) (n : Nat) : Reply :=
  if validSource b.kind n = false then s.reply .badArg
  else if b.source.isSome ∧ b.source ≠ some n then s.reply .badArg
  else
    (s.onReports fun x =>
      streamProduces s.uptime i b ((s.triggeredRecords b.kind n).map fun r => { triggered := true, body := r })
        x).reply .ok

/-- TRIGGER_STREAM (R179). -/
def execTriggerStream (tag : Byte) (payload : List Byte) (s : State) : Result :=
  s.take 0x15 tag payload 2 fun s =>
    match indexed 4 (arg payload 0) with
    | none => s.reply .badArg
    | some i =>
      match s.notifier.streams[i] with
      | none => s.reply .state
      | some b => s.triggerBound i b (arg payload 1)

end Sys2Proof.Machine
end

