-- ==== Sys2Proof/Machine/TableCommands.lean ====
section
/-! DEFINITION. Machine/TableCommands.lean: READ_ENTRY, WRITE_ENTRY, DISCARD, COMMIT and LOCK_CAL (R144 to R154). -/

namespace Sys2Proof.Machine

/-- The bank of a calibration entry (R150). -/
def bankOfCal (i : Fin 54) : Bank := if h : i.val < 48 then ⟨i.val / 8, by omega⟩ else ⟨i.val - 48, by omega⟩

/-- A grant phase is numbered from 0 (R189). -/
def grantIndex (k : Nat) : Option (Fin 32) := if h : k < 32 then some ⟨k, h⟩ else none

/-! ## READ_ENTRY (R145) -/

/-- The copy named: 0 active, 1 pending; another value is undefined (entry 18). -/
def copyOf {α : Type} {n m : Nat} (t : Staged α n m) (pendingCopy : Bool) : Vector α n :=
  if pendingCopy then t.pending else t.active

/-- The number of the group whose member list in a copy names the outlet, or 0. -/
def ownerNumber (groups : Vector GroupEntry 32) (o : Outlet) : Nat :=
  match allGroups.find? fun g => decide (o ∈ memberOutlets groups[g]) with
  | none => 0
  | some g => numberOf g

/-- The answer for entry number `k` of a table, if it has that entry. -/
def State.entryAnswer (s : State) (t : TableId) (k : Nat) (p : Bool) : Option Answer :=
  match t with
  | .outlet => (indexed 48 k).map fun o =>
      .entry (decide (o ∈ s.outletTable.waiting)) (ownerNumber (copyOf s.groupTable p) o)
        (copyOf s.outletTable p)[o].area
  | .bank => (indexed 6 k).map fun b => .entry (decide (b ∈ s.bankTable.waiting)) 0 (copyOf s.bankTable p)[b].area
  | .phase => (indexed 3 k).map fun i => .entry false 0 (copyOf s.phaseTable p)[i].area
  | .calibration => (indexed 54 k).map fun i =>
      .entry (decide (bankOfCal i ∈ s.calTable.waiting)) 0 (CalEntry.area i (copyOf s.calTable p)[i])
  | .group => (indexed 32 k).map fun g =>
      .entry (decide (g ∈ s.groupTable.waiting)) 0 (copyOf s.groupTable p)[g].area
  | .grant => (grantIndex k).map fun i =>
      .entry false 0 (padArea (toBytes 1 (grantNumber (copyOf s.grantTable p)[i])))
  | .system => (indexed 1 k).map fun i => .entry false 0 (copyOf s.systemTable p)[i].area

/-- READ_ENTRY (R145). -/
def execReadEntry (tag : Byte) (payload : List Byte) (s : State) : Result :=
  s.take 0x01 tag payload 3 fun s =>
    match TableId.ofByte (payload.getD 0 0) with
    | none => s.reply .badArg
    | some t =>
      if 1 < arg payload 2 then s.reply .badArg
      else
        match s.entryAnswer t (arg payload 1) (arg payload 2 == 1) with
        | none => s.reply .badArg
        | some a => s.replyWith .ok a

/-! ## WRITE_ENTRY (R146) -/

/-- The table takes a write of an entry; `waits` says whether the entry is in the waiting set. -/
def Staged.writable {α : Type} {n m : Nat} (t : Staged α n m) (waits : Bool) : Bool :=
  match t.state with
  | .clean => true
  | .dirty => true
  | .committing => false
  | .deferred => !waits

/-- A write of the pending entry `i`. -/
def Staged.write {α : Type} {n m : Nat} (t : Staged α n m) (i : Fin n) (e : α) : Staged α n m :=
  { t with pending := upd t.pending i fun _ => e
           state := match t.state with | .deferred => .deferred | .clean => .dirty | .dirty => .dirty
                                       | .committing => .committing
           written := match t.state with | .deferred => true | .clean => t.written | .dirty => t.written
                                         | .committing => t.written }

/-- The response to a write that passed, with the mask of the changed fields. -/
def State.wrote (s : State) (fields : List Bool) : Reply := s.replyWith .ok (.clamped (maskOf fields))

def State.writeOutlet (s : State) (k : Nat) (area : List Byte) : Reply :=
  match indexed 48 k, OutletEntry.read area with
  | some o, some e =>
    if s.outletTable.writable (decide (o ∈ s.outletTable.waiting)) then
      State.wrote { s with outletTable := s.outletTable.write o e.store } (e.changed e.store)
    else s.reply .busy
  | some _, none => s.reply .badArg
  | none, _ => s.reply .badArg

def State.writeBank (s : State) (k : Nat) (area : List Byte) : Reply :=
  match indexed 6 k, BankEntry.read area with
  | some b, some e =>
    if s.bankTable.writable (decide (b ∈ s.bankTable.waiting)) then
      State.wrote { s with bankTable := s.bankTable.write b e.store } (e.changed e.store)
    else s.reply .busy
  | some _, none => s.reply .badArg
  | none, _ => s.reply .badArg

def State.writePhase (s : State) (k : Nat) (area : List Byte) : Reply :=
  match indexed 3 k with
  | some p =>
    let e := PhaseEntry.read area
    if s.phaseTable.writable false then
      State.wrote { s with phaseTable := s.phaseTable.write p e.store } (e.changed e.store)
    else s.reply .busy
  | none => s.reply .badArg

def State.writeCal (s : State) (k : Nat) (area : List Byte) : Reply :=
  match indexed 54 k with
  | some i =>
    let e := CalEntry.read i area
    if s.calLock then s.reply .locked
    else if s.calTable.writable (decide (bankOfCal i ∈ s.calTable.waiting)) then
      State.wrote { s with calTable := s.calTable.write i e.store } (e.changed e.store)
    else s.reply .busy
  | none => s.reply .badArg

def State.writeGroup (s : State) (k : Nat) (area : List Byte) : Reply :=
  match indexed 32 k, GroupEntry.read area with
  | some g, some e =>
    if s.groupTable.writable (decide (g ∈ s.groupTable.waiting)) then
      State.wrote { s with groupTable := s.groupTable.write g e.store } (e.changed e.store)
    else s.reply .busy
  | some _, none => s.reply .badArg
  | none, _ => s.reply .badArg

def State.writeGrant (s : State) (k : Nat) (area : List Byte) : Reply :=
  match grantIndex k with
  | some i =>
    let n := areaNat area 0 1
    if s.grantTable.writable false then
      State.wrote { s with grantTable := s.grantTable.write i (grantOfNumber n) } [n != clampNat 0 6 n]
    else s.reply .busy
  | none => s.reply .badArg

def State.writeSystem (s : State) (k : Nat) (area : List Byte) : Reply :=
  match indexed 1 k with
  | some i =>
    let e := SystemEntry.read area
    if s.systemTable.writable false then
      State.wrote { s with systemTable := s.systemTable.write i e.store } (e.changed e.store)
    else s.reply .busy
  | none => s.reply .badArg

/-- WRITE_ENTRY once its table is known (R146). -/
def State.writeEntry (s : State) (t : TableId) (k : Nat) (area : List Byte) : Reply :=
  match t with
  | .outlet => s.writeOutlet k area
  | .bank => s.writeBank k area
  | .phase => s.writePhase k area
  | .calibration => s.writeCal k area
  | .group => s.writeGroup k area
  | .grant => s.writeGrant k area
  | .system => s.writeSystem k area

/-- WRITE_ENTRY (R146). -/
def execWriteEntry (tag : Byte) (payload : List Byte) (s : State) : Result :=
  s.take 0x02 tag payload 28 fun s =>
    match TableId.ofByte (payload.getD 0 0) with
    | none => s.reply .badArg
    | some t => s.writeEntry t (arg payload 1) (payload.drop 2)

/-! ## DISCARD (R147) -/

/-- Pending entries that do not wait are set equal to the active ones. -/
def Staged.discard {α : Type} {n m : Nat} (t : Staged α n m) (waits : Fin n → Bool) : Staged α n m :=
  match t.state with
  | .clean => t
  | .committing => t
  | .dirty => { t with pending := t.active, state := .clean }
  | .deferred =>
    { t with pending := Vector.ofFn fun i => if waits i then t.pending[i] else t.active[i], written := false }

def Staged.discardStatus {α : Type} {n m : Nat} (t : Staged α n m) : Status :=
  match t.state with
  | .clean => .ok
  | .dirty => .ok
  | .committing => .busy
  | .deferred => .ok

def State.discardTable (s : State) (t : TableId) : Reply :=
  match t with
  | .outlet =>
    State.reply { s with outletTable := s.outletTable.discard fun o => decide (o ∈ s.outletTable.waiting) }
      s.outletTable.discardStatus
  | .bank => State.reply { s with bankTable := s.bankTable.discard fun _ => false } s.bankTable.discardStatus
  | .phase => State.reply { s with phaseTable := s.phaseTable.discard fun _ => false } s.phaseTable.discardStatus
  | .calibration => State.reply { s with calTable := s.calTable.discard fun _ => false } s.calTable.discardStatus
  | .group =>
    State.reply { s with groupTable := s.groupTable.discard fun g => decide (g ∈ s.groupTable.waiting) }
      s.groupTable.discardStatus
  | .grant => State.reply { s with grantTable := s.grantTable.discard fun _ => false } s.grantTable.discardStatus
  | .system => State.reply { s with systemTable := s.systemTable.discard fun _ => false } s.systemTable.discardStatus

/-- DISCARD (R147). -/
def execDiscard (tag : Byte) (payload : List Byte) (s : State) : Result :=
  s.take 0x04 tag payload 1 fun s =>
    match TableId.ofByte (payload.getD 0 0) with
    | none => s.reply .badArg
    | some t => s.discardTable t

/-! ## COMMIT (R148 to R152) -/

/-- The changed entries of a table (R144). -/
def Staged.changedEntries {α : Type} {n m : Nat} [DecidableEq α] (t : Staged α n m) : List (Fin n) :=
  (List.finRange n).filter fun i => decide (t.pending[i] ≠ t.active[i])

/-- The table is not COMMITTING or DEFERRED. -/
def Staged.commitable {α : Type} {n m : Nat} (t : Staged α n m) : Bool :=
  match t.state with
  | .clean => true
  | .dirty => true
  | .committing => false
  | .deferred => false

/-- Every changed entry has applied: the copies are equal and the table is CLEAN (R149). -/
def Staged.applyAll {α : Type} {n m : Nat} (t : Staged α n m) : Staged α n m :=
  { t with active := t.pending, state := .clean }

/-- A group of the pending table offends (R148). -/
def groupOffends (v : Vector GroupEntry 32) (g : Group) : Bool :=
  let e := v[g]
  (e.members.any fun n => n < 1 || 48 < n) || !decide e.members.Nodup
    || (allGroups.any fun h => decide (h < g) && e.members.any fun n => decide (n ∈ v[h].members))
    || (e.enabled && e.members.isEmpty)

/-- The first group that offends. -/
def firstOffender (v : Vector GroupEntry 32) : Option Group := allGroups.find? (groupOffends v)

/-- The pending grant table names no bank (R148). -/
def grantsOffend (v : Vector (Option Bank) 32) : Bool := v.toList.all (·.isNone)

/-- A commit of an outlet or group table of which `waiting` is not empty (R151, R152). -/
def Staged.defer {α : Type} {n m : Nat} (t : Staged α n m) (waiting : List (Fin m)) : Staged α n m :=
  { t with state := .deferred, waiting := waiting, written := false, waited := waiting.length }

def State.commitOutlets (s : State) : Reply :=
  let changed := s.outletTable.changedEntries
  let s1 := (changed.filter fun o => !s.isIssued o).foldl State.applyOutlet s
  let waiting := changed.filter fun o => s.isIssued o
  if waiting = [] then State.reply { s1 with outletTable := { s1.outletTable with state := .clean } } .ok
  else
    State.replyWith { s1 with outletTable := s1.outletTable.defer waiting } .deferred (.waiting waiting.length)

def State.commitGroups (s : State) : Reply :=
  match firstOffender s.groupTable.pending with
  | some g => s.replyWith .badArg (.offending (some (numberOf g)))
  | none =>
    let changed := s.groupTable.changedEntries
    let set := s.applicable changed
    let waiting := changed.filter fun g => !decide (g ∈ set)
    let s1 := s.applyGroups set
    if waiting = [] then State.reply { s1 with groupTable := { s1.groupTable with state := .clean } } .ok
    else State.replyWith { s1 with groupTable := s1.groupTable.defer waiting } .deferred (.waiting waiting.length)

def State.commitPhases (s : State) : Reply :=
  State.reply
    (s.phaseTable.changedEntries.foldl State.alignPhase { s with phaseTable := s.phaseTable.applyAll }) .ok

/-- A change of the grant table sets the pointer to phase 0 (R90, R149). -/
def State.commitGrants (s : State) : Reply :=
  if grantsOffend s.grantTable.pending then s.replyWith .badArg (.offending (some 0))
  else
    State.reply
      { s with grantPtr := if s.grantTable.changedEntries = [] then s.grantPtr else 0
               grantTable := s.grantTable.applyAll } .ok

def State.commitSystem (s : State) : Reply := State.reply { s with systemTable := s.systemTable.applyAll } .ok

/-- A calibration or bank table whose changed entries are `changed`, those at `now` applied at once and the banks
`waiting` to come; `tag` is the COMMIT's (R150). -/
def Staged.commitByBank {α : Type} {n : Nat} (t : Staged α n 6) (now : List (Fin n)) (waiting : List Bank)
    (tag : Byte) : Staged α n 6 :=
  if waiting = [] then { t.copyEntries now with state := .clean }
  else { t.copyEntries now with state := .committing, waiting := waiting, held := some tag }

/-- The response of a commit by bank: OK, or held (R150, R162). -/
def State.replyByBank (s : State) (waiting : List Bank) : Reply :=
  if waiting = [] then s.reply .ok else { answer := none, state := s }

def State.commitCal (s : State) (tag : Byte) : Reply :=
  let changed := s.calTable.changedEntries
  let waiting := allBanks.filter fun b => s.isUp b && changed.any fun i => bankOfCal i == b
  State.replyByBank
    { s with calTable :=
        s.calTable.commitByBank (changed.filter fun i => !s.isUp (bankOfCal i)) waiting tag } waiting

def State.commitBanks (s : State) (tag : Byte) : Reply :=
  let changed := s.bankTable.changedEntries
  let waiting := changed.filter fun b => s.isUp b
  State.replyByBank
    { s with bankTable := s.bankTable.commitByBank (changed.filter fun b => !s.isUp b) waiting tag } waiting

/-- COMMIT once its table is known (R148). -/
def State.commitTable (s : State) (t : TableId) (tag : Byte) : Reply :=
  match t with
  | .outlet => if s.outletTable.commitable then s.commitOutlets else s.reply .busy
  | .bank => if s.bankTable.commitable then s.commitBanks tag else s.reply .busy
  | .phase => if s.phaseTable.commitable then s.commitPhases else s.reply .busy
  | .calibration =>
    if s.calLock then s.reply .locked else if s.calTable.commitable then s.commitCal tag else s.reply .busy
  | .group => if s.groupTable.commitable then s.commitGroups else s.reply .busy
  | .grant => if s.grantTable.commitable then s.commitGrants else s.reply .busy
  | .system => if s.systemTable.commitable then s.commitSystem else s.reply .busy

/-- COMMIT (R148). -/
def execCommit (tag : Byte) (payload : List Byte) (s : State) : Result :=
  s.take 0x03 tag payload 1 fun s =>
    match TableId.ofByte (payload.getD 0 0) with
    | none => s.reply .badArg
    | some t => s.commitTable t tag

/-! ## LOCK_CAL (R154) -/

/-- LOCK_CAL (R154). -/
def execLockCal (tag : Byte) (payload : List Byte) (s : State) : Result :=
  s.take 0x05 tag payload 0 fun s =>
    if s.calLock then s.reply .ok
    else if s.calTable.state = .clean then State.reply { s with calLock := true } .ok
    else s.reply .state

end Sys2Proof.Machine
end

