-- ==== Sys2Proof/Machine/Restart.lean ====
section
/-! DEFINITION. Machine/Restart.lean: power-on and the two restarts (R18, R42, R48, R54, R63, R79, R100, R125, R142, R155,
R169, R180, R184, R185). -/

namespace Sys2Proof.Machine

/-! ## The blocks at a restart -/

/-- A lane at a restart: unsent cells are discarded (R18); framing, the cell being framed and the time since the last
taking are kept (DESIGN CHOICE, entry 23). -/
def Lane.restart (l : Lane) (keepErrors : Bool) : Lane :=
  { l with relayList := [], indicator := none, errors := if keepErrors then l.errors else ErrorRecord.clear }

/-- An outlet's metering state at RESTART_ENGINE: the energy is kept (R42, R48). -/
def OutletMeter.restartEngine (m : OutletMeter) : OutletMeter :=
  { OutletMeter.reset with energy := m.energy, residue := m.residue }

/-- A staged table of outlets or groups at RESTART_ENGINE: what waits applies (R155). -/
def Staged.restartEntries {α : Type} {n : Nat} (t : Staged α n n) : Staged α n n :=
  match t.state with
  | .deferred => { (t.copyEntries t.waiting).endDeferral with waiting := [], held := none }
  | .clean => t
  | .dirty => t
  | .committing => t

/-- A staged table committed by bank at RESTART_ENGINE: the waiting banks' parts apply (R155). -/
def Staged.restartBanks {α : Type} {n : Nat} (t : Staged α n 6) (entriesOf : Bank → List (Fin n)) : Staged α n 6 :=
  match t.state with
  | .committing =>
    { t.copyEntries (t.waiting.flatMap entriesOf) with state := .clean, waiting := [], held := none }
  | .clean => t
  | .dirty => t
  | .deferred => t

/-- The management link unit at a restart (R167, R169); the OK response has left the line. -/
def Link0.restarted (l : Link0) (cause : RestartCause) (keepErrors : Bool) : Link0 :=
  { partialCell := l.partialCell, framing := l.framing, fifo := [], reserved := [], filled := [], notices := []
    records := [], gap := 0, restart := none, lastCause := cause
    errors := if keepErrors then l.errors else ErrorRecord.clear, line := none }

/-- The state every reset alike leaves in the limit unit, the relay block, the switching block, the group engine and the
capture unit, and in the bank meters (R42, R54, R63, R79, R100, R125, R185). -/
def State.resetBlocks (s : State) : State :=
  { s with
    meters := Vector.replicate 6 BankMeter.reset
    outletLimits := Vector.replicate 48 Threshold.reset
    bankLimits := Vector.replicate 6 Threshold.reset
    phaseLimits := Vector.replicate 3 Threshold.reset
    loadLost := Vector.replicate 48 LoadLost.reset
    phaseElements := Vector.replicate 6 none
    sheds := Vector.replicate 6 ShedUnit.reset
    relays := Vector.replicate 48 Relay.reset
    queue := [], grantPtr := 0
    turnOn := Vector.replicate 6 none
    settle := Vector.replicate 6 none
    tokens := Vector.ofFn fun p => s.phaseTable.active[p].capacity
    refill := Vector.replicate 3 none
    groups := Vector.replicate 32 GroupOp.reset
    capture := Capture.reset }

/-- The shown modes are computed afresh, and each UP lane is sent them (R79, R81). -/
def State.showModes (s : State) : State :=
  allBanks.foldl State.placeIndicate { s with shown := Vector.ofFn fun b => s.modesOf b }

/-- A group's monitor after RESTART_ENGINE (R142). -/
def State.restartedMonitor (s : State) (g : Group) : Monitor :=
  .reset (if (s.groupEntry g).watched && !s.inSafe then .disarmed else .offline)

/-- The tables after RESTART_ENGINE (R155). -/
def State.restartTables (s : State) : State :=
  { s with outletTable := s.outletTable.restartEntries
           bankTable := s.bankTable.restartBanks fun b => [b]
           calTable := s.calTable.restartBanks calEntriesOf
           groupTable := s.groupTable.restartEntries }

/-- RESTART_ENGINE. -/
def State.restartEngine (s : State) : State :=
  let s1 := s.restartTables.resetBlocks
  State.showModes
    { s1 with
      lanes := Vector.ofFn fun b => s.lanes[b].restart true
      outlets := Vector.ofFn fun o => s.outlets[o].restartEngine
      monitors := Vector.ofFn fun g => s1.restartedMonitor g
      link0 := s.link0.restarted .restartEngine true
      notifier := { Notifier.reset with levels := s.notifier.levels, mask := s.notifier.mask }
      safe := { cause := s.safe.cause, followUp := [] } }

/-- The tables after RESTART_ALL: defaults, but for a locked calibration table (R155). -/
def State.defaultTables (s : State) : State :=
  { s with outletTable := State.reset.outletTable
           bankTable := State.reset.bankTable
           phaseTable := State.reset.phaseTable
           calTable := if s.calLock then
               { s.calTable with state := .clean, waiting := [], written := false, held := none }
             else State.reset.calTable
           groupTable := State.reset.groupTable
           grantTable := State.reset.grantTable
           systemTable := State.reset.systemTable }

/-- Entry to SAFE at power-on and at RESTART_ALL when the pin is asserted (R184). -/
def State.safeByPin (s : State) : State := if s.safePin then s.enterSafe .pin else s

/-- RESTART_ALL. -/
def State.restartAll (s : State) : State :=
  State.safeByPin
    (State.showModes
      { s.defaultTables.resetBlocks with
        lanes := Vector.ofFn fun b => s.lanes[b].restart false
        outlets := Vector.replicate 48 OutletMeter.reset
        interval := { start := s.uptime, length := SystemEntry.default.intervalLength, number := 0 }
        monitors := Vector.replicate 32 (Monitor.reset .offline)
        link0 := s.link0.restarted .restartAll false
        notifier := Notifier.reset
        safe := { cause := none, followUp := [] } })

/-- RESTART_TAKES_EFFECT (R167): the transmission of the OK response has ended. -/
def execRestartTakesEffect (s : State) : Result :=
  match s.link0.restart with
  | none => .next s
  | some p =>
    if p.sending then
      .next (match p.kind with | .engine => s.restartEngine | .all => s.restartAll)
    else .next s

/-- POWER_ON (R169, R184): the power-on state, with the input lines at the levels they have and the queue as it is. -/
def execPowerOn (s : State) : Result :=
  .next (State.safeByPin { State.reset with pending := s.pending, safePin := s.safePin, holdIn := s.holdIn })

end Sys2Proof.Machine
end

