-- ==== Sys2Proof/Machine/Dispatch.lean ====
section
/-! DEFINITION. Machine/Dispatch.lean: the meaning of each command. -/

namespace Sys2Proof.Machine

def exec (i : Instr) (s : State) : Host.Outcome State Fault Refusal :=
  match i with
  | .powerOn => Sys2Proof.Machine.execPowerOn s
  | .laneCharacter b c => Sys2Proof.Machine.execLaneCharacter b c s
  | .laneCellReceived b chars => Sys2Proof.Machine.execLaneCellReceived b chars s
  | .laneBreak b => Sys2Proof.Machine.execLaneBreak b s
  | .takeSampleCell b => Sys2Proof.Machine.execTakeSampleCell b s
  | .silenceTimerExpiry b => Sys2Proof.Machine.execSilenceTimerExpiry b s
  | .signalTimerExpiry b => Sys2Proof.Machine.execSignalTimerExpiry b s
  | .laneCellStart b => Sys2Proof.Machine.execLaneCellStart b s
  | .intervalClose => Sys2Proof.Machine.execIntervalClose s
  | .shedTimerExpiry b => Sys2Proof.Machine.execShedTimerExpiry b s
  | .restoreTimerExpiry b => Sys2Proof.Machine.execRestoreTimerExpiry b s
  | .dispatchOpportunity => Sys2Proof.Machine.execDispatchOpportunity s
  | .settleTimerExpiry b => Sys2Proof.Machine.execSettleTimerExpiry b s
  | .refillTimerExpiry p => Sys2Proof.Machine.execRefillTimerExpiry p s
  | .grantTimeout o => Sys2Proof.Machine.execGrantTimeout o s
  | .dwellExpiry g => Sys2Proof.Machine.execDwellExpiry g s
  | .staggerExpiry g => Sys2Proof.Machine.execStaggerExpiry g s
  | .bootWindowExpiry g => Sys2Proof.Machine.execBootWindowExpiry g s
  | .deadlineExpiry g => Sys2Proof.Machine.execDeadlineExpiry g s
  | .graceExpiry g => Sys2Proof.Machine.execGraceExpiry g s
  | .budgetWindowExpiry g => Sys2Proof.Machine.execBudgetWindowExpiry g s
  | .link0CellReceived chars => Sys2Proof.Machine.execLink0CellReceived chars s
  | .link0Break chars => Sys2Proof.Machine.execLink0Break chars s
  | .upstreamCellStart => Sys2Proof.Machine.execUpstreamCellStart s
  | .holdInChange asserted => Sys2Proof.Machine.execHoldInChange asserted s
  | .safePinChange asserted => Sys2Proof.Machine.execSafePinChange asserted s
  | .restartTakesEffect => Sys2Proof.Machine.execRestartTakesEffect s
  | .unknownCommand kind tag payload => Sys2Proof.Machine.execUnknownCommand kind tag payload s
  | .readEntry tag payload => Sys2Proof.Machine.execReadEntry tag payload s
  | .writeEntry tag payload => Sys2Proof.Machine.execWriteEntry tag payload s
  | .discard tag payload => Sys2Proof.Machine.execDiscard tag payload s
  | .commit tag payload => Sys2Proof.Machine.execCommit tag payload s
  | .lockCal tag payload => Sys2Proof.Machine.execLockCal tag payload s
  | .switch tag payload => Sys2Proof.Machine.execSwitch tag payload s
  | .clearFault tag payload => Sys2Proof.Machine.execClearFault tag payload s
  | .clearEnergy tag payload => Sys2Proof.Machine.execClearEnergy tag payload s
  | .readOutlet tag payload => Sys2Proof.Machine.execReadOutlet tag payload s
  | .cycle tag payload => Sys2Proof.Machine.execCycle tag payload s
  | .groupOff tag payload => Sys2Proof.Machine.execGroupOff tag payload s
  | .groupOn tag payload => Sys2Proof.Machine.execGroupOn tag payload s
  | .cancel tag payload => Sys2Proof.Machine.execCancel tag payload s
  | .readGroup tag payload => Sys2Proof.Machine.execReadGroup tag payload s
  | .clearLockout tag payload => Sys2Proof.Machine.execClearLockout tag payload s
  | .token tag payload => Sys2Proof.Machine.execToken tag payload s
  | .setLevel tag payload => Sys2Proof.Machine.execSetLevel tag payload s
  | .setMask tag payload => Sys2Proof.Machine.execSetMask tag payload s
  | .bindStream tag payload => Sys2Proof.Machine.execBindStream tag payload s
  | .unbindStream tag payload => Sys2Proof.Machine.execUnbindStream tag payload s
  | .triggerStream tag payload => Sys2Proof.Machine.execTriggerStream tag payload s
  | .capture tag payload => Sys2Proof.Machine.execCapture tag payload s
  | .readCapture tag payload => Sys2Proof.Machine.execReadCapture tag payload s
  | .forceSafe tag payload => Sys2Proof.Machine.execForceSafe tag payload s
  | .resume tag payload => Sys2Proof.Machine.execResume tag payload s
  | .status tag payload => Sys2Proof.Machine.execStatus tag payload s
  | .restart tag payload => Sys2Proof.Machine.execRestart tag payload s
  | .clearLinkErrors tag payload => Sys2Proof.Machine.execClearLinkErrors tag payload s

end Sys2Proof.Machine
end

