-- ==== Sys2Proof/Machine/Step.lean ====
section
/-! DEFINITION. Machine/Step.lean: one step: the command at the front of the queue, or one µs of the reference oscillator. -/

namespace Sys2Proof.Machine

/-- Commands waiting at the block. -/
def State.withPending (s : State) (cs : List Instr) : State := { s with pending := cs }

/-- One µs of the reference oscillator on one lane (R4). -/
def Lane.tick (l : Lane) : Lane := { l with sinceTake := satSucc Config.takeSpacing l.sinceTake }

/-- One µs of the reference oscillator with no command waiting (entry 1): the uptime counts every 1,000 µs (spec/00
0.5), and a new uptime value has its own dispatch opportunity (R88). -/
def State.tick (s : State) : State :=
  let s1 : State := { s with lanes := Vector.ofFn fun b => s.lanes[b].tick }
  if s.subMs + 1 < 1000 then { s1 with subMs := s.subMs + 1 }
  else { s1 with subMs := 0, uptime := s.uptime + 1, opportunityTaken := false }

/-- One step: the command at the front of the queue acts on the state with the queue's rest; on an empty queue the
oscillator moves on. -/
def step (s : State) : Host.Outcome State Fault Refusal :=
  match s.pending with
  | [] => .next s.tick
  | c :: rest => exec c (s.withPending rest)

/-- The state with the command that a word of the opcode table spells put at the front of its queue; no row of the table
gives bits, so no word spells one. -/
def State.withFetchWord (s : State) (nbits w : Nat) : State :=
  match decodeTableWord nbits w with
  | none => s
  | some c => s.withPending (c :: s.pending)

end Sys2Proof.Machine
end

