-- ==== Sys2Proof/Safety.lean ====
section
/-! DEFINITION. Safety.lean: the terms in which claims about the part are made: when a command cell can be taken and
what its answer does to the link unit, the cells a bank module sends, staged tables after a write, a discard, a restart
or a release, the sums and results of a window, and the promises the part keeps from step to step. -/

namespace Sys2Proof.Machine

/-! ## Commands (R160, R161) -/

/-- The cell can be taken: no RESTART is pending, a response slot is free, and the cell is the head of the command FIFO,
or the FIFO is empty and the cell arrives as it is taken (entry 4). -/
def State.ready (s : State) (kind tag : Byte) (payload : List Byte) : Prop :=
  s.link0.restart = none ∧ s.link0.reserved.length + s.link0.filled.length < 8
    ∧ (s.link0.fifo = [] ∨ s.link0.fifo.head? = some { kind := kind, tag := tag, payload := payload })

/-- A TOKEN can be taken: it needs no slot (R160). -/
def State.readyForToken (s : State) (tag : Byte) (payload : List Byte) : Prop :=
  s.link0.restart = none
    ∧ (s.link0.fifo = [] ∨ s.link0.fifo.head? = some { kind := 0x10, tag := tag, payload := payload })

/-- The state without the head cell of the command FIFO. -/
def State.taken (s : State) : State := { s with link0 := { s.link0 with fifo := s.link0.fifo.tail } }

/-- The state with a response to the command in the response queue. -/
def State.answered (s : State) (kind tag : Byte) (status : Status) (answer : Answer) : State :=
  { s with link0 := { s.link0 with
      filled := s.link0.filled ++ [{ tag := tag, kind := kind, status := status, answer := answer }] } }

/-- The response of a command stands at the tail of the response queue of `t`, which held those of `s` before. -/
def State.answers (s t : State) (kind tag : Byte) (status : Status) (answer : Answer) : Prop :=
  t.link0.fifo = s.link0.fifo.tail
    ∧ t.link0.filled = s.link0.filled ++ [{ tag := tag, kind := kind, status := status, answer := answer }]

/-! ## Cells on the lines -/

/-- Characters with good stop bits. -/
def goodChars (bytes : List Byte) : List LineChar := bytes.map fun b => { byte := b, stopOk := true }

/-- The 23 bytes of a SAMPLE cell (spec/12 12.2). -/
def SampleCell.bytes (c : SampleCell) : List Byte :=
  sealCell ([0x31, c.seq, (c.set.volt.extractLsb' 8 8), (c.set.volt.extractLsb' 0 8)]
    ++ (c.set.cur.toList.flatMap fun x => [x.extractLsb' 8 8, x.extractLsb' 0 8])
    ++ [c.set.closed, c.set.load])

/-- The bytes of a command cell (spec/12 12.3). -/
def CommandCell.bytes (c : CommandCell) : List Byte :=
  sealCell ([c.kind, c.tag, BitVec.ofNat 8 c.payload.length] ++ c.payload)

/-! ## Errors and events, as claims speak of them -/

/-- An error record after an error (R5): an empty record takes the kind as its first and captures up to 4 bytes. -/
def ErrorRecord.after (r : ErrorRecord) (k : ErrorKind) (bytes : List Byte) : ErrorRecord :=
  match r.kinds with
  | [] => { kinds := [k], first := some k, captured := bytes.take 4 }
  | k0 :: ks =>
    { kinds := if k ∈ k0 :: ks then k0 :: ks else k0 :: ks ++ [k], first := r.first, captured := r.captured }

/-- The state after an error of kind `k` on the lane of bank `b` (R5, R8): the record takes it, a run is given up, and
LINK_ERROR is raised when the kind is new in the record. -/
def State.withLaneError (s : State) (b : Bank) (k : ErrorKind) (bytes : List Byte) : State :=
  let r := s.lanes[b].errors.after k bytes
  let t : State :=
    { s with lanes := upd s.lanes b fun l => { l with runCount := 0, runSeq := none, errors := r } }
  if k ∈ s.lanes[b].errors.kinds then t
  else t.raise .linkError (b.val + 1) (.linkError k (r.first.getD k) r.captured)

/-- The state after an error of kind `k` on link 0 (R158). -/
def State.withLink0Error (s : State) (k : ErrorKind) (bytes : List Byte) : State :=
  let r := s.link0.errors.after k bytes
  let t : State := { s with link0 := { s.link0 with errors := r } }
  if k ∈ s.link0.errors.kinds then t else t.raise .linkError 0 (.linkError k (r.first.getD k) r.captured)

/-- The characters received on a lane or link since the last idle gap, with those that end at this one; none when no gap
has begun framing yet. -/
def heldCell (framing : Bool) (held chars : List LineChar) : List LineChar := if framing then held ++ chars else []

/-- The commands that are answered, by kind byte, with the payload length that spec/12 12.3 gives each. -/
def answeredCommand (kind : Nat) (tag : Byte) (payload : List Byte) : Option (Instr × Nat) :=
  match kind with
  | 0x01 => some (.readEntry tag payload, 3) | 0x02 => some (.writeEntry tag payload, 28)
  | 0x03 => some (.commit tag payload, 1) | 0x04 => some (.discard tag payload, 1)
  | 0x05 => some (.lockCal tag payload, 0) | 0x06 => some (.switch tag payload, 2)
  | 0x07 => some (.clearFault tag payload, 1) | 0x08 => some (.clearEnergy tag payload, 1)
  | 0x09 => some (.readOutlet tag payload, 1) | 0x0A => some (.cycle tag payload, 1)
  | 0x0B => some (.groupOff tag payload, 1) | 0x0C => some (.groupOn tag payload, 1)
  | 0x0D => some (.cancel tag payload, 1) | 0x0E => some (.clearLockout tag payload, 1)
  | 0x0F => some (.readGroup tag payload, 1) | 0x11 => some (.setLevel tag payload, 2)
  | 0x12 => some (.setMask tag payload, 1) | 0x13 => some (.bindStream tag payload, 5)
  | 0x14 => some (.unbindStream tag payload, 1) | 0x15 => some (.triggerStream tag payload, 2)
  | 0x16 => some (.capture tag payload, 1) | 0x17 => some (.readCapture tag payload, 1)
  | 0x18 => some (.forceSafe tag payload, 0) | 0x19 => some (.resume tag payload, 0)
  | 0x1A => some (.status tag payload, 0) | 0x1B => some (.restart tag payload, 1)
  | 0x1C => some (.clearLinkErrors tag payload, 0)
  | _ => none

/-! ## Staged tables, as claims speak of them (R146, R147) -/

/-- A write is refused BUSY: the table is COMMITTING, or it is DEFERRED and the entry waits. -/
def Staged.RefusesWrite {α : Type} {n m : Nat} (t : Staged α n m) (waits : Prop) : Prop :=
  t.state = .committing ∨ (t.state = .deferred ∧ waits)

/-- The table after a write of entry `i`. -/
def Staged.withEntry {α : Type} {n m : Nat} (t : Staged α n m) (i : Fin n) (e : α) : Staged α n m :=
  { t with pending := t.pending.set i.val e i.isLt
           state := if t.state = .deferred then .deferred else .dirty
           written := if t.state = .deferred then true else t.written }

/-- `t'` is the table `t` after a DISCARD; `waits` says which entries are in the waiting set. -/
def Staged.DiscardedTo {α : Type} {n m : Nat} (t t' : Staged α n m) (waits : Fin n → Prop) : Prop :=
  (t.state = .clean ∨ t.state = .committing → t' = t)
  ∧ (t.state = .dirty → t' = { t with pending := t.active, state := .clean })
  ∧ (t.state = .deferred → t' = { t with pending := t'.pending, written := false }
      ∧ ∀ i : Fin n, (waits i → t'.pending[i] = t.pending[i]) ∧ (¬ waits i → t'.pending[i] = t.active[i]))

/-- `t'` is the table `t` after RESTART_ENGINE (R155), where `inForce` is the state that a commit of it may have left
(COMMITTING or DEFERRED) and `waits` says which entries are in the waiting set. -/
def Staged.RestartedTo {α : Type} {n m : Nat} (t t' : Staged α n m) (inForce : TableState) (waits : Fin n → Prop) :
    Prop :=
  (t.state = .clean ∨ t.state = .dirty → t' = t)
  ∧ (t.state = inForce →
      t'.pending = t.pending ∧ t'.waiting = [] ∧ t'.held = none
      ∧ t'.state = (if inForce = .deferred ∧ t.written = true then .dirty else .clean)
      ∧ (inForce = .deferred → t'.written = false)
      ∧ ∀ i : Fin n, (waits i → t'.active[i] = t.pending[i]) ∧ (¬ waits i → t'.active[i] = t.active[i]))

/-- `t'` is the table `t` after bank `b`'s part of its commit has applied, if it waited (R150); `part` says which entries
are the bank's. -/
def Staged.PartAppliedTo {α : Type} {n : Nat} (t t' : Staged α n 6) (b : Bank) (part : Fin n → Prop) : Prop :=
  (b ∉ t.waiting → t' = t)
  ∧ (b ∈ t.waiting →
      t' = { t with active := t'.active, waiting := t.waiting.filter (· ≠ b), state := t'.state, held := t'.held }
      ∧ (∀ i : Fin n, (part i → t'.active[i] = t.pending[i]) ∧ (¬ part i → t'.active[i] = t.active[i]))
      ∧ (t'.waiting = [] → t'.state = .clean ∧ t'.held = none)
      ∧ (t'.waiting ≠ [] → t'.state = t.state ∧ t'.held = t.held))

/-- The tag of the COMMIT that bank `b`'s part completes: the bank is the last that the table `t` waits for (R150). -/
def Staged.completedBy {α : Type} {n : Nat} (t : Staged α n 6) (b : Bank) : List Byte :=
  if b ∈ t.waiting ∧ ∀ c ∈ t.waiting, c = b then t.held.toList else []

/-- The changed group entries of `set` can apply together (R152): their groups are IDLE, and no outlet that one of their
new lists adds is still named by another group of `changed` outside `set`. -/
def State.CanApply (s : State) (changed set : Group → Prop) : Prop :=
  ∀ g : Group, set g → changed g ∧ s.groups[g].op = .idle
    ∧ ∀ o ∈ memberOutlets s.groupTable.pending[g], o ∉ s.members g →
        ∀ h : Group, h ≠ g → changed h → ¬ set h → o ∉ s.members h

/-- The largest set of changed group entries that can apply together (R152). -/
def State.LargestApplicable (s : State) (changed set : Group → Prop) : Prop :=
  s.CanApply changed set ∧ ∀ other : Group → Prop, s.CanApply changed other → ∀ g : Group, other g → set g

/-! ## Windows, as claims speak of them (R20 to R36) -/

/-- A channel of raw code `x` is over range under the calibration entry `e` (R21). -/
def OverRange (e : CalEntry) (x : RawCode) : Prop :=
  x.toInt = -32768 ∨ x.toInt = 32767 ∨ (calibrate e x).2 = true

/-- `w'` is window `w` with set `num` of bank `b` added (R21, R22, R28, R31): `cal` are the calibration entries, and `h`
the voltage history with the set's own voltage in front. -/
def Window.Takes (w w' : Window) (cal : Vector CalEntry 54) (b : Bank) (num : SetNo) (raw : RawSet) (sub : Bool)
    (h : List Int) : Prop :=
  let e : Position → CalEntry := fun p => cal[(outletAt b p).val]
  let v := (calibrate cal[48 + b.val] raw.volt).1
  let i : Position → Int := fun p => (calibrate (e p) raw.cur[p]).1
  let va : Position → Int := fun p => h.getD (min (e p).delay (h.length - 1)) 0
  w'.n = w.n + 1 ∧ w'.aligned = w.aligned ∧ w'.first = w.first
  ∧ (w'.sumV2 : Int) = w.sumV2 + v * v
  ∧ (w'.sumI2 : Int) = w.sumI2 + (∑ p, i p) * (∑ p, i p)
  ∧ (∀ p : Position, ((w'.sums[p].i2 : Nat) : Int) = w.sums[p].i2 + i p * i p
      ∧ w'.sums[p].vi = w.sums[p].vi + va p * i p)
  ∧ (w'.voltOver = true ↔ w.voltOver = true ∨ OverRange cal[48 + b.val] raw.volt)
  ∧ (∀ p : Position, w'.curOver.getLsbD p.val = true ↔
      w.curOver.getLsbD p.val = true ∨ OverRange (e p) raw.cur[p])
  ∧ w'.subTotal = (if sub then w.subTotal + 1 else w.subTotal) ∧ w'.subRun = (if sub then w.subRun + 1 else 0)
  ∧ (w'.invalid = true ↔ w.invalid = true ∨ 2 < w'.subRun ∨ 4 < w'.subTotal)
  ∧ w'.lastReceived =
      (if sub then w.lastReceived else some { num := num, closed := raw.closed, load := raw.load })
  ∧ w'.closed = raw.closed ∧ w'.load = raw.load

/-- `r` holds the results of the outlet at position `p` of a published window `w`; `creep` is the outlet's creep field
(R21, R32 to R34, R36). -/
def OutletResult.IsOf (r : OutletResult) (w : Window) (p : Position) (creep : Nat) : Prop :=
  let T : Int := creep * 1000
  let P := roundDiv w.sums[p].vi w.n
  let vrms := isqrt ((2 * w.sumV2 + w.n) / (2 * w.n))
  let irms := isqrt ((2 * w.sums[p].i2 + w.n) / (2 * w.n))
  r.pCode = P ∧ r.irms = irms ∧ (r.creep = true ↔ |P| < T)
  ∧ r.power = (if |P| < T then 0 else roundDiv P 2000)
  ∧ r.pf = (if |P| < T ∨ vrms * irms = 0 then 0 else max (-1000) (min 1000 (roundDiv (1000 * P) (vrms * irms))))
  ∧ r.overRange = (w.voltOver || w.curOver.getLsbD p.val)

/-- `r` holds the bank's results of a window `w` published with kind `kind` at `now` (R21, R32). -/
def BankResult.IsOf (r : BankResult) (w : Window) (kind : WindowKind) (now : Uptime) : Prop :=
  r.kind = kind ∧ r.n = w.n ∧ r.last = w.first + BitVec.ofNat 32 (w.n - 1) ∧ r.time = now
  ∧ r.vrms = isqrt ((2 * w.sumV2 + w.n) / (2 * w.n)) ∧ r.irms = isqrt ((2 * w.sumI2 + w.n) / (2 * w.n))
  ∧ (r.overRange = true ↔ w.voltOver = true ∨ ∃ p : Position, w.curOver.getLsbD p.val = true)

/-- The code of a root mean square over `n` sets (R32). -/
def meanCode (sum n : Nat) : Nat := isqrt ((2 * sum + n) / (2 * n))

/-- The relay block takes the close of window `w` of bank `b` for positions 1 to 8 (log entry 7), each with its Irms_code,
none for an INVALID close (R70 to R75, R28). -/
def State.relaysTake (s : State) (b : Bank) (w : Window) (atCrossing : Bool) : State :=
  let k : WindowKind :=
    if w.invalid = true ∨ (w.aligned = false ∧ atCrossing = true) then .invalid
    else if atCrossing = true then .valid else .noLine
  (List.finRange 8).foldl
    (fun x p => x.relayAtClose (outletAt b p) w k atCrossing
      (if k = .invalid then none else some (meanCode w.sums[p].i2 w.n))) s

/-- The relay block reads a set of bank `b` for positions 1 to 8 (log entry 7), cause UNCOMMANDED (R64, R65). -/
def State.relaysSee (s : State) (b : Bank) (closed : BitVec 8) (sub : Bool) : State :=
  (List.finRange 8).foldl
    (fun x p => x.relaySees (outletAt b p) (closed.getLsbD p.val) sub .uncommanded) s

/-! ## Shed units, monitors and masks, as claims speak of them -/

/-- A shed unit without a shed or restore in flight of outlet `o` (R58, R60). -/
def ShedUnit.landed (d : ShedUnit) (o : Outlet) : ShedUnit :=
  { d with shedFlight := if d.shedFlight = some o then none else d.shedFlight
           restoreFlight := if d.restoreFlight = some o then none else d.restoreFlight }

/-- A shed unit of bank `b` whose timers run just under their conditions (R56, R59): one that runs goes on, and one that
begins, begins now. -/
def State.timedShed (s : State) (b : Bank) (d : ShedUnit) : ShedUnit :=
  { d with
    shedTimer := if s.bankLimits[b].level = .critical ∧ s.lanes[b].link = .up ∧ d.shedFlight = none then
        some (d.shedTimer.getD s.uptime) else none
    restoreTimer := if s.bankLimits[b].level = .normal ∧ s.lanes[b].link = .up ∧ d.stack ≠ []
        ∧ d.restoreFlight = none ∧ s.safe.cause = none then some (d.restoreTimer.getD s.uptime) else none }

/-- A monitor in state `st` with its timers stopped and busy-retry count 0; budget, window and last token stay. -/
def Monitor.still (m : Monitor) (st : MonitorState) : Monitor :=
  { m with state := st, deadline := none, grace := none, busy := 0 }

/-- What a monitor becomes when its group's derived power state goes from `before` to `now` (R139). -/
def Monitor.afterPower (m : Monitor) (before now : PowerState) : Monitor :=
  if now = .allOff ∧ before ≠ .allOff ∧ m.state ≠ .cycling ∧ m.state ≠ .offline then m.still .disarmed else m

/-- What the monitor of `g` becomes when entry `new` of its group applies in state `s` (R140, R136): OFFLINE for a group
that is not watched; from OFFLINE, DISARMED out of SAFE; DISARMED when the members change; and no budget count above the
new budget. -/
def State.monitorWith (s : State) (g : Group) (new : GroupEntry) : Monitor :=
  let m := s.monitors[g]
  let x :=
    if new.enabled = false ∨ new.policy = .none then m.still .offline
    else if m.state = .offline then (if s.safe.cause = none then m.still .disarmed else m)
    else if new.members ≠ s.groupTable.active[g].members then m.still .disarmed
    else m
  { x with budget := min m.budget new.budget }

/-! ## Turns of ONING, as claims speak of them (R111 to R113) -/

/-- How member `m` of group `g` is marked when its turn passes over it: shed, in fault or ON, or its CLOSE refused by
rank; none when its CLOSE is requested and it is awaited (R111). -/
def State.passedAs (s : State) (g : Group) (m : Outlet) : Option Progress :=
  if m ∈ s.sheds[bankOf m].stack then some .passed
  else if s.relays[m].state = .faultOpen ∨ s.relays[m].state = .faultWelded then some .faulted
  else if s.relays[m].state = .on then some .closed
  else if (s.request m .close (.group g)).1 = .refusedRank then some .passed
  else none

/-- The members of `g` at positions `i` to `j - 1` of its list. -/
def State.turnsBetween (s : State) (g : Group) (i j : Nat) : List Outlet := ((s.members g).take j).drop i

/-- Group `g` in state `s` becomes `x` by the turns at positions `i` to `j - 1`, all of members passed over (R111): each
is marked, and one in fault joins the faulted members, in member order; all else of the operation stays. -/
def State.PassedOver (s : State) (g : Group) (i j : Nat) (x : GroupOp) : Prop :=
  let r := s.groups[g]
  let ms := s.members g
  let passed := s.turnsBetween g i j
  x = { r with turn := if i < j then j - 1 else r.turn, busyWait := if i < j then false else r.busyWait
               progress := x.progress, faulted := x.faulted }
  ∧ x.progress.length = r.progress.length
  ∧ (∀ m ∈ passed, ∀ p q : Progress, s.passedAs g m = some p → x.progress[ms.idxOf m]? = some q → q = p)
  ∧ (∀ k : Nat, (∀ m ∈ passed, ms.idxOf m ≠ k) → x.progress[k]? = r.progress[k]?)
  ∧ x.faulted = if ∃ m ∈ passed, s.passedAs g m = some .faulted then
      ms.filter fun m => m ∈ r.faulted ∨ (m ∈ passed ∧ s.passedAs g m = some .faulted) else r.faulted

/-- State `t` is `s` once group `g`, in ONING, has taken turns from position `i` on (R111 to R113). When the members from
`i` to before `j` are passed over and member `j` is not, its CLOSE of origin GROUP is requested, and whatever the answer
(QUEUED, REPLACED, MERGED, or REFUSED_BUSY, which alone sets the wait that has the turn taken again) it is awaited, its
progress AWAITING. When all from `i` on are passed over, ONING is over: with the re-power mark the operation ends FAILED,
reason WELDED; without it VERIFYING begins with the boot window, and with verify NONE the operation ends DONE. -/
def State.TurnsTaken (s t : State) (g : Group) (i : Nat) : Prop :=
  let ms := s.members g
  ∀ j : Nat, i ≤ j → j = i ∨ j ≤ ms.length → (∀ m ∈ s.turnsBetween g i j, s.passedAs g m ≠ none) →
    ∃ x : GroupOp, s.PassedOver g i j x
    ∧ (∀ m : Outlet, ms[j]? = some m → s.passedAs g m = none →
      let q := s.request m .close (.group g)
      t = { q.2 with groups := upd s.groups g fun _ => { x with
              turn := j, busyWait := decide (q.1 = .refusedBusy)
              awaited := if m ∈ x.awaited then x.awaited else x.awaited ++ [m]
              progress := x.progress.set (ms.idxOf m) .awaiting } }
      ∧ ((∀ e ∈ s.queue, e.outlet ≠ m) → t.queue = s.queue ++
          [{ outlet := m, action := .close, origin := .group g, enqueued := s.uptime, state := .waiting }]))
    ∧ (ms.length ≤ j →
      let ended : State := { s with groups := upd s.groups g fun _ => x }
      let begun : State := { s with groups := upd s.groups g fun _ =>
        { x with op := .verifying, boot := some s.uptime } }
      (x.repower = true → t = ended.endOp g .failed (some .welded) false)
      ∧ (x.repower = false → s.groupTable.active[g].verify ≠ .none → t = begun)
      ∧ (x.repower = false → s.groupTable.active[g].verify = .none → t = begun.endOp g .done none false))

/-- Bit i of the mask is element i of the list, 0 beyond it (R190). -/
def IsMask (mask : Nat) (bits : List Bool) : Prop := ∀ i : Nat, mask.testBit i = bits.getD i false

/-! ## What no command touches -/

/-- The parts of a state that events, switching, shedding, groups and monitors leave alone: pins, clock, measurements,
the interval, thresholds, buckets, and the tables but for the outlet and the group table. -/
def State.sameMeasures (s t : State) : Prop :=
  t.pending = s.pending ∧ t.uptime = s.uptime ∧ t.subMs = s.subMs ∧ t.safePin = s.safePin ∧ t.holdIn = s.holdIn
    ∧ t.meters = s.meters ∧ t.outlets = s.outlets ∧ t.interval = s.interval
    ∧ t.outletLimits = s.outletLimits ∧ t.bankLimits = s.bankLimits ∧ t.phaseLimits = s.phaseLimits
    ∧ t.loadLost = s.loadLost ∧ t.phaseElements = s.phaseElements ∧ t.capture = s.capture
    ∧ t.bankTable = s.bankTable ∧ t.phaseTable = s.phaseTable ∧ t.calTable = s.calTable
    ∧ t.grantTable = s.grantTable ∧ t.systemTable = s.systemTable ∧ t.calLock = s.calLock
    ∧ ∀ b : Bank, t.lanes[b].link = s.lanes[b].link ∧ t.lanes[b].counter = s.lanes[b].counter
        ∧ t.lanes[b].fifo = s.lanes[b].fifo ∧ t.lanes[b].lastGood = s.lanes[b].lastGood
        ∧ t.lanes[b].errors = s.lanes[b].errors ∧ t.lanes[b].silence = s.lanes[b].silence
        ∧ t.lanes[b].signal = s.lanes[b].signal ∧ t.lanes[b].line = s.lanes[b].line

/-! ## Promises kept from step to step -/

/-- R94, R95: a phase's token count is at most its capacity, and its refill timer runs just while it is below. -/
def State.TokensKept (s : State) : Prop :=
  ∀ p : SupplyPhase, s.tokens[p] ≤ s.phaseTable.active[p].capacity
    ∧ (s.refill[p].isSome ↔ s.tokens[p] < s.phaseTable.active[p].capacity)

/-- R37: every residue is below one counter unit and every counter in 32 bits. -/
def State.EnergyKept (s : State) : Prop :=
  ∀ o : Outlet, s.outlets[o].residue < 28800000000 ∧ s.outlets[o].energy ≤ 4294967295

/-- R22, R24, R27, R28, R39 of one bank: an open window has at most 95 sets, a published window is valid with 56 to 95
sets or NO_LINE with exactly 96, and the frequency is that of the list of valid lengths. -/
def BankMeter.Kept (m : BankMeter) : Prop :=
  m.history.length ≤ 4
    ∧ (∀ w, m.window = some w → w.n ≤ 95)
    ∧ (∀ n, m.winLen = some n → 56 ≤ n ∧ n ≤ 95)
    ∧ (∀ r, m.latest = some r → (r.kind = .valid ∧ 56 ≤ r.n ∧ r.n ≤ 95) ∨ (r.kind = .noLine ∧ r.n = 96))
    ∧ m.freqList.length ≤ 8 ∧ (∀ n ∈ m.freqList, 56 ≤ n ∧ n ≤ 95)
    ∧ m.frequency = (if m.freqList.length = 8 then (2 * 3200000 + m.freqList.sum) / (2 * m.freqList.sum) else 0)

def State.WindowsKept (s : State) : Prop := ∀ b : Bank, s.meters[b].Kept

/-- R84: at most one entry per outlet. -/
def State.QueueKept (s : State) : Prop := (s.queue.map (·.outlet)).Nodup

/-- R80, R81: the shown mode of each position is the mode its outlet is to show. -/
def State.ModesKept (s : State) : Prop := ∀ (b : Bank) (p : Position), s.shown[b][p] = s.modeOf (outletAt b p)

/-- R173, R175, R176 of the notifier: at most 64 entries, one a key; no kind on two streams, every remaining count within
1 to 65,536; and while the notice queue has room, nothing that may be sent is pending. -/
def State.NotifierKept (s : State) : Prop :=
  s.notifier.entries.length ≤ 64
    ∧ (s.notifier.entries.map fun e => (e.kind, e.source)).Nodup
    ∧ (∀ (i : Stream) (b : Binding), s.notifier.streams[i] = some b → 1 ≤ b.remaining ∧ b.remaining ≤ 65536)
    ∧ (∀ (i j : Stream) (b c : Binding), s.notifier.streams[i] = some b → s.notifier.streams[j] = some c →
        b.kind = c.kind → i = j)
    ∧ s.link0.notices.length ≤ 8
    ∧ (s.link0.notices.length < 8 → s.notifier.candidates = [])

/-- The fills of spec/01 1.1 and spec/09 9.1: lane and command FIFOs of 4 cells, record queue of 16, gap count in 8 bits. -/
def State.FillsKept (s : State) : Prop :=
  (∀ b : Bank, s.lanes[b].fifo.length ≤ 4) ∧ s.link0.fifo.length ≤ 4 ∧ s.link0.records.length ≤ 16
    ∧ s.link0.gap ≤ 255

/-- R183: in SAFE no group has an operation, every WAITING entry has origin SAFE or SHED, every monitor is OFFLINE and no
restore timer runs. -/
def State.SafeKept (s : State) : Prop :=
  s.safe.cause ≠ none →
    (∀ g : Group, s.groups[g].op = .idle)
    ∧ (∀ e ∈ s.queue, e.state = .waiting → e.origin = .safe ∨ e.origin = .shed)
    ∧ (∀ g : Group, s.monitors[g].state = .offline)
    ∧ (∀ b : Bank, s.sheds[b].restoreTimer = none)

/-- R144, R150, R154 of the calibration table: it is never DEFERRED; banks wait only while it is COMMITTING; an entry
whose bank does not wait has equal copies unless the table is DIRTY; and a locked table is CLEAN. -/
def State.CalKept (s : State) : Prop :=
  s.calTable.state ≠ .deferred
    ∧ (s.calTable.state ≠ .committing → s.calTable.waiting = [])
    ∧ (s.calTable.state ≠ .dirty → ∀ i : Fin 54, bankOfCal i ∉ s.calTable.waiting →
        s.calTable.pending[i] = s.calTable.active[i])
    ∧ (s.calLock = true → s.calTable.state = .clean)

/-- A table committed by bank holds a COMMIT's response just while banks wait (R150, R162). -/
def Staged.HoldsWhileWaiting {α : Type} {n : Nat} (t : Staged α n 6) : Prop :=
  (t.held.isSome ↔ t.waiting ≠ []) ∧ (t.state = .committing ↔ t.waiting ≠ []) ∧ t.state ≠ .deferred

/-- The slots reserved for held COMMITs. -/
def State.heldSlots (s : State) : List HeldSlot :=
  (s.calTable.held.toList ++ s.bankTable.held.toList).map fun t => { tag := t, kind := 0x03 }

/-- R160 to R162: never more than 8 slots in use, and the reserved ones are those of the held COMMITs. -/
def State.SlotsKept (s : State) : Prop :=
  s.link0.reserved.length + s.link0.filled.length ≤ 8 ∧ s.link0.reserved.Perm s.heldSlots
    ∧ s.calTable.HoldsWhileWaiting ∧ s.bankTable.HoldsWhileWaiting

/-- The moves of spec/01 1.5. -/
def laneMoves : List (LinkState × LinkState) :=
  [(.absent, .syncing), (.syncing, .up), (.syncing, .absent), (.up, .lost), (.lost, .up), (.lost, .absent)]

end Sys2Proof.Machine
end

