-- ==== Sys2Proof/Certificates/Slice0/Obligations.lean ====
section
/-! DEFINITION. Certificates/Slice0/Obligations.lean: the statements about the part, by the chapters of the spec. -/

open Sys2Proof Sys2Proof.Machine

/-! ## The machine -/

/-- For every command c and state s with c at the front of its queue, one step is exec of c on s with the queue's rest.
The queue is the model's own (log entry 19). With no command waiting, a step counts one microsecond: each lane's time
since its last taking rises to at most 200; after 1,000 of them the uptime rises by one (modulo 2^32) and the new
value has its own dispatch opportunity. Nothing else changes. That the tick is what an empty queue does is the
model's choice (log entry 1). [00_scope 0.5] -/
def Obligations.StepIsOneCommandOrOneMicrosecond : Prop :=
  (∀ (c : Instr) (rest : List Instr) (s : State), s.pending = c :: rest → step s = exec c { s with pending := rest })
    ∧ (∀ s : State, s.pending = [] → ∃ t : State, step s = .next t
    ∧ t = { s with lanes := t.lanes, subMs := t.subMs, uptime := t.uptime, opportunityTaken := t.opportunityTaken }
    ∧ (∀ b : Bank, t.lanes[b] =
        { s.lanes[b] with sinceTake := if s.lanes[b].sinceTake < 200 then s.lanes[b].sinceTake + 1 else 200 })
    ∧ (s.subMs + 1 < 1000 →
        t.subMs = s.subMs + 1 ∧ t.uptime = s.uptime ∧ t.opportunityTaken = s.opportunityTaken)
    ∧ (1000 ≤ s.subMs + 1 → t.subMs = 0 ∧ t.uptime = s.uptime + 1 ∧ t.opportunityTaken = false))

/-- POWER_ON leaves every part of the state at its power-on value, with the levels of the two input lines (log entry
9; that the first taking of a lane then waits for nothing is log entry 28) and the queue of waiting commands as they
were. With the SAFE pin asserted the part is then in SAFE with cause PIN: every default safe action is HOLD, so the
queue is empty, the follow-up set is empty, and the SAFE_ENTERED notice stands in the notice queue. [R169, R184,
R155, R79, R54] -/
def Obligations.PowerOnGivesThePowerOnState : Prop :=
  ∀ s : State,
    (s.safePin = false → exec .powerOn s =
      .next { State.reset with pending := s.pending, safePin := false, holdIn := s.holdIn })
    ∧ (s.safePin = true → exec .powerOn s =
      .next { State.reset with
        pending := s.pending, safePin := true, holdIn := s.holdIn
        safe := { cause := some .pin, followUp := [] }
        link0 := { State.reset.link0 with
          notices := [{ kind := .safeEntered, source := 0, level := 7, count := 0, time := 0,
                        detail := .safeEntered .pin 0 0 0 0 0 }] } })

/-- State.reset has the token counts at capacity with refill timers stopped, residues and counters in range, no open
window, an empty queue, an empty notifier, empty FIFOs, a calibration table with equal copies, no reserved slot,
shown modes that are those to be shown, and it is not in SAFE. [01_bank_links_and_the_sample_stream 1.1,
02_metering_arithmetic 2.1, R42, 05_the_switching_queue_and_turn_on_grants 5.1, R180, 09_the_management_link 9.1,
R169, R155, R184, R81] -/
def Obligations.PowerOnMeetsEveryPromise : Prop :=
  State.reset.TokensKept ∧ State.reset.EnergyKept ∧ State.reset.WindowsKept ∧ State.reset.QueueKept
    ∧ State.reset.NotifierKept ∧ State.reset.FillsKept ∧ State.reset.SafeKept ∧ State.reset.CalKept
    ∧ State.reset.SlotsKept ∧ State.reset.ModesKept

/-- When the OK response of a RESTART of kind ENGINE has been sent, lanes keep everything but their unsent cells (an
UP lane gets one INDICATE cell; that framing and the time since the last taking are kept is log entry 23), energy
counters and residues are kept and the other metering state cleared, thresholds, load-lost detectors, shed units,
relay records, queue, grant pointer, turns-on, settle and refill timers, groups and the capture unit are as after
power-on, token counts are the active capacities, the tables are kept but for what waits, which applies (a
COMMITTING table is then CLEAN, a DEFERRED one DIRTY or CLEAN by its written mark), each monitor is DISARMED or
OFFLINE by its kept entry, levels and mask are kept with pending set and streams cleared, the queues of the link
unit are empty with cause RESTART_ENGINE and the error records kept, the safe state keeps its cause with an empty
follow-up set, and the uptime, the interval clock, the calibration lock and the pins are kept; an AUTO indicator
shows OFF. When the OK response of a RESTART of kind ALL has been sent, the state is the power-on state with these
kept: the queue of waiting commands, the uptime, the pins, each lane but for its error record and its unsent cells
(an UP lane gets one INDICATE cell), and, under the calibration lock, the lock and the calibration copies; the
interval starts at the present uptime and the last restart cause is RESTART_ALL. With the SAFE pin asserted the part
is also in SAFE with cause PIN and the SAFE_ENTERED notice is queued. [R167, R169, R18, R29, R42, R48, R54, R63,
R79, R81, R100, R125, R142, R155, R180, R184, R185] -/
def Obligations.RestartsTakeEffect : Prop :=
  (∀ s : State, s.link0.restart = some { kind := .engine, sending := true } →
    ∃ t : State, exec .restartTakesEffect s = .next t
    ∧ t.pending = s.pending ∧ t.uptime = s.uptime ∧ t.subMs = s.subMs ∧ t.opportunityTaken = s.opportunityTaken
    ∧ t.safePin = s.safePin ∧ t.holdIn = s.holdIn ∧ t.interval = s.interval ∧ t.calLock = s.calLock
    ∧ (∀ b : Bank, t.lanes[b] =
        { s.lanes[b] with relayList := []
                          indicator := if s.lanes[b].link = .up then some t.shown[b] else none })
    ∧ (∀ (b : Bank) (p : Position), t.shown[b][p] =
        match t.outletTable.active[outletAt b p].indicator with
        | .auto => .off | .on => .on | .blink => .blink | .off => .off)
    ∧ t.meters = State.reset.meters
    ∧ (∀ o : Outlet, t.outlets[o] =
        { latest := none, lastValidP := none, energy := s.outlets[o].energy, residue := s.outlets[o].residue
          sums := IntervalSums.clear })
    ∧ t.outletLimits = State.reset.outletLimits ∧ t.bankLimits = State.reset.bankLimits
    ∧ t.phaseLimits = State.reset.phaseLimits ∧ t.loadLost = State.reset.loadLost
    ∧ t.phaseElements = State.reset.phaseElements ∧ t.sheds = State.reset.sheds ∧ t.relays = State.reset.relays
    ∧ t.queue = [] ∧ t.grantPtr = 0 ∧ t.turnOn = State.reset.turnOn ∧ t.settle = State.reset.settle
    ∧ (∀ p : SupplyPhase, t.tokens[p] = s.phaseTable.active[p].capacity) ∧ t.refill = State.reset.refill
    ∧ t.groups = State.reset.groups
    ∧ (∀ g : Group, t.monitors[g] = Monitor.reset
        (if t.groupTable.active[g].enabled = true ∧ t.groupTable.active[g].policy ≠ .none ∧ s.safe.cause = none
         then .disarmed else .offline))
    ∧ s.outletTable.RestartedTo t.outletTable .deferred (fun o => o ∈ s.outletTable.waiting)
    ∧ s.bankTable.RestartedTo t.bankTable .committing (fun b => b ∈ s.bankTable.waiting)
    ∧ s.calTable.RestartedTo t.calTable .committing (fun i => bankOfCal i ∈ s.calTable.waiting)
    ∧ s.groupTable.RestartedTo t.groupTable .deferred (fun g => g ∈ s.groupTable.waiting)
    ∧ t.phaseTable = s.phaseTable ∧ t.grantTable = s.grantTable ∧ t.systemTable = s.systemTable
    ∧ t.link0 = { Link0.reset with partialCell := s.link0.partialCell, framing := s.link0.framing
                                   errors := s.link0.errors, lastCause := .restartEngine }
    ∧ t.notifier = { Notifier.reset with levels := s.notifier.levels, mask := s.notifier.mask }
    ∧ t.safe = { cause := s.safe.cause, followUp := [] } ∧ t.capture = State.reset.capture)
    ∧ (∀ s : State, s.link0.restart = some { kind := .all, sending := true } →
    let base : State :=
      { State.reset with
        pending := s.pending, uptime := s.uptime, subMs := s.subMs, opportunityTaken := s.opportunityTaken
        safePin := s.safePin, holdIn := s.holdIn
        lanes := Vector.ofFn fun b =>
          { s.lanes[b] with errors := { kinds := [], first := none, captured := [] }, relayList := []
                            indicator := if s.lanes[b].link = .up then some (Vector.replicate 8 .off) else none }
        interval := { start := s.uptime, length := 1, number := 0 }
        calLock := s.calLock
        calTable := if s.calLock then
            { s.calTable with state := .clean, waiting := [], written := false, held := none }
          else State.reset.calTable
        link0 := { Link0.reset with
          partialCell := s.link0.partialCell, framing := s.link0.framing, lastCause := .restartAll } }
    (s.safePin = false → exec .restartTakesEffect s = .next base)
    ∧ (s.safePin = true → exec .restartTakesEffect s = .next
        { base with
          safe := { cause := some .pin, followUp := [] }
          link0 := { base.link0 with
            notices := [{ kind := .safeEntered, source := 0, level := 7, count := 0, time := s.uptime,
                          detail := .safeEntered .pin 0 0 0 0 0 }] } }))

/-! ## Bank lanes (spec/01) -/

/-- LANE_CHARACTER on bank b: an ABSENT lane becomes SYNCING with run count 0, run sequence absent, the signal timer
started and no framing yet; any other lane restarts its signal timer and, once framing has begun, the character joins
the cell in progress. Nothing else changes, and no event is raised. (The character-by-character operand is log entry
5.) [R7, R2] -/
def Obligations.LaneCharacterIsHeard : Prop :=
  ∀ (b : Bank) (c : LineChar) (s : State), exec (.laneCharacter b c) s =
    .next { s with lanes := upd s.lanes b fun l =>
      if l.link = .absent then
        { l with link := .syncing, runCount := 0, runSeq := none, signal := some s.uptime, framing := false
                 partialCell := [] }
      else
        { l with signal := some s.uptime
                 partialCell := if l.framing then l.partialCell ++ [c] else l.partialCell } }

/-- For a lane not in ABSENT, the characters framed so far and those that end now form a cell, unless no gap has
begun framing since ABSENT or a BREAK, when they are discarded without an error: a bad stop bit makes it a CHARACTER
error; otherwise a kind byte that is not SAMPLE or a length that is not 23 makes it a LENGTH error; otherwise a
wrong CRC-8 makes it a CRC error; otherwise it is good, and joins the tail of a FIFO of fewer than 4 cells, or is an
OVERRUN error. An error is recorded with the cell's bytes and gives up a run; nothing else changes but the framing
and, when characters came, the signal timer. A gap with no character of a cell changes only the framing and, as
said, the signal timer. In ABSENT a gap alone changes nothing; characters before it bring the lane to SYNCING, are
discarded, and the gap begins framing. (The operand form is log entry 5.) [R2, R4, R7] -/
def Obligations.LaneCellIsClassified : Prop :=
  ∀ (b : Bank) (chars : List LineChar) (s : State),
    let l := s.lanes[b]
    let cell := heldCell l.framing l.partialCell chars
    let bytes := cell.map (·.byte)
    let t : State := { s with lanes := upd s.lanes b fun l =>
      { l with framing := true, partialCell := [], signal := if chars = [] then l.signal else some s.uptime } }
    (l.link ≠ .absent →
      (cell = [] → exec (.laneCellReceived b chars) s = .next t)
      ∧ (cell ≠ [] → (∃ c ∈ cell, c.stopOk = false) →
          exec (.laneCellReceived b chars) s = .next (t.withLaneError b .character bytes))
      ∧ (cell ≠ [] → (∀ c ∈ cell, c.stopOk = true) → bytes.head? ≠ some 0x31 ∨ bytes.length ≠ 23 →
          exec (.laneCellReceived b chars) s = .next (t.withLaneError b .length bytes))
      ∧ ((∀ c ∈ cell, c.stopOk = true) → bytes.head? = some 0x31 → bytes.length = 23 →
          (bytes.getLast? ≠ some (crc8 bytes.dropLast) →
            exec (.laneCellReceived b chars) s = .next (t.withLaneError b .crc bytes))
          ∧ (bytes.getLast? = some (crc8 bytes.dropLast) → l.fifo.length < 4 →
            exec (.laneCellReceived b chars) s =
              .next { t with lanes := upd t.lanes b fun l => { l with fifo := l.fifo ++ [sampleOf bytes] } })
          ∧ (bytes.getLast? = some (crc8 bytes.dropLast) → 4 ≤ l.fifo.length →
            exec (.laneCellReceived b chars) s = .next (t.withLaneError b .overrun bytes))))
    ∧ (l.framing = false → l.link ≠ .absent → exec (.laneCellReceived b chars) s = .next t)
    ∧ (l.link = .absent →
      (chars = [] → exec (.laneCellReceived b chars) s = .next s)
      ∧ (chars ≠ [] → exec (.laneCellReceived b chars) s = .next { t with lanes := upd t.lanes b fun l =>
          { l with link := .syncing, runCount := 0, runSeq := none } }))

/-- LANE_BREAK on a lane in SYNCING, UP or LOST discards the cell in progress, waits for an idle gap before framing, and
records a BREAK error with the bytes of the partial cell; the FIFO, the counters and the signal timer are as before.
In ABSENT nothing changes. [R3] -/
def Obligations.LaneBreakIsRecorded : Prop :=
  ∀ (b : Bank) (s : State),
    (s.lanes[b].link = .absent → exec (.laneBreak b) s = .next s)
    ∧ (s.lanes[b].link ≠ .absent → exec (.laneBreak b) s =
      .next (State.withLaneError
        { s with lanes := upd s.lanes b fun l => { l with framing := false, partialCell := [] } } b .brk
        (s.lanes[b].partialCell.map (·.byte))))

/-- TAKE_SAMPLE_CELL with a cell in the FIFO of a SYNCING or LOST lane, at least 200 microseconds after the previous
taking: the cell leaves the FIFO, the run count becomes 1 for a first or non-consecutive sequence number and rises by
one for the next one modulo 256, and the run sequence is the cell's. Below 16 nothing else changes: no set is handed
over. Sooner than 200 microseconds, or with an empty FIFO, no cell is taken (log entry 2). [R8, R4] -/
def Obligations.RunOfSetsIsCounted : Prop :=
  ∀ (b : Bank) (s : State),
    (s.lanes[b].fifo = [] ∨ s.lanes[b].sinceTake < 200 → exec (.takeSampleCell b) s = .next s)
    ∧ (∀ (c : SampleCell) (rest : List SampleCell) (n : Nat), s.lanes[b].fifo = c :: rest → 200 ≤ s.lanes[b].sinceTake →
      s.lanes[b].link = .syncing ∨ s.lanes[b].link = .lost →
      (n = if s.lanes[b].runSeq = some (c.seq - 1) then s.lanes[b].runCount + 1 else 1) → n < 16 →
      exec (.takeSampleCell b) s =
        .next { s with lanes := upd s.lanes b fun l =>
          { l with fifo := rest, sinceTake := 0, runCount := n, runSeq := some c.seq } })

/-- When the taken cell makes the run 16 long: the lane is UP, its counter advances by 1 to 256 to a value whose low
byte is the cell's sequence number, the cell is the last good set, the run is given up, the silence timer starts;
the FIFO has lost the cell, and signal timer, error record and cells in progress are as they were. The bank's meter
has no crossing, no window length, no frequency, and one open unaligned window that holds just this set; its
published results stay. Its phase element is absent. Each outlet of the bank that was UNKNOWN, OFF or ON has the
state its closed bit gives, and the others keep theirs. An INDICATE cell with the shown modes waits, and the bank's
shed and restore timers follow their conditions. BANK_UP is raised with the bank as source and the state left,
SYNCING or LOST; the state after is the one in which then the relay block has read the set for positions 1 to 8, as
statement O23 gives, raising RECONCILE of cause AT_UP, the INDICATE cell and timers are set, and the set is handed
over, as statement O15 gives (this order is log entry 7). Other banks' lanes and meters, all outlets' results and
energy, the switching queue, the interval, the tables and the safe state are unchanged. [R9, R29, R52, R66, R56,
R59] -/
def Obligations.SixteenthCellBringsTheLaneUp : Prop :=
  ∀ (b : Bank) (c : SampleCell) (rest : List SampleCell) (s : State),
    s.lanes[b].link = .syncing ∨ s.lanes[b].link = .lost → s.lanes[b].fifo = c :: rest →
    200 ≤ s.lanes[b].sinceTake → s.lanes[b].runSeq = some (c.seq - 1) → 15 ≤ s.lanes[b].runCount →
    ∃ (t : State) (k : Nat) (w : Window), exec (.takeSampleCell b) s = .next t
    ∧ 1 ≤ k ∧ k ≤ 256 ∧ t.lanes[b].counter = s.lanes[b].counter + BitVec.ofNat 32 k
    ∧ t.lanes[b].counter.toNat % 256 = c.seq.toNat
    ∧ t.lanes[b] = { s.lanes[b] with
        link := .up, counter := t.lanes[b].counter, lastGood := some c.set, runCount := 0, runSeq := none
        silence := some s.uptime, fifo := rest, sinceTake := 0, indicator := some t.shown[b] }
    ∧ t.meters[b].window = some w ∧ w.n = 1 ∧ w.aligned = false ∧ w.first = t.lanes[b].counter ∧ w.invalid = false
    ∧ t.meters[b].crossing = none ∧ t.meters[b].winLen = none ∧ t.meters[b].lastKind = none
    ∧ t.meters[b].freqList = [] ∧ t.meters[b].frequency = 0 ∧ t.meters[b].latest = s.meters[b].latest
    ∧ (∀ b' : Bank, b' ≠ b → t.lanes[b'] = s.lanes[b'] ∧ t.meters[b'] = s.meters[b'])
    ∧ t.phaseElements = upd s.phaseElements b (fun _ => none)
    ∧ (∀ p : Position,
        t.relays[outletAt b p].state =
          match s.relays[outletAt b p].state with
          | .unknown => if c.set.closed.getLsbD p.val then .on else .off
          | .off => if c.set.closed.getLsbD p.val then .on else .off
          | .on => if c.set.closed.getLsbD p.val then .on else .off
          | st => st)
    ∧ (∀ o : Outlet, bankOf o ≠ b → t.relays[o] = s.relays[o])
    ∧ t.outlets = s.outlets ∧ t.queue = s.queue ∧ t.interval = s.interval ∧ t.uptime = s.uptime
    ∧ t.outletTable = s.outletTable ∧ t.bankTable = s.bankTable ∧ t.calTable = s.calTable
    ∧ t.groupTable = s.groupTable ∧ t.groups = s.groups ∧ t.safe = s.safe ∧ t.tokens = s.tokens
    ∧ t.turnOn = s.turnOn ∧ t.settle = s.settle ∧ t.bankLimits = s.bankLimits
    ∧ t.sheds = upd s.sheds b (t.timedShed b)
    ∧ (let begun : State := { s with
        lanes := upd s.lanes b fun l => { l with
          link := .up, counter := t.lanes[b].counter, lastGood := some c.set, runCount := 0, runSeq := none
          silence := some s.uptime, fifo := rest, sinceTake := 0 }
        meters := upd s.meters b fun m => { m with
          history := [], armed := false, window := none, crossing := none, winLen := none, lastKind := none
          freqList := [], frequency := 0 }
        phaseElements := upd s.phaseElements b fun _ => none }
      let seen := (List.finRange 8).foldl
        (fun x p => x.relaySees (outletAt b p) (c.set.closed.getLsbD p.val) false .atUp)
        (begun.raise .bankUp (b.val + 1) (.bankUp s.lanes[b].link))
      t = State.handSet
        { seen with
          lanes := upd seen.lanes b fun l => { l with indicator := some seen.shown[b] }
          sheds := upd seen.sheds b (seen.timedShed b) } b t.lanes[b].counter c.set false)

/-- TAKE_SAMPLE_CELL in UP, with d the cell's sequence number less the counter modulo 256: for d from 1 to 128, d - 1
copies of the last good set marked substituted and then the received set are handed over in order, each as the
counter moves to its number; the cell becomes the last good set and the silence timer restarts. For d = 0 or d from
129 to 255 the cell leaves the FIFO and nothing else changes. [R10] -/
def Obligations.CellInUpHandsItsSetsInOrder : Prop :=
  ∀ (b : Bank) (c : SampleCell) (rest : List SampleCell) (g : RawSet) (s : State),
    s.lanes[b].link = .up → s.lanes[b].fifo = c :: rest → 200 ≤ s.lanes[b].sinceTake → s.lanes[b].lastGood = some g →
    let d := (c.seq.toNat + 256 - s.lanes[b].counter.toNat % 256) % 256
    let s0 : State := { s with lanes := upd s.lanes b fun l => { l with fifo := rest, sinceTake := 0 } }
    let hand : State → RawSet × Bool → State := fun u x =>
      let u' : State := { u with lanes := upd u.lanes b fun l => { l with counter := l.counter + 1 } }
      u'.handSet b u'.lanes[b].counter x.1 x.2
    (1 ≤ d → d ≤ 128 →
      let u := (List.replicate (d - 1) (g, true) ++ [(c.set, false)]).foldl hand s0
      u.lanes[b].counter = s.lanes[b].counter + BitVec.ofNat 32 d
      ∧ exec (.takeSampleCell b) s =
        .next { u with lanes := upd u.lanes b fun l => { l with lastGood := some c.set, silence := some s.uptime } })
    ∧ (d = 0 ∨ 129 ≤ d → exec (.takeSampleCell b) s = .next s0)

/-- SILENCE_TIMER_EXPIRY at 20 ms or more on an UP lane: the lane is LOST with its counter, last good set, FIFO,
error record and signal timer kept, the run given up, the silence timer stopped and nothing left to send. The bank's
open window is discarded without a close and no energy changes; its phase element is absent. No outlet of the bank
has an action in flight, and each that had one is UNKNOWN, with no ISSUED entry left; the others keep their states.
Each group in OFFING, DWELL or ONING without the cancel mark and with a member in the bank is IDLE with a FAILED
record of reason BANK_LOST. A capture armed or filling on the bank is aborted. A calibration or bank table part
waiting on the bank has applied. The bank's shed and restore timers stop. The state after is the one in which, in
this order (log entry 7): BANK_LOST is raised with the number of the last set handed over; the bank's timers stop;
those operations end, groups 1 to 32, their awaited WAITING entries withdrawn, as statement O39 gives; for positions
1 to 8 an action in flight leaves UNKNOWN and its entry completes LOST, with SWITCH_DONE of that result, as
statement O28 gives, and watch counts are 0; an aborted capture raises CAPTURE_DONE with a header ABORTED, the pairs
stored, no window kind, the interval number and uptime; and the bank's boundary is passed. Before 20 ms, and on a
lane not UP, nothing changes. [R12, R13, R78, R29, R119, R187, R56, R59, R99] -/
def Obligations.SilenceTakesTheLaneToLost : Prop :=
  ∀ (b : Bank) (s : State),
    (s.lanes[b].link ≠ .up ∨ due s.lanes[b].silence s.uptime 20 = false → exec (.silenceTimerExpiry b) s = .next s)
    ∧ (∀ u : Uptime, s.lanes[b].link = .up → s.lanes[b].silence = some u → 20 ≤ (s.uptime - u).toNat →
      ∃ t : State, exec (.silenceTimerExpiry b) s = .next t
      ∧ t.lanes[b] = { s.lanes[b] with link := .lost, silence := none, relayList := [], indicator := none
                                       runCount := 0, runSeq := none }
      ∧ (∀ b' : Bank, b' ≠ b → t.lanes[b'] = { s.lanes[b'] with indicator := t.lanes[b'].indicator }
          ∧ t.meters[b'] = s.meters[b'])
      ∧ t.meters[b] = { s.meters[b] with window := none }
      ∧ t.phaseElements = upd s.phaseElements b (fun _ => none) ∧ t.outlets = s.outlets
      ∧ (∀ o : Outlet, bankOf o = b → t.relays[o].flight = none
          ∧ t.relays[o].state = if s.relays[o].flight = none then s.relays[o].state else .unknown)
      ∧ (∀ o : Outlet, bankOf o ≠ b → t.relays[o] = s.relays[o])
      ∧ (∀ e ∈ t.queue, bankOf e.outlet = b → s.relays[e.outlet].flight ≠ none → e.state = .waiting)
      ∧ (∀ g : Group, (s.groups[g].op = .offing ∨ s.groups[g].op = .dwell ∨ s.groups[g].op = .oning) →
          s.groups[g].cancel = false → (∃ o ∈ s.members g, bankOf o = b) →
          t.groups[g].op = .idle ∧ ∃ r : OpRecord, t.groups[g].lastRecord = some r ∧ r.result = .failed
            ∧ r.reason = some .bankLost ∧ r.stop = s.uptime)
      ∧ ((s.capture.state = .armed ∨ s.capture.state = .filling) → (∃ o, s.capture.outlet = some o ∧ bankOf o = b) →
          t.capture = Capture.reset)
      ∧ (b ∈ s.calTable.waiting → b ∉ t.calTable.waiting
          ∧ ∀ i : Fin 54, bankOfCal i = b → t.calTable.active[i] = s.calTable.pending[i])
      ∧ (b ∈ s.bankTable.waiting → b ∉ t.bankTable.waiting ∧ t.bankTable.active[b] = s.bankTable.pending[b])
      ∧ t.interval = s.interval ∧ t.uptime = s.uptime ∧ t.tokens = s.tokens ∧ t.safe.cause = s.safe.cause
      ∧ t.outletLimits = s.outletLimits ∧ t.bankLimits = s.bankLimits ∧ t.phaseLimits = s.phaseLimits
      ∧ t.sheds[b].shedTimer = none ∧ t.sheds[b].restoreTimer = none
      ∧ (let lost : State := { s with
          lanes := upd s.lanes b fun l => { l with
            link := .lost, silence := none, relayList := [], indicator := none, runCount := 0, runSeq := none }
          meters := upd s.meters b fun m => { m with window := none }
          phaseElements := upd s.phaseElements b fun _ => none }
        let told := lost.raise .bankLost (b.val + 1) (.bankLost s.lanes[b].counter)
        let failed := (List.finRange 32).foldl
          (fun x g =>
            if (x.groups[g].op = .offing ∨ x.groups[g].op = .dwell ∨ x.groups[g].op = .oning)
                ∧ x.groups[g].cancel = false ∧ ∃ o ∈ x.members g, bankOf o = b then
              (x.withdrawAwaited g).endOp g .failed (some .bankLost) false
            else x)
          { told with sheds := upd told.sheds b fun d => { d with shedTimer := none, restoreTimer := none } }
        let unknown := (List.finRange 8).foldl
          (fun x p =>
            match x.relays[outletAt b p].flight with
            | some f => (x.setRelay (outletAt b p) fun _ =>
                { state := .unknown, detail := none, flight := none, weld := 0, dead := 0 }).complete
                (outletAt b p) .lost (some f.actuateAt)
            | none => { x with relays := upd x.relays (outletAt b p) fun r => { r with weld := 0, dead := 0 } }) failed
        ((s.capture.state ≠ .armed ∧ s.capture.state ≠ .filling
            ∨ ∀ o : Outlet, s.capture.outlet = some o → bankOf o ≠ b) → t = unknown.boundary b)
        ∧ ∀ o : Outlet, s.capture.outlet = some o → bankOf o = b →
          s.capture.state = .armed ∨ s.capture.state = .filling →
          let header : CaptureHeader :=
            { outlet := some o, result := some .aborted, kind := none, n := s.capture.buffer.length
              first := s.capture.first, stamp := some (s.interval.number, s.uptime) }
          t = State.boundary (State.raiseEvent { unknown with capture := Capture.reset }
            { kind := .captureDone, source := o.val + 1, detail := .captureDone header
              records := [.capture header] }) b))

/-- SIGNAL_TIMER_EXPIRY at 1,000 ms or more: a SYNCING lane becomes ABSENT without an event, a LOST one with
BANK_ABSENT; the run is given up and the FIFO emptied, and the counter and the last good set stay. That the timer is
then stopped is the model's reading (log entry 20). Before that, and in the other states, nothing changes. [R7, R14]
-/
def Obligations.SignalTimerExpires : Prop :=
  ∀ (b : Bank) (s : State),
    let t : State := { s with lanes := upd s.lanes b fun l =>
      { l with link := .absent, runCount := 0, runSeq := none, fifo := [], signal := none, framing := false
               partialCell := [] } }
    (due s.lanes[b].signal s.uptime 1000 = false ∨ s.lanes[b].link = .up ∨ s.lanes[b].link = .absent →
      exec (.signalTimerExpiry b) s = .next s)
    ∧ (due s.lanes[b].signal s.uptime 1000 = true → s.lanes[b].link = .syncing →
      exec (.signalTimerExpiry b) s = .next t)
    ∧ (due s.lanes[b].signal s.uptime 1000 = true → s.lanes[b].link = .lost →
      exec (.signalTimerExpiry b) s = .next (t.raise .bankAbsent (b.val + 1) .bankAbsent))

/-- LANE_CELL_START: with RELAY cells waiting the oldest leaves the list and is sent; otherwise the INDICATE cell
leaves the slot and is sent; with neither, nothing is on the line (log entry 6). A RELAY cell is kind 0x32,
position, action (0 OPEN, 1 CLOSE), the actuate-at byte and the CRC-8; an INDICATE cell is kind 0x33, two bytes with
position 1 in the two most significant bits, and the CRC-8. Nothing else changes. [R16, 12_cell_and_record_formats
12.2] -/
def Obligations.LaneTransmitterStartsCells : Prop :=
  ∀ (b : Bank) (s : State),
    (∀ (c : RelayCell) (rest : List RelayCell), s.lanes[b].relayList = c :: rest →
      exec (.laneCellStart b) s = .next { s with lanes := upd s.lanes b fun l =>
        { l with relayList := rest
                 line := some (sealCell [0x32, BitVec.ofNat 8 (c.pos.val + 1),
                   (match c.action with | .opens => 0 | .close => 1), c.at8]) } })
    ∧ (∀ m : Vector Mode 8, s.lanes[b].relayList = [] → s.lanes[b].indicator = some m →
      let two : Mode → Nat := fun x => match x with | .off => 0 | .on => 1 | .blink => 2
      let bits := ((((((two m[0] * 4 + two m[1]) * 4 + two m[2]) * 4 + two m[3]) * 4 + two m[4]) * 4 + two m[5]) * 4
        + two m[6]) * 4 + two m[7]
      exec (.laneCellStart b) s = .next { s with lanes := upd s.lanes b fun l =>
        { l with indicator := none
                 line := some (sealCell [0x33, BitVec.ofNat 8 (bits / 256), BitVec.ofNat 8 bits]) } })
    ∧ (s.lanes[b].relayList = [] → s.lanes[b].indicator = none →
      exec (.laneCellStart b) s = .next { s with lanes := upd s.lanes b fun l => { l with line := none } })

/-! ## Metering and intervals (spec/02, spec/03) -/

/-- Division rounds to nearest with halves away from zero, and the integer root is the floor of the root (00_scope 0.6).
The calibrated code of a raw code under an entry is q saturated to -32767..32767, where q is the integer nearest to
(raw - offset) x gain / 32768, the one further from zero when two are equally near. In a handed set of bank b, the
voltage is calibrated by the active entry 48 + b and the current of outlet n by the active entry n, whether the set
was received or substituted. [R20] -/
def Obligations.CalibrationRounds : Prop :=
  (∀ (a : Int) (n : Nat), 0 < n →
      2 * |a - n * roundDiv a n| < n ∨ (2 * |a - n * roundDiv a n| = n ∧ |a| < |n * roundDiv a n|))
    ∧ (∀ n : Nat, isqrt n * isqrt n ≤ n ∧ n < (isqrt n + 1) * (isqrt n + 1))
    ∧ (∀ (e : CalEntry) (raw : RawCode),
      let a : Int := (raw.toInt - e.offset) * (e.gain : Int)
      ∃ q : Int, (2 * |a - 32768 * q| < 32768 ∨ (2 * |a - 32768 * q| = 32768 ∧ |a| < |32768 * q|))
        ∧ (calibrate e raw).1 = max (-32767) (min 32767 q)
        ∧ ((calibrate e raw).2 = true ↔ q < -32767 ∨ 32767 < q))
    ∧ (∀ (s : State) (b : Bank) (num : SetNo) (raw : RawSet) (sub : Bool),
      (s.calSet b num raw sub).v = (calibrate s.calTable.active[48 + b.val] raw.volt).1
      ∧ ∀ p : Position, ((s.calSet b num raw sub).cur[p]).1 =
          (calibrate s.calTable.active[(outletAt b p).val] raw.cur[p]).1)

/-- Handing set `num` to bank b. Its voltage, calibrated by the entries active when it arrives, joins a history of
four. It is a crossing when the bank is armed, the set is received, the voltage before it was below 0 and its own is
0 or more. A crossing clears arming; a voltage below minus the zero-cross hysteresis that is no crossing arms. With
an open window and no crossing, or a crossing of an aligned window of at most 55 sets, the set is added to the
window: N rises by one, each sum by its product (voltage squared, the squared sum of the eight currents, current
squared, aligned voltage times current), over-range marks are set, and a substitute raises run and total, more than
2 or 4 of which mark the window INVALID. Below 96 sets nothing else of the meter changes, no outlet result, energy
or interval sum does, and each relay has read the set, which is all that changes beside meter and capture; at the
96th set the window closes, INVALID if so marked, else NO_LINE, with all that a close does in the state in which the
relays have read the set and it is added. A crossing of an unaligned window, or at 56 sets or more, closes the
window, and the set opens an aligned one, which moves c to it; the relays read the set in the state the close
leaves, which else stays, and it is added under the entries active then. With no window open the set opens one,
aligned just if it is a crossing. Other banks' meters, the counters and link states, the interval and the tokens do
not change. (That relays read the set between close and adding is log entry 8, that positions 1 to 8 read in order
log entry 7.) [R20, R21, R22, R23, R24, R25, R26, R27, R28, R30, R31, R64, R65] -/
def Obligations.SetEntersTheOpenWindow : Prop :=
  ∀ (b : Bank) (num : SetNo) (raw : RawSet) (sub : Bool) (s : State),
    let m := s.meters[b]
    let cal := s.calTable.active
    let v := (calibrate cal[48 + b.val] raw.volt).1
    let h := (v :: m.history).take 4
    let crossing : Prop := m.armed = true ∧ sub = false ∧ 0 ≤ v ∧ ∃ u ∈ m.history.head?, u < 0
    let t := s.handSet b num raw sub
    let seen : State := s.relaysSee b raw.closed sub
    t.meters[b].history = h
    ∧ (t.meters[b].armed = true ↔ ¬ crossing ∧ (m.armed = true ∨ v < -(s.bankTable.active[b].zeroCross : Int)))
    ∧ (∀ b' : Bank, b' ≠ b → t.meters[b'] = s.meters[b'])
    ∧ (∀ c : Bank, t.lanes[c].counter = s.lanes[c].counter ∧ t.lanes[c].link = s.lanes[c].link)
    ∧ t.interval = s.interval ∧ t.tokens = s.tokens
    ∧ (∀ w : Window, m.window = some w → ¬ crossing ∨ (w.aligned = true ∧ w.n ≤ 55) →
      ∃ w' : Window, w.Takes w' cal b num raw sub h
      ∧ (w.n < 95 → t.meters[b] = { m with history := h, armed := t.meters[b].armed, window := some w' }
          ∧ t.outlets = s.outlets ∧ t.queue = s.queue ∧ t.calTable = s.calTable
          ∧ (∀ p : Position, t.relays[outletAt b p] =
              (s.relaySees (outletAt b p) (raw.closed.getLsbD p.val) sub .uncommanded).relays[outletAt b p])
          ∧ t = { seen with meters := t.meters, capture := t.capture })
      ∧ (95 ≤ w.n →
          let u := State.closeWindow
            { s with meters := upd s.meters b fun m => { m with window := some w' } } b false
          t.meters[b] = { u.meters[b] with history := h, armed := t.meters[b].armed }
          ∧ t.meters[b].window = none
          ∧ t.meters[b].lastKind = some (if w'.invalid then .invalid else .noLine)
          ∧ t.outlets = u.outlets
          ∧ ∃ pairs : List Pair, t = State.closeWindow
            { seen with
              meters := upd s.meters b fun m =>
                { m with history := h, armed := t.meters[b].armed, window := some w' }
              capture := { s.capture with buffer := pairs } } b false))
    ∧ (∀ w : Window, m.window = some w → crossing → w.aligned = false ∨ 56 ≤ w.n →
      let u := s.closeWindow b true
      ∃ w' : Window, (Window.opened true num).Takes w' u.calTable.active b num raw sub h
      ∧ t.meters[b] = { u.meters[b] with history := h, armed := false, window := some w', crossing := some num }
      ∧ t.outlets = u.outlets ∧ t.calTable = u.calTable ∧ t.bankTable = u.bankTable
      ∧ t.outletLimits = u.outletLimits ∧ t.bankLimits = u.bankLimits
      ∧ t.loadLost = u.loadLost ∧ t.phaseLimits = u.phaseLimits ∧ t.phaseElements = u.phaseElements
      ∧ t.sheds = u.sheds ∧ t.queue = u.queue
      ∧ (∀ p : Position, t.relays[outletAt b p] =
          (u.relaySees (outletAt b p) (raw.closed.getLsbD p.val) sub .uncommanded).relays[outletAt b p])
      ∧ (∀ o : Outlet, bankOf o ≠ b → t.relays[o] = u.relays[o])
      ∧ t = { u.relaysSee b raw.closed sub with meters := t.meters, capture := t.capture })
    ∧ (m.window = none →
      ∃ (al : Bool) (w' : Window), (al = true ↔ crossing)
      ∧ (Window.opened al num).Takes w' cal b num raw sub h
      ∧ t.meters[b] = { m with history := h, armed := t.meters[b].armed, window := some w'
                               crossing := if al then some num else m.crossing }
      ∧ t.outlets = s.outlets ∧ t.queue = s.queue
      ∧ t = { seen with meters := t.meters, capture := t.capture })

/-- When the aligned open window w of bank b, not INVALID and not empty, closes at a crossing: each outlet's P_code
is its sum of v x i over N rounded, its Irms_code the floor of the root of the rounded mean square, its PF
round(1000 P / (Vrms Irms)) clamped to -1000..1000 and 0 for a creep mark or a zero product, its reported power
round(P / 2000) or 0 under creep, OVER_RANGE by its own and the voltage's mark. With P_code above 0 and at least the
creep threshold, the sum of v x i joins the residue, whole units of 28,800,000,000 move to the counter, which holds
at 4,294,967,295; otherwise energy and residue stay. The interval sums take N, the sums of i squared and v x i, the
larger Irms_code and one valid count, REVERSE for a P_code below 0 and at most minus the threshold, and OVER_RANGE.
The bank's results are published; N is the newest valid length and joins the frequency list, which keeps the newest
eight; the frequency is round(3,200,000 / their sum) for eight lengths, else 0. Other banks' outlets and meters do
not change. [R21, R32, R34, R36, R37, R39, R44] -/
def Obligations.ValidCloseResultsAndEnergy : Prop :=
  ∀ (b : Bank) (w : Window) (s : State),
    s.meters[b].window = some w → w.aligned = true → w.invalid = false → 0 < w.n →
    let t := s.closeWindow b true
    (∀ p : Position,
      let o := outletAt b p
      let P := roundDiv w.sums[p].vi w.n
      let T : Int := s.outletTable.active[o].creep * 1000
      let x := s.outlets[o].sums
      (∃ r : OutletResult, t.outlets[o].latest = some r ∧ r.IsOf w p s.outletTable.active[o].creep)
      ∧ t.outlets[o].lastValidP = some P
      ∧ (0 < P → T ≤ P →
          t.outlets[o].residue = (s.outlets[o].residue + w.sums[p].vi.toNat) % 28800000000
          ∧ t.outlets[o].energy =
              min 4294967295 (s.outlets[o].energy + (s.outlets[o].residue + w.sums[p].vi.toNat) / 28800000000))
      ∧ (¬ (0 < P ∧ T ≤ P) →
          t.outlets[o].residue = s.outlets[o].residue ∧ t.outlets[o].energy = s.outlets[o].energy)
      ∧ t.outlets[o].sums =
          { n := x.n + w.n, i2 := x.i2 + w.sums[p].i2, vi := x.vi + w.sums[p].vi
            maxIrms := max x.maxIrms (isqrt ((2 * w.sums[p].i2 + w.n) / (2 * w.n)))
            valid := min 65535 (x.valid + 1), estimated := x.estimated
            reverse := x.reverse || decide (P < 0 ∧ P ≤ -T)
            overRange := x.overRange || w.voltOver || w.curOver.getLsbD p.val })
    ∧ t.meters[b].window = none ∧ t.meters[b].winLen = some w.n ∧ t.meters[b].lastKind = some .valid
    ∧ t.meters[b].crossing = s.meters[b].crossing
    ∧ (∃ r : BankResult, t.meters[b].latest = some r ∧ r.IsOf w .valid s.uptime)
    ∧ t.meters[b].freqList = (s.meters[b].freqList ++ [w.n]).drop (s.meters[b].freqList.length + 1 - 8)
    ∧ (t.meters[b].frequency : Int) =
        (if t.meters[b].freqList.length = 8 then roundDiv 3200000 t.meters[b].freqList.sum else 0)
    ∧ (∀ b' : Bank, b' ≠ b → t.meters[b'] = s.meters[b'])
    ∧ (∀ o : Outlet, bankOf o ≠ b → t.outlets[o] = s.outlets[o])

/-- A close is INVALID when the window is marked so, or is unaligned and ends at a crossing; otherwise a window that
closes at 96 sets is NO_LINE. An INVALID close of N sets publishes nothing, counts as estimated, and adds last valid
P_code x N under the rule of the residue when that power is present, above 0 and at least the creep threshold; else,
with residue and counter in their ranges, it adds nothing. A NO_LINE close publishes the bank's and the outlets'
results with kind NO_LINE, adds OVER_RANGE alone to the interval sums, changes neither energy nor residue and makes
the last valid power absent. Both empty the frequency list and make the frequency 0. [R21, R27, R28, R32, R36, R37,
R38, R39, R44] -/
def Obligations.UnpublishedEnergyAtOtherCloses : Prop :=
  ∀ (b : Bank) (w : Window) (atCrossing : Bool) (s : State), s.meters[b].window = some w →
    let t := s.closeWindow b atCrossing
    (w.invalid = true ∨ (w.aligned = false ∧ atCrossing = true) →
      t.meters[b] = { s.meters[b] with window := none, lastKind := some .invalid, freqList := [], frequency := 0 }
      ∧ ∀ p : Position,
        let o := outletAt b p
        let T : Int := s.outletTable.active[o].creep * 1000
        t.outlets[o].latest = s.outlets[o].latest ∧ t.outlets[o].lastValidP = s.outlets[o].lastValidP
        ∧ t.outlets[o].sums =
            { s.outlets[o].sums with estimated := min 65535 (s.outlets[o].sums.estimated + 1) }
        ∧ (∀ P : Int, s.outlets[o].lastValidP = some P → 0 < P → T ≤ P →
            t.outlets[o].residue = (s.outlets[o].residue + P.toNat * w.n) % 28800000000
            ∧ t.outlets[o].energy =
                min 4294967295 (s.outlets[o].energy + (s.outlets[o].residue + P.toNat * w.n) / 28800000000))
        ∧ (s.EnergyKept → (∀ P : Int, s.outlets[o].lastValidP = some P → ¬ (0 < P ∧ T ≤ P)) →
            t.outlets[o].residue = s.outlets[o].residue ∧ t.outlets[o].energy = s.outlets[o].energy))
    ∧ (w.invalid = false → atCrossing = false →
      t.meters[b] = { s.meters[b] with
        window := none, lastKind := some .noLine, freqList := [], frequency := 0, latest := t.meters[b].latest }
      ∧ (∃ r : BankResult, t.meters[b].latest = some r ∧ r.IsOf w .noLine s.uptime)
      ∧ ∀ p : Position,
        let o := outletAt b p
        (∃ r : OutletResult, t.outlets[o].latest = some r ∧ r.IsOf w p s.outletTable.active[o].creep)
        ∧ t.outlets[o].lastValidP = none
        ∧ t.outlets[o].energy = s.outlets[o].energy ∧ t.outlets[o].residue = s.outlets[o].residue
        ∧ t.outlets[o].sums = { s.outlets[o].sums with
            overRange := s.outlets[o].sums.overRange || w.voltOver || w.curOver.getLsbD p.val })
    ∧ (∀ b' : Bank, b' ≠ b → t.meters[b'] = s.meters[b'])
    ∧ (∀ o : Outlet, bankOf o ≠ b → t.outlets[o] = s.outlets[o])

/-- CLEAR_ENERGY, taken (log entry 4): 0 names all 48 outlets, 1 to 48 one, and any other value is answered BAD_ARG.
The counter and residue of the named outlets become 0, everything else of them and of the part stays, and the answer
is OK, in SAFE and under the calibration lock as at other times. [R41] -/
def Obligations.ClearEnergyClears : Prop :=
  ∀ (tag x : Byte) (s : State), s.ready 0x08 tag [x] →
    (x.toNat = 0 → exec (.clearEnergy tag [x]) s = .next (State.answered
      { s.taken with outlets := Vector.ofFn fun o => { s.outlets[o] with energy := 0, residue := 0 } }
      0x08 tag .ok .empty))
    ∧ (∀ o : Outlet, x.toNat = o.val + 1 → exec (.clearEnergy tag [x]) s = .next (State.answered
      { s.taken with outlets := upd s.outlets o fun m => { m with energy := 0, residue := 0 } }
      0x08 tag .ok .empty))
    ∧ (48 < x.toNat → exec (.clearEnergy tag [x]) s = .next (s.taken.answered 0x08 tag .badArg (.offending none)))

/-- INTERVAL_CLOSE once the uptime is length x 1,000 ms past the interval's start: the next interval starts exactly
there (late events are log entry 3) with the active interval length and the next number, and every outlet's interval
sums are cleared, energy and results kept. INTERVAL_CLOSED is raised for banks 1 to 6 in order, with their records. Each
enabled group with members, whatever its operation, appends the sum of its members' interval P, ABSENT when any is, to a
history of the newest 16; then each group in VERIFYING with verify CURRENT, whose members' interval Irms_codes (an
ABSENT one 0) sum to at least its boot threshold, ends DONE as statement O39 says, by group number (log entry 7): it is
IDLE with its record and an empty history, and GROUP_DONE is raised after the six INTERVAL_CLOSED. Any other group, in
VERIFYING or not, goes on with its history appended, unless it is IDLE with a table entry that waited and that applies
at such an end, which O39 gives. When no group is verified, also with groups in VERIFYING, nothing but INTERVAL_CLOSED
is raised and nothing else changes at all. Before that time nothing changes. Interval Irms_code is the floor of the root
of the rounded mean of squares over N, interval P_code the rounded mean of v x i, and interval P that divided by 2000
and rounded, 0 below the creep threshold; without a valid window both are ABSENT. A bank's record is two parts of four
outlet blocks, in position order: interval Irms and maximum Irms in mA, P, the counts, flags, relay state and energy.
[R43, R45, R46, R47, R113, R121, R191] -/
def Obligations.IntervalClosesOnTime : Prop :=
  (∀ (s : State) (o : Outlet),
    let x := s.outlets[o].sums
    let T : Int := s.outletTable.active[o].creep * 1000
    let P := roundDiv x.vi x.n
    (x.n = 0 → x.irms = none ∧ s.intervalPower o = none)
    ∧ (0 < x.n → x.irms = some (isqrt ((2 * x.i2 + x.n) / (2 * x.n)))
        ∧ s.intervalPower o = some (if |P| < T then 0 else roundDiv P 2000)))
  ∧ (∀ (s : State) (b : Bank) (stop : Uptime),
    let head : IntervalHead :=
      { number := s.interval.number, time := stop, length := s.interval.length, bank := b, link := s.lanes[b].link }
    let block : Position → OutletBlock := fun p =>
      let o := outletAt b p
      let x := s.outlets[o].sums
      { pos := p, irms := x.irms.map (· * 2), power := s.intervalPower o, maxIrms := x.maxIrms * 2, valid := x.valid
        estimated := x.estimated, relay := s.relays[o].state, reverse := x.reverse, overRange := x.overRange
        energy := s.outlets[o].energy }
    s.intervalParts b stop = [.interval 1 head [block 0, block 1, block 2, block 3],
                              .interval 2 head [block 4, block 5, block 6, block 7]])
  ∧ ∀ s : State,
    (¬ (s.interval.length * 1000 ≤ (s.uptime - s.interval.start).toNat) → exec .intervalClose s = .next s)
    ∧ (s.interval.length * 1000 ≤ (s.uptime - s.interval.start).toNat →
      let stop : Uptime := s.interval.start + BitVec.ofNat 32 (s.interval.length * 1000)
      let appended : Group → GroupOp := fun g =>
        if s.groupTable.active[g].enabled = true ∧ s.members g ≠ [] then
          let v : Option Int :=
            if ∀ o ∈ s.members g, (s.intervalPower o).isSome = true then
              some (((s.members g).map fun o => (s.intervalPower o).getD 0).sum)
            else none
          { s.groups[g] with
            history := (s.groups[g].history ++ [v]).drop (s.groups[g].history.length + 1 - 16) }
        else s.groups[g]
      let verified : Group → Bool := fun g => decide (s.groups[g].op = .verifying
        ∧ s.groupTable.active[g].verify = .current
        ∧ s.groupTable.active[g].bootThreshold ≤ ((s.members g).map fun o => s.outlets[o].sums.irms.getD 0).sum)
      let ends : List Group := (List.finRange 32).filter verified
      let told : Notifier × Link0 := (List.finRange 6).foldl
        (fun x b =>
          let head : IntervalHead :=
            { number := s.interval.number, time := stop, length := s.interval.length, bank := b
              link := s.lanes[b].link }
          notify s.uptime { kind := .intervalClosed, source := b.val + 1, detail := .intervalClosed head
                            records := s.intervalParts b stop } x)
        (s.notifier, s.link0)
      let closed : State := { s with
        notifier := told.1, link0 := told.2, groups := Vector.ofFn appended
        outlets := Vector.ofFn fun o => { s.outlets[o] with sums := IntervalSums.clear }
        interval := { start := stop, length := s.systemTable.active[0].intervalLength
                      number := s.interval.number + 1 } }
      ∃ t : State, exec .intervalClose s = .next t
      ∧ t = ends.foldl (fun u g => u.endOp g .done none false) closed
      ∧ ((∀ g : Group, verified g = false) → t = closed)
      ∧ t.interval = { start := stop, length := s.systemTable.active[0].intervalLength
                       number := s.interval.number + 1 }
      ∧ (∀ o : Outlet, t.outlets[o] = { s.outlets[o] with sums := IntervalSums.clear })
      ∧ t.meters = s.meters ∧ t.relays = s.relays ∧ t.queue = s.queue ∧ t.sheds = s.sheds ∧ t.uptime = s.uptime
      ∧ t.tokens = s.tokens ∧ t.calTable = s.calTable ∧ t.safe = s.safe ∧ t.capture = s.capture
      ∧ t.link0.fifo = s.link0.fifo ∧ t.link0.filled = s.link0.filled
      ∧ (∀ g : Group, verified g = true → t.groups[g].op = .idle ∧ t.groups[g].history = []
          ∧ ∃ r : OpRecord, t.groups[g].lastRecord = some r ∧ r.group = g ∧ r.result = .done ∧ r.reason = none
            ∧ r.stop = s.uptime ∧ r.start = s.groups[g].start ∧ r.retries = s.groups[g].retry
            ∧ r.faulted = s.groups[g].faulted ∧ (∀ k : OpKind, s.groups[g].kind = some k → r.kind = k)
            ∧ (∀ c : OpCause, s.groups[g].cause = some c → r.cause = c))
      ∧ (∀ g : Group, verified g = false → s.groups[g].op ≠ .idle ∨ g ∉ s.groupTable.waiting →
          t.groups[g] = appended g ∧ t.monitors[g] = s.monitors[g])
      ∧ (s.groupTable.waiting = [] → ∃ record : Group → OpRecord,
          (∀ g : Group, verified g = true → t.groups[g].lastRecord = some (record g))
          ∧ (t.notifier, t.link0) = ends.foldl
            (fun x g => notify s.uptime { kind := .groupDone, source := g.val + 1, detail := .groupDone (record g)
                                          records := [.operation (some (record g))] } x) told))

/-! ## Limits and shedding (spec/03) -/

/-- For parameters warn, crit, hysteresis and a present state, the target at value x is CRITICAL when crit is
nonzero and x is at least crit, or at least the release point of crit in state CRITICAL; otherwise WARN when warn is
nonzero and x is at least warn, or at least the release point of warn in state WARN or CRITICAL; otherwise NORMAL. A
release point is the larger of level minus hysteresis and 1. [R49] -/
def Obligations.LimitTargetLevel : Prop :=
  ∀ (p : LimitParams) (now : Level) (x : Nat),
    let release : Nat → Nat := fun level => max (level - p.hysteresis) 1
    let crit : Prop := p.crit ≠ 0 ∧ (p.crit ≤ x ∨ (now = .critical ∧ release p.crit ≤ x))
    let warn : Prop := p.warn ≠ 0 ∧ (p.warn ≤ x ∨ (now ≠ .normal ∧ release p.warn ≤ x))
    (crit → p.target now x = .critical) ∧ (¬ crit → warn → p.target now x = .warn)
    ∧ (¬ crit → ¬ warn → p.target now x = .normal)

/-- One evaluation: a target equal to the state clears candidate and run; a target equal to the candidate raises the
run by one; any other target becomes the candidate with run 1. A run then at least the persistence moves the state
to the target. An outlet's, a bank's and a phase's machine evaluates with the active parameters and, on a change of
state only, raises OUTLET_LIMIT, BRANCH_LIMIT or PHASE_LIMIT with old state, new state and the value in mA; a
phase's evaluates the sum of the elements of the banks that name it after the closing bank's element is updated.
With the bank's evaluation a state other than CRITICAL clears the exhausted mark, and the shed timer runs just in
CRITICAL with the lane UP and no shed in flight, the restore timer just in NORMAL with the lane UP, a stack, no
restore in flight and no SAFE; a timer that begins, begins now. A load-lost detector of an ON outlet with a low
threshold counts codes below it and at the persistence is set, raising LOAD_LOST; a set one clears at low plus
hysteresis; a detector of any other outlet is clear. At a valid close of window w each machine of the bank evaluates
that close's code: the state after the close is the one in which positions 1 to 8 have evaluated outlet machine and
load-lost detector, then the bank machine with the shed unit, then the phase's, every change raising its event, then
the relay block takes the close, the capture unit, and the boundary is passed (this order is log entry 7). The
exhausted marks are those of the bank's evaluation, stacks stay, and with no action in flight in the bank its shed
timers are those too. At any other close none evaluates, and with none in flight shed units stay. [R50, R51, R52,
R53, R55, R56, R58, R59] -/
def Obligations.ThresholdMachinesEvaluate : Prop :=
  (∀ (t : Threshold) (p : LimitParams) (x : Nat),
      let target := p.target t.level x
      let run := if t.candidate = some target then t.run + 1 else 1
      (target = t.level → t.evaluate p x = { level := t.level, candidate := none, run := 0 })
      ∧ (target ≠ t.level → p.persistence ≤ run →
          t.evaluate p x = { level := target, candidate := none, run := 0 })
      ∧ (target ≠ t.level → run < p.persistence →
          t.evaluate p x = { level := t.level, candidate := some target, run := run }))
    ∧ (∀ (s : State) (o : Outlet) (x : Nat),
      let e := s.outletTable.active[o]
      let old := s.outletLimits[o]
      let new := old.evaluate { warn := e.warn, crit := e.crit, hysteresis := e.hysteresis
                                persistence := e.persistence } x
      let t : State := { s with outletLimits := upd s.outletLimits o fun _ => new }
      s.evalOutlet o x = if old.level = new.level then t
        else t.raise .outletLimit (o.val + 1) (.limit old.level new.level (x * 2)))
    ∧ (∀ (s : State) (b : Bank) (x : Nat),
      let e := s.bankTable.active[b]
      let old := s.bankLimits[b]
      let new := old.evaluate { warn := e.warn, crit := e.crit, hysteresis := e.hysteresis
                                persistence := e.persistence } x
      let u : State := { s with bankLimits := upd s.bankLimits b fun _ => new }
      let v : State := if old.level = new.level then u
        else u.raise .branchLimit (b.val + 1) (.limit old.level new.level (x * 2))
      s.evalBank b x = { v with sheds := upd s.sheds b fun d =>
        { d with
          exhausted := d.exhausted && decide (new.level = .critical)
          shedTimer := if new.level = .critical ∧ s.lanes[b].link = .up ∧ d.shedFlight = none then
              some (d.shedTimer.getD s.uptime) else none
          restoreTimer := if new.level = .normal ∧ s.lanes[b].link = .up ∧ d.stack ≠ [] ∧ d.restoreFlight = none
              ∧ s.safe.cause = none then some (d.restoreTimer.getD s.uptime) else none } })
    ∧ (∀ (s : State) (b : Bank) (x : Nat),
      let p := s.bankTable.active[b].phase
      let e := s.phaseTable.active[p]
      let elems : Bank → Nat := fun c => if c = b then x else (s.phaseElements[c]).getD 0
      let sum := ∑ c : Bank, if s.bankTable.active[c].phase = p then elems c else 0
      let old := s.phaseLimits[p]
      let new := old.evaluate { warn := e.warn, crit := e.crit, hysteresis := e.hysteresis
                                persistence := e.persistence } sum
      let t : State := { s with phaseElements := upd s.phaseElements b (fun _ => some x)
                                phaseLimits := upd s.phaseLimits p fun _ => new }
      s.evalPhase b x = if old.level = new.level then t
        else t.raise .phaseLimit (p.val + 1) (.limit old.level new.level (sum * 2)))
    ∧ (∀ (s : State) (o : Outlet) (x : Nat),
      let e := s.outletTable.active[o]
      let d := s.loadLost[o]
      let watched : Prop := s.relays[o].state = .on ∧ e.low ≠ 0
      let set : Bool → Nat → State := fun lost run =>
        { s with loadLost := upd s.loadLost o fun _ => { lost := lost, run := run } }
      (¬ watched → s.evalLoad o x = set false 0)
      ∧ (watched → d.lost = false →
        (e.low ≤ x → s.evalLoad o x = set false 0)
        ∧ (x < e.low → d.run + 1 < e.persistence → s.evalLoad o x = set false (d.run + 1))
        ∧ (x < e.low → e.persistence ≤ d.run + 1 → s.evalLoad o x =
            (set true (d.run + 1)).raise .loadLost (o.val + 1) (.loadLost (x * 2) (e.low * 2))))
      ∧ (watched → d.lost = true →
        (e.low + e.hysteresis ≤ x → s.evalLoad o x = set false 0)
        ∧ (x < e.low + e.hysteresis → s.evalLoad o x = s)))
    ∧ (∀ (b : Bank) (w : Window) (atCrossing : Bool) (s : State), s.meters[b].window = some w →
      let t := s.closeWindow b atCrossing
      let code : Nat → Nat := fun sum => isqrt ((2 * sum + w.n) / (2 * w.n))
      (w.invalid = false → w.aligned = true → atCrossing = true →
        (∀ p : Position,
          let o := outletAt b p
          let e := s.outletTable.active[o]
          t.outletLimits[o] = s.outletLimits[o].evaluate { warn := e.warn, crit := e.crit, hysteresis := e.hysteresis
                                                           persistence := e.persistence } (code w.sums[p].i2)
          ∧ t.loadLost[o] = (s.evalLoad o (code w.sums[p].i2)).loadLost[o])
        ∧ (∀ o : Outlet, bankOf o ≠ b → t.outletLimits[o] = s.outletLimits[o] ∧ t.loadLost[o] = s.loadLost[o])
        ∧ t.bankLimits = (s.evalBank b (code w.sumI2)).bankLimits
        ∧ t.phaseElements = (s.evalPhase b (code w.sumI2)).phaseElements
        ∧ t.phaseLimits = (s.evalPhase b (code w.sumI2)).phaseLimits
        ∧ (∀ c : Bank, t.sheds[c].exhausted = (s.evalBank b (code w.sumI2)).sheds[c].exhausted
            ∧ t.sheds[c].stack = s.sheds[c].stack)
        ∧ ((∀ o : Outlet, bankOf o = b → s.relays[o].flight = none) →
            t.sheds = (s.evalBank b (code w.sumI2)).sheds)
        ∧ (let metered : State := { s with meters := t.meters, outlets := t.outlets }
          let outletsDone : State := (List.finRange 8).foldl
            (fun x p =>
              let o := outletAt b p
              (x.evalOutlet o (code w.sums[p].i2)).evalLoad o (code w.sums[p].i2)) metered
          let limitsDone : State := (outletsDone.evalBank b (code w.sumI2)).evalPhase b (code w.sumI2)
          t = ((limitsDone.relaysTake b w atCrossing).captureAtClose b .valid).boundary b))
      ∧ (w.invalid = true ∨ w.aligned = false ∨ atCrossing = false →
        t.outletLimits = s.outletLimits ∧ t.loadLost = s.loadLost ∧ t.bankLimits = s.bankLimits
        ∧ t.phaseElements = s.phaseElements ∧ t.phaseLimits = s.phaseLimits
        ∧ (∀ c : Bank, t.sheds[c].exhausted = s.sheds[c].exhausted ∧ t.sheds[c].stack = s.sheds[c].stack)
        ∧ ((∀ o : Outlet, bankOf o = b → s.relays[o].flight = none) → t.sheds = s.sheds)))

/-- SHED_TIMER_EXPIRY when the bank's shed timer has run for the shed delay. Let o be a candidate (ON, priority 1 to
15, not shed, its group IDLE if it has one) such that every candidate chosen before it (lower priority, or equal
priority and higher number) is refused by the queue, and whose own OPEN is not: it goes on top of the bank's stack
and is the shed in flight, its OPEN of origin SHED is put to the queue, SHED with SHED_OUTLET is raised, the shed
timer stands, and the monitor of o's group follows if the group becomes ALL_OFF, no other. With no such candidate,
the exhausted mark is set, EXHAUSTED being raised if it was clear, and the shed timer starts again if the bank is
CRITICAL and UP with no shed in flight; nothing else changes but a restore timer. RESTORE_TIMER_EXPIRY when the
bank's restore timer has run for the restore delay, with outlet o on top of the stack: when o's group is not IDLE,
or the queue refuses its CLOSE of origin RESTORE, the restore timer starts again while the bank is NORMAL and UP
with no restore in flight, out of SAFE, and nothing else changes but a shed timer; otherwise o leaves the stack and
is the restore in flight, its CLOSE is put to the queue, SHED with RESTORED is raised, and the timer stands; no
monitor changes. With an empty stack no more than timers changes. In every case the command completes, with no
change to meters, relay states, thresholds, tokens or other banks' shed units; before its delay each changes
nothing. (That a timer starts again at the uptime of taking is log entry 3.) [R56, R57, R58, R59, R60, R139] -/
def Obligations.ShedAndRestoreTimersExpire : Prop :=
  (∀ (b : Bank) (s : State),
    (due s.sheds[b].shedTimer s.uptime s.bankTable.active[b].shedDelay = false →
      exec (.shedTimerExpiry b) s = .next s)
    ∧ (due s.sheds[b].shedTimer s.uptime s.bankTable.active[b].shedDelay = true →
      let prio : Outlet → Nat := fun o => s.outletTable.active[o].shedPriority
      let candidate : Outlet → Prop := fun o => bankOf o = b ∧ s.relays[o].state = .on ∧ 1 ≤ prio o ∧ prio o ≤ 15
        ∧ o ∉ s.sheds[b].stack ∧ ∀ g : Group, s.groupOf o = some g → s.groups[g].op = .idle
      let accepted : Outlet → Prop := fun o => (s.request o .opens .shed).1 ≠ .refusedRank
        ∧ (s.request o .opens .shed).1 ≠ .refusedBusy
      ∃ t : State, exec (.shedTimerExpiry b) s = .next t
      ∧ t.meters = s.meters ∧ t.outlets = s.outlets ∧ t.relays = s.relays ∧ t.bankLimits = s.bankLimits
      ∧ t.tokens = s.tokens ∧ t.groups = s.groups ∧ t.interval = s.interval
      ∧ (∀ b' : Bank, b' ≠ b → t.sheds[b'] = s.sheds[b'])
      ∧ (∀ o : Outlet, candidate o → accepted o →
          (∀ o' : Outlet, candidate o' → accepted o' → o' ≠ o → prio o < prio o' ∨ (prio o = prio o' ∧ o' < o)) →
          t.sheds[b].stack = o :: s.sheds[b].stack ∧ t.sheds[b].shedFlight = some o ∧ t.sheds[b].shedTimer = none
          ∧ t.sheds[b].exhausted = s.sheds[b].exhausted
          ∧ t.queue = (s.request o .opens .shed).2.queue ∧ (∃ e ∈ t.queue, e.outlet = o ∧ e.action = .opens)
          ∧ (∀ g : Group, t.monitors[g] =
              if s.groupOf o = some g then s.monitors[g].afterPower (s.power g) (t.power g) else s.monitors[g])
          ∧ (t.notifier, t.link0) = notify s.uptime
              { kind := .shed, source := b.val + 1, detail := .shed (.shedOutlet o), records := [] }
              (s.notifier, s.link0))
      ∧ ((∀ o : Outlet, ¬ (candidate o ∧ accepted o)) →
          t = { s with sheds := t.sheds, notifier := t.notifier, link0 := t.link0 }
          ∧ t.sheds[b] = { s.sheds[b] with
              exhausted := true, restoreTimer := t.sheds[b].restoreTimer
              shedTimer := if s.bankLimits[b].level = .critical ∧ s.lanes[b].link = .up
                  ∧ s.sheds[b].shedFlight = none then some s.uptime else none }
          ∧ (t.notifier, t.link0) =
              if s.sheds[b].exhausted = true then (s.notifier, s.link0)
              else notify s.uptime { kind := .shed, source := b.val + 1, detail := .shed .exhausted, records := [] }
                (s.notifier, s.link0))))
    ∧ (∀ (b : Bank) (s : State),
    (due s.sheds[b].restoreTimer s.uptime (s.bankTable.active[b].restoreDelay * 1000) = false →
      exec (.restoreTimerExpiry b) s = .next s)
    ∧ (due s.sheds[b].restoreTimer s.uptime (s.bankTable.active[b].restoreDelay * 1000) = true →
      s.sheds[b].stack = [] → ∃ t : State, exec (.restoreTimerExpiry b) s = .next t
      ∧ t = { s with sheds := upd s.sheds b fun u => { u with
          shedTimer := t.sheds[b].shedTimer, restoreTimer := none } })
    ∧ (∀ (o : Outlet) (rest : List Outlet),
      due s.sheds[b].restoreTimer s.uptime (s.bankTable.active[b].restoreDelay * 1000) = true →
      s.sheds[b].stack = o :: rest → bankOf o = b →
      ∃ t : State, exec (.restoreTimerExpiry b) s = .next t
      ∧ t.meters = s.meters ∧ t.outlets = s.outlets ∧ t.relays = s.relays ∧ t.bankLimits = s.bankLimits
      ∧ t.tokens = s.tokens ∧ t.groups = s.groups ∧ (∀ b' : Bank, b' ≠ b → t.sheds[b'] = s.sheds[b'])
      ∧ t.monitors = s.monitors
      ∧ ((∃ g : Group, s.groupOf o = some g ∧ s.groups[g].op ≠ .idle)
          ∨ (s.request o .close .restore).1 = .refusedRank ∨ (s.request o .close .restore).1 = .refusedBusy →
          t = { s with sheds := upd s.sheds b fun u => { u with
            shedTimer := t.sheds[b].shedTimer
            restoreTimer := if s.bankLimits[b].level = .normal ∧ s.lanes[b].link = .up ∧ u.restoreFlight = none
                ∧ s.safe.cause = none then some s.uptime else none } })
      ∧ ((∀ g : Group, s.groupOf o = some g → s.groups[g].op = .idle) →
          (s.request o .close .restore).1 ≠ .refusedRank → (s.request o .close .restore).1 ≠ .refusedBusy →
          t.sheds[b].stack = rest.filter (· ≠ o) ∧ t.sheds[b].restoreFlight = some o
          ∧ t.sheds[b].restoreTimer = none
          ∧ t.queue = (s.request o .close .restore).2.queue ∧ (∃ e ∈ t.queue, e.outlet = o ∧ e.action = .close)
          ∧ (t.notifier, t.link0) = notify s.uptime
              { kind := .shed, source := b.val + 1, detail := .shed (.restored o), records := [] }
              (s.notifier, s.link0))))

/-! ## Relays and the switching queue (spec/04, spec/05) -/

/-- A close of bank b, after the metering and limit units (log entry 7), is taken for positions 1 to 8 with its
kind, line presence (it ended at a crossing) and each outlet's Irms_code, none if INVALID, as given below; then by
the capture unit and the table store; other banks' relays stay. For an outlet with an action in flight, at a close
of window w with newest received set x at or past the verification point, and the window's last set at or past it: a
CLOSE gives ON for closed bit 1 with the line absent or the load- present bit 1, FAULT_OPEN with NO_OUTPUT for
closed bit 1, line present and load bit 0, and FAULT_OPEN with NO_OPERATE for closed bit 0. An OPEN gives OFF for
both bits 0 and an Irms_code below the weld threshold or absent (an INVALID close), FAULT_WELDED with CONTACT_CLOSED
for closed bit 1, and FAULT_WELDED with OUTPUT_LIVE otherwise. No action is in flight after it, both watch counts
are 0, no ISSUED entry of the outlet is left: its entry completes DONE, or FAULT and RELAY_FAULT is then raised
(their order is log entry 7). A close that does not reach the point changes nothing for an outlet with an action in
flight. With none in flight, a published close that finds an OFF outlet live (load bit, or Irms_code at its weld
threshold) counts one, the third is FAULT_WELDED with RELAY_FAULT, one that does not counts 0; a valid close with
load bit 0 of an ON outlet counts one, the third is FAULT_OPEN with NO_OUTPUT and RELAY_FAULT, any other published
close counts 0. (That the open watch's RELAY_FAULT has the detail of the weld watch's, finding WATCH, no closed bit,
the load bit and Irms of the third close, is the model's choice, log entry 12; R75 does not give it.) Any other
outlet, and an INVALID close, changes nothing. Of a set, an UNKNOWN outlet takes its closed bit; OFF and ON
differing from a received set's bit become it and raise RECONCILE; nothing else happens. [R64, R65, R66, R70, R71,
R72, R73, R74, R75, R98] -/
def Obligations.ActionsAreVerified : Prop :=
  (∀ (b : Bank) (w : Window) (atCrossing : Bool) (s : State), s.meters[b].window = some w →
    let t := s.closeWindow b atCrossing
    let kind : WindowKind :=
      if w.invalid = true ∨ (w.aligned = false ∧ atCrossing = true) then .invalid
      else if atCrossing = true then .valid else .noLine
    let irms : Position → Option Nat := fun p =>
      if kind = .invalid then none else some (isqrt ((2 * w.sums[p].i2 + w.n) / (2 * w.n)))
    (∀ p : Position,
      let o := outletAt b p
      t.relays[o] = (s.relayAtClose o w kind atCrossing (irms p)).relays[o]
      ∧ (∀ (f : Flight) (x : ReceivedSet), s.relays[o].flight = some f → w.lastReceived = some x →
          0 ≤ (w.last - f.verifyAt).toInt → 0 ≤ (x.num - f.verifyAt).toInt →
          t.relays[o].flight = none ∧ ∀ e ∈ t.queue, e.outlet = o → e.state = .waiting))
    ∧ (∀ o : Outlet, bankOf o ≠ b → t.relays[o] = s.relays[o])
    ∧ ∃ u : State, u = { s with
        meters := u.meters, outlets := u.outlets, outletLimits := u.outletLimits, loadLost := u.loadLost
        bankLimits := u.bankLimits, phaseElements := u.phaseElements, phaseLimits := u.phaseLimits
        sheds := u.sheds, notifier := u.notifier, link0 := u.link0 }
      ∧ t = (((List.finRange 8).foldl
          (fun x p => x.relayAtClose (outletAt b p) w kind atCrossing (irms p)) u).captureAtClose b kind).boundary b)
  ∧ (∀ (o : Outlet) (w : Window) (kind : WindowKind) (line : Bool) (irms : Option Nat) (f : Flight) (s : State),
    s.relays[o].flight = some f →
    let t := s.relayAtClose o w kind line irms
    (∀ x : ReceivedSet, w.lastReceived = some x → 0 ≤ (w.last - f.verifyAt).toInt → 0 ≤ (x.num - f.verifyAt).toInt →
      let closed := x.closed.getLsbD (o.val % 8)
      let load := x.load.getLsbD (o.val % 8)
      let r : Relay :=
        { flight := none, weld := 0, dead := 0
          state := match f.action with
            | .close => if closed = true ∧ (line = false ∨ load = true) then .on else .faultOpen
            | .opens =>
              if closed = false ∧ load = false ∧ (∀ i ∈ irms, i < s.outletTable.active[o].weld) then .off
              else .faultWelded
          detail := match f.action with
            | .close => if closed = false then some .noOperate
                        else if line = true ∧ load = false then some .noOutput else none
            | .opens => if closed = true then some .contactClosed
                        else if load = false ∧ (∀ i ∈ irms, i < s.outletTable.active[o].weld) then none
                        else some .outputLive }
      t.relays[o] = r
      ∧ (∀ e ∈ t.queue, e.outlet = o → e.state = .waiting)
      ∧ t = (if r.detail = none then (s.setRelay o fun _ => r).complete o .done (some f.actuateAt)
             else ((s.setRelay o fun _ => r).complete o .fault (some f.actuateAt)).raise .relayFault (o.val + 1)
              (.relayFault r.state r.detail (match f.action with | .close => .verifyClose | .opens => .verifyOpen)
                (some closed) load (irms.map (· * 2)))))
    ∧ ((w.lastReceived = none ∨ (w.last - f.verifyAt).toInt < 0
        ∨ ∃ x : ReceivedSet, w.lastReceived = some x ∧ (x.num - f.verifyAt).toInt < 0) → t = s))
  ∧ (∀ (o : Outlet) (w : Window) (kind : WindowKind) (line : Bool) (irms : Option Nat) (s : State),
    s.relays[o].flight = none →
    let t := s.relayAtClose o w kind line irms
    let r := s.relays[o]
    let load := w.load.getLsbD (o.val % 8)
    let fault : RelayState → FaultDetail → Nat → State := fun st d x =>
      (s.setRelay o fun _ => { state := st, detail := some d, flight := none, weld := 0, dead := 0 }).raise .relayFault
        (o.val + 1) (.relayFault st (some d) .watch none load (some (x * 2)))
    (∀ x : Nat, irms = some x → r.state = .off →
      let live : Prop := load = true ∨ s.outletTable.active[o].weld ≤ x
      (¬ live → t = { s with relays := upd s.relays o fun r => { r with weld := 0 } })
      ∧ (live → r.weld + 1 < 3 → t = { s with relays := upd s.relays o fun r => { r with weld := r.weld + 1 } })
      ∧ (live → 3 ≤ r.weld + 1 → t = fault .faultWelded .outputLive x))
    ∧ (∀ x : Nat, irms = some x → r.state = .on →
      (kind ≠ .valid ∨ load = true → t = { s with relays := upd s.relays o fun r => { r with dead := 0 } })
      ∧ (kind = .valid → load = false → r.dead + 1 < 3 →
          t = { s with relays := upd s.relays o fun r => { r with dead := r.dead + 1 } })
      ∧ (kind = .valid → load = false → 3 ≤ r.dead + 1 → t = fault .faultOpen .noOutput x))
    ∧ (irms = none ∨ (r.state ≠ .off ∧ r.state ≠ .on) → t = s))
  ∧ (∀ (o : Outlet) (closed sub : Bool) (cause : ReconcileCause) (s : State),
    let t := s.relaySees o closed sub cause
    let seen : RelayState → State := fun st =>
      s.setRelay o fun _ => { state := st, detail := none, flight := none, weld := 0, dead := 0 }
    (s.relays[o].state = .unknown → t = seen (if closed then .on else .off))
    ∧ (s.relays[o].state = .off → closed = true → sub = false →
        t = (seen .on).raise .reconcile (o.val + 1) (.reconcile .off .on cause))
    ∧ (s.relays[o].state = .on → closed = false → sub = false →
        t = (seen .off).raise .reconcile (o.val + 1) (.reconcile .on .off cause))
    ∧ (s.relays[o].state ≠ .unknown → sub = true → t = s)
    ∧ (s.relays[o].state = .off → closed = false → t = s) ∧ (s.relays[o].state = .on → closed = true → t = s)
    ∧ (s.relays[o].state ≠ .unknown → s.relays[o].state ≠ .off → s.relays[o].state ≠ .on → t = s))

/-- A request for an outlet with no entry joins the tail as a WAITING entry with the request's fields and the present
uptime, answer QUEUED. Against a WAITING entry of the same action the answer is MERGED; of the opposite action with
an origin of rank equal to or below the request's, the held entry is removed and a new one joins the tail, answer
REPLACED; of the opposite action and higher rank the answer is REFUSED_RANK; against an ISSUED entry, REFUSED_BUSY.
In the cases that queue nothing the state is unchanged. Ranks, highest first: SAFE, SHED, GROUP, RESTORE, MANUAL.
[R85] -/
def Obligations.QueueSettlesRequests : Prop :=
  ∀ (o : Outlet) (a : Action) (r : Origin) (s : State),
    let rank : Origin → Nat := fun x => match x with
      | .safe => 0 | .shed => 1 | .group _ => 2 | .restore => 3 | .manual => 4
    let new : QueueEntry := { outlet := o, action := a, origin := r, enqueued := s.uptime, state := .waiting }
    ((∀ e ∈ s.queue, e.outlet ≠ o) → s.request o a r = (.queued, { s with queue := s.queue ++ [new] }))
    ∧ (∀ (pre post : List QueueEntry) (e : QueueEntry), s.queue = pre ++ e :: post → e.outlet = o →
        (∀ e' ∈ pre ++ post, e'.outlet ≠ o) →
        (e.state = .waiting → e.action = a → s.request o a r = (.merged, s))
        ∧ (e.state = .waiting → e.action ≠ a → rank r ≤ rank e.origin →
            (s.request o a r).1 = .replaced ∧ (s.request o a r).2.queue = pre ++ post ++ [new])
        ∧ (e.state = .waiting → e.action ≠ a → rank e.origin < rank r → s.request o a r = (.refusedRank, s))
        ∧ ((∃ u, e.state = .issued u) → s.request o a r = (.refusedBusy, s)))

/-- SWITCH, taken (log entry 4), with outlet number n and direction d: BAD_ARG for n outside 1 to 48 or d not 0 or
1; SAFE in SAFE; BANK_DOWN when the bank is not UP; BUSY when the outlet's group has an operation; otherwise the
queue takes the request, and the answer is OK for QUEUED or REPLACED, MERGED for MERGED and BUSY for a refusal. With
no entry for the outlet the entry joins the tail. A refused command, by a test or by the queue, changes nothing else
at all. An accepted one changes the queue alone, and with REPLACED ends a shed or restore in flight of the outlet,
its bank's shed and restore timers following their conditions; an accepted ON of a shed outlet also takes it off its
stack, with those timers and the bank's shown modes following. No relay state, meter, token, monitor, notice,
record, pointer or other part of the state changes. [R82, R61, R86, R56, R58, R59, R60] -/
def Obligations.SwitchIsTestedAndQueued : Prop :=
  ∀ (tag n d : Byte) (s : State), s.ready 0x06 tag [n, d] →
    let no : Status → Result := fun st => .next (s.taken.answered 0x06 tag st .empty)
    (n.toNat = 0 ∨ 48 < n.toNat ∨ 1 < d.toNat →
      exec (.switch tag [n, d]) s = .next (s.taken.answered 0x06 tag .badArg (.offending none)))
    ∧ ∀ (o : Outlet), n.toNat = o.val + 1 → d.toNat ≤ 1 →
      let a : Action := if d.toNat = 1 then .close else .opens
      let busy : Prop := ∃ g : Group, s.groupOf o = some g ∧ s.groups[g].op ≠ .idle
      (s.safe.cause ≠ none → exec (.switch tag [n, d]) s = no .safe)
      ∧ (s.safe.cause = none → s.lanes[bankOf o].link ≠ .up → exec (.switch tag [n, d]) s = no .bankDown)
      ∧ (s.safe.cause = none → s.lanes[bankOf o].link = .up → busy → exec (.switch tag [n, d]) s = no .busy)
      ∧ (s.safe.cause = none → s.lanes[bankOf o].link = .up → ¬ busy →
          ∃ (t : State) (st : Status), exec (.switch tag [n, d]) s = .next t
          ∧ s.answers t 0x06 tag st .empty
          ∧ st = (match (s.request o a .manual).1 with
                  | .queued => .ok | .replaced => .ok | .merged => .merged | _ => .busy)
          ∧ t.queue = (s.request o a .manual).2.queue ∧ s.sameMeasures t ∧ t.relays = s.relays
          ∧ t.groups = s.groups ∧ t.tokens = s.tokens ∧ t.refill = s.refill ∧ t.turnOn = s.turnOn
          ∧ t.settle = s.settle ∧ t.safe = s.safe ∧ t.outletTable = s.outletTable ∧ t.groupTable = s.groupTable
          ∧ (a = .close → st = .ok ∨ st = .merged → o ∉ t.sheds[bankOf o].stack)
          ∧ (a = .opens ∨ st = .busy → ∀ b : Bank, t.sheds[b].stack = s.sheds[b].stack)
          ∧ (let q := s.request o a .manual
            let landed : Vector ShedUnit 6 :=
              if q.1 = .replaced then upd s.sheds (bankOf o) fun d => s.timedShed (bankOf o) (d.landed o) else s.sheds
            let unstacked : Vector ShedUnit 6 := upd landed (bankOf o) fun d =>
              s.timedShed (bankOf o) { d with stack := d.stack.filter (· ≠ o) }
            (q.1 = .refusedRank ∨ q.1 = .refusedBusy → t = s.taken.answered 0x06 tag .busy .empty)
            ∧ (q.1 ≠ .refusedRank → q.1 ≠ .refusedBusy →
              (a = .opens ∨ o ∉ s.sheds[bankOf o].stack →
                t = State.answered { s.taken with queue := q.2.queue, sheds := landed } 0x06 tag st .empty)
              ∧ (a = .close → o ∈ s.sheds[bankOf o].stack →
                t = State.answered (State.refreshModes { s.taken with queue := q.2.queue, sheds := unstacked }
                  (bankOf o)) 0x06 tag st .empty))))

/-- CLEAR_FAULT, taken (log entry 4): an outlet number outside 1 to 48 is answered BAD_ARG; an outlet in FAULT_OPEN
or FAULT_WELDED becomes UNKNOWN with no detail and both watch counts 0, answered OK; any other is answered STATE
with no effect. Energy, queue, other outlets' relays, groups and tables are unchanged. The mode an outlet is to show
is its forced indicator mode, or under AUTO BLINK while it is CLOSING, OPENING, faulted, shed or in a group with an
operation, else ON while its relay is ON, else OFF. When the modes of a bank are computed again and differ from
those shown, the bank shows them, and an UP lane's waiting INDICATE cell carries all eight; otherwise nothing
changes. A changed relay record has its bank's modes computed again, and so has a cleared fault; and when it makes
the derived power state of the outlet's group ALL_OFF (every member shed, OFF or in fault), the group's monitor,
unless CYCLING or OFFLINE, enters DISARMED with its timers stopped and busy-retry count 0, budget and window kept;
no other monitor changes. Every step keeps the shown mode of each position the mode that its outlet is to show: so
they follow the start and end of group operations, shed stacks and table entries. [R77, R80, R81, R103, R139] -/
def Obligations.ClearFaultForgetsTheFault : Prop :=
  (∀ (tag n : Byte) (s : State), s.ready 0x07 tag [n] →
    (n.toNat = 0 ∨ 48 < n.toNat →
      exec (.clearFault tag [n]) s = .next (s.taken.answered 0x07 tag .badArg (.offending none)))
    ∧ ∀ o : Outlet, n.toNat = o.val + 1 →
      (s.relays[o].state ≠ .faultOpen → s.relays[o].state ≠ .faultWelded →
        exec (.clearFault tag [n]) s = .next (s.taken.answered 0x07 tag .state .empty))
      ∧ (s.relays[o].state = .faultOpen ∨ s.relays[o].state = .faultWelded →
        ∃ t : State, exec (.clearFault tag [n]) s = .next t ∧ s.answers t 0x07 tag .ok .empty
        ∧ t.relays = upd s.relays o (fun _ =>
            { state := .unknown, detail := none, flight := none, weld := 0, dead := 0 })
        ∧ s.sameMeasures t ∧ t.queue = s.queue ∧ t.groups = s.groups ∧ t.sheds = s.sheds
        ∧ t.outletTable = s.outletTable ∧ t.groupTable = s.groupTable ∧ t.tokens = s.tokens ∧ t.safe = s.safe
        ∧ (∀ p : Position, t.shown[bankOf o][p] = t.modeOf (outletAt (bankOf o) p))
        ∧ (∀ b : Bank, b ≠ bankOf o → t.shown[b] = s.shown[b] ∧ t.lanes[b] = s.lanes[b])))
  ∧ (∀ (o : Outlet) (s : State),
    let blinks : Prop := s.relays[o].state = .closing ∨ s.relays[o].state = .opening
      ∨ s.relays[o].state = .faultOpen ∨ s.relays[o].state = .faultWelded ∨ o ∈ s.sheds[bankOf o].stack
      ∨ ∃ g : Group, s.groupOf o = some g ∧ s.groups[g].op ≠ .idle
    match s.outletTable.active[o].indicator with
    | .on => s.modeOf o = .on
    | .blink => s.modeOf o = .blink
    | .off => s.modeOf o = .off
    | .auto => (blinks → s.modeOf o = .blink) ∧ (¬ blinks → s.relays[o].state = .on → s.modeOf o = .on)
        ∧ (¬ blinks → s.relays[o].state ≠ .on → s.modeOf o = .off))
  ∧ (∀ (b : Bank) (s : State),
    let modes : Vector Mode 8 := Vector.ofFn fun p => s.modeOf (outletAt b p)
    (modes = s.shown[b] → s.refreshModes b = s)
    ∧ (modes ≠ s.shown[b] → s.refreshModes b = { s with
        shown := upd s.shown b fun _ => modes
        lanes := upd s.lanes b fun l => { l with indicator := if l.link = .up then some modes else l.indicator } }))
  ∧ (∀ (o : Outlet) (f : Relay → Relay) (s : State),
    let t := s.setRelay o f
    t = { State.refreshModes { s with relays := upd s.relays o f } (bankOf o) with monitors := t.monitors }
    ∧ (∀ g : Group, s.groupOf o ≠ some g → t.monitors[g] = s.monitors[g])
    ∧ ∀ g : Group, s.groupOf o = some g → t.monitors[g] = s.monitors[g].afterPower (s.power g) (t.power g))
  ∧ (∀ (g : Group) (s : State), s.power g = .allOff ↔ ∀ o ∈ s.members g, o ∈ s.sheds[bankOf o].stack
      ∨ s.relays[o].state = .off ∨ s.relays[o].state = .faultOpen ∨ s.relays[o].state = .faultWelded)
  ∧ (∀ s t : State, s.ModesKept → step s = .next t → t.ModesKept)

/-- DISPATCH_OPPORTUNITY at a multiple of 5 ms not yet used: every WAITING OPEN whose bank is UP becomes ISSUED now
and its outlet OPENING; WAITING OPENs of other banks stay. The phase at the pointer grants the oldest WAITING CLOSE
of its bank when the bank is UP, has no turn-on in flight, no settle timer running, is not CRITICAL, and its phase
holds a token; outlets in fault are passed over (OPENs issued first drop no fault of a CLOSE's outlet, an outlet
having one entry): one token is taken, the refill timer runs, the outlet is the bank's turn-on in flight and
CLOSING, and the entry is ISSUED. Otherwise no CLOSE is issued and no token taken. Each issued action has its
actuate-at set, is verified 24 sets later, and puts a RELAY cell with position, action and that set modulo 256 at
the tail of its bank's list. The pointer advances by one phase modulo 32 in any case, and no entry enters or leaves
the queue. At another uptime, or a second time at one uptime, nothing happens (log entry 15). The actuate-at set is
x - od + ofs for the earliest crossing x of c + L, c + 2 L, ... that leaves 4 or more sets after the newest, od the
operate delay and ofs the off offset of an OPEN; with no valid length, or after a NO_LINE close, it is 4 sets after
the newest. [R67, R68, R69, R88, R89, R90, R91, R92] -/
def Obligations.DispatchIssuesOpensAndOneGrant : Prop :=
  (∀ s : State,
    (s.uptime.toNat % 5 ≠ 0 ∨ s.opportunityTaken = true → exec .dispatchOpportunity s = .next s)
    ∧ (s.uptime.toNat % 5 = 0 → s.opportunityTaken = false → s.QueueKept →
      let grant : Option QueueEntry := (s.grantTable.active[s.grantPtr]).bind fun b =>
        s.queue.find? (fun e => e.state = .waiting ∧ e.action = .close ∧ bankOf e.outlet = b
            ∧ s.lanes[b].link = .up ∧ s.turnOn[b] = none ∧ s.settle[b] = none ∧ s.bankLimits[b].level ≠ .critical
            ∧ s.relays[e.outlet].state ≠ .faultOpen ∧ s.relays[e.outlet].state ≠ .faultWelded
            ∧ 0 < s.tokens[s.bankTable.active[b].phase])
      let opens : List QueueEntry := s.queue.filter fun e =>
        e.state = .waiting ∧ e.action = .opens ∧ s.lanes[bankOf e.outlet].link = .up
      let granted : QueueEntry → Prop := fun e => grant = some e
      let opened : QueueEntry → Prop := fun e =>
        e.state = .waiting ∧ e.action = .opens ∧ s.lanes[bankOf e.outlet].link = .up
      ∃ t : State, exec .dispatchOpportunity s = .next t
      ∧ t.grantPtr = s.grantPtr + 1 ∧ t.opportunityTaken = true
      ∧ t.queue.map (fun e => (e.outlet, e.action, e.origin, e.enqueued)) =
          s.queue.map (fun e => (e.outlet, e.action, e.origin, e.enqueued))
      ∧ (∀ e ∈ s.queue, opened e ∨ granted e →
          { e with state := .issued s.uptime } ∈ t.queue
          ∧ t.relays[e.outlet] =
            { state := (match e.action with | .opens => .opening | .close => .closing)
              detail := none, weld := 0, dead := 0
              flight := some { action := e.action, actuateAt := s.actuateAt e.outlet e.action
                               verifyAt := s.actuateAt e.outlet e.action + 24 } })
      ∧ (∀ e ∈ s.queue, ¬ opened e → ¬ granted e → e ∈ t.queue ∧ t.relays[e.outlet] = s.relays[e.outlet])
      ∧ (∀ e ∈ s.queue, granted e → t.turnOn = upd s.turnOn (bankOf e.outlet) (fun _ => some e.outlet)
          ∧ t.tokens = upd s.tokens s.bankTable.active[bankOf e.outlet].phase (fun n => n - 1)
          ∧ t.refill = upd s.refill s.bankTable.active[bankOf e.outlet].phase (fun u => some (u.getD s.uptime)))
      ∧ ((∀ e ∈ s.queue, ¬ granted e) → t.tokens = s.tokens ∧ t.turnOn = s.turnOn ∧ t.refill = s.refill)
      ∧ (∀ b : Bank, t.lanes[b] = { s.lanes[b] with
          indicator := t.lanes[b].indicator
          relayList := s.lanes[b].relayList ++
            ((opens ++ grant.toList).filter fun e => bankOf e.outlet = b).map fun e =>
              { pos := posOf e.outlet, action := e.action
                at8 := BitVec.ofNat 8 (s.actuateAt e.outlet e.action).toNat } })
      ∧ s.sameMeasures t ∧ t.settle = s.settle ∧ t.safe = s.safe ∧ t.groups = s.groups
      ∧ ∀ b : Bank, t.sheds[b].stack = s.sheds[b].stack))
  ∧ (∀ (o : Outlet) (a : Action) (s : State),
    let m := s.meters[bankOf o]
    let newest := s.lanes[bankOf o].counter
    let od : Int := s.outletTable.active[o].operateDelay
    let ofs : Int := match a with | .opens => s.outletTable.active[o].offOffset | .close => 0
    (m.winLen = none ∨ m.lastKind = some .noLine → s.actuateAt o a = newest + 4)
    ∧ ∀ (c : SetNo) (len : Nat), m.crossing = some c → m.winLen = some len → 0 < len →
      m.lastKind = some .valid ∨ m.lastKind = some .invalid →
      let ahead : Nat → Int := fun j => j * len - od + ofs - (newest - c).toInt
      ∃ j : Nat, 1 ≤ j ∧ 4 ≤ ahead j ∧ (∀ i : Nat, 1 ≤ i → i < j → ahead i < 4)
        ∧ s.actuateAt o a = c + BitVec.ofInt 32 (j * len - od + ofs))

/-- SETTLE_TIMER_EXPIRY once the settle time of the bank's active entry has passed stops that timer alone.
REFILL_TIMER_EXPIRY once the phase's refill period has passed adds one token, and the timer starts again while the
count is still below the active capacity, else it stops; it starts at the uptime of taking, also for an expiry taken
late (log entry 3). Before those times, or with the timer stopped, nothing changes. GRANT_TIMEOUT of an outlet whose
one entry is a WAITING CLOSE enqueued at least the active grant timeout ago: no CLOSE of the outlet stays WAITING
from that request (a safe action asked for again joins as a new entry), no turn-on in flight ends, no settle timer
starts, no token changes, and no relay state changes. An ISSUED entry, an OPEN, a younger entry or none leaves the
state as it is. The completion of an outlet's one entry removes it; of an ISSUED CLOSE it ends the bank's turn-on in
flight and, with DONE or FAULT, starts the settle timer; a shed or restore in flight of the outlet ends; relay
states, meters, thresholds and tokens stay. Every completion applies the outlet's deferred table entry, ends the
turn-on, raises SWITCH_DONE with the outlet action record and ends a shed or restore in flight, its bank's timers
following their conditions; it is then handed to the group engine and after that to safe control, in the state so
reached (this order is log entry 7). For an outlet that no group awaits and that is in no follow-up set, neither
does anything. [R93, R95, R97, R98, R99, R151, R58, R60] -/
def Obligations.SwitchingTimersExpire : Prop :=
  ((∀ (b : Bank) (s : State),
      (due s.settle[b] s.uptime s.bankTable.active[b].settle = false → exec (.settleTimerExpiry b) s = .next s)
      ∧ (∀ u : Uptime, s.settle[b] = some u → s.bankTable.active[b].settle ≤ (s.uptime - u).toNat →
        exec (.settleTimerExpiry b) s = .next { s with settle := upd s.settle b fun _ => none }))
    ∧ (∀ (p : SupplyPhase) (s : State),
      (due s.refill[p] s.uptime s.phaseTable.active[p].refill = false → exec (.refillTimerExpiry p) s = .next s)
      ∧ (∀ u : Uptime, s.refill[p] = some u → s.phaseTable.active[p].refill ≤ (s.uptime - u).toNat →
        exec (.refillTimerExpiry p) s = .next
          { s with tokens := upd s.tokens p fun n => n + 1
                   refill := upd s.refill p fun _ =>
                     if s.tokens[p] + 1 < s.phaseTable.active[p].capacity then some s.uptime else none })))
    ∧ (∀ (o : Outlet) (s : State),
    ((∀ e ∈ s.queue, e.outlet ≠ o) → exec (.grantTimeout o) s = .next s)
    ∧ ∀ (pre post : List QueueEntry) (e : QueueEntry), s.queue = pre ++ e :: post → e.outlet = o →
      (∀ e' ∈ pre ++ post, e'.outlet ≠ o) →
      (e.action = .opens ∨ e.state ≠ .waiting
          ∨ (s.uptime - e.enqueued).toNat < s.systemTable.active[0].grantTimeout * 1000 →
        exec (.grantTimeout o) s = .next s)
      ∧ (e.action = .close → e.state = .waiting →
          s.systemTable.active[0].grantTimeout * 1000 ≤ (s.uptime - e.enqueued).toNat →
        ∃ t : State, exec (.grantTimeout o) s = .next t ∧ t = s.complete o .expired none
        ∧ (∀ e' ∈ t.queue, e'.outlet = o → e'.enqueued = s.uptime ∧ e'.state = .waiting)
        ∧ t.turnOn = s.turnOn ∧ t.settle = s.settle ∧ t.tokens = s.tokens ∧ t.refill = s.refill
        ∧ t.relays = s.relays ∧ s.sameMeasures t ∧ t.safe.cause = s.safe.cause
        ∧ (s.sheds[bankOf o].restoreFlight = some o → t.sheds[bankOf o].restoreFlight = none)
        ∧ (s.safe.cause = none → (∀ g : Group, o ∉ s.groups[g].awaited) →
          t.queue = pre ++ post ∧ t.groups = s.groups)))
    ∧ (∀ (o : Outlet) (res : Completion) (act : Option SetNo) (s : State) (pre post : List QueueEntry)
      (e : QueueEntry), s.queue = pre ++ e :: post → e.outlet = o → (∀ e' ∈ pre ++ post, e'.outlet ≠ o) →
      let t := s.complete o res act
      let issuedClose : Prop := e.action = .close ∧ e.state ≠ .waiting
      (∀ e' ∈ t.queue, e'.outlet = o → e'.enqueued = s.uptime ∧ e'.state = .waiting)
      ∧ (issuedClose → t.turnOn = upd s.turnOn (bankOf o) (fun _ => none)
          ∧ t.settle = match res with
            | .done => upd s.settle (bankOf o) fun _ => some s.uptime
            | .fault => upd s.settle (bankOf o) fun _ => some s.uptime
            | .lost => s.settle
            | .expired => s.settle)
      ∧ (¬ issuedClose → t.turnOn = s.turnOn ∧ t.settle = s.settle)
      ∧ t.sheds[bankOf o].shedFlight ≠ some o ∧ t.sheds[bankOf o].restoreFlight ≠ some o
      ∧ s.sameMeasures t ∧ t.relays = s.relays ∧ t.tokens = s.tokens ∧ t.refill = s.refill
      ∧ t.grantPtr = s.grantPtr ∧ t.safe.cause = s.safe.cause
      ∧ (let done : ActionRecord :=
          { outlet := o, request := some (e.action, e.origin, e.enqueued), result := some (res, s.uptime)
            issue := match e.state, act with | .issued u, some a => some (u, a) | _, _ => none
            relay := s.relays[o].state, detail := s.relays[o].detail }
        let u := s.releaseOutlet o
        let x := notify s.uptime { kind := .switchDone, source := o.val + 1, detail := .switchDone done
                                   records := [.action done] } (u.notifier, u.link0)
        ∃ y : State, t = (y.groupCompletion o e.action res).safeFollowUp o
        ∧ y = { u with queue := pre ++ post, turnOn := y.turnOn, settle := y.settle
                       sheds := upd s.sheds (bankOf o) fun d => s.timedShed (bankOf o) (d.landed o)
                       notifier := x.1, link0 := x.2 }
        ∧ (issuedClose → y.turnOn = upd s.turnOn (bankOf o) (fun _ => none)
            ∧ y.settle = if res = .done ∨ res = .fault then upd s.settle (bankOf o) fun _ => some s.uptime
                         else s.settle)
        ∧ (¬ issuedClose → y.turnOn = s.turnOn ∧ y.settle = s.settle))
      ∧ ((∀ g : Group, o ∉ s.groups[g].awaited) → o ∉ s.safe.followUp →
        let done : ActionRecord :=
          { outlet := o, request := some (e.action, e.origin, e.enqueued), result := some (res, s.uptime)
            issue := match e.state, act with | .issued u, some a => some (u, a) | _, _ => none
            relay := s.relays[o].state, detail := s.relays[o].detail }
        let u := s.releaseOutlet o
        let x := notify s.uptime { kind := .switchDone, source := o.val + 1, detail := .switchDone done
                                   records := [.action done] } (u.notifier, u.link0)
        t = { u with queue := pre ++ post, turnOn := t.turnOn, settle := t.settle, sheds := t.sheds
                     notifier := x.1, link0 := x.2 }
        ∧ ∀ b : Bank, t.sheds[b].stack = s.sheds[b].stack ∧ t.sheds[b].exhausted = s.sheds[b].exhausted))

/-! ## Server groups (spec/06) -/

/-- Taken (log entry 4) with group number n, each of the three is answered BAD_ARG for n outside 1 to 32, SAFE in
SAFE, STATE for a group that is not enabled, BANK_DOWN when a member's bank is not UP, and BUSY when the operation
state does not admit it: with the cancel mark in any operation, CYCLE in ONING or VERIFYING, GROUP_ON in OFFING or
DWELL. A CYCLE from IDLE of a group whose members are all shed is answered STATE. A CYCLE in OFFING makes the kind
CYCLE and one in DWELL changes nothing, answered MERGED; a GROUP_OFF in OFFING makes the kind OFF and the cause
MANUAL, answered MERGED. A refused command has no other effect than its response. [R106, R116, R117] -/
def Obligations.GroupCommandsAreTested : Prop :=
  ∀ (tag n : Byte) (kind : Byte) (c : Instr) (s : State),
    (kind = 0x0A ∧ c = .cycle tag [n]) ∨ (kind = 0x0B ∧ c = .groupOff tag [n])
      ∨ (kind = 0x0C ∧ c = .groupOn tag [n]) →
    s.ready kind tag [n] →
    (n.toNat = 0 ∨ 32 < n.toNat → exec c s = .next (s.taken.answered kind tag .badArg (.offending none)))
    ∧ ∀ g : Group, n.toNat = g.val + 1 →
      let no : Status → Result := fun st => .next (s.taken.answered kind tag st .empty)
      let up : Prop := ∀ o ∈ s.members g, s.lanes[bankOf o].link = .up
      let op := s.groups[g].op
      (s.safe.cause ≠ none → exec c s = no .safe)
      ∧ (s.safe.cause = none → s.groupTable.active[g].enabled = false → exec c s = no .state)
      ∧ (s.safe.cause = none → s.groupTable.active[g].enabled = true → ¬ up → exec c s = no .bankDown)
      ∧ (s.safe.cause = none → s.groupTable.active[g].enabled = true → up →
        (op ≠ .idle → s.groups[g].cancel = true → exec c s = no .busy)
        ∧ (kind = 0x0A → op = .oning ∨ op = .verifying → exec c s = no .busy)
        ∧ (kind = 0x0A → op = .idle → (∀ o ∈ s.members g, o ∈ s.sheds[bankOf o].stack) → exec c s = no .state)
        ∧ (kind = 0x0A → op = .offing → s.groups[g].cancel = false → exec c s = .next (State.answered
            { s.taken with groups := upd s.groups g fun r => { r with kind := some .cycle } } kind tag .merged .empty))
        ∧ (kind = 0x0A → op = .dwell → s.groups[g].cancel = false → exec c s = no .merged)
        ∧ (kind = 0x0B → op = .offing → s.groups[g].cancel = false → exec c s = .next (State.answered
            { s.taken with groups := upd s.groups g fun r => { r with kind := some .off, cause := some .manual } }
            kind tag .merged .empty))
        ∧ (kind = 0x0C → op = .offing ∨ op = .dwell → exec c s = no .busy))

/-- For an enabled group in IDLE with all its banks UP, not in SAFE, with a member that is not OFF (and, for CYCLE,
one that is not shed): the command, taken (log entry 4), is answered OK; the group is in OFFING with the kind of the
command, cause and pass cause MANUAL, retry count 0, the present uptime as start and clear marks; every member that
is not OFF is awaited, its progress AWAITING, and has an entry in the queue, and every other is marked OPENED; its
monitor is in CYCLING unless it was OFFLINE. Relay states, meters, tokens, other groups and other monitors are
unchanged. With every member OFF, CYCLE enters DWELL and GROUP_OFF ends DONE at once. [R107, R108, R138] -/
def Obligations.IdleGroupIsSwitchedOff : Prop :=
  ∀ (tag n : Byte) (g : Group) (kind : Byte) (c : Instr) (k : OpKind) (s : State),
    (kind = 0x0A ∧ c = .cycle tag [n] ∧ k = .cycle) ∨ (kind = 0x0B ∧ c = .groupOff tag [n] ∧ k = .off) →
    s.ready kind tag [n] → n.toNat = g.val + 1 → s.safe.cause = none → s.groupTable.active[g].enabled = true →
    (∀ o ∈ s.members g, s.lanes[bankOf o].link = .up) → s.groups[g].op = .idle →
    (k = .cycle → ∃ o ∈ s.members g, o ∉ s.sheds[bankOf o].stack) →
    ∃ t : State, exec c s = .next t ∧ s.answers t kind tag .ok .empty
    ∧ s.sameMeasures t ∧ t.relays = s.relays ∧ t.tokens = s.tokens ∧ t.turnOn = s.turnOn ∧ t.safe = s.safe
    ∧ ((∃ o ∈ s.members g, s.relays[o].state ≠ .off) →
      t.groups[g].op = .offing ∧ t.groups[g].kind = some k ∧ t.groups[g].cause = some .manual
      ∧ t.groups[g].passCause = some .manual ∧ t.groups[g].retry = 0 ∧ t.groups[g].start = s.uptime
      ∧ t.groups[g].cancel = false ∧ t.groups[g].repower = false ∧ t.groups[g].faulted = []
      ∧ (∀ o : Outlet, o ∈ t.groups[g].awaited ↔ o ∈ s.members g ∧ s.relays[o].state ≠ .off)
      ∧ (∀ o ∈ s.members g, s.relays[o].state ≠ .off → ∃ e ∈ t.queue, e.outlet = o)
      ∧ (∀ o ∈ s.members g, s.relays[o].state ≠ .off → (∀ e ∈ s.queue, e.outlet ≠ o) →
          ∃ e ∈ t.queue, e.outlet = o ∧ e.action = .opens ∧ e.origin = .group g ∧ e.enqueued = s.uptime)
      ∧ t.groups[g].progress.length = (s.members g).length
      ∧ (∀ o ∈ s.members g, t.groups[g].progress[(s.members g).idxOf o]? =
          some (if s.relays[o].state = .off then .opened else .awaiting))
      ∧ (t.monitors[g].state = if s.monitors[g].state = .offline then .offline else .cycling)
      ∧ ∀ h : Group, h ≠ g → t.groups[h] = s.groups[h] ∧ t.monitors[h] = s.monitors[h])
    ∧ ((∀ o ∈ s.members g, s.relays[o].state = .off) → t.queue = s.queue
      ∧ (k = .cycle → t.groups[g].op = .dwell ∧ t.groups[g].dwell = some s.uptime
          ∧ ∀ o ∈ s.members g, t.groups[g].progress[(s.members g).idxOf o]? = some .opened)
      ∧ (k = .off → t.groups[g].op = .idle ∧ ∃ r : OpRecord, t.groups[g].lastRecord = some r ∧ r.result = .done
          ∧ r.kind = .off ∧ r.cause = .manual ∧ r.start = s.uptime ∧ r.stop = s.uptime))

/-- For an enabled group in IDLE with all its banks UP, not in SAFE: GROUP_ON, taken (log entry 4), is answered OK, and
the members that are not a shed in flight leave their stacks, the others keeping their order. The operation starts: kind
ON, cause and pass cause MANUAL, retry count 0, the present uptime as start, clear marks, every member PENDING, nothing
awaited or faulted; the group's monitor is in CYCLING unless it was OFFLINE, and every other monitor stays. The turns of
ONING are then taken from the first member on, as statement O33 says of any turn. When the first member is not shed in
flight, neither faulted nor ON, and has no queue entry, the group is in ONING at its first turn with that member
awaited, its progress AWAITING and every other's PENDING, and its CLOSE of origin GROUP at the queue's tail. When every
member is ON and none is a shed in flight, the group is in VERIFYING with the boot window running and every member
marked CLOSED, or with verify NONE it has ended DONE. While the operation goes on the monitor stays in CYCLING, and
other groups stay as they were; when it has ended at once, the monitor is DISARMED unless it was OFFLINE, and other
groups and monitors stay, but for groups whose table entries waited. Relay states, meters and tokens are unchanged.
[R107, R111, R113, R122, R138] -/
def Obligations.IdleGroupIsSwitchedOn : Prop :=
  ∀ (tag n : Byte) (g : Group) (s : State),
    s.ready 0x0C tag [n] → n.toNat = g.val + 1 → s.safe.cause = none → s.groupTable.active[g].enabled = true →
    (∀ o ∈ s.members g, s.lanes[bankOf o].link = .up) → s.groups[g].op = .idle →
    ∃ t : State, exec (.groupOn tag [n]) s = .next t ∧ s.answers t 0x0C tag .ok .empty
    ∧ s.sameMeasures t ∧ t.relays = s.relays ∧ t.tokens = s.tokens ∧ t.turnOn = s.turnOn ∧ t.safe = s.safe
    ∧ (∀ o ∈ s.members g, s.sheds[bankOf o].shedFlight ≠ some o → o ∉ t.sheds[bankOf o].stack)
    ∧ (∀ (m : Outlet) (ms : List Outlet), s.members g = m :: ms → s.sheds[bankOf m].shedFlight ≠ some m →
        s.relays[m].state ≠ .on → s.relays[m].state ≠ .faultOpen → s.relays[m].state ≠ .faultWelded →
        (∀ e ∈ s.queue, e.outlet ≠ m) →
        t.groups[g].op = .oning ∧ t.groups[g].kind = some .on ∧ t.groups[g].cause = some .manual
        ∧ t.groups[g].progress = .awaiting :: ms.map (fun _ => .pending)
        ∧ t.groups[g].turn = 0 ∧ t.groups[g].awaited = [m] ∧ t.groups[g].start = s.uptime
        ∧ t.queue = s.queue ++ [{ outlet := m, action := .close, origin := .group g, enqueued := s.uptime
                                  state := .waiting }]
        ∧ ∀ h : Group, h ≠ g → t.groups[h] = s.groups[h])
    ∧ ((∀ o ∈ s.members g, s.relays[o].state = .on ∧ s.sheds[bankOf o].shedFlight ≠ some o) →
        t.queue = s.queue
        ∧ (s.groupTable.active[g].verify ≠ .none →
          t.groups[g].op = .verifying ∧ t.groups[g].boot = some s.uptime
            ∧ ∀ o ∈ s.members g, t.groups[g].progress[(s.members g).idxOf o]? = some .closed)
        ∧ (s.groupTable.active[g].verify = .none → t.groups[g].op = .idle
          ∧ ∃ r : OpRecord, t.groups[g].lastRecord = some r ∧ r.result = .done ∧ r.kind = .on ∧ r.faulted = []))
    ∧ (∃ u v : State, t = v.answered 0x0C tag .ok .empty ∧ u.TurnsTaken v g 0
      ∧ u = { s.taken with
          groups := upd s.groups g fun r => { r with
            op := .oning, kind := some .on, cause := some .manual, passCause := some .manual, repower := false
            cancel := false, start := s.uptime, retry := 0, turn := 0, busyWait := false, awaited := [], dwell := none
            faulted := [], progress := List.replicate (s.members g).length .pending }
          monitors := upd s.monitors g fun m => if m.state = .offline then m else m.still .cycling
          sheds := u.sheds, shown := u.shown, lanes := u.lanes }
      ∧ ∀ b : Bank, u.sheds[b].shedFlight = s.sheds[b].shedFlight
        ∧ u.sheds[b].stack = s.sheds[b].stack.filter fun o =>
            ¬ (o ∈ s.members g ∧ bankOf o = b ∧ s.sheds[b].shedFlight ≠ some o))
    ∧ (t.groups[g].op ≠ .idle →
      (t.monitors = upd s.monitors g fun m => if m.state = .offline then m else m.still .cycling)
      ∧ ∀ h : Group, h ≠ g → t.groups[h] = s.groups[h])
    ∧ (t.groups[g].op = .idle → ∀ h : Group, h ∉ s.groupTable.waiting →
      t.monitors[h] = (if h = g ∧ s.monitors[g].state ≠ .offline then s.monitors[g].still .disarmed else s.monitors[h])
      ∧ (h ≠ g → t.groups[h] = s.groups[h]))

/-- CANCEL, taken (log entry 4): BAD_ARG for a group number outside 1 to 32; STATE in IDLE; MERGED without effect
while the cancel mark is set; otherwise OK. In DWELL, ONING and VERIFYING, and in OFFING when no awaited outlet has
an ISSUED entry, the group is IDLE with a record CANCELLED, reason COMMAND; otherwise OFFING goes on with the cancel
mark, awaiting exactly the outlets that have one. In OFFING and ONING no WAITING entry of the group's own origin
among its awaited outlets is left; entries of other origins and ISSUED ones stay. Relay states, meters and tokens
are unchanged. GROUP_OFF, taken and past its tests, without the cancel mark: in DWELL the operation ends DONE, kind
OFF, cause MANUAL; in ONING and VERIFYING kind and cause are so too, the timer of the state stops, in ONING awaited
WAITING entries of the group are withdrawn and the re-power mark cleared, every member not OFF is awaited, its
progress AWAITING, with an entry in the queue, the others marked OPENED, beside ISSUED entries awaited before, and
OFFING goes on, or with none to await the operation ends DONE. GROUP_ON in ONING and VERIFYING without the mark is
MERGED: the members not a shed in flight leave their stacks, the others keep their order, and groups and queue stay.
[R87, R108, R109, R116, R117, R118, R121, R122] -/
def Obligations.CancelEndsTheOperation : Prop :=
  (∀ (tag n : Byte) (s : State), s.ready 0x0D tag [n] →
    (n.toNat = 0 ∨ 32 < n.toNat →
      exec (.cancel tag [n]) s = .next (s.taken.answered 0x0D tag .badArg (.offending none)))
    ∧ ∀ g : Group, n.toNat = g.val + 1 →
      (s.groups[g].op = .idle → exec (.cancel tag [n]) s = .next (s.taken.answered 0x0D tag .state .empty))
      ∧ (s.groups[g].op ≠ .idle → s.groups[g].cancel = true →
          exec (.cancel tag [n]) s = .next (s.taken.answered 0x0D tag .merged .empty))
      ∧ (s.groups[g].op ≠ .idle → s.groups[g].cancel = false → s.QueueKept →
        let ended : State → Prop := fun t => t.groups[g].op = .idle ∧ t.groups[g].awaited = []
          ∧ ∃ r : OpRecord, t.groups[g].lastRecord = some r ∧ r.result = .cancelled ∧ r.reason = some .command
            ∧ r.stop = s.uptime ∧ r.start = s.groups[g].start
        ∃ t : State, exec (.cancel tag [n]) s = .next t ∧ s.answers t 0x0D tag .ok .empty
        ∧ s.sameMeasures t ∧ t.relays = s.relays ∧ t.tokens = s.tokens ∧ t.turnOn = s.turnOn ∧ t.safe = s.safe
        ∧ (s.groups[g].op ≠ .offing → ended t)
        ∧ (s.groups[g].op = .offing → (∀ o ∈ s.groups[g].awaited, s.isIssued o = false) → ended t)
        ∧ (s.groups[g].op = .offing → (∃ o ∈ s.groups[g].awaited, s.isIssued o = true) →
            t.groups[g].op = .offing ∧ t.groups[g].cancel = true
            ∧ t.groups[g].awaited = s.groups[g].awaited.filter s.isIssued)
        ∧ (s.groups[g].op = .offing ∨ s.groups[g].op = .oning →
            t.queue = s.queue.filter fun e =>
              ¬ (e.state = .waiting ∧ e.origin = .group g ∧ e.outlet ∈ s.groups[g].awaited))))
  ∧ (∀ (tag n : Byte) (g : Group) (s : State), n.toNat = g.val + 1 →
    s.safe.cause = none → s.groupTable.active[g].enabled = true →
    (∀ o ∈ s.members g, s.lanes[bankOf o].link = .up) → s.groups[g].cancel = false → s.QueueKept →
    let r := s.groups[g]
    let kept : State → Prop := fun t => s.sameMeasures t ∧ t.relays = s.relays ∧ t.tokens = s.tokens
      ∧ t.turnOn = s.turnOn ∧ t.settle = s.settle ∧ t.safe = s.safe
    (s.ready 0x0B tag [n] →
      let doneOff : State → Prop := fun t => t.groups[g].op = .idle ∧ ∃ rec : OpRecord,
        t.groups[g].lastRecord = some rec ∧ rec.kind = .off ∧ rec.cause = .manual ∧ rec.result = .done
        ∧ rec.reason = none ∧ rec.start = r.start ∧ rec.stop = s.uptime ∧ rec.retries = r.retry
      (r.op = .dwell → ∃ t : State, exec (.groupOff tag [n]) s = .next t ∧ s.answers t 0x0B tag .ok .empty
        ∧ kept t ∧ t.queue = s.queue ∧ doneOff t)
      ∧ (r.op = .oning ∨ r.op = .verifying →
        let stays : Outlet → Prop := fun o => o ∈ r.awaited ∧ (r.op = .oning → s.isIssued o = true)
        let opens : Outlet → Prop := fun o => o ∈ s.members g ∧ s.relays[o].state ≠ .off
        ∃ t : State, exec (.groupOff tag [n]) s = .next t ∧ s.answers t 0x0B tag .ok .empty ∧ kept t
        ∧ (∀ e ∈ s.queue, e.state ≠ .waiting → e ∈ t.queue)
        ∧ (∀ e ∈ t.queue, r.op = .oning → e.state = .waiting → e.origin = .group g → e.outlet ∈ r.awaited →
            e.action = .opens)
        ∧ (∀ o : Outlet, opens o → ∃ e ∈ t.queue, e.outlet = o)
        ∧ ((∃ o : Outlet, stays o ∨ opens o) →
            t.groups[g].op = .offing ∧ t.groups[g].kind = some .off ∧ t.groups[g].cause = some .manual
            ∧ t.groups[g].start = r.start ∧ t.groups[g].retry = r.retry ∧ t.groups[g].faulted = r.faulted
            ∧ t.groups[g].cancel = false
            ∧ (r.op = .oning → t.groups[g].stagger = none ∧ t.groups[g].repower = false)
            ∧ (r.op = .verifying → t.groups[g].boot = none)
            ∧ (∀ o : Outlet, o ∈ t.groups[g].awaited ↔ stays o ∨ opens o)
            ∧ ∀ o ∈ s.members g, ∀ x : Progress, t.groups[g].progress[(s.members g).idxOf o]? = some x →
              x = if s.relays[o].state = .off then .opened else .awaiting)
        ∧ ((∀ o : Outlet, ¬ stays o ∧ ¬ opens o) → doneOff t)))
    ∧ (s.ready 0x0C tag [n] → r.op = .oning ∨ r.op = .verifying →
      ∃ t : State, exec (.groupOn tag [n]) s = .next t ∧ s.answers t 0x0C tag .merged .empty ∧ kept t
      ∧ t.groups = s.groups ∧ t.queue = s.queue
      ∧ ∀ b : Bank, t.sheds[b].shedFlight = s.sheds[b].shedFlight
        ∧ t.sheds[b].stack = s.sheds[b].stack.filter fun o =>
            ¬ (o ∈ s.members g ∧ bankOf o = b ∧ s.sheds[b].shedFlight ≠ some o)))

/-- Each timer acts only in its state (DWELL, ONING, VERIFYING) and once it has run for the group's length; else nothing
changes. Dwell expiry takes the first member's turn, setting the re-power mark with a member FAULT_WELDED; stagger
expiry takes the next one's. At its turn a member shed is marked PASSED, in fault FAULTED (a faulted member), ON CLOSED,
one whose CLOSE is REFUSED_RANK PASSED, and the next turn is taken; any other, its CLOSE QUEUED (at the tail), MERGED,
REPLACED or REFUSED_BUSY (statement O24), is awaited, AWAITING, REFUSED_BUSY alone setting the wait that has the turn
taken again. With no turn left ONING is over: FAILED, WELDED with the re-power mark, else VERIFYING, or DONE with verify
NONE. Boot window expiry with retries left and all the members' banks UP begins a pass of kind CYCLE, cause RETRY, in
OFFING when a member is not OFF, start uptime and cause kept; with a bank down it ends FAILED, BANK_LOST, without
retries left FAILED, NO_BOOT. A completion (statement O28) for an outlet in no awaited set is ignored; one that a group
awaits leaves the set. In OFFING, LOST ends it FAILED, BANK_LOST; a CLOSE's that leaves the relay not OFF asks for the
OPEN again; otherwise the member is OPENED, and with none left to await OFF ends DONE, or FAILED, WELDED with a member
FAULT_WELDED; CYCLE enters DWELL, or with one sets the re-power mark and takes the first turn; with the cancel mark no
OPEN is asked for (log entry 13), a CLOSE or LOST leaves the progress (log entry 14), and the end is CANCELLED. In
ONING, EXPIRED ends it FAILED, GRANT_TIMEOUT, LOST FAILED, BANK_LOST; DONE (CLOSED) and FAULT (FAULTED) start the
stagger timer, or with a stagger of 0 take the next turn, and after the last member end ONING; the end of an entry that
refused the turn BUSY, but for LOST, has the turn taken again. Relay states, meters, tokens and the clock stay. [R104,
R109, R110, R111, R112, R113, R115, R118, R119] -/
def Obligations.GroupTimersExpire : Prop :=
  ∀ (g : Group) (s : State),
    let e := s.groupTable.active[g]
    let r := s.groups[g]
    let kept : State → Prop := fun t => s.sameMeasures t ∧ t.relays = s.relays ∧ t.tokens = s.tokens
      ∧ t.turnOn = s.turnOn ∧ t.settle = s.settle ∧ t.safe = s.safe
    let shows : State → Outlet → Progress → Prop := fun t m p =>
      ∀ x : Progress, t.groups[g].progress[(s.members g).idxOf m]? = some x → x = p
    let withProgress : Outlet → Progress → GroupOp → List Progress := fun o p r =>
      r.progress.set ((s.members g).idxOf o) p
    let turns : (GroupOp → GroupOp) → State → Nat → Prop := fun f t i =>
      State.TurnsTaken { s with groups := upd s.groups g f } t g i
    let ended : State → OpResult → Option OpReason → Prop := fun t result reason =>
      t.groups[g].op = .idle ∧ ∃ rec : OpRecord, t.groups[g].lastRecord = some rec ∧ rec.result = result
        ∧ rec.reason = reason ∧ rec.start = r.start ∧ rec.stop = s.uptime ∧ rec.retries = r.retry
    (r.op ≠ .dwell ∨ due r.dwell s.uptime (e.offDwell * 1000) = false → exec (.dwellExpiry g) s = .next s)
    ∧ (r.op = .dwell → due r.dwell s.uptime (e.offDwell * 1000) = true →
      ∃ t : State, exec (.dwellExpiry g) s = .next t ∧ kept t
        ∧ turns (fun r => { r with
            op := .oning, dwell := none
            repower := r.repower || decide (∃ o ∈ s.members g, s.relays[o].state = .faultWelded) }) t 0
        ∧ t.groups[g].op ≠ .dwell
        ∧ (t.groups[g].op = .oning → (t.groups[g].repower = true ↔
            r.repower = true ∨ ∃ o ∈ s.members g, s.relays[o].state = .faultWelded)))
    ∧ (r.op ≠ .oning ∨ due r.stagger s.uptime (e.onStagger * 1000) = false →
      exec (.staggerExpiry g) s = .next s)
    ∧ (r.op = .oning → due r.stagger s.uptime (e.onStagger * 1000) = true →
      ∃ t : State, exec (.staggerExpiry g) s = .next t ∧ kept t
        ∧ turns (fun r => { r with stagger := none }) t (r.turn + 1))
    ∧ (r.op ≠ .verifying ∨ due r.boot s.uptime (e.bootWindow * 1000) = false →
      exec (.bootWindowExpiry g) s = .next s)
    ∧ (r.op = .verifying → due r.boot s.uptime (e.bootWindow * 1000) = true →
      ∃ t : State, exec (.bootWindowExpiry g) s = .next t ∧ kept t
      ∧ (e.retries ≤ r.retry → t.groups[g].op = .idle ∧ ∃ rec : OpRecord, t.groups[g].lastRecord = some rec
          ∧ rec.result = .failed ∧ rec.reason = some .noBoot ∧ rec.retries = r.retry)
      ∧ (r.retry < e.retries → (∃ o ∈ s.members g, s.lanes[bankOf o].link ≠ .up) →
          t.groups[g].op = .idle ∧ ∃ rec : OpRecord, t.groups[g].lastRecord = some rec
            ∧ rec.result = .failed ∧ rec.reason = some .bankLost)
      ∧ (r.retry < e.retries → (∀ o ∈ s.members g, s.lanes[bankOf o].link = .up) →
          (∃ o ∈ s.members g, s.relays[o].state ≠ .off) →
          t.groups[g].op = .offing ∧ t.groups[g].retry = r.retry + 1 ∧ t.groups[g].kind = some .cycle
          ∧ t.groups[g].passCause = some .retry ∧ t.groups[g].start = r.start ∧ t.groups[g].cause = r.cause
          ∧ t.groups[g].faulted = r.faulted ∧ t.groups[g].boot = none
          ∧ ∀ o ∈ s.members g, t.groups[g].progress[(s.members g).idxOf o]? =
              some (if s.relays[o].state = .off then .opened else .awaiting)))
    ∧ (∀ (o : Outlet) (a : Action) (res : Completion),
      let t := s.groupCompletion o a res
      let rest := r.awaited.filter (· ≠ o)
      let welded : Prop := ∃ m ∈ s.members g, s.relays[m].state = .faultWelded
      ((∀ h : Group, o ∉ s.groups[h].awaited) → t = s)
      ∧ (o ∈ r.awaited → (∀ h : Group, h ≠ g → o ∉ s.groups[h].awaited) →
        kept t
        ∧ (r.op = .offing → r.cancel = false →
          (res = .lost → ended t .failed (some .bankLost))
          ∧ (res ≠ .lost → a = .close → s.relays[o].state ≠ .off →
              t.groups[g].op = .offing ∧ o ∈ t.groups[g].awaited ∧ shows t o .awaiting
              ∧ (∀ m : Outlet, m ≠ o → (m ∈ t.groups[g].awaited ↔ m ∈ r.awaited))
              ∧ t.queue = (s.request o .opens (.group g)).2.queue)
          ∧ (res ≠ .lost → a = .opens ∨ s.relays[o].state = .off →
            (rest ≠ [] → t.queue = s.queue ∧ t.groups = upd s.groups g fun r =>
              { r with awaited := rest, progress := withProgress o .opened r })
            ∧ (rest = [] → r.kind ≠ some .off → ¬ welded →
                t.groups[g].op = .dwell ∧ t.groups[g].dwell = some s.uptime ∧ t.groups[g].awaited = []
                ∧ t.groups[g].progress = withProgress o .opened r ∧ t.queue = s.queue)
            ∧ (rest = [] → r.kind ≠ some .off → welded →
                turns (fun r => { r with
                  op := .oning, dwell := none, repower := true, awaited := [], progress := withProgress o .opened r })
                  t 0
                ∧ ((t.groups[g].op = .oning ∧ t.groups[g].repower = true) ∨ ended t .failed (some .welded)))
            ∧ (rest = [] → r.kind = some .off → ¬ welded → ended t .done none)
            ∧ (rest = [] → r.kind = some .off → welded → ended t .failed (some .welded))))
        ∧ (r.op = .offing → r.cancel = true →
          (rest ≠ [] → t.queue = s.queue ∧ t.groups = upd s.groups g fun r =>
            { r with
              awaited := rest
              progress := if res ≠ .lost ∧ a = .opens then withProgress o .opened r else r.progress })
          ∧ (rest = [] → ended t .cancelled (some .command)))
        ∧ (r.op = .oning → r.busyWait = true →
          (res = .lost → ended t .failed (some .bankLost))
          ∧ (res ≠ .lost → turns (fun r => { r with awaited := rest }) t r.turn))
        ∧ (r.op = .oning → r.busyWait = false →
          (res = .expired → ended t .failed (some .grantTimeout))
          ∧ (res = .lost → ended t .failed (some .bankLost))
          ∧ (res = .done ∨ res = .fault →
            let faulted := if res = .fault then (s.members g).filter (fun m => m = o ∨ m ∈ r.faulted) else r.faulted
            let mark : Progress := if res = .fault then .faulted else .closed
            (r.turn + 1 < (s.members g).length → e.onStagger ≠ 0 → t.queue = s.queue
              ∧ t.groups = upd s.groups g fun r =>
                { r with awaited := rest, faulted := faulted, stagger := some s.uptime
                         progress := withProgress o mark r })
            ∧ (r.turn + 1 < (s.members g).length → e.onStagger = 0 →
                turns (fun r => { r with awaited := rest, faulted := faulted, progress := withProgress o mark r })
                  t (r.turn + 1))
            ∧ ((s.members g).length ≤ r.turn + 1 → r.repower = true → ended t .failed (some .welded))
            ∧ ((s.members g).length ≤ r.turn + 1 → r.repower = false → e.verify ≠ .none →
                t.groups[g].op = .verifying ∧ t.groups[g].boot = some s.uptime ∧ t.groups[g].faulted = faulted
                ∧ t.groups[g].progress = withProgress o mark r)
            ∧ ((s.members g).length ≤ r.turn + 1 → r.repower = false → e.verify = .none → ended t .done none)))))

/-! ## Hang detection (spec/07) -/

/-- DEADLINE_EXPIRY of an ARMED monitor whose deadline has run out: SUSPECT, busy-retry count 0, the grace timer
started, HANG_SUSPECT raised with the deadline and the last token uptime; with a grace of 0 the policy then acts at
once. The grace timer starts, and starts again, at the uptime of taking, also for an expiry taken late (log entry
3). GRACE_EXPIRY of a SUSPECT monitor whose grace has run out: NOTIFY makes it DECLARED and raises HANG_DECLARED;
CYCLE_IF_FLAT with fewer than W present values among the newest W raises HANG_BUSY INSUFFICIENT, and with a spread
(largest less smallest of the W) above the band HANG_BUSY NOT_FLAT with it, each with the busy-retry count one
higher (at most 255) and a retried grace; CYCLE, and CYCLE_IF_FLAT with W present values within the band, ask for a
hang cycle. One that finds its budget used makes the monitor LOCKED_OUT and raises LOCKOUT; one that the engine
accepts (group enabled, its banks UP, IDLE, a member not shed) starts a CYCLE with cause HANG in OFFING, or in DWELL
with every member OFF, the monitor CYCLING with its budget count one higher, and raises HANG_DECLARED, with the
spread after a flat test; one that finds the group in an operation makes it DISARMED; one refused with BANK_DOWN or
STATE raises HANG_BUSY NOT_ACCEPTED with a retried grace. (That DECLARED, LOCKED_OUT and DISARMED after BUSY keep
the busy-retry count is the model's reading, log entry 21; no rule says it.) A budget window that does not run
starts with the request. BUDGET_WINDOW_EXPIRY after the window's hours clears count and window. Before their times
none changes anything. [R130, R131, R132, R133, R135, R136, R123, R138] -/
def Obligations.DeadlineAndGraceExpire : Prop :=
  ∀ (g : Group) (s : State),
    let e := s.groupTable.active[g]
    let m := s.monitors[g]
    let count := if m.window = none then 0 else m.budget
    let begun := m.window.getD s.uptime
    let stop := begun + BitVec.ofNat 32 (e.budgetWindow * 3600000)
    let retried : BusyReport → State := fun x => State.raise
      { s with monitors := upd s.monitors g fun m =>
          { m with busy := min 255 (m.busy + 1), grace := some { start := s.uptime, retry := true } } }
      .hangBusy (g.val + 1) (.hangBusy x (min 255 (m.busy + 1)))
    let refused : EngineAnswer → State := fun a => State.raise
      { s with monitors := upd s.monitors g fun m =>
          { m with busy := min 255 (m.busy + 1), grace := some { start := s.uptime, retry := true }
                   window := some begun, budget := count } }
      .hangBusy (g.val + 1) (.hangBusy (.notAccepted a) (min 255 (m.busy + 1)))
    let suspect : State := State.raise
      { s with monitors := upd s.monitors g fun m =>
        { m with state := .suspect, deadline := none, busy := 0
                 grace := some { start := s.uptime, retry := false } } }
      .hangSuspect (g.val + 1) (.hangSuspect e.deadline m.lastToken)
    let newest := s.groups[g].history.drop (s.groups[g].history.length - e.flatIntervals)
    let flat : Prop := e.flatIntervals ≤ (newest.filterMap id).length
      ∧ ∀ a ∈ newest.filterMap id, ∀ b ∈ newest.filterMap id, a - b ≤ (e.flatBand : Int)
    let extremes : Int → Int → Prop := fun lo hi => lo ∈ newest.filterMap id ∧ hi ∈ newest.filterMap id
      ∧ ∀ x ∈ newest.filterMap id, lo ≤ x ∧ x ≤ hi
    let asks : Prop := s.graceDue g = true ∧ (e.policy = .cycle ∨ (e.policy = .cycleIfFlat ∧ flat))
    let up : Prop := ∀ o ∈ s.members g, s.lanes[bankOf o].link = .up
    let unshed : Prop := ∃ o ∈ s.members g, o ∉ s.sheds[bankOf o].stack
    (m.state ≠ .armed ∨ due m.deadline s.uptime (e.deadline * 1000) = false →
      exec (.deadlineExpiry g) s = .next s)
    ∧ (m.state = .armed → due m.deadline s.uptime (e.deadline * 1000) = true →
      (e.grace ≠ 0 → exec (.deadlineExpiry g) s = .next suspect)
      ∧ (e.grace = 0 → suspect.graceDue g = true
          ∧ exec (.deadlineExpiry g) s = exec (.graceExpiry g) suspect))
    ∧ (s.graceDue g = true ↔ m.state = .suspect ∧ ∃ c : Grace, m.grace = some c ∧
        (if c.retry then max e.grace s.systemTable.active[0].intervalLength else e.grace) * 1000
          ≤ (s.uptime - c.start).toNat)
    ∧ (s.graceDue g = false → exec (.graceExpiry g) s = .next s)
    ∧ (s.graceDue g = true → e.policy = .notify → exec (.graceExpiry g) s = .next (State.raise
        { s with monitors := upd s.monitors g fun m => { m with state := .declared, grace := none } }
        .hangDeclared (g.val + 1) (.hangDeclaredNotify m.busy)))
    ∧ (s.graceDue g = true → e.policy = .cycleIfFlat →
      ((newest.filterMap id).length < e.flatIntervals →
        exec (.graceExpiry g) s = .next (retried (.insufficient (newest.filterMap id).length)))
      ∧ (e.flatIntervals ≤ (newest.filterMap id).length → (∃ a ∈ newest.filterMap id, ∃ b ∈ newest.filterMap id,
          (e.flatBand : Int) < a - b) →
        ∃ spread : Nat, e.flatBand < spread ∧ exec (.graceExpiry g) s = .next (retried (.notFlat spread)))
      ∧ (∀ lo hi : Int, e.flatIntervals ≤ (newest.filterMap id).length → extremes lo hi →
          (e.flatBand : Int) < hi - lo →
          exec (.graceExpiry g) s = .next (retried (.notFlat (hi - lo).toNat))))
    ∧ (asks → e.budget ≤ count →
      exec (.graceExpiry g) s = .next (State.raise
        { s with monitors := upd s.monitors g fun m =>
          { m with state := .lockedOut, grace := none, budget := count, window := some begun } }
        .lockout (g.val + 1) (.lockout e.budget count stop)))
    ∧ (asks → count < e.budget → e.enabled = true → up → s.groups[g].op = .idle → unshed →
      ∃ (t : State) (spread : Option Nat), exec (.graceExpiry g) s = .next t
      ∧ (e.policy = .cycle → spread = none)
      ∧ (e.policy = .cycleIfFlat → ∀ lo hi : Int, extremes lo hi → spread = some (hi - lo).toNat)
      ∧ ((∃ o ∈ s.members g, s.relays[o].state ≠ .off) → t.groups[g].op = .offing)
      ∧ ((∀ o ∈ s.members g, s.relays[o].state = .off) → t.groups[g].op = .dwell)
      ∧ t.groups[g].kind = some .cycle ∧ t.groups[g].cause = some .hang
      ∧ t.groups[g].start = s.uptime
      ∧ t.monitors[g].state = .cycling ∧ t.monitors[g].budget = count + 1 ∧ t.monitors[g].busy = 0
      ∧ t.monitors[g].window = some begun ∧ t.monitors[g].grace = none
      ∧ (t.notifier, t.link0) = notify s.uptime
          { kind := .hangDeclared, source := g.val + 1, records := []
            detail := .hangDeclaredCycle m.busy (count + 1) stop spread } (s.notifier, s.link0)
      ∧ s.sameMeasures t ∧ t.relays = s.relays ∧ t.tokens = s.tokens)
    ∧ (asks → count < e.budget → e.enabled = true → up → s.groups[g].op ≠ .idle →
      exec (.graceExpiry g) s = .next { s with monitors := upd s.monitors g fun m =>
        { m with state := .disarmed, grace := none, window := some begun, budget := count } })
    ∧ (asks → count < e.budget → e.enabled = true → ¬ up → exec (.graceExpiry g) s = .next (refused .bankDown))
    ∧ (asks → count < e.budget → e.enabled = false ∨ (up ∧ s.groups[g].op = .idle ∧ ¬ unshed) →
      exec (.graceExpiry g) s = .next (refused .state))
    ∧ (due m.window s.uptime (e.budgetWindow * 3600000) = false → exec (.budgetWindowExpiry g) s = .next s)
    ∧ (due m.window s.uptime (e.budgetWindow * 3600000) = true → exec (.budgetWindowExpiry g) s = .next
        { s with monitors := upd s.monitors g fun m => { m with window := none, budget := 0 } })

/-- TOKEN needs no response slot and is never answered; taking is log entry 4. With a payload of 17 bytes whose
count is 1 to 16 its numbers are taken in order; any other payload, an undefined group or one that is not enabled
changes nothing but the FIFO. A token for an enabled group, in VERIFYING too when its verify is not TOKEN, sets the
last token uptime, leaves the operation as it is, and: arms a DISARMED monitor whose group is IDLE and not ALL_OFF;
restarts the deadline of an ARMED one; returns a SUSPECT or DECLARED one to ARMED with HANG_CLEARED; and leaves any
other as it is; with verify TOKEN it ends a VERIFYING operation DONE, its uptime recorded too (the monitor takes it
before the engine, log entry 7). CLEAR_LOCKOUT, taken, gives a fresh budget and releases a LOCKED_OUT monitor to
DISARMED; a group number outside 1 to 32 is BAD_ARG. (That a token in DECLARED and CLEAR_LOCKOUT keep the busy-retry
count is the model's reading, log entry 21; R134 and R137 are silent.) [R127, R114, R129, R130, R131, R134, R137,
R138] -/
def Obligations.TokensReachTheMonitor : Prop :=
  (∀ (tag : Byte) (payload : List Byte) (s : State), s.readyForToken tag payload →
      let count := (payload.getD 0 0).toNat
      (payload.length ≠ 17 ∨ count = 0 ∨ 16 < count → exec (.token tag payload) s = .next s.taken)
      ∧ (payload.length = 17 → 1 ≤ count → count ≤ 16 → exec (.token tag payload) s =
        .next (((payload.drop 1).take count).foldl (fun s n =>
          if h : 1 ≤ n.toNat ∧ n.toNat ≤ 32 then s.tokenFor ⟨n.toNat - 1, by omega⟩ else s) s.taken)))
    ∧ (∀ (g : Group) (s : State),
      let m := s.monitors[g]
      let seen : (Monitor → Monitor) → State := fun f =>
        { s with monitors := upd s.monitors g fun m => f { m with lastToken := some s.uptime } }
      (s.groupTable.active[g].enabled = false → s.tokenFor g = s)
      ∧ (s.groupTable.active[g].enabled = true →
        s.groups[g].op ≠ .verifying ∨ s.groupTable.active[g].verify ≠ .token →
        (m.state = .disarmed → s.groups[g].op = .idle → s.power g ≠ .allOff →
          s.tokenFor g = seen fun m => { m with state := .armed, deadline := some s.uptime })
        ∧ (m.state = .disarmed → s.groups[g].op ≠ .idle ∨ s.power g = .allOff → s.tokenFor g = seen id)
        ∧ (m.state = .armed → s.tokenFor g = seen fun m => { m with deadline := some s.uptime })
        ∧ (m.state = .suspect → s.tokenFor g = (seen fun m =>
            { m with state := .armed, grace := none, busy := 0, deadline := some s.uptime }).raise
            .hangCleared (g.val + 1) (.hangCleared .suspect s.uptime))
        ∧ (m.state = .declared → s.tokenFor g = (seen fun m =>
            { m with state := .armed, deadline := some s.uptime }).raise
            .hangCleared (g.val + 1) (.hangCleared .declared s.uptime))
        ∧ (m.state = .offline ∨ m.state = .cycling ∨ m.state = .lockedOut → s.tokenFor g = seen id))
      ∧ (s.groupTable.active[g].enabled = true → s.groups[g].op = .verifying →
        s.groupTable.active[g].verify = .token → (s.tokenFor g).groups[g].op = .idle
        ∧ (∃ r : OpRecord, (s.tokenFor g).groups[g].lastRecord = some r ∧ r.result = .done ∧ r.stop = s.uptime)
        ∧ (s.tokenFor g).monitors[g].lastToken = some s.uptime
        ∧ (m.state = .offline ∨ m.state = .cycling → s.tokenFor g = (seen id).endOp g .done none true)))
    ∧ (∀ (tag n : Byte) (s : State), s.ready 0x0E tag [n] →
      (n.toNat = 0 ∨ 32 < n.toNat →
        exec (.clearLockout tag [n]) s = .next (s.taken.answered 0x0E tag .badArg (.offending none)))
      ∧ ∀ g : Group, n.toNat = g.val + 1 → exec (.clearLockout tag [n]) s = .next (State.answered
        { s.taken with monitors := upd s.monitors g fun m =>
            { m with budget := 0, window := none
                     state := if m.state = .lockedOut then .disarmed else m.state } } 0x0E tag .ok .empty))

/-! ## Tables (spec/08) -/

/-- What WRITE_ENTRY stores of an entry: every numeric field of the seven tables clamped to its range, enumerated fields
and the member list as written, and in the outlet table the two current levels exchanged when both are nonzero after
clamping and warn exceeds crit. [R146, 08_table_loading_and_the_calibration_lock 8.2,
06_server_groups_and_the_power_cycle 6.1, 07_hang_detection 7.1] -/
def Obligations.WrittenFieldsAreClamped : Prop :=
  (∀ e : OutletEntry,
      let w := min 32767 e.warn
      let c := min 32767 e.crit
      e.store = { safeAction := e.safeAction, shedPriority := min 15 e.shedPriority, indicator := e.indicator
                  operateDelay := min 40 e.operateDelay, offOffset := min 20 e.offOffset
                  warn := if c ≠ 0 ∧ c < w then c else w, crit := if c ≠ 0 ∧ c < w then w else c
                  low := min 32767 e.low, hysteresis := min 4095 e.hysteresis
                  persistence := max 1 (min 255 e.persistence), weld := max 10 (min 1000 e.weld)
                  creep := min 1000 e.creep })
    ∧ (∀ e : BankEntry, e.store =
      { phase := e.phase, warn := min 262136 e.warn, crit := min 262136 e.crit, hysteresis := min 4095 e.hysteresis
        persistence := max 1 (min 255 e.persistence), shedDelay := max 100 (min 60000 e.shedDelay)
        restoreDelay := max 1 (min 3600 e.restoreDelay), settle := max 20 (min 2000 e.settle)
        zeroCross := min 8191 e.zeroCross })
    ∧ (∀ e : PhaseEntry, e.store =
      { capacity := max 1 (min 8 e.capacity), refill := max 50 (min 5000 e.refill), warn := min 524272 e.warn
        crit := min 524272 e.crit, hysteresis := min 4095 e.hysteresis
        persistence := max 1 (min 255 e.persistence) })
    ∧ (∀ e : CalEntry, e.store =
      { gain := min 65535 e.gain, offset := max (-2048) (min 2047 e.offset), delay := min 3 e.delay })
    ∧ (∀ e : GroupEntry, e.store =
      { enabled := e.enabled, members := e.members, offDwell := max 1 (min 600 e.offDwell)
        onStagger := min 60 e.onStagger, verify := e.verify, bootThreshold := min 262136 e.bootThreshold
        bootWindow := max 5 (min 900 e.bootWindow), retries := min 3 e.retries, policy := e.policy
        deadline := max 5 (min 3600 e.deadline), grace := min 600 e.grace, flatBand := min 65535 e.flatBand
        flatIntervals := max 2 (min 16 e.flatIntervals), budget := min 7 e.budget
        budgetWindow := max 1 (min 24 e.budgetWindow) })
    ∧ (∀ n : Nat, grantNumber (grantOfNumber n) = min 6 n)
    ∧ (∀ e : SystemEntry, e.store =
      { intervalLength := max 1 (min 60 e.intervalLength), grantTimeout := max 5 (min 300 e.grantTimeout) })

/-- WRITE_ENTRY, taken (log entry 4), with 26 bytes of entry: a table number outside 1 to 7, an index outside the
table (grant phases are numbered from 0), or an area with an undefined enumeration value or more than 4 members is
BAD_ARG; a calibration entry under the lock is LOCKED; an entry of a COMMITTING table, or a waiting entry of a
DEFERRED one, is BUSY. Otherwise the pending entry becomes the written one with its fields clamped, a CLEAN or DIRTY
table is DIRTY and a DEFERRED one takes the written mark, and the answer is OK with a mask whose bit i is set just
when field i of the entry's field table, counted from 0, was changed by clamping or by the exchange of the current
levels, so zero just when nothing was changed. Nothing else changes: no active copy does. [R146, R190] -/
def Obligations.WriteEntryStoresInThePendingCopy : Prop :=
  ∀ (tag tb k : Byte) (area : List Byte) (s : State), area.length = 26 → s.ready 0x02 tag (tb :: k :: area) →
    let run := exec (.writeEntry tag (tb :: k :: area)) s
    let no : Status → Answer → Result := fun st a => .next (s.taken.answered 0x02 tag st a)
    (tb = 1 → ∀ (i : Outlet) (e : OutletEntry), k.toNat = i.val + 1 → OutletEntry.read area = some e →
        (s.outletTable.RefusesWrite (i ∈ s.outletTable.waiting) → run = no .busy .empty)
        ∧ (¬ s.outletTable.RefusesWrite (i ∈ s.outletTable.waiting) → ∃ mask : Nat, (mask = 0 ↔ e = e.store)
          ∧ IsMask mask [e.safeAction ≠ e.store.safeAction, e.shedPriority ≠ e.store.shedPriority,
            e.indicator ≠ e.store.indicator, e.operateDelay ≠ e.store.operateDelay, e.offOffset ≠ e.store.offOffset,
            e.warn ≠ e.store.warn, e.crit ≠ e.store.crit, e.low ≠ e.store.low, e.hysteresis ≠ e.store.hysteresis,
            e.persistence ≠ e.store.persistence, e.weld ≠ e.store.weld, e.creep ≠ e.store.creep]
          ∧ run = .next (State.answered { s.taken with outletTable := s.outletTable.withEntry i e.store }
            0x02 tag .ok (.clamped mask))))
    ∧ (tb = 2 → ∀ (i : Bank) (e : BankEntry), k.toNat = i.val + 1 → BankEntry.read area = some e →
        (s.bankTable.RefusesWrite (i ∈ s.bankTable.waiting) → run = no .busy .empty)
        ∧ (¬ s.bankTable.RefusesWrite (i ∈ s.bankTable.waiting) → ∃ mask : Nat, (mask = 0 ↔ e = e.store)
          ∧ IsMask mask [e.phase ≠ e.store.phase, e.warn ≠ e.store.warn, e.crit ≠ e.store.crit,
            e.hysteresis ≠ e.store.hysteresis, e.persistence ≠ e.store.persistence, e.shedDelay ≠ e.store.shedDelay,
            e.restoreDelay ≠ e.store.restoreDelay, e.settle ≠ e.store.settle, e.zeroCross ≠ e.store.zeroCross]
          ∧ run = .next (State.answered { s.taken with bankTable := s.bankTable.withEntry i e.store }
            0x02 tag .ok (.clamped mask))))
    ∧ (tb = 3 → ∀ (i : SupplyPhase) (e : PhaseEntry), k.toNat = i.val + 1 → PhaseEntry.read area = e →
        (s.phaseTable.RefusesWrite (False) → run = no .busy .empty)
        ∧ (¬ s.phaseTable.RefusesWrite (False) → ∃ mask : Nat, (mask = 0 ↔ e = e.store)
          ∧ IsMask mask [e.capacity ≠ e.store.capacity, e.refill ≠ e.store.refill, e.warn ≠ e.store.warn,
            e.crit ≠ e.store.crit, e.hysteresis ≠ e.store.hysteresis, e.persistence ≠ e.store.persistence]
          ∧ run = .next (State.answered { s.taken with phaseTable := s.phaseTable.withEntry i e.store }
            0x02 tag .ok (.clamped mask))))
    ∧ (tb = 5 → ∀ (i : Group) (e : GroupEntry), k.toNat = i.val + 1 → GroupEntry.read area = some e →
        (s.groupTable.RefusesWrite (i ∈ s.groupTable.waiting) → run = no .busy .empty)
        ∧ (¬ s.groupTable.RefusesWrite (i ∈ s.groupTable.waiting) → ∃ mask : Nat, (mask = 0 ↔ e = e.store)
          ∧ IsMask mask [e.enabled ≠ e.store.enabled, e.members ≠ e.store.members, e.offDwell ≠ e.store.offDwell,
            e.onStagger ≠ e.store.onStagger, e.verify ≠ e.store.verify, e.bootThreshold ≠ e.store.bootThreshold,
            e.bootWindow ≠ e.store.bootWindow, e.retries ≠ e.store.retries, e.policy ≠ e.store.policy,
            e.deadline ≠ e.store.deadline, e.grace ≠ e.store.grace, e.flatBand ≠ e.store.flatBand,
            e.flatIntervals ≠ e.store.flatIntervals, e.budget ≠ e.store.budget, e.budgetWindow ≠ e.store.budgetWindow]
          ∧ run = .next (State.answered { s.taken with groupTable := s.groupTable.withEntry i e.store }
            0x02 tag .ok (.clamped mask))))
    ∧ (tb = 7 → ∀ (i : Fin 1) (e : SystemEntry), k.toNat = i.val + 1 → SystemEntry.read area = e →
        (s.systemTable.RefusesWrite (False) → run = no .busy .empty)
        ∧ (¬ s.systemTable.RefusesWrite (False) → ∃ mask : Nat, (mask = 0 ↔ e = e.store)
          ∧ IsMask mask [e.intervalLength ≠ e.store.intervalLength, e.grantTimeout ≠ e.store.grantTimeout]
          ∧ run = .next (State.answered { s.taken with systemTable := s.systemTable.withEntry i e.store }
            0x02 tag .ok (.clamped mask))))
    ∧ (tb = 4 → ∀ (i : Fin 54) (e : CalEntry), k.toNat = i.val + 1 → CalEntry.read i area = e →
        (s.calLock = true → run = no .locked .empty)
        ∧ (s.calLock = false → s.calTable.RefusesWrite (bankOfCal i ∈ s.calTable.waiting) → run = no .busy .empty)
        ∧ (s.calLock = false → ¬ s.calTable.RefusesWrite (bankOfCal i ∈ s.calTable.waiting) →
          ∃ mask : Nat, (mask = 0 ↔ e = e.store)
          ∧ IsMask mask [e.gain ≠ e.store.gain, e.offset ≠ e.store.offset, e.delay ≠ e.store.delay]
          ∧ run = .next (State.answered { s.taken with calTable := s.calTable.withEntry i e.store }
            0x02 tag .ok (.clamped mask))))
    ∧ (tb = 6 → ∀ i : Fin 32, k.toNat = i.val →
        let n := (area.getD 0 0).toNat
        (s.grantTable.RefusesWrite False → run = no .busy .empty)
        ∧ (¬ s.grantTable.RefusesWrite False → ∃ (b : Option Bank) (mask : Nat), grantNumber b = min 6 n
          ∧ (mask = 0 ↔ n ≤ 6)
          ∧ IsMask mask [6 < n]
          ∧ run = .next (State.answered { s.taken with grantTable := s.grantTable.withEntry i b }
            0x02 tag .ok (.clamped mask))))
    ∧ (tb.toNat = 0 ∨ 7 < tb.toNat → run = no .badArg (.offending none))
    ∧ ((tb = 1 ∧ (k.toNat = 0 ∨ 48 < k.toNat ∨ OutletEntry.read area = none))
        ∨ (tb = 2 ∧ (k.toNat = 0 ∨ 6 < k.toNat ∨ BankEntry.read area = none))
        ∨ (tb = 3 ∧ (k.toNat = 0 ∨ 3 < k.toNat)) ∨ (tb = 4 ∧ (k.toNat = 0 ∨ 54 < k.toNat))
        ∨ (tb = 5 ∧ (k.toNat = 0 ∨ 32 < k.toNat ∨ GroupEntry.read area = none))
        ∨ (tb = 6 ∧ 31 < k.toNat) ∨ (tb = 7 ∧ k.toNat ≠ 1) → run = no .badArg (.offending none))

/-- COMMIT, taken (log entry 4). Of an unknown table: BAD_ARG. Of a table that is COMMITTING or DEFERRED: BUSY; of
the calibration table under the lock: LOCKED. Of a table that is CLEAN or DIRTY: System: active becomes pending,
CLEAN, OK. Phase: so too, and each changed phase's tokens above the new capacity fall to it with the refill timer
stopped, tokens at it stop the timer, and tokens below it have a running timer. Grant: BAD_ARG with index 0 when no
pending phase names a bank; otherwise applied, and the pointer is 0 if an entry changed. Calibration, not locked,
and Bank: OK and CLEAN with equal copies when no bank with a changed entry is UP, else COMMITTING with those banks
waiting, the entries of the other banks applied, and the slot reserved for this COMMIT (also between a close and the
next set, log entry 24). Outlet: the changed entries of outlets without an ISSUED entry apply, the others wait;
DEFERRED with their number if there are any. In each case the rest of the part but for the link unit's queues is
unchanged; with the outlet table the shown modes may change, and with them a waiting INDICATE cell. [R148, R149,
R150, R151, R96, R90] -/
def Obligations.CommitAppliesOrDefers : Prop :=
  ∀ (tag : Byte) (s : State),
    (∀ tb : Byte, s.ready 0x03 tag [tb] → tb.toNat = 0 ∨ 7 < tb.toNat →
      exec (.commit tag [tb]) s = .next (s.taken.answered 0x03 tag .badArg (.offending none)))
    ∧ (∀ (tb : Byte) (x : TableState), s.ready 0x03 tag [tb] → x = .committing ∨ x = .deferred →
      (tb = 1 ∧ x = s.outletTable.state) ∨ (tb = 2 ∧ x = s.bankTable.state) ∨ (tb = 3 ∧ x = s.phaseTable.state)
        ∨ (tb = 4 ∧ s.calLock = false ∧ x = s.calTable.state) ∨ (tb = 5 ∧ x = s.groupTable.state)
        ∨ (tb = 6 ∧ x = s.grantTable.state) ∨ (tb = 7 ∧ x = s.systemTable.state) →
      exec (.commit tag [tb]) s = .next (s.taken.answered 0x03 tag .busy .empty))
    ∧ (s.ready 0x03 tag [7] → s.systemTable.state = .clean ∨ s.systemTable.state = .dirty →
      exec (.commit tag [7]) s = .next (State.answered
        { s.taken with systemTable := { s.systemTable with active := s.systemTable.pending, state := .clean } }
        0x03 tag .ok .empty))
    ∧ (s.ready 0x03 tag [3] → s.phaseTable.state = .clean ∨ s.phaseTable.state = .dirty →
      ∃ t : State, exec (.commit tag [3]) s = .next t ∧ s.answers t 0x03 tag .ok .empty
      ∧ t = { s with link0 := t.link0, tokens := t.tokens, refill := t.refill
                     phaseTable := { s.phaseTable with active := s.phaseTable.pending, state := .clean } }
      ∧ t.link0 = (s.taken.answered 0x03 tag .ok .empty).link0
      ∧ ∀ p : SupplyPhase,
        let cap := s.phaseTable.pending[p].capacity
        if s.phaseTable.pending[p] = s.phaseTable.active[p] then
          t.tokens[p] = s.tokens[p] ∧ t.refill[p] = s.refill[p]
        else
          t.tokens[p] = min s.tokens[p] cap
          ∧ t.refill[p] = if cap ≤ s.tokens[p] then none else some (s.refill[p].getD s.uptime))
    ∧ (s.ready 0x03 tag [6] → s.grantTable.state = .clean ∨ s.grantTable.state = .dirty →
      ((∀ i : Fin 32, s.grantTable.pending[i] = none) →
        exec (.commit tag [6]) s = .next (s.taken.answered 0x03 tag .badArg (.offending (some 0))))
      ∧ ((∃ i : Fin 32, s.grantTable.pending[i] ≠ none) →
        exec (.commit tag [6]) s = .next (State.answered
          { s.taken with
            grantPtr := if s.grantTable.pending = s.grantTable.active then s.grantPtr else 0
            grantTable := { s.grantTable with active := s.grantTable.pending, state := .clean } }
          0x03 tag .ok .empty)))
    ∧ (s.ready 0x03 tag [4] → s.calLock = true →
      exec (.commit tag [4]) s = .next (s.taken.answered 0x03 tag .locked .empty))
    ∧ (s.ready 0x03 tag [4] → s.calLock = false → s.calTable.state = .clean ∨ s.calTable.state = .dirty →
      let waits : Bank → Prop := fun b => s.lanes[b].link = .up
        ∧ ∃ i : Fin 54, bankOfCal i = b ∧ s.calTable.pending[i] ≠ s.calTable.active[i]
      ∃ t : State, exec (.commit tag [4]) s = .next t
      ∧ t = { s with link0 := t.link0, calTable := t.calTable }
      ∧ t.calTable.pending = s.calTable.pending
      ∧ (∀ i : Fin 54, s.lanes[bankOfCal i].link ≠ .up → t.calTable.active[i] = s.calTable.pending[i])
      ∧ (∀ i : Fin 54, s.lanes[bankOfCal i].link = .up → t.calTable.active[i] = s.calTable.active[i])
      ∧ ((∀ b : Bank, ¬ waits b) → t.link0 = (s.taken.answered 0x03 tag .ok .empty).link0
          ∧ t.calTable.state = .clean)
      ∧ ((∃ b : Bank, waits b) → t.calTable.state = .committing ∧ (∀ b : Bank, b ∈ t.calTable.waiting ↔ waits b)
          ∧ t.calTable.held = some tag
          ∧ t.link0 = { s.taken.link0 with reserved := s.link0.reserved ++ [{ tag := tag, kind := 0x03 }] }))
    ∧ (s.ready 0x03 tag [2] → s.bankTable.state = .clean ∨ s.bankTable.state = .dirty →
      let waits : Bank → Prop := fun b => s.lanes[b].link = .up ∧ s.bankTable.pending[b] ≠ s.bankTable.active[b]
      ∃ t : State, exec (.commit tag [2]) s = .next t
      ∧ t = { s with link0 := t.link0, bankTable := t.bankTable }
      ∧ t.bankTable.pending = s.bankTable.pending
      ∧ (∀ b : Bank, t.bankTable.active[b] =
          if s.lanes[b].link = .up then s.bankTable.active[b] else s.bankTable.pending[b])
      ∧ ((∀ b : Bank, ¬ waits b) → t.link0 = (s.taken.answered 0x03 tag .ok .empty).link0
          ∧ t.bankTable.state = .clean)
      ∧ ((∃ b : Bank, waits b) → t.bankTable.state = .committing ∧ (∀ b : Bank, b ∈ t.bankTable.waiting ↔ waits b)
          ∧ t.bankTable.held = some tag
          ∧ t.link0 = { s.taken.link0 with reserved := s.link0.reserved ++ [{ tag := tag, kind := 0x03 }] }))
    ∧ (s.ready 0x03 tag [1] → s.outletTable.state = .clean ∨ s.outletTable.state = .dirty →
      let changed : Outlet → Prop := fun o => s.outletTable.pending[o] ≠ s.outletTable.active[o]
      ∃ (t : State) (n : Nat), exec (.commit tag [1]) s = .next t
      ∧ t = { s with link0 := t.link0, outletTable := t.outletTable, shown := t.shown, lanes := t.lanes }
      ∧ (∀ b : Bank, t.lanes[b] = { s.lanes[b] with indicator := t.lanes[b].indicator }
          ∧ (t.lanes[b].indicator = s.lanes[b].indicator
            ∨ (s.lanes[b].link = .up ∧ t.lanes[b].indicator = some t.shown[b]))
          ∧ (t.shown[b] ≠ s.shown[b] → s.lanes[b].link = .up → t.lanes[b].indicator = some t.shown[b]))
      ∧ t.outletTable.pending = s.outletTable.pending
      ∧ (∀ o : Outlet, t.outletTable.active[o] =
          if s.isIssued o = true then s.outletTable.active[o] else s.outletTable.pending[o])
      ∧ ((∀ o : Outlet, changed o → s.isIssued o = false) →
          t.link0 = (s.taken.answered 0x03 tag .ok .empty).link0 ∧ t.outletTable.state = .clean)
      ∧ ((∃ o : Outlet, changed o ∧ s.isIssued o = true) →
          t.link0 = (s.taken.answered 0x03 tag .deferred (.waiting n)).link0 ∧ t.outletTable.state = .deferred
          ∧ (∀ o : Outlet, o ∈ t.outletTable.waiting ↔ changed o ∧ s.isIssued o = true)
          ∧ t.outletTable.waiting.length = n ∧ t.outletTable.waited = n ∧ t.outletTable.written = false))

/-- COMMIT, taken (log entry 4), of a CLEAN or DIRTY group table: with a lowest-numbered offending group g (a member
number outside 1 to 48, a member twice, a member that a lower-numbered pending list also names, or enabled with no
member) the answer is BAD_ARG with g's number and nothing applies. With no offender, the largest set of changed
entries that can apply together becomes active (every group IDLE, no outlet added that a changed entry outside the
set still holds); when that is all of them the answer is OK and the table CLEAN, as when every group is IDLE; else
the rest wait, the table is DEFERRED, and the answer is DEFERRED with their number. Of an applied group a change of
members or of the enabled field clears the history (one of members also the members' progress, log entry 14), and
its monitor becomes OFFLINE when the group is not watched, DISARMED when it was OFFLINE out of SAFE or the members
changed, else stays, with no budget count above the new budget; groups outside the set, meters, relays, queue and
tokens are unchanged. At a return to IDLE, after record, GROUP_DONE, monitor and shown modes (log entry 7), as at
CANCEL and GROUP_OFF, the largest set of waiting entries applies in the same way, and at the completion of an
outlet's entry its waiting outlet entry; when the last one has applied, TABLE_APPLIED is raised with the number that
waited, and the table is DIRTY if its written mark is set, else CLEAN. At a window boundary, which ends every window
close (log entry 24) and every entry to LOST, bank b's waiting parts apply, of the calibration table before the bank
table (log entry 7); with the last bank the table is CLEAN and the held COMMIT is answered OK in its slot. [R126,
R148, R150, R151, R152, R153, R162, R30, R136, R138, R140] -/
def Obligations.GroupCommitIsValidated : Prop :=
  (∀ (tag : Byte) (s : State), s.ready 0x03 tag [5] → s.groupTable.state = .clean ∨ s.groupTable.state = .dirty →
    let v := s.groupTable.pending
    let offends : Group → Prop := fun g =>
      (∃ n ∈ v[g].members, n = 0 ∨ 48 < n) ∨ ¬ v[g].members.Nodup
      ∨ (∃ h : Group, h < g ∧ ∃ n ∈ v[g].members, n ∈ v[h].members)
      ∨ (v[g].enabled = true ∧ v[g].members = [])
    let changed : Group → Prop := fun g => v[g] ≠ s.groupTable.active[g]
    (∀ g : Group, offends g → (∀ h : Group, h < g → ¬ offends h) →
      exec (.commit tag [5]) s = .next (s.taken.answered 0x03 tag .badArg (.offending (some (g.val + 1)))))
    ∧ ((∀ g : Group, ¬ offends g) → (∀ g : Group, s.groups[g].op = .idle) →
      ∃ t : State, exec (.commit tag [5]) s = .next t ∧ s.answers t 0x03 tag .ok .empty
      ∧ t.groupTable.active = v ∧ t.groupTable.pending = v ∧ t.groupTable.state = .clean
      ∧ s.sameMeasures t ∧ t.relays = s.relays ∧ t.queue = s.queue ∧ t.tokens = s.tokens ∧ t.sheds = s.sheds
      ∧ t.outletTable = s.outletTable ∧ ∀ g : Group, t.groups[g].op = .idle)
    ∧ ((∀ g : Group, ¬ offends g) →
      ∃ (t : State) (set : List Group), exec (.commit tag [5]) s = .next t
      ∧ s.LargestApplicable changed (fun g => g ∈ set)
      ∧ (∀ g : Group, t.groupTable.active[g] = if g ∈ set then v[g] else s.groupTable.active[g])
      ∧ t.groupTable.pending = v
      ∧ ((∀ g : Group, changed g → g ∈ set) → s.answers t 0x03 tag .ok .empty ∧ t.groupTable.state = .clean)
      ∧ ((∃ g : Group, changed g ∧ g ∉ set) →
          s.answers t 0x03 tag .deferred (.waiting t.groupTable.waiting.length) ∧ t.groupTable.state = .deferred
          ∧ (∀ g : Group, g ∈ t.groupTable.waiting ↔ changed g ∧ g ∉ set)
          ∧ t.groupTable.waited = t.groupTable.waiting.length ∧ t.groupTable.written = false)
      ∧ s.sameMeasures t ∧ t.relays = s.relays ∧ t.queue = s.queue ∧ t.tokens = s.tokens ∧ t.sheds = s.sheds
      ∧ t.outletTable = s.outletTable
      ∧ (∀ g : Group, g ∉ set → t.groups[g] = s.groups[g] ∧ t.monitors[g] = s.monitors[g])
      ∧ ∀ g ∈ set, t.groups[g] = { s.groups[g] with
          progress := if v[g].members = s.groupTable.active[g].members then s.groups[g].progress else []
          history := if v[g].members = s.groupTable.active[g].members
              ∧ v[g].enabled = s.groupTable.active[g].enabled then s.groups[g].history else [] }
          ∧ t.monitors[g] = (s.monitorWith g v[g]).afterPower (s.power g) (t.power g)))
  ∧ (∀ s : State,
    let t := s.releaseGroups
    let T := s.groupTable
    let rest := t.groupTable.waiting
    ∃ set : List Group, s.LargestApplicable (fun g => g ∈ T.waiting) (fun g => g ∈ set)
    ∧ (set = [] → t = s)
    ∧ (∀ g : Group, t.groupTable.active[g] = if g ∈ set then T.pending[g] else T.active[g])
    ∧ t.groupTable.pending = T.pending ∧ rest = T.waiting.filter (fun g => g ∉ set)
    ∧ (rest ≠ [] → t.groupTable.state = T.state ∧ t.groupTable.written = T.written
        ∧ (t.notifier, t.link0) = (s.notifier, s.link0))
    ∧ (set ≠ [] → rest = [] → t.groupTable.state = (if T.written then .dirty else .clean)
        ∧ t.groupTable.written = false
        ∧ (t.notifier, t.link0) = notify s.uptime
            { kind := .tableApplied, source := 5, detail := .tableApplied T.waited, records := [] }
            (s.notifier, s.link0))
    ∧ s.sameMeasures t ∧ t.relays = s.relays ∧ t.queue = s.queue ∧ t.tokens = s.tokens ∧ t.sheds = s.sheds
    ∧ (∀ g : Group, g ∉ set → t.groups[g] = s.groups[g] ∧ t.monitors[g] = s.monitors[g])
    ∧ ∀ g ∈ set, t.groups[g] = { s.groups[g] with
          progress := if T.pending[g].members = T.active[g].members then s.groups[g].progress else []
          history := if T.pending[g].members = T.active[g].members ∧ T.pending[g].enabled = T.active[g].enabled then
              s.groups[g].history else [] }
        ∧ t.monitors[g] = (s.monitorWith g T.pending[g]).afterPower (s.power g) (t.power g))
  ∧ (∀ (g : Group) (result : OpResult) (reason : Option OpReason) (verified : Bool) (s : State),
    ∃ x : State, s.endOp g result reason verified = x.releaseGroups ∧ x.groupTable = s.groupTable
    ∧ x.groups[g].op = .idle ∧ (∀ h : Group, h ≠ g → x.groups[h] = s.groups[h])
    ∧ ∀ (k : OpKind) (c : OpCause), s.groups[g].kind = some k → s.groups[g].cause = some c →
      let r := s.groups[g]
      let ended : OpRecord :=
        { group := g, kind := k, cause := c, result := result, reason := reason, start := r.start, stop := s.uptime
          retries := r.retry, faulted := r.faulted }
      let told := notify s.uptime { kind := .groupDone, source := g.val + 1, detail := .groupDone ended
                                    records := [.operation (some ended)] } (s.notifier, s.link0)
      x = { s with
        groups := upd s.groups g fun r => { r with
          op := .idle, kind := none, cause := none, passCause := none, repower := false, cancel := false
          busyWait := false, awaited := [], dwell := none, stagger := none, boot := none, lastRecord := some ended
          history := [] }
        monitors := upd s.monitors g fun m =>
          if m.state = .offline then m
          else if verified = true then { m.still .armed with deadline := some s.uptime } else m.still .disarmed
        shown := x.shown, lanes := x.lanes, notifier := told.1, link0 := told.2 })
  ∧ (∀ (tag n : Byte) (g : Group) (s : State), n.toNat = g.val + 1 → s.groups[g].cancel = false →
    (s.ready 0x0D tag [n] →
      (s.groups[g].op = .dwell ∨ s.groups[g].op = .verifying → exec (.cancel tag [n]) s =
        .next ((s.taken.endOp g .cancelled (some .command) false).answered 0x0D tag .ok .empty))
      ∧ (s.groups[g].op = .oning → exec (.cancel tag [n]) s = .next
        (((s.taken.withdrawAwaited g).endOp g .cancelled (some .command) false).answered 0x0D tag .ok .empty)))
    ∧ (s.ready 0x0B tag [n] → s.safe.cause = none → s.groupTable.active[g].enabled = true →
      (∀ o ∈ s.members g, s.lanes[bankOf o].link = .up) → s.groups[g].op = .dwell →
      exec (.groupOff tag [n]) s = .next (State.answered (State.endOp
        { s.taken with groups := upd s.groups g fun r =>
            { r with kind := some .off, cause := some .manual, dwell := none } } g .done none false)
        0x0B tag .ok .empty)))
  ∧ (∀ (b : Bank) (s : State),
    (s.meters[b].window = none → ∀ atCrossing : Bool, s.closeWindow b atCrossing = s)
    ∧ (s.meters[b].window ≠ none → ∀ atCrossing : Bool, ∃ u : State,
      s.closeWindow b atCrossing = u.boundary b ∧ u.calTable = s.calTable ∧ u.bankTable = s.bankTable)
    ∧ (s.lanes[b].link = .up → due s.lanes[b].silence s.uptime 20 = true → ∃ u : State,
      exec (.silenceTimerExpiry b) s = .next (u.boundary b) ∧ u.calTable = s.calTable
      ∧ u.bankTable = s.bankTable))
  ∧ (∀ (o : Outlet) (s : State),
    let t := s.releaseOutlet o
    let T := s.outletTable
    let rest := T.waiting.filter (· ≠ o)
    (o ∉ T.waiting → t = s)
    ∧ (o ∈ T.waiting →
      t = { s with outletTable := t.outletTable, shown := t.shown, lanes := t.lanes, notifier := t.notifier
                   link0 := t.link0 }
      ∧ t.outletTable = { T with
          active := upd T.active o fun _ => T.pending[o]
          waiting := rest
          state := if rest = [] then (if T.written then .dirty else .clean) else T.state
          written := if rest = [] then false else T.written }
      ∧ (t.notifier, t.link0) = if rest = [] then notify s.uptime
            { kind := .tableApplied, source := 1, detail := .tableApplied T.waited, records := [] }
            (s.notifier, s.link0)
          else (s.notifier, s.link0)))
  ∧ (∀ (b : Bank) (s : State),
    let t := s.boundary b
    let tags := s.calTable.completedBy b ++ s.bankTable.completedBy b
    s.calTable.PartAppliedTo t.calTable b (fun i => bankOfCal i = b)
    ∧ s.bankTable.PartAppliedTo t.bankTable b (fun i => i = b)
    ∧ t = { s with
        calTable := t.calTable, bankTable := t.bankTable
        link0 := { s.link0 with
          reserved := tags.foldl (fun l x => l.erase { tag := x, kind := 0x03 }) s.link0.reserved
          filled := s.link0.filled ++
            tags.map fun x => { tag := x, kind := 0x03, status := .ok, answer := .empty } } })

/-- DISCARD, taken (log entry 4): a table number outside 1 to 7 is BAD_ARG; a CLEAN table answers OK, a COMMITTING
one BUSY, with no effect; a DIRTY table takes its active copy as pending and is CLEAN; a DEFERRED table takes it for
the entries that do not wait, clears the written mark and stays DEFERRED. A locked calibration table that keeps its
promises is CLEAN, so its DISCARD is answered OK with no effect. LOCK_CAL, taken: with the lock set, OK; with it
clear and the calibration table CLEAN, the lock is set, OK; otherwise STATE. Nothing else changes. [R147, R154] -/
def Obligations.DiscardAndLock : Prop :=
  ∀ (tag tb : Byte) (s : State),
    let status : TableState → Status := fun x => match x with
      | .clean => .ok | .dirty => .ok | .deferred => .ok | .committing => .busy
    (s.ready 0x04 tag [tb] →
      (tb.toNat = 0 ∨ 7 < tb.toNat →
        exec (.discard tag [tb]) s = .next (s.taken.answered 0x04 tag .badArg (.offending none)))
      ∧ (tb = 1 → ∃ T, s.outletTable.DiscardedTo T (fun o => o ∈ s.outletTable.waiting)
        ∧ exec (.discard tag [tb]) s =
          .next (State.answered { s.taken with outletTable := T } 0x04 tag (status s.outletTable.state) .empty))
      ∧ (tb = 2 → ∃ T, s.bankTable.DiscardedTo T (fun _ => False)
        ∧ exec (.discard tag [tb]) s =
          .next (State.answered { s.taken with bankTable := T } 0x04 tag (status s.bankTable.state) .empty))
      ∧ (tb = 3 → ∃ T, s.phaseTable.DiscardedTo T (fun _ => False)
        ∧ exec (.discard tag [tb]) s =
          .next (State.answered { s.taken with phaseTable := T } 0x04 tag (status s.phaseTable.state) .empty))
      ∧ (tb = 4 → ∃ T, s.calTable.DiscardedTo T (fun _ => False)
        ∧ exec (.discard tag [tb]) s =
          .next (State.answered { s.taken with calTable := T } 0x04 tag (status s.calTable.state) .empty))
      ∧ (tb = 5 → ∃ T, s.groupTable.DiscardedTo T (fun g => g ∈ s.groupTable.waiting)
        ∧ exec (.discard tag [tb]) s =
          .next (State.answered { s.taken with groupTable := T } 0x04 tag (status s.groupTable.state) .empty))
      ∧ (tb = 6 → ∃ T, s.grantTable.DiscardedTo T (fun _ => False)
        ∧ exec (.discard tag [tb]) s =
          .next (State.answered { s.taken with grantTable := T } 0x04 tag (status s.grantTable.state) .empty))
      ∧ (tb = 7 → ∃ T, s.systemTable.DiscardedTo T (fun _ => False)
        ∧ exec (.discard tag [tb]) s =
          .next (State.answered { s.taken with systemTable := T } 0x04 tag (status s.systemTable.state) .empty)))
    ∧ (s.ready 0x04 tag [4] → s.CalKept → s.calLock = true →
      exec (.discard tag [4]) s = .next (s.taken.answered 0x04 tag .ok .empty))
    ∧ (s.ready 0x05 tag [] →
      (s.calLock = true → exec (.lockCal tag []) s = .next (s.taken.answered 0x05 tag .ok .empty))
      ∧ (s.calLock = false → s.calTable.state = .clean →
        exec (.lockCal tag []) s = .next (State.answered { s.taken with calLock := true } 0x05 tag .ok .empty))
      ∧ (s.calLock = false → s.calTable.state ≠ .clean →
        exec (.lockCal tag []) s = .next (s.taken.answered 0x05 tag .state .empty)))

/-- For each of the five structured tables and the system table: what the part stores of any entry has an area of 26
bytes, and reading that area as WRITE_ENTRY does gives the entry again, with every field at every value its range
admits (a group entry with at most four members of one byte each, a calibration entry whose delay is 0 for the
voltage entries). The code of the enabled field is log entry 10. [12_cell_and_record_formats 12.1,
08_table_loading_and_the_calibration_lock 8.2, R189] -/
def Obligations.TableEntriesReadBack : Prop :=
  (∀ e : OutletEntry, e.store.area.length = 26 ∧ OutletEntry.read e.store.area = some e.store)
    ∧ (∀ e : BankEntry, e.store.area.length = 26 ∧ BankEntry.read e.store.area = some e.store)
    ∧ (∀ e : PhaseEntry, e.store.area.length = 26 ∧ PhaseEntry.read e.store.area = e.store)
    ∧ (∀ (i : Fin 54) (e : CalEntry), (48 ≤ i.val → e.delay = 0) →
      (CalEntry.area i e.store).length = 26 ∧ CalEntry.read i (CalEntry.area i e.store) = e.store)
    ∧ (∀ e : GroupEntry, e.members.length ≤ 4 → (∀ n ∈ e.members, n < 256) →
      e.store.area.length = 26 ∧ GroupEntry.read e.store.area = some e.store)
    ∧ (∀ e : SystemEntry, e.store.area.length = 26 ∧ SystemEntry.read e.store.area = e.store)

/-! ## The management link (spec/09) -/

/-- Characters that arrive before the first idle gap after power-on, or before the first after a BREAK, are
discarded without an error. After a gap, the characters up to the next one form a cell: a bad stop bit makes it a
CHARACTER error; fewer than 4 bytes, a length field above 128 or one that is not the byte count less 4 make it a
LENGTH error; a wrong CRC-8 a CRC error; otherwise it joins the tail of a FIFO of fewer than 4 cells, or is an
OVERRUN error. An error is recorded with the cell's bytes. A BREAK discards the cell in progress, empties the
command FIFO, records a BREAK error and waits for an idle gap; reserved slots and the upstream queues stay. HOLD_OUT
is asserted in every state in which the FIFO holds 3 or more cells and deasserted in every other, so also after a
BREAK. Nothing else changes. (The operand forms are log entry 5.) [R156, R157, R158, R159] -/
def Obligations.Link0CellIsClassified : Prop :=
  ∀ (chars : List LineChar) (s : State),
    let cell := if s.link0.framing then s.link0.partialCell ++ chars else []
    let bytes := cell.map (·.byte)
    let len := (bytes.getD 2 0).toNat
    let t : State := { s with link0 := { s.link0 with framing := true, partialCell := [] } }
    let run := exec (.link0CellReceived chars) s
    let badLength : Prop := bytes.length < 4 ∨ 128 < len ∨ bytes.length ≠ len + 4
    (cell = [] → run = .next t)
    ∧ (cell ≠ [] → (∃ c ∈ cell, c.stopOk = false) → run = .next (t.withLink0Error .character bytes))
    ∧ (cell ≠ [] → (∀ c ∈ cell, c.stopOk = true) → badLength → run = .next (t.withLink0Error .length bytes))
    ∧ ((∀ c ∈ cell, c.stopOk = true) → ¬ badLength →
      (bytes.getLast? ≠ some (crc8 bytes.dropLast) → run = .next (t.withLink0Error .crc bytes))
      ∧ (bytes.getLast? = some (crc8 bytes.dropLast) → s.link0.fifo.length < 4 →
        run = .next { t with link0 := { t.link0 with fifo := s.link0.fifo ++
          [{ kind := bytes.getD 0 0, tag := bytes.getD 1 0, payload := (bytes.drop 3).dropLast }] } })
      ∧ (bytes.getLast? = some (crc8 bytes.dropLast) → 4 ≤ s.link0.fifo.length →
        run = .next (t.withLink0Error .overrun bytes)))
    ∧ exec (.link0Break chars) s = .next (State.withLink0Error
        { s with link0 := { s.link0 with fifo := [], framing := false, partialCell := [] } } .brk bytes)
    ∧ (3 ≤ s.link0.fifo.length → s.holdOut = true) ∧ (s.link0.fifo.length ≤ 2 → s.holdOut = false)
    ∧ (∀ u : State, exec (.link0Break chars) s = .next u → u.holdOut = false)

/-- UPSTREAM_CELL_START: with HOLD_IN asserted, or while the OK response of a RESTART is the cell in progress,
nothing is started. Otherwise the response filled earliest leaves its slot and is sent (that of a RESTART marks the
restart as being sent); else the oldest notice is sent and the notifier fills the room; else the oldest record is
sent with the gap count, which returns to 0; else the line is idle (log entry 6). A response cell is kind 0x80, the
tag, the length, the command's kind, the status code, the answer and the CRC-8. A notice cell is kind 0x81, tag 0,
the length, the event kind, source, level, repeat count, 4 bytes of uptime, the detail (its layout, log entries 11
and 12, is not part of this statement) and the CRC-8. A record cell is kind 0x82 for a part of an interval record,
0x83 for an action, 0x84 for an operation and 0x85 for a capture record, with tag 0, the length, the gap count, the
flag byte (bit 0 the triggered mark, from bit 1 the presence bits in the order of the record's table), the fields of
the table with the most significant byte first and zeros for what is absent (0xFFFF and 0x800000 in an outlet
block), and the CRC-8; the codes are those of the model's tables, the action's as log entry 10 says. [R163, R164,
R167, R161, R189, R191, 12_cell_and_record_formats 12.3, 12_cell_and_record_formats 12.4, 12_cell_and_record_formats
12.5] -/
def Obligations.ArbiterStartsResponsesFirst : Prop :=
  (∀ s : State,
      (s.holdIn = true ∨ (∃ p : RestartPending, s.link0.restart = some p ∧ p.sending = true) →
        exec .upstreamCellStart s = .next s)
      ∧ (s.holdIn = false → (∀ p : RestartPending, s.link0.restart = some p → p.sending = false) →
        (∀ (r : Response) (rest : List Response), s.link0.filled = r :: rest →
          exec .upstreamCellStart s = .next { s with link0 := { s.link0 with
            filled := rest, line := some r.bytes
            restart := if r.kind = 0x1B ∧ r.status = .ok then
                s.link0.restart.map fun p => { p with sending := true }
              else s.link0.restart } })
        ∧ (∀ (n : Notice) (rest : List Notice), s.link0.filled = [] → s.link0.notices = n :: rest →
          let x := fillNotices (s.notifier, { s.link0 with notices := rest, line := some n.bytes })
          exec .upstreamCellStart s = .next { s with notifier := x.1, link0 := x.2 })
        ∧ (∀ (r : Record) (rest : List Record), s.link0.filled = [] → s.link0.notices = [] →
          s.link0.records = r :: rest →
          exec .upstreamCellStart s = .next { s with link0 := { s.link0 with
            records := rest, line := some (r.bytes s.link0.gap), gap := 0 } })
        ∧ (s.link0.filled = [] → s.link0.notices = [] → s.link0.records = [] →
          exec .upstreamCellStart s = .next { s with link0 := { s.link0 with line := none } })))
    ∧ (∀ r : Response, r.bytes = sealCell ([0x80, r.tag, BitVec.ofNat 8 (r.answer.bytes.length + 2), r.kind,
        BitVec.ofNat 8 r.status.code] ++ r.answer.bytes))
    ∧ (∀ n : Notice, n.bytes = sealCell ([0x81, 0, BitVec.ofNat 8 ((n.detail.bytes n.kind).length + 8),
        BitVec.ofNat 8 n.kind.number, BitVec.ofNat 8 n.source, BitVec.ofNat 8 n.level, BitVec.ofNat 8 n.count,
        n.time.extractLsb' 24 8, n.time.extractLsb' 16 8, n.time.extractLsb' 8 8, n.time.extractLsb' 0 8]
        ++ n.detail.bytes n.kind))
    ∧ (∀ (r : Record) (gap : Nat),
      let byte : Nat → Byte := BitVec.ofNat 8
      let two : Nat → List Byte := fun n => [byte (n / 256), byte n]
      let three : Nat → List Byte := fun n => byte (n / 65536) :: two n
      let four : BitVec 32 → List Byte := fun w => byte (w.toNat / 16777216) :: three w.toNat
      let fault : Option FaultDetail → Byte := fun d => (d.map fun d => byte d.code).getD 0
      let cell : Byte → Nat → List Byte → List Byte := fun kind present fields =>
        sealCell ([kind, 0, byte (fields.length + 2), byte gap, byte (r.triggered.toNat + 2 * present)] ++ fields)
      (∀ (part : Nat) (h : IntervalHead) (blocks : List OutletBlock), r.body = .interval part h blocks →
        r.bytes gap = cell 0x82 0 ([byte part] ++ four h.number ++ four h.time
          ++ [byte h.length, byte (h.bank.val + 1), byte h.link.code]
          ++ blocks.flatMap fun b =>
            [byte (b.pos.val + 1)] ++ (b.irms.map two).getD [0xFF, 0xFF]
            ++ (b.power.map fun p => three (p % 16777216).toNat).getD [0x80, 0, 0]
            ++ two b.maxIrms ++ two b.valid ++ two b.estimated
            ++ [byte (b.relay.code + 64 * b.reverse.toNat + 128 * b.overRange.toNat)]
            ++ byte (b.energy / 16777216) :: three b.energy))
      ∧ (∀ a : ActionRecord, r.body = .action a →
        r.bytes gap = cell 0x83 (a.request.isSome.toNat + 2 * a.result.isSome.toNat + 4 * a.issue.isSome.toNat)
          ([byte (a.outlet.val + 1), byte ((bankOf a.outlet).val + 1)]
          ++ (a.request.map fun q => [byte q.1.code, byte q.2.1.code]).getD [0, 0]
          ++ [match a.request with | some (_, .group g, _) => byte (g.val + 1) | _ => 0]
          ++ (a.result.map fun x => [byte x.1.code]).getD [0]
          ++ (a.request.map fun q => four q.2.2).getD [0, 0, 0, 0]
          ++ (a.issue.map fun x => four x.1 ++ four x.2).getD [0, 0, 0, 0, 0, 0, 0, 0]
          ++ (a.result.map fun x => four x.2).getD [0, 0, 0, 0]
          ++ [byte a.relay.code, fault a.detail]))
      ∧ (r.body = .operation none → r.bytes gap = cell 0x84 0 (List.replicate 19 0))
      ∧ (∀ o : OpRecord, r.body = .operation (some o) →
        r.bytes gap = cell 0x84 1 ([byte (o.group.val + 1), byte o.kind.code, byte o.cause.code, byte o.result.code,
            (o.reason.map fun x => byte x.code).getD 0] ++ four o.start ++ four o.stop
          ++ [byte o.retries, byte o.faulted.length]
          ++ ((o.faulted.map fun (m : Outlet) => byte (m.val + 1)) ++ [0, 0, 0, 0]).take 4))
      ∧ (∀ c : CaptureHeader, r.body = .capture c →
        r.bytes gap = cell 0x85 (c.outlet.isSome.toNat + 2 * c.result.isSome.toNat + 4 * c.kind.isSome.toNat
            + 8 * c.first.isSome.toNat)
          ((c.outlet.map fun o => [byte (o.val + 1), byte ((bankOf o).val + 1)]).getD [0, 0]
          ++ (c.result.map fun x => [byte x.code]).getD [0]
          ++ (c.kind.map fun k => [byte k.code]).getD [0]
          ++ [byte c.n]
          ++ (c.first.map four).getD [0, 0, 0, 0]
          ++ (c.stamp.map fun x => four x.1 ++ four x.2).getD [0, 0, 0, 0, 0, 0, 0, 0])))

/-- The 23 bytes of a SAMPLE cell (kind 0x31, sequence, voltage, eight currents, closed and load bits, CRC-8), received
with good stop bits, are classified good with every field as sent; and so are the bytes of a command cell (kind, tag,
length, payload, CRC-8) with any kind, tag and payload of at most 128 bytes. [12_cell_and_record_formats 12.2,
12_cell_and_record_formats 12.3, R1, R2, R156] -/
def Obligations.CellsReadBack : Prop :=
  (∀ c : SampleCell, c.bytes.length = 23 ∧ classifySample (goodChars c.bytes) = .good c)
    ∧ (∀ c : CommandCell, c.payload.length ≤ 128 → classifyCommand (goodChars c.bytes) = .good c)

/-- For each of the 27 commands that are answered: when it can be taken (with an empty FIFO in the step that puts it
there, log entry 4) it completes; its cell leaves the FIFO and its one response joins the response queue, or, for a
COMMIT only, its slot stays reserved; meters, clock and pins are unchanged. With a payload length not that of its
kind the response is BAD_ARG and nothing else happens. When it cannot be taken (a RESTART pending, no slot free,
another cell at the FIFO's head) nothing changes (log entry 2). [R160, R161, R162] -/
def Obligations.CommandsAreAnsweredOnce : Prop :=
  ∀ (kind tag : Byte) (payload : List Byte) (c : Instr) (len : Nat) (s : State),
    answeredCommand kind.toNat tag payload = some (c, len) →
    (¬ s.ready kind tag payload → exec c s = .next s)
    ∧ (s.ready kind tag payload → payload.length ≠ len →
      exec c s = .next (s.taken.answered kind tag .badArg (.offending none)))
    ∧ (s.ready kind tag payload → ∃ t : State, exec c s = .next t ∧ t.link0.fifo = s.link0.fifo.tail
      ∧ ((∃ (st : Status) (a : Answer), t.link0.filled =
            s.link0.filled ++ [{ tag := tag, kind := kind, status := st, answer := a }]
            ∧ t.link0.reserved = s.link0.reserved)
        ∨ (kind = 0x03 ∧ t.link0.filled = s.link0.filled
            ∧ t.link0.reserved = s.link0.reserved ++ [{ tag := tag, kind := kind }]))
      ∧ t.meters = s.meters ∧ t.pending = s.pending ∧ t.uptime = s.uptime ∧ t.subMs = s.subMs
      ∧ t.safePin = s.safePin ∧ t.holdIn = s.holdIn)

/-- A taken cell (log entry 4) whose kind is 0 or above 0x1C is answered UNKNOWN with the kind received (a kind that
names a command is no such cell, log entry 2). RESTART of kind 0 (ENGINE) or 1 (ALL) is answered OK and recorded as
pending; another value is BAD_ARG. A pending restart takes effect only while its response is being sent.
CLEAR_LINK_ERRORS empties the error records of links 0 to 6. HOLD_IN_CHANGE records the level. Nothing else changes.
[R6, R161, R163, R166, R167] -/
def Obligations.LinkCommandsAct : Prop :=
  (∀ (kind tag : Byte) (payload : List Byte) (s : State),
      (kind.toNat = 0 ∨ 28 < kind.toNat → s.ready kind tag payload →
        exec (.unknownCommand kind tag payload) s = .next (s.taken.answered kind tag .unknown .empty))
      ∧ (1 ≤ kind.toNat ∧ kind.toNat ≤ 28 → exec (.unknownCommand kind tag payload) s = .next s))
    ∧ (∀ (tag x : Byte) (s : State), s.ready 0x1B tag [x] →
      let asked : RestartKind → State := fun k =>
        { s.taken with link0 := { s.taken.link0 with restart := some { kind := k, sending := false } } }
      (x.toNat = 0 → exec (.restart tag [x]) s = .next ((asked .engine).answered 0x1B tag .ok .empty))
      ∧ (x.toNat = 1 → exec (.restart tag [x]) s = .next ((asked .all).answered 0x1B tag .ok .empty))
      ∧ (1 < x.toNat → exec (.restart tag [x]) s = .next (s.taken.answered 0x1B tag .badArg (.offending none))))
    ∧ (∀ s : State, (∀ k : RestartKind, s.link0.restart ≠ some { kind := k, sending := true }) →
      exec .restartTakesEffect s = .next s)
    ∧ (∀ (tag : Byte) (s : State), s.ready 0x1C tag [] →
      let empty : ErrorRecord := { kinds := [], first := none, captured := [] }
      exec (.clearLinkErrors tag []) s = .next (State.answered
        { s.taken with lanes := Vector.ofFn fun b => { s.lanes[b] with errors := empty }
                       link0 := { s.taken.link0 with errors := empty } } 0x1C tag .ok .empty))
    ∧ (∀ (level : Bool) (s : State), exec (.holdInChange level) s = .next { s with holdIn := level })

/-- Taken (log entry 4), each changes nothing but the FIFO and the response queue. READ_OUTLET reports link state,
the latest results if there are any, relay state, detail, threshold state, load-lost condition and energy counter.
READ_GROUP reports the entry's members with their relay states, shed marks and the progress that the engine has
marked (statements O30, O31 and O33 say what it marks); the derived power state, which is ALL_OFF just when every
member is shed, OFF or in fault, ALL_ON just when there are members and each is ON and not shed, else PARTIAL; the
operation with its running timer and the monitor with its own; the turn as an outlet is log entry 27, that a member
with no progress marked reads PENDING and that none reads as faulted in IDLE is log entry 14. READ_ENTRY reports the
named copy's area, whether the entry (of the calibration table: its bank) waits, and for an outlet the group whose
list in that copy of the group table names it; an unknown table, an index outside the table (grant phases are 0 to
31) or a copy out of range is BAD_ARG (that the copy byte is tested is log entry 18). STATUS reports the safe state,
the six link states, the summary flags, the pending count, the table states, the lock, uptime, interval number and
last restart cause. [R40, R103, R124, R143, R145, R165, R189, 06_server_groups_and_the_power_cycle 6.1] -/
def Obligations.ReadsReportTheState : Prop :=
  (∀ (tag n : Byte) (s : State), s.ready 0x09 tag [n] →
      (n.toNat = 0 ∨ 48 < n.toNat →
        exec (.readOutlet tag [n]) s = .next (s.taken.answered 0x09 tag .badArg (.offending none)))
      ∧ ∀ o : Outlet, n.toNat = o.val + 1 → exec (.readOutlet tag [n]) s = .next (s.taken.answered 0x09 tag .ok
        (.outlet { link := s.lanes[bankOf o].link
                   results := s.meters[bankOf o].latest.bind fun bank => s.outlets[o].latest.map fun r =>
                     (bank, s.meters[bankOf o].frequency, r)
                   relay := s.relays[o].state, detail := s.relays[o].detail, level := s.outletLimits[o].level
                   loadLost := s.loadLost[o].lost, energy := s.outlets[o].energy })))
    ∧ (∀ (tag n : Byte) (s : State), s.ready 0x0F tag [n] →
      (n.toNat = 0 ∨ 32 < n.toNat →
        exec (.readGroup tag [n]) s = .next (s.taken.answered 0x0F tag .badArg (.offending none)))
      ∧ ∀ g : Group, n.toNat = g.val + 1 → ∃ r : GroupReport,
        exec (.readGroup tag [n]) s = .next (s.taken.answered 0x0F tag .ok (.group r))
        ∧ r.enabled = s.groupTable.active[g].enabled ∧ r.members.map (·.outlet) = s.members g
        ∧ (∀ x ∈ r.members, x.relay = s.relays[x.outlet].state
            ∧ (x.shed = true ↔ x.outlet ∈ s.sheds[bankOf x.outlet].stack))
        ∧ (∀ (i : Nat) (x : MemberReport), r.members[i]? = some x →
            x.progress = s.groups[g].progress.getD i .pending)
        ∧ (r.power = .allOff ↔ ∀ o ∈ s.members g, o ∈ s.sheds[bankOf o].stack ∨ s.relays[o].state = .off
            ∨ s.relays[o].state = .faultOpen ∨ s.relays[o].state = .faultWelded)
        ∧ (r.power = .allOn ↔ s.members g ≠ []
            ∧ ∀ o ∈ s.members g, o ∉ s.sheds[bankOf o].stack ∧ s.relays[o].state = .on)
        ∧ (r.power = .partly ↔ r.power ≠ .allOff ∧ r.power ≠ .allOn)
        ∧ r.op = s.groups[g].op ∧ r.kind = s.groups[g].kind ∧ r.cause = s.groups[g].cause
        ∧ r.passCause = s.groups[g].passCause ∧ r.retry = s.groups[g].retry ∧ r.repower = s.groups[g].repower
        ∧ r.cancel = s.groups[g].cancel ∧ r.lastRecord = s.groups[g].lastRecord
        ∧ r.turn = (if s.groups[g].op = .oning then (s.members g)[s.groups[g].turn]? else none)
        ∧ r.faulted = (if s.groups[g].op = .idle then [] else s.groups[g].faulted)
        ∧ (∀ u : Uptime, s.groups[g].dwell = some u →
            r.timer = some (.dwell, u + BitVec.ofNat 32 (s.groupTable.active[g].offDwell * 1000)))
        ∧ (∀ u : Uptime, s.groups[g].dwell = none → s.groups[g].stagger = some u →
            r.timer = some (.stagger, u + BitVec.ofNat 32 (s.groupTable.active[g].onStagger * 1000)))
        ∧ (∀ u : Uptime, s.groups[g].dwell = none → s.groups[g].stagger = none → s.groups[g].boot = some u →
            r.timer = some (.boot, u + BitVec.ofNat 32 (s.groupTable.active[g].bootWindow * 1000)))
        ∧ (s.groups[g].dwell = none → s.groups[g].stagger = none → s.groups[g].boot = none → r.timer = none)
        ∧ (∀ u : Uptime, s.monitors[g].deadline = some u → r.monitorTimer =
            some (u + BitVec.ofNat 32 (s.groupTable.active[g].deadline * 1000), false))
        ∧ (∀ c : Grace, s.monitors[g].deadline = none → s.monitors[g].grace = some c →
            let len := if c.retry then max s.groupTable.active[g].grace s.systemTable.active[0].intervalLength
              else s.groupTable.active[g].grace
            r.monitorTimer = some (c.start + BitVec.ofNat 32 (len * 1000), true))
        ∧ (s.monitors[g].deadline = none → s.monitors[g].grace = none → r.monitorTimer = none)
        ∧ r.history = s.groups[g].history ∧ r.monitor = s.monitors[g].state ∧ r.busy = s.monitors[g].busy
        ∧ r.budget = s.monitors[g].budget ∧ r.lastToken = s.monitors[g].lastToken
        ∧ r.budgetEnd = s.monitors[g].window.map fun u =>
            u + BitVec.ofNat 32 (s.groupTable.active[g].budgetWindow * 3600000))
    ∧ (∀ (tag tb k cp : Byte) (s : State), s.ready 0x01 tag [tb, k, cp] →
      let run := exec (.readEntry tag [tb, k, cp]) s
      let bad : Result := .next (s.taken.answered 0x01 tag .badArg (.offending none))
      let gives : Prop → Nat → List Byte → Prop := fun waits owner area =>
        ∃ w : Bool, (w = true ↔ waits) ∧ run = .next (s.taken.answered 0x01 tag .ok (.entry w owner area))
      let groups := if cp.toNat = 0 then s.groupTable.active else s.groupTable.pending
      (tb.toNat = 0 ∨ 7 < tb.toNat ∨ 1 < cp.toNat → run = bad)
      ∧ (tb = 1 → k.toNat = 0 ∨ 48 < k.toNat → run = bad) ∧ (tb = 2 → k.toNat = 0 ∨ 6 < k.toNat → run = bad)
      ∧ (tb = 3 → k.toNat = 0 ∨ 3 < k.toNat → run = bad) ∧ (tb = 4 → k.toNat = 0 ∨ 54 < k.toNat → run = bad)
      ∧ (tb = 5 → k.toNat = 0 ∨ 32 < k.toNat → run = bad) ∧ (tb = 6 → 31 < k.toNat → run = bad)
      ∧ (tb = 7 → k.toNat ≠ 1 → run = bad)
      ∧ (cp.toNat ≤ 1 →
        (tb = 1 → ∀ o : Outlet, k.toNat = o.val + 1 → ∃ owner : Nat,
          gives (o ∈ s.outletTable.waiting) owner
            (if cp.toNat = 0 then s.outletTable.active[o] else s.outletTable.pending[o]).area
          ∧ (owner ≠ 0 → ∃ g : Group, owner = g.val + 1 ∧ (o.val + 1) ∈ groups[g].members)
          ∧ (owner = 0 → ∀ g : Group, (o.val + 1) ∉ groups[g].members))
        ∧ (tb = 2 → ∀ b : Bank, k.toNat = b.val + 1 → gives (b ∈ s.bankTable.waiting) 0
            (if cp.toNat = 0 then s.bankTable.active[b] else s.bankTable.pending[b]).area)
        ∧ (tb = 3 → ∀ p : SupplyPhase, k.toNat = p.val + 1 → gives False 0
            (if cp.toNat = 0 then s.phaseTable.active[p] else s.phaseTable.pending[p]).area)
        ∧ (tb = 4 → ∀ i : Fin 54, k.toNat = i.val + 1 → gives (bankOfCal i ∈ s.calTable.waiting) 0
            (CalEntry.area i (if cp.toNat = 0 then s.calTable.active[i] else s.calTable.pending[i])))
        ∧ (tb = 5 → ∀ g : Group, k.toNat = g.val + 1 → gives (g ∈ s.groupTable.waiting) 0 groups[g].area)
        ∧ (tb = 6 → ∀ i : Fin 32, k.toNat = i.val → gives False 0
            ((match (if cp.toNat = 0 then s.grantTable.active[i] else s.grantTable.pending[i]) with
              | none => (0 : Byte) | some b => BitVec.ofNat 8 (b.val + 1)) :: List.replicate 25 0))
        ∧ (tb = 7 → k.toNat = 1 → gives False 0
            (if cp.toNat = 0 then s.systemTable.active[0] else s.systemTable.pending[0]).area)))
    ∧ (∀ (tag : Byte) (s : State), s.ready 0x1A tag [] → ∃ r : StatusReport,
      exec (.status tag []) s = .next (s.taken.answered 0x1A tag .ok (.status r))
      ∧ r.safe = s.safe.cause ∧ (∀ b : Bank, r.links[b] = s.lanes[b].link)
      ∧ (r.anyRelayFault = true ↔ ∃ o : Outlet, s.relays[o].state = .faultOpen ∨ s.relays[o].state = .faultWelded)
      ∧ (r.anyNotUp = true ↔ ∃ b : Bank, s.lanes[b].link ≠ .up)
      ∧ (r.anyCritical = true ↔ (∃ o : Outlet, s.outletLimits[o].level = .critical)
          ∨ (∃ b : Bank, s.bankLimits[b].level = .critical) ∨ ∃ p : SupplyPhase, s.phaseLimits[p].level = .critical)
      ∧ (r.anyLockout = true ↔ ∃ g : Group, s.monitors[g].state = .lockedOut)
      ∧ (r.anyLinkError = true ↔ s.link0.errors.kinds ≠ [] ∨ ∃ b : Bank, s.lanes[b].errors.kinds ≠ [])
      ∧ r.pendingCount = s.notifier.entries.length ∧ (r.overflow = true ↔ s.notifier.overflow ≠ none)
      ∧ r.tables = [s.outletTable.state, s.bankTable.state, s.phaseTable.state, s.calTable.state, s.groupTable.state,
                    s.grantTable.state, s.systemTable.state]
      ∧ r.calLock = s.calLock ∧ r.uptime = s.uptime ∧ r.interval = s.interval.number
      ∧ r.cause = s.link0.lastCause)

/-! ## Notices and report streams (spec/10) -/

/-- Raising an event changes only the notifier and the link unit's notice and record queues. An event that no stream
takes is dropped at level 0; otherwise the entry of its key counts one more (at most 255) with the new uptime and
detail, a new key joins a set of fewer than 64 entries with count 0, and with 64 the overflow entry records the drop;
then notices are moved. An event that a stream takes offers its records to the record queue (fewer than 16, else the
gap count rises to at most 255) and takes one count; the last count unbinds the stream and raises STREAM_END. [R170,
R173, R174, R177, R164] -/
def Obligations.EventsAreSettled : Prop :=
  ∀ (now : Uptime) (e : Event) (n : Notifier) (l : Link0),
    let takes : Binding → Prop := fun b => b.kind = e.kind ∧ (b.source = none ∨ b.source = some e.source)
    let hasKey : PendingEntry → Prop := fun p => p.kind = e.kind ∧ p.source = e.source
    ((∀ (i : Stream) (b : Binding), n.streams[i] = some b → ¬ takes b) →
      (n.levels[e.kind.index] = 0 → notify now e (n, l) = (n, l))
      ∧ (n.levels[e.kind.index] ≠ 0 →
        (∀ (pre post : List PendingEntry) (p : PendingEntry), n.entries = pre ++ p :: post → hasKey p →
          (∀ q ∈ pre ++ post, ¬ hasKey q) →
          notify now e (n, l) = fillNotices ({ n with entries :=
            pre ++ { p with count := min 255 (p.count + 1), time := now, detail := e.detail } :: post }, l))
        ∧ ((∀ q ∈ n.entries, ¬ hasKey q) → n.entries.length < 64 →
          notify now e (n, l) = fillNotices ({ n with entries := n.entries ++
            [{ kind := e.kind, source := e.source, count := 0, time := now, detail := e.detail }] }, l))
        ∧ ((∀ q ∈ n.entries, ¬ hasKey q) → 64 ≤ n.entries.length →
          notify now e (n, l) = fillNotices ({ n with overflow := some {
              count := (match n.overflow with | none => 0 | some o => min 255 (o.count + 1)), time := now,
              kind := e.kind, source := e.source } }, l))))
    ∧ (∀ (i : Stream) (b : Binding), n.streams[i] = some b → takes b →
        (∀ (j : Stream) (c : Binding), n.streams[j] = some c → j ≠ i → c.kind ≠ b.kind) →
        (∀ (j : Stream) (c : Binding), n.streams[j] = some c → c.kind ≠ .streamEnd) →
        let offer : Link0 → RecordBody → Link0 := fun l r =>
          if l.records.length < 16 then { l with records := l.records ++ [{ triggered := false, body := r }] }
          else { l with gap := min 255 (l.gap + 1) }
        let l' := e.records.foldl offer l
        (1 < b.remaining → notify now e (n, l) =
          ({ n with streams := upd n.streams i fun _ => some { b with remaining := b.remaining - 1 } }, l'))
        ∧ (b.remaining ≤ 1 → notify now e (n, l) =
          notify now { kind := .streamEnd, source := i.val + 1, detail := .streamEnd b.kind b.source b.bound
                       records := [] } ({ n with streams := upd n.streams i fun _ => none }, l')))
    ∧ (∀ s : State, s.raiseEvent e = { s with
        notifier := (notify s.uptime e (s.notifier, s.link0)).1
        link0 := { s.link0 with
          notices := (notify s.uptime e (s.notifier, s.link0)).2.notices
          records := (notify s.uptime e (s.notifier, s.link0)).2.records
          gap := (notify s.uptime e (s.notifier, s.link0)).2.gap } })

/-- An entry may be sent when its level is above the mask or is 7; the overflow entry takes part as kind 2. Filling
the notice queue leaves it with 8 notices or leaves no entry that may be sent, and keeps the notices there were, in
order; with 8 notices, or with no entry that may be sent, it changes nothing. With room, the eligible entry before
all others in the order is moved: its notice, with its level, repeat count, uptime and detail, joins the tail; the
entry alone leaves the pending set, or the overflow entry becomes clear when it is the one moved; and the filling
goes on from there by the same rule. Levels, mask, streams, responses and records are untouched. [R172, R174, R175]
-/
def Obligations.NoticesAreMovedInOrder : Prop :=
  (∀ (n : Notifier) (p : PendingEntry), p ∈ n.candidates ↔
      (p ∈ n.entries ∨ ∃ o : Overflow, n.overflow = some o ∧ p =
        { kind := .pendingOverflow, source := 0, count := o.count, time := o.time
          detail := .overflow o.kind o.source })
      ∧ (n.mask < n.levels[p.kind.index] ∨ n.levels[p.kind.index] = 7))
    ∧ (∀ (n : Notifier) (l : Link0), l.notices.length ≤ 8 →
      let y := fillNotices (n, l)
      (y.2.notices.length = 8 ∨ y.1.candidates = [])
      ∧ y.2.notices.length ≤ 8 ∧ l.notices <+: y.2.notices
      ∧ y.2 = { l with notices := y.2.notices }
      ∧ y.1.levels = n.levels ∧ y.1.mask = n.mask ∧ y.1.streams = n.streams
      ∧ (8 ≤ l.notices.length ∨ n.candidates = [] → y = (n, l))
      ∧ (∀ p : PendingEntry, l.notices.length < 8 → p ∈ n.candidates →
          (∀ q ∈ n.candidates, q ≠ p →
            n.levels[q.kind.index] < n.levels[p.kind.index]
            ∨ (n.levels[q.kind.index] = n.levels[p.kind.index]
              ∧ (p.kind.number < q.kind.number ∨ (p.kind = q.kind ∧ p.source < q.source)))) →
          let moved : Notice :=
            { kind := p.kind, source := p.source, level := n.levels[p.kind.index], count := p.count, time := p.time
              detail := p.detail }
          let without : Notifier :=
            if p.kind = .pendingOverflow then { n with overflow := none }
            else { n with entries := n.entries.filter fun q => ¬ (q.kind = p.kind ∧ q.source = p.source) }
          y.2.notices[l.notices.length]? = some moved
          ∧ y = fillNotices (without, { l with notices := l.notices ++ [moved] })))

/-- Each is taken as log entry 4 says. SET_LEVEL: BAD_ARG for kind 0, 1, 2 or above 24 or a level above 6; otherwise
the kind has the level, at level 0 its pending entries are gone, and notices are moved. SET_MASK: BAD_ARG above 7;
otherwise the mask is set and notices are moved. BIND_STREAM: BAD_ARG for a stream outside 1 to 4 or a kind that
cannot be bound, BUSY for a bound stream, STATE for a kind bound elsewhere; otherwise the stream is bound with the
count given, 65,536 for 0, shown for source ANY and for a numbered source in range. UNBIND_STREAM and TRIGGER_STREAM
of an unbound stream are STATE; UNBIND_STREAM clears a binding. A trigger of a source out of the bound kind's range,
or other than the bound source, is BAD_ARG. Any other offers the record queue (fewer than 16, else the gap count
rises to at most 255) the records of the source's present state, marked triggered: for INTERVAL_CLOSED the two parts
of the bank's interval record (statement O19) with the uptime of the trigger; for SWITCH_DONE the outlet's action
record with its queue entry's fields, if it has one, result absent, and its relay state and detail; for GROUP_DONE
the group's last operation record, absent if it has none; for CAPTURE_DONE the header as it stands, absent in EMPTY
and ARMED, in FILLING with outlet, first set and number of pairs alone. It takes one count; the last clears the
binding and raises STREAM_END (no stream is ever bound to that kind) with the kind, source and count that were
bound; nothing else changes. (That the action record of an ISSUED entry has the issue uptime and actuate-at set is
log entry 25.) [R171, R172, R176, R178, R179, R177, R164, R188] -/
def Obligations.LevelsMaskAndStreamsAreSet : Prop :=
  (∀ (tag k v : Byte) (s : State), s.ready 0x11 tag [k, v] →
      (k.toNat ≤ 2 ∨ 24 < k.toNat ∨ 6 < v.toNat →
        exec (.setLevel tag [k, v]) s = .next (s.taken.answered 0x11 tag .badArg (.offending none)))
      ∧ ∀ e : EventKind, k.toNat = e.number → 2 < k.toNat → v.toNat ≤ 6 →
        let n : Notifier := { s.notifier with
          levels := upd s.notifier.levels e.index fun _ => v.toNat
          entries := if v.toNat = 0 then s.notifier.entries.filter fun p => p.kind ≠ e else s.notifier.entries }
        let x := fillNotices (n, s.taken.link0)
        exec (.setLevel tag [k, v]) s =
          .next (State.answered { s with notifier := x.1, link0 := x.2 } 0x11 tag .ok .empty))
    ∧ (∀ (tag v : Byte) (s : State), s.ready 0x12 tag [v] →
      (7 < v.toNat → exec (.setMask tag [v]) s = .next (s.taken.answered 0x12 tag .badArg (.offending none)))
      ∧ (v.toNat ≤ 7 →
        let x := fillNotices ({ s.notifier with mask := v.toNat }, s.taken.link0)
        exec (.setMask tag [v]) s =
          .next (State.answered { s with notifier := x.1, link0 := x.2 } 0x12 tag .ok .empty)))
    ∧ (∀ (tag i k src hi lo : Byte) (s : State), s.ready 0x13 tag [i, k, src, hi, lo] →
      let run := exec (.bindStream tag [i, k, src, hi, lo]) s
      let last : Nat := if k.toNat = 23 then 6 else if k.toNat = 13 then 32 else 48
      let bad : Prop := i.toNat = 0 ∨ 4 < i.toNat ∨ ¬ (k.toNat = 13 ∨ k.toNat = 21 ∨ k.toNat = 23 ∨ k.toNat = 24)
        ∨ (src.toNat ≠ 0xFF ∧ (src.toNat = 0 ∨ last < src.toNat))
      (bad → run = .next (s.taken.answered 0x13 tag .badArg (.offending none)))
      ∧ ∀ (j : Stream) (e : EventKind), ¬ bad → i.toNat = j.val + 1 → k.toNat = e.number →
        (s.notifier.streams[j] ≠ none → run = .next (s.taken.answered 0x13 tag .busy .empty))
        ∧ (s.notifier.streams[j] = none → (∃ (m : Stream) (b : Binding), s.notifier.streams[m] = some b ∧ b.kind = e) →
          run = .next (s.taken.answered 0x13 tag .state .empty))
        ∧ (s.notifier.streams[j] = none →
          (∀ (m : Stream) (b : Binding), s.notifier.streams[m] = some b → b.kind ≠ e) →
          let count := if hi.toNat * 256 + lo.toNat = 0 then 65536 else hi.toNat * 256 + lo.toNat
          run = .next (State.answered
            { s.taken with notifier := { s.notifier with streams := upd s.notifier.streams j fun _ => some {
                kind := e, source := if src.toNat = 0xFF then none else some src.toNat,
                remaining := count, bound := count } } } 0x13 tag .ok .empty)))
    ∧ (∀ (tag i : Byte) (s : State), s.ready 0x14 tag [i] →
      (i.toNat = 0 ∨ 4 < i.toNat →
        exec (.unbindStream tag [i]) s = .next (s.taken.answered 0x14 tag .badArg (.offending none)))
      ∧ ∀ j : Stream, i.toNat = j.val + 1 →
        (s.notifier.streams[j] = none →
          exec (.unbindStream tag [i]) s = .next (s.taken.answered 0x14 tag .state .empty))
        ∧ (s.notifier.streams[j] ≠ none → exec (.unbindStream tag [i]) s = .next (State.answered
            { s.taken with notifier := { s.notifier with
                streams := upd s.notifier.streams j fun _ => none } } 0x14 tag .ok .empty)))
    ∧ (∀ (tag i src : Byte) (s : State), s.ready 0x15 tag [i, src] →
      (i.toNat = 0 ∨ 4 < i.toNat →
        exec (.triggerStream tag [i, src]) s = .next (s.taken.answered 0x15 tag .badArg (.offending none)))
      ∧ ∀ j : Stream, i.toNat = j.val + 1 →
        (s.notifier.streams[j] = none →
          exec (.triggerStream tag [i, src]) s = .next (s.taken.answered 0x15 tag .state .empty))
        ∧ ∀ b : Binding, s.notifier.streams[j] = some b →
          let last : Nat := match b.kind with
            | .intervalClosed => 6 | .groupDone => 32 | .switchDone => 48 | .captureDone => 48 | _ => 0
          (src.toNat = 0 ∨ last < src.toNat ∨ (∃ m, b.source = some m ∧ m ≠ src.toNat) →
            exec (.triggerStream tag [i, src]) s = .next (s.taken.answered 0x15 tag .badArg (.offending none)))
          ∧ (1 ≤ src.toNat → src.toNat ≤ last → b.source = none ∨ b.source = some src.toNat →
            let offer : Link0 → RecordBody → Link0 := fun l r =>
              if l.records.length < 16 then { l with records := l.records ++ [{ triggered := true, body := r }] }
              else { l with gap := min 255 (l.gap + 1) }
            let c := s.capture
            ∃ rs : List RecordBody, rs.length = (if b.kind = .intervalClosed then 2 else 1)
            ∧ (∀ a : Bank, b.kind = .intervalClosed → src.toNat = a.val + 1 → rs = s.intervalParts a s.uptime)
            ∧ (∀ o : Outlet, b.kind = .switchDone → src.toNat = o.val + 1 →
              let done : ActionRecord := { outlet := o, request := none, result := none, issue := none
                                           relay := s.relays[o].state, detail := s.relays[o].detail }
              ((∀ e ∈ s.queue, e.outlet ≠ o) → rs = [.action done])
              ∧ ∀ (pre post : List QueueEntry) (e : QueueEntry), s.queue = pre ++ e :: post → e.outlet = o →
                (∀ q ∈ pre, q.outlet ≠ o) →
                rs = [.action { done with
                  request := some (e.action, e.origin, e.enqueued)
                  issue := (match e.state, s.relays[o].flight with
                    | .issued u, some f => some (u, f.actuateAt) | _, _ => none) }])
            ∧ (∀ g : Group, b.kind = .groupDone → src.toNat = g.val + 1 → rs = [.operation s.groups[g].lastRecord])
            ∧ (b.kind = .captureDone →
              (∀ h : CaptureHeader, c.state = .full → c.header = some h → rs = [.capture h])
              ∧ (c.state = .filling → rs = [.capture { outlet := c.outlet, result := none, kind := none
                                                       n := c.buffer.length, first := c.first, stamp := none }])
              ∧ (c.state = .empty ∨ c.state = .armed → rs = [.capture
                  { outlet := none, result := none, kind := none, n := 0, first := none, stamp := none }]))
            ∧ (1 < b.remaining → exec (.triggerStream tag [i, src]) s = .next (State.answered
                { s with link0 := rs.foldl offer s.taken.link0, notifier := { s.notifier with
                    streams := upd s.notifier.streams j fun _ => some { b with remaining := b.remaining - 1 } } }
                0x15 tag .ok .empty))
            ∧ (b.remaining ≤ 1 → (∀ (m : Stream) (d : Binding), s.notifier.streams[m] = some d → d.kind ≠ .streamEnd) →
              let x := notify s.uptime
                { kind := .streamEnd, source := j.val + 1, detail := .streamEnd b.kind b.source b.bound, records := [] }
                ({ s.notifier with streams := upd s.notifier.streams j fun _ => none }, rs.foldl offer s.taken.link0)
              exec (.triggerStream tag [i, src]) s =
                .next (State.answered { s with notifier := x.1, link0 := x.2 } 0x15 tag .ok .empty))))

/-- Entry to SAFE from a state with one entry an outlet: the cause is recorded; no WAITING entry of an origin other
than SAFE and SHED is left and every ISSUED entry stays; every outlet whose safe action is ON or OFF has an entry of
the action, or has an ISSUED entry and is in the follow-up set; every group is IDLE, those that had an operation
with a CANCELLED record of reason SAFE; every monitor is OFFLINE; no restore timer runs; relay states, meters and
tokens are unchanged. SAFE_ENTERED is raised, before the groups and monitors act (log entry 7), with the cause, the
number of entries withdrawn (WAITING, neither SAFE nor SHED), and the numbers of outlets of safe action ON or OFF
whose request is queued (no other entry), merged (a WAITING entry of its action), replaced (of the other action) and
followed up (an ISSUED entry); the queue then holds, in their order, the ISSUED entries and the WAITING ones of
origin SAFE and SHED that are not replaced, those of HOLD outlets among them, and after these, by outlet number, a
WAITING entry of origin SAFE for every request queued or replaced; a shed or restore in flight of a removed entry
ends. Beyond this the part changes only by the ends of the operations, as statement O39 gives, monitors and shed
timers. In SAFE, FORCE_SAFE is answered OK and an asserted pin recorded, with no other effect; a deasserted pin is
recorded. RESUME outside SAFE or with the pin asserted is STATE; otherwise SAFE is left, watched monitors are
DISARMED with their timers stopped, and the queue stays. Commands are taken as log entry 4 says. At the completion,
handed as statement O28 says, of the entry of an outlet in the follow-up set the outlet leaves it and, in SAFE, when
its relay does not stand as its active safe action asks, that action is put to the queue again with origin SAFE;
with HOLD, or for an outlet outside the set, nothing more happens. [R181, R182, R183, R184, R85, R86, R120, R128,
R62] -/
def Obligations.SafeStateIsEnteredAndLeft : Prop :=
  let entered : State → State → SafeCause → Prop := fun s t c =>
      t.safe.cause = some c
      ∧ (∀ e ∈ t.queue, e.state = .waiting → e.origin = .safe ∨ e.origin = .shed)
      ∧ (∀ e ∈ s.queue, e.state ≠ .waiting → e ∈ t.queue)
      ∧ (∀ o : Outlet, o ∈ t.safe.followUp ↔ s.outletTable.active[o].safeAction ≠ .hold ∧ s.isIssued o = true)
      ∧ (∀ o : Outlet, s.isIssued o = false →
          (s.outletTable.active[o].safeAction = .on → ∃ e ∈ t.queue, e.outlet = o ∧ e.action = .close)
          ∧ (s.outletTable.active[o].safeAction = .off → ∃ e ∈ t.queue, e.outlet = o ∧ e.action = .opens))
      ∧ (∀ g : Group, t.groups[g].op = .idle ∧ t.monitors[g].state = .offline)
      ∧ (∀ g : Group, s.groups[g].op ≠ .idle → ∃ r : OpRecord, t.groups[g].lastRecord = some r
          ∧ r.result = .cancelled ∧ r.reason = some .safe ∧ r.stop = s.uptime)
      ∧ (∀ b : Bank, t.sheds[b].restoreTimer = none ∧ t.sheds[b].stack = s.sheds[b].stack)
      ∧ t.relays = s.relays ∧ t.tokens = s.tokens ∧ t.turnOn = s.turnOn ∧ t.outletTable = s.outletTable
  let told : State → State → SafeCause → Prop := fun s t c =>
      let asked : Outlet → Option Action := fun o =>
        match s.outletTable.active[o].safeAction with | .hold => none | .on => some .close | .off => some .opens
      let stays : QueueEntry → Bool := fun e =>
        e.state ≠ .waiting ∨ e.origin = .safe ∨ e.origin = .shed
      let held : Outlet → Option QueueEntry := fun o => s.queue.find? fun e => e.outlet = o ∧ stays e
      let count : (Action → Option QueueEntry → Bool) → Nat := fun f =>
        ((List.finRange 48).filter fun o => (asked o).any fun a => f a (held o)).length
      let follow := (List.finRange 48).filter fun o => (asked o).isSome ∧ (held o).any fun e => e.state ≠ .waiting
      let detail : Detail := .safeEntered c
        (s.queue.filter fun e => !stays e).length
        (count fun _ e => e = none)
        (count fun a e => e.any fun e => e.state = .waiting ∧ e.action = a)
        (count fun a e => e.any fun e => e.state = .waiting ∧ e.action ≠ a)
        follow.length
      let x := notify s.uptime { kind := .safeEntered, source := 0, detail := detail, records := [] }
        (s.notifier, s.link0)
      let replaced : QueueEntry → Bool := fun e => e.state = .waiting ∧ (asked e.outlet).any fun a => e.action ≠ a
      let added : List QueueEntry := (List.finRange 48).filterMap fun o => (asked o).bind fun a =>
        if (held o).all replaced then
          some { outlet := o, action := a, origin := .safe, enqueued := s.uptime, state := .waiting }
        else none
      let removed : List Outlet := (s.queue.filter fun e => !stays e).map (·.outlet)
        ++ (List.finRange 48).filter fun o => (held o).any replaced
      let began : State := { s with safe := { cause := some c, followUp := follow } }
      let u : State := { began with
        queue := (s.queue.filter fun e => stays e && !replaced e) ++ added
        sheds := removed.foldl
          (fun ds o => upd ds (bankOf o) fun d => began.timedShed (bankOf o) (d.landed o)) s.sheds
        notifier := x.1, link0 := x.2 }
      let v := (List.finRange 32).foldl
        (fun v g => if v.groups[g].op = .idle then v else v.endOp g .cancelled (some .safe) false) u
      t = { v with monitors := Vector.ofFn fun g => v.monitors[g].still .offline
                   sheds := Vector.ofFn fun b => v.timedShed b v.sheds[b] }
  (∀ (tag : Byte) (s : State), s.ready 0x18 tag [] →
      (s.safe.cause ≠ none → exec (.forceSafe tag []) s = .next (s.taken.answered 0x18 tag .ok .empty))
      ∧ (s.safe.cause = none → s.QueueKept → ∃ t : State, exec (.forceSafe tag []) s = .next t
        ∧ s.answers t 0x18 tag .ok .empty ∧ s.sameMeasures t ∧ entered s t .command
        ∧ ∃ u : State, told s.taken u .command ∧ t = u.answered 0x18 tag .ok .empty))
    ∧ (∀ s : State,
      exec (.safePinChange false) s = .next { s with safePin := false }
      ∧ (s.safePin = true → exec (.safePinChange true) s = .next s)
      ∧ (s.safePin = false → s.safe.cause ≠ none → exec (.safePinChange true) s = .next { s with safePin := true })
      ∧ (s.safePin = false → s.safe.cause = none → s.QueueKept → ∃ t : State, exec (.safePinChange true) s = .next t
        ∧ State.sameMeasures { s with safePin := true } t ∧ entered s t .pin
        ∧ told { s with safePin := true } t .pin))
    ∧ (∀ (tag : Byte) (s : State), s.ready 0x19 tag [] →
      (s.safe.cause = none ∨ s.safePin = true →
        exec (.resume tag []) s = .next (s.taken.answered 0x19 tag .state .empty))
      ∧ (s.safe.cause ≠ none → s.safePin = false → ∃ t : State, exec (.resume tag []) s = .next t
        ∧ s.answers t 0x19 tag .ok .empty ∧ t.safe = { cause := none, followUp := [] }
        ∧ t = { s with link0 := t.link0, safe := t.safe, monitors := t.monitors, sheds := t.sheds }
        ∧ (∀ g : Group, t.monitors[g] =
          if s.groupTable.active[g].enabled = true ∧ s.groupTable.active[g].policy ≠ .none then
            { s.monitors[g] with state := .disarmed, deadline := none, grace := none, busy := 0 }
          else s.monitors[g])
        ∧ ∀ b : Bank, t.sheds[b].stack = s.sheds[b].stack
          ∧ (s.sheds[b].restoreTimer = none → t.sheds[b].restoreTimer =
            if s.bankLimits[b].level = .normal ∧ s.lanes[b].link = .up ∧ s.sheds[b].stack ≠ []
                ∧ s.sheds[b].restoreFlight = none
            then some s.uptime else none)))
    ∧ (∀ (o : Outlet) (s : State),
      let t := s.safeFollowUp o
      let u : State := { s with safe := { s.safe with followUp := s.safe.followUp.filter (· ≠ o) } }
      (o ∉ s.safe.followUp → t = s)
      ∧ (o ∈ s.safe.followUp →
        (s.safe.cause = none → t = u)
        ∧ (s.safe.cause ≠ none → s.outletTable.active[o].safeAction = .hold → t = u)
        ∧ (s.safe.cause ≠ none → s.outletTable.active[o].safeAction = .on →
          (s.relays[o].state = .on → t = u) ∧ (s.relays[o].state ≠ .on → t = (u.request o .close .safe).2))
        ∧ (s.safe.cause ≠ none → s.outletTable.active[o].safeAction = .off →
          (s.relays[o].state = .off → t = u) ∧ (s.relays[o].state ≠ .off → t = (u.request o .opens .safe).2))))

/-- CAPTURE, taken: BAD_ARG for an outlet outside 1 to 48, BUSY while ARMED or FILLING, BANK_DOWN when the bank is
not UP; otherwise the buffer and header are emptied, the outlet is recorded, and the unit is ARMED, answered OK.
READ_CAPTURE, taken: BAD_ARG for a first pair outside 1 to 96, STATE when the unit is not FULL, BAD_ARG for a first
pair above the header's N; otherwise OK with the header and the pairs first to first + 15, or to the last. Nothing
else changes. (Taking is log entry 4.) An ARMED unit enters FILLING when a window of its bank opens, with the number
of the window's first set; while FILLING each set added to the open window stores the aligned voltage, the outlet's
calibrated current and the substituted mark at the tail: every set that is not a crossing of an unaligned window or
of one of at least 56 sets. Such a crossing closes the window: a FILLING unit's capture ends without it, and an
ARMED unit begins with it, under the calibration entries active after the close (log entry 17). No other bank's set
changes the unit; the 96th set is stored before the close it brings. When a FILLING unit's window closes it is FULL,
with a header COMPLETE of the window's kind, the number of pairs, the present interval number and uptime, and
CAPTURE_DONE is raised with it; in other states, and at another bank's close, nothing happens. [R186, R187, R188] -/
def Obligations.CaptureCommandsAct : Prop :=
  (∀ (tag n : Byte) (s : State), s.ready 0x16 tag [n] →
      (n.toNat = 0 ∨ 48 < n.toNat →
        exec (.capture tag [n]) s = .next (s.taken.answered 0x16 tag .badArg (.offending none)))
      ∧ ∀ o : Outlet, n.toNat = o.val + 1 →
        let free : Prop := s.capture.state = .empty ∨ s.capture.state = .full
        (¬ free → exec (.capture tag [n]) s = .next (s.taken.answered 0x16 tag .busy .empty))
        ∧ (free → s.lanes[bankOf o].link ≠ .up →
          exec (.capture tag [n]) s = .next (s.taken.answered 0x16 tag .bankDown .empty))
        ∧ (free → s.lanes[bankOf o].link = .up → exec (.capture tag [n]) s = .next (State.answered
          { s.taken with capture :=
            { state := .armed, outlet := some o, buffer := [], first := none, header := none } }
          0x16 tag .ok .empty)))
    ∧ (∀ (tag n : Byte) (s : State), s.ready 0x17 tag [n] →
      let no : Status → Answer → Result := fun st a => .next (s.taken.answered 0x17 tag st a)
      (n.toNat = 0 ∨ 96 < n.toNat → exec (.readCapture tag [n]) s = no .badArg (.offending none))
      ∧ (1 ≤ n.toNat → n.toNat ≤ 96 →
        (s.capture.state ≠ .full → exec (.readCapture tag [n]) s = no .state .empty)
        ∧ ∀ h : CaptureHeader, s.capture.state = .full → s.capture.header = some h →
          (h.n < n.toNat → exec (.readCapture tag [n]) s = no .badArg (.offending none))
          ∧ (n.toNat ≤ h.n → exec (.readCapture tag [n]) s =
            no .ok (.capture h ((s.capture.buffer.drop (n.toNat - 1)).take 16)))))
  ∧ (∀ (b : Bank) (num : SetNo) (raw : RawSet) (sub : Bool) (s : State),
    let t := s.handSet b num raw sub
    let h := ((calibrate s.calTable.active[48 + b.val] raw.volt).1 :: s.meters[b].history).take 4
    let pairIn : State → Outlet → Pair := fun u o =>
      let e := u.calTable.active[o.val]
      { v := h.getD (min e.delay (h.length - 1)) 0, i := (calibrate e raw.cur[posOf o]).1, substituted := sub }
    let pair := pairIn s
    let crossing : Prop := s.meters[b].armed = true ∧ sub = false
      ∧ 0 ≤ (calibrate s.calTable.active[48 + b.val] raw.volt).1 ∧ ∃ u ∈ s.meters[b].history.head?, u < 0
    let closes : Window → Prop := fun w => crossing ∧ (w.aligned = false ∨ 56 ≤ w.n)
    ((∀ o : Outlet, s.capture.outlet = some o → bankOf o ≠ b) → t.capture = s.capture)
    ∧ ∀ o : Outlet, s.capture.outlet = some o → bankOf o = b →
      (s.meters[b].window = none →
        (s.capture.state = .armed → t.capture = { s.capture with
          state := .filling, first := some num, buffer := s.capture.buffer ++ [pair o] })
        ∧ (s.capture.state = .filling → t.capture = { s.capture with buffer := s.capture.buffer ++ [pair o] })
        ∧ (s.capture.state ≠ .armed → s.capture.state ≠ .filling → t.capture = s.capture))
      ∧ (∀ w : Window, s.meters[b].window = some w → w.n < 95 → ¬ closes w →
        (s.capture.state = .filling → t.capture = { s.capture with buffer := s.capture.buffer ++ [pair o] })
        ∧ (s.capture.state ≠ .filling → t.capture = s.capture))
      ∧ (∀ (w : Window) (k : WindowKind), s.meters[b].window = some w → 95 ≤ w.n → ¬ closes w →
        t.meters[b].lastKind = some k →
        (s.capture.state = .filling → t.capture = (State.captureAtClose
          { s with capture := { s.capture with buffer := s.capture.buffer ++ [pair o] } } b k).capture)
        ∧ (s.capture.state ≠ .filling → t.capture = s.capture))
      ∧ (∀ w : Window, s.meters[b].window = some w → closes w →
        (s.capture.state = .armed → t.capture = { s.capture with
          state := .filling, first := some num
          buffer := s.capture.buffer ++ [pairIn (s.closeWindow b true) o] })
        ∧ (s.capture.state = .filling → t.capture = (s.captureAtClose b (w.kind true)).capture)
        ∧ (s.capture.state ≠ .armed → s.capture.state ≠ .filling → t.capture = s.capture)))
  ∧ (∀ (b : Bank) (w : Window) (atCrossing : Bool) (s : State), s.meters[b].window = some w →
    (s.closeWindow b atCrossing).capture = (s.captureAtClose b (w.kind atCrossing)).capture)
  ∧ (∀ (b : Bank) (kind : WindowKind) (s : State),
    (∀ o : Outlet, s.capture.outlet = some o → bankOf o = b → s.capture.state = .filling →
      let header : CaptureHeader :=
        { outlet := some o, result := some .complete, kind := some kind, n := s.capture.buffer.length
          first := s.capture.first, stamp := some (s.interval.number, s.uptime) }
      s.captureAtClose b kind = State.raiseEvent
        { s with capture := { s.capture with state := .full, header := some header } }
        { kind := .captureDone, source := o.val + 1, detail := .captureDone header, records := [.capture header] })
    ∧ (s.capture.state ≠ .filling ∨ (∀ o : Outlet, s.capture.outlet = some o → bankOf o ≠ b) →
      s.captureAtClose b kind = s))

/-! ## Promises kept by every step -/

/-- If each phase's token count is at most its capacity with the refill timer running exactly while it is below, and no
outlet has two entries in the switching queue, then the same holds after any step. [R84, R85, R94, R95, R96] -/
def Obligations.EveryStepKeepsTokensAndEntries : Prop :=
  (∀ s t : State, s.TokensKept → step s = .next t → t.TokensKept)
    ∧ (∀ s t : State, s.QueueKept → step s = .next t → t.QueueKept)

/-- If every outlet's residue is below 28,800,000,000 and its counter at most 4,294,967,295, the same holds after any
step. [R37, R38] -/
def Obligations.EveryStepKeepsEnergyInRange : Prop :=
  ∀ s t : State, s.EnergyKept → step s = .next t → t.EnergyKept

/-- If every bank has at most 4 voltages of history, an open window of at most 95 sets, published results of a valid
window of 56 to 95 sets or of a NO_LINE window of 96, at most 8 lengths of 56 to 95 in its frequency list and the
frequency that those give, the same holds after any step. [R22, R26, R27, R28, R39] -/
def Obligations.EveryStepKeepsWindowsInRange : Prop :=
  ∀ s t : State, s.WindowsKept → step s = .next t → t.WindowsKept

/-- If the pending set holds at most 64 entries, one a key, no kind is bound to two streams and every remaining count
lies within 1 to 65,536, the notice queue holds at most 8, and nothing that may be sent is pending while it has room,
the same holds after any step. [R173, R175, R176, R177] -/
def Obligations.EveryStepKeepsTheNotifier : Prop :=
  ∀ s t : State, s.NotifierKept → step s = .next t → t.NotifierKept

/-- If lane and command FIFOs hold at most 4 cells, the record queue at most 16 and the gap count at most 255, the same
holds after any step; and if at most 8 slots are in use, the reserved ones are those of the COMMITs held for the
calibration and bank tables, and each of those tables holds one just while banks wait, the same holds after any step.
[R4, R159, R160, R162, R164, R150] -/
def Obligations.EveryStepKeepsFillsAndSlots : Prop :=
  (∀ s t : State, s.FillsKept → step s = .next t → t.FillsKept)
    ∧ (∀ s t : State, s.SlotsKept → step s = .next t → t.SlotsKept)

/-- If, while the part is in SAFE, every group is IDLE, every WAITING entry has origin SAFE or SHED, every monitor is
OFFLINE and no restore timer runs, the same holds after any step. [R183, R120, R128, R62] -/
def Obligations.EveryStepKeepsSafe : Prop :=
  ∀ s t : State, s.SafeKept → step s = .next t → t.SafeKept

/-- If the calibration table is never DEFERRED, has banks waiting only while COMMITTING, has equal copies of each entry
that neither waits nor was written, and is CLEAN under the lock, the same holds after any step; and a step that is
not POWER_ON, from such a state with the lock set, leaves the lock set and the active calibration entries as they
were. [R144, R150, R154, R155] -/
def Obligations.EveryStepKeepsTheCalibrationLock : Prop :=
  ∀ s t : State, s.CalKept → step s = .next t →
    t.CalKept ∧ (s.calLock = true → s.pending.head? ≠ some .powerOn →
      t.calLock = true ∧ t.calTable.active = s.calTable.active)

/-- For every lane and every step whose command is not POWER_ON, the link state after is the one before, or the pair is
ABSENT to SYNCING, SYNCING to UP, SYNCING to ABSENT, UP to LOST, LOST to UP, or LOST to ABSENT.
[01_bank_links_and_the_sample_stream 1.5, R7, R9, R12, R14] -/
def Obligations.EveryStepMovesLanesByTheTable : Prop :=
  ∀ (s t : State) (b : Bank), step s = .next t → s.pending.head? ≠ some .powerOn →
    t.lanes[b].link = s.lanes[b].link ∨ (s.lanes[b].link, t.lanes[b].link) ∈ laneMoves
end

