-- ==== Sys2Proof/Laws/State.lean ====
section
/-! SUPPORT. Laws/State.lean: what an update at an index gives, and for each update of State the value of every field
after it, one conjunct a field. -/

namespace Sys2Proof.Machine

@[simp] theorem upd_getElem {α : Type} {n : Nat} (v : Vector α n) (i : Fin n) (f : α → α) (j : Nat) (h : j < n) :
    (upd v i f)[j] = if i.val = j then f v[i.val] else v[j] := by
  simp only [upd, Fin.getElem_fin, Vector.getElem_set]

theorem upd_get {α : Type} {n : Nat} (v : Vector α n) (i j : Fin n) (f : α → α) :
    (upd v i f)[j] = if i = j then f v[i] else v[j] := by
  simp [Fin.ext_iff]

theorem upd_get_self {α : Type} {n : Nat} (v : Vector α n) (i : Fin n) (f : α → α) :
    (upd v i f)[i] = f v[i] := by simp

theorem upd_get_ne {α : Type} {n : Nat} (v : Vector α n) {i j : Fin n} (h : i ≠ j) (f : α → α) :
    (upd v i f)[j] = v[j] := by rw [upd_get, if_neg h]

@[simp] theorem upd_id {α : Type} {n : Nat} (v : Vector α n) (i : Fin n) : upd v i (fun a => a) = v := by
  simp [upd]

theorem ofFn_get {α : Type} {n : Nat} (f : Fin n → α) (i : Fin n) : (Vector.ofFn f)[i] = f i := by simp

@[simp] theorem State.onLane_fields (s : State) (b : Bank) (f : Lane → Lane) :
    (s.onLane b f).pending = s.pending ∧ (s.onLane b f).uptime = s.uptime ∧ (s.onLane b f).subMs = s.subMs
    ∧ (s.onLane b f).opportunityTaken = s.opportunityTaken ∧ (s.onLane b f).safePin = s.safePin
    ∧ (s.onLane b f).holdIn = s.holdIn ∧ (s.onLane b f).lanes = upd s.lanes b f ∧ (s.onLane b f).meters = s.meters
    ∧ (s.onLane b f).outlets = s.outlets ∧ (s.onLane b f).interval = s.interval
    ∧ (s.onLane b f).outletLimits = s.outletLimits ∧ (s.onLane b f).bankLimits = s.bankLimits
    ∧ (s.onLane b f).phaseLimits = s.phaseLimits ∧ (s.onLane b f).loadLost = s.loadLost
    ∧ (s.onLane b f).phaseElements = s.phaseElements ∧ (s.onLane b f).sheds = s.sheds
    ∧ (s.onLane b f).relays = s.relays ∧ (s.onLane b f).shown = s.shown ∧ (s.onLane b f).queue = s.queue
    ∧ (s.onLane b f).grantPtr = s.grantPtr ∧ (s.onLane b f).turnOn = s.turnOn ∧ (s.onLane b f).settle = s.settle
    ∧ (s.onLane b f).tokens = s.tokens ∧ (s.onLane b f).refill = s.refill ∧ (s.onLane b f).groups = s.groups
    ∧ (s.onLane b f).monitors = s.monitors ∧ (s.onLane b f).outletTable = s.outletTable
    ∧ (s.onLane b f).bankTable = s.bankTable ∧ (s.onLane b f).phaseTable = s.phaseTable
    ∧ (s.onLane b f).calTable = s.calTable ∧ (s.onLane b f).groupTable = s.groupTable
    ∧ (s.onLane b f).grantTable = s.grantTable ∧ (s.onLane b f).systemTable = s.systemTable
    ∧ (s.onLane b f).calLock = s.calLock ∧ (s.onLane b f).link0 = s.link0 ∧ (s.onLane b f).notifier = s.notifier
    ∧ (s.onLane b f).safe = s.safe ∧ (s.onLane b f).capture = s.capture := by
  repeat' constructor

@[simp] theorem State.onMeter_fields (s : State) (b : Bank) (f : BankMeter → BankMeter) :
    (s.onMeter b f).pending = s.pending ∧ (s.onMeter b f).uptime = s.uptime ∧ (s.onMeter b f).subMs = s.subMs
    ∧ (s.onMeter b f).opportunityTaken = s.opportunityTaken ∧ (s.onMeter b f).safePin = s.safePin
    ∧ (s.onMeter b f).holdIn = s.holdIn ∧ (s.onMeter b f).lanes = s.lanes
    ∧ (s.onMeter b f).meters = upd s.meters b f ∧ (s.onMeter b f).outlets = s.outlets
    ∧ (s.onMeter b f).interval = s.interval ∧ (s.onMeter b f).outletLimits = s.outletLimits
    ∧ (s.onMeter b f).bankLimits = s.bankLimits ∧ (s.onMeter b f).phaseLimits = s.phaseLimits
    ∧ (s.onMeter b f).loadLost = s.loadLost ∧ (s.onMeter b f).phaseElements = s.phaseElements
    ∧ (s.onMeter b f).sheds = s.sheds ∧ (s.onMeter b f).relays = s.relays ∧ (s.onMeter b f).shown = s.shown
    ∧ (s.onMeter b f).queue = s.queue ∧ (s.onMeter b f).grantPtr = s.grantPtr ∧ (s.onMeter b f).turnOn = s.turnOn
    ∧ (s.onMeter b f).settle = s.settle ∧ (s.onMeter b f).tokens = s.tokens ∧ (s.onMeter b f).refill = s.refill
    ∧ (s.onMeter b f).groups = s.groups ∧ (s.onMeter b f).monitors = s.monitors
    ∧ (s.onMeter b f).outletTable = s.outletTable ∧ (s.onMeter b f).bankTable = s.bankTable
    ∧ (s.onMeter b f).phaseTable = s.phaseTable ∧ (s.onMeter b f).calTable = s.calTable
    ∧ (s.onMeter b f).groupTable = s.groupTable ∧ (s.onMeter b f).grantTable = s.grantTable
    ∧ (s.onMeter b f).systemTable = s.systemTable ∧ (s.onMeter b f).calLock = s.calLock
    ∧ (s.onMeter b f).link0 = s.link0 ∧ (s.onMeter b f).notifier = s.notifier ∧ (s.onMeter b f).safe = s.safe
    ∧ (s.onMeter b f).capture = s.capture := by
  repeat' constructor

@[simp] theorem State.onOutlet_fields (s : State) (o : Outlet) (f : OutletMeter → OutletMeter) :
    (s.onOutlet o f).pending = s.pending ∧ (s.onOutlet o f).uptime = s.uptime ∧ (s.onOutlet o f).subMs = s.subMs
    ∧ (s.onOutlet o f).opportunityTaken = s.opportunityTaken ∧ (s.onOutlet o f).safePin = s.safePin
    ∧ (s.onOutlet o f).holdIn = s.holdIn ∧ (s.onOutlet o f).lanes = s.lanes ∧ (s.onOutlet o f).meters = s.meters
    ∧ (s.onOutlet o f).outlets = upd s.outlets o f ∧ (s.onOutlet o f).interval = s.interval
    ∧ (s.onOutlet o f).outletLimits = s.outletLimits ∧ (s.onOutlet o f).bankLimits = s.bankLimits
    ∧ (s.onOutlet o f).phaseLimits = s.phaseLimits ∧ (s.onOutlet o f).loadLost = s.loadLost
    ∧ (s.onOutlet o f).phaseElements = s.phaseElements ∧ (s.onOutlet o f).sheds = s.sheds
    ∧ (s.onOutlet o f).relays = s.relays ∧ (s.onOutlet o f).shown = s.shown ∧ (s.onOutlet o f).queue = s.queue
    ∧ (s.onOutlet o f).grantPtr = s.grantPtr ∧ (s.onOutlet o f).turnOn = s.turnOn
    ∧ (s.onOutlet o f).settle = s.settle ∧ (s.onOutlet o f).tokens = s.tokens ∧ (s.onOutlet o f).refill = s.refill
    ∧ (s.onOutlet o f).groups = s.groups ∧ (s.onOutlet o f).monitors = s.monitors
    ∧ (s.onOutlet o f).outletTable = s.outletTable ∧ (s.onOutlet o f).bankTable = s.bankTable
    ∧ (s.onOutlet o f).phaseTable = s.phaseTable ∧ (s.onOutlet o f).calTable = s.calTable
    ∧ (s.onOutlet o f).groupTable = s.groupTable ∧ (s.onOutlet o f).grantTable = s.grantTable
    ∧ (s.onOutlet o f).systemTable = s.systemTable ∧ (s.onOutlet o f).calLock = s.calLock
    ∧ (s.onOutlet o f).link0 = s.link0 ∧ (s.onOutlet o f).notifier = s.notifier ∧ (s.onOutlet o f).safe = s.safe
    ∧ (s.onOutlet o f).capture = s.capture := by
  repeat' constructor

@[simp] theorem State.onShed_fields (s : State) (b : Bank) (f : ShedUnit → ShedUnit) :
    (s.onShed b f).pending = s.pending ∧ (s.onShed b f).uptime = s.uptime ∧ (s.onShed b f).subMs = s.subMs
    ∧ (s.onShed b f).opportunityTaken = s.opportunityTaken ∧ (s.onShed b f).safePin = s.safePin
    ∧ (s.onShed b f).holdIn = s.holdIn ∧ (s.onShed b f).lanes = s.lanes ∧ (s.onShed b f).meters = s.meters
    ∧ (s.onShed b f).outlets = s.outlets ∧ (s.onShed b f).interval = s.interval
    ∧ (s.onShed b f).outletLimits = s.outletLimits ∧ (s.onShed b f).bankLimits = s.bankLimits
    ∧ (s.onShed b f).phaseLimits = s.phaseLimits ∧ (s.onShed b f).loadLost = s.loadLost
    ∧ (s.onShed b f).phaseElements = s.phaseElements ∧ (s.onShed b f).sheds = upd s.sheds b f
    ∧ (s.onShed b f).relays = s.relays ∧ (s.onShed b f).shown = s.shown ∧ (s.onShed b f).queue = s.queue
    ∧ (s.onShed b f).grantPtr = s.grantPtr ∧ (s.onShed b f).turnOn = s.turnOn ∧ (s.onShed b f).settle = s.settle
    ∧ (s.onShed b f).tokens = s.tokens ∧ (s.onShed b f).refill = s.refill ∧ (s.onShed b f).groups = s.groups
    ∧ (s.onShed b f).monitors = s.monitors ∧ (s.onShed b f).outletTable = s.outletTable
    ∧ (s.onShed b f).bankTable = s.bankTable ∧ (s.onShed b f).phaseTable = s.phaseTable
    ∧ (s.onShed b f).calTable = s.calTable ∧ (s.onShed b f).groupTable = s.groupTable
    ∧ (s.onShed b f).grantTable = s.grantTable ∧ (s.onShed b f).systemTable = s.systemTable
    ∧ (s.onShed b f).calLock = s.calLock ∧ (s.onShed b f).link0 = s.link0 ∧ (s.onShed b f).notifier = s.notifier
    ∧ (s.onShed b f).safe = s.safe ∧ (s.onShed b f).capture = s.capture := by
  repeat' constructor

@[simp] theorem State.onRelay_fields (s : State) (o : Outlet) (f : Relay → Relay) :
    (s.onRelay o f).pending = s.pending ∧ (s.onRelay o f).uptime = s.uptime ∧ (s.onRelay o f).subMs = s.subMs
    ∧ (s.onRelay o f).opportunityTaken = s.opportunityTaken ∧ (s.onRelay o f).safePin = s.safePin
    ∧ (s.onRelay o f).holdIn = s.holdIn ∧ (s.onRelay o f).lanes = s.lanes ∧ (s.onRelay o f).meters = s.meters
    ∧ (s.onRelay o f).outlets = s.outlets ∧ (s.onRelay o f).interval = s.interval
    ∧ (s.onRelay o f).outletLimits = s.outletLimits ∧ (s.onRelay o f).bankLimits = s.bankLimits
    ∧ (s.onRelay o f).phaseLimits = s.phaseLimits ∧ (s.onRelay o f).loadLost = s.loadLost
    ∧ (s.onRelay o f).phaseElements = s.phaseElements ∧ (s.onRelay o f).sheds = s.sheds
    ∧ (s.onRelay o f).relays = upd s.relays o f ∧ (s.onRelay o f).shown = s.shown ∧ (s.onRelay o f).queue = s.queue
    ∧ (s.onRelay o f).grantPtr = s.grantPtr ∧ (s.onRelay o f).turnOn = s.turnOn ∧ (s.onRelay o f).settle = s.settle
    ∧ (s.onRelay o f).tokens = s.tokens ∧ (s.onRelay o f).refill = s.refill ∧ (s.onRelay o f).groups = s.groups
    ∧ (s.onRelay o f).monitors = s.monitors ∧ (s.onRelay o f).outletTable = s.outletTable
    ∧ (s.onRelay o f).bankTable = s.bankTable ∧ (s.onRelay o f).phaseTable = s.phaseTable
    ∧ (s.onRelay o f).calTable = s.calTable ∧ (s.onRelay o f).groupTable = s.groupTable
    ∧ (s.onRelay o f).grantTable = s.grantTable ∧ (s.onRelay o f).systemTable = s.systemTable
    ∧ (s.onRelay o f).calLock = s.calLock ∧ (s.onRelay o f).link0 = s.link0 ∧ (s.onRelay o f).notifier = s.notifier
    ∧ (s.onRelay o f).safe = s.safe ∧ (s.onRelay o f).capture = s.capture := by
  repeat' constructor

@[simp] theorem State.onGroup_fields (s : State) (g : Group) (f : GroupOp → GroupOp) :
    (s.onGroup g f).pending = s.pending ∧ (s.onGroup g f).uptime = s.uptime ∧ (s.onGroup g f).subMs = s.subMs
    ∧ (s.onGroup g f).opportunityTaken = s.opportunityTaken ∧ (s.onGroup g f).safePin = s.safePin
    ∧ (s.onGroup g f).holdIn = s.holdIn ∧ (s.onGroup g f).lanes = s.lanes ∧ (s.onGroup g f).meters = s.meters
    ∧ (s.onGroup g f).outlets = s.outlets ∧ (s.onGroup g f).interval = s.interval
    ∧ (s.onGroup g f).outletLimits = s.outletLimits ∧ (s.onGroup g f).bankLimits = s.bankLimits
    ∧ (s.onGroup g f).phaseLimits = s.phaseLimits ∧ (s.onGroup g f).loadLost = s.loadLost
    ∧ (s.onGroup g f).phaseElements = s.phaseElements ∧ (s.onGroup g f).sheds = s.sheds
    ∧ (s.onGroup g f).relays = s.relays ∧ (s.onGroup g f).shown = s.shown ∧ (s.onGroup g f).queue = s.queue
    ∧ (s.onGroup g f).grantPtr = s.grantPtr ∧ (s.onGroup g f).turnOn = s.turnOn ∧ (s.onGroup g f).settle = s.settle
    ∧ (s.onGroup g f).tokens = s.tokens ∧ (s.onGroup g f).refill = s.refill
    ∧ (s.onGroup g f).groups = upd s.groups g f ∧ (s.onGroup g f).monitors = s.monitors
    ∧ (s.onGroup g f).outletTable = s.outletTable ∧ (s.onGroup g f).bankTable = s.bankTable
    ∧ (s.onGroup g f).phaseTable = s.phaseTable ∧ (s.onGroup g f).calTable = s.calTable
    ∧ (s.onGroup g f).groupTable = s.groupTable ∧ (s.onGroup g f).grantTable = s.grantTable
    ∧ (s.onGroup g f).systemTable = s.systemTable ∧ (s.onGroup g f).calLock = s.calLock
    ∧ (s.onGroup g f).link0 = s.link0 ∧ (s.onGroup g f).notifier = s.notifier ∧ (s.onGroup g f).safe = s.safe
    ∧ (s.onGroup g f).capture = s.capture := by
  repeat' constructor

@[simp] theorem State.onMonitor_fields (s : State) (g : Group) (f : Monitor → Monitor) :
    (s.onMonitor g f).pending = s.pending ∧ (s.onMonitor g f).uptime = s.uptime ∧ (s.onMonitor g f).subMs = s.subMs
    ∧ (s.onMonitor g f).opportunityTaken = s.opportunityTaken ∧ (s.onMonitor g f).safePin = s.safePin
    ∧ (s.onMonitor g f).holdIn = s.holdIn ∧ (s.onMonitor g f).lanes = s.lanes ∧ (s.onMonitor g f).meters = s.meters
    ∧ (s.onMonitor g f).outlets = s.outlets ∧ (s.onMonitor g f).interval = s.interval
    ∧ (s.onMonitor g f).outletLimits = s.outletLimits ∧ (s.onMonitor g f).bankLimits = s.bankLimits
    ∧ (s.onMonitor g f).phaseLimits = s.phaseLimits ∧ (s.onMonitor g f).loadLost = s.loadLost
    ∧ (s.onMonitor g f).phaseElements = s.phaseElements ∧ (s.onMonitor g f).sheds = s.sheds
    ∧ (s.onMonitor g f).relays = s.relays ∧ (s.onMonitor g f).shown = s.shown ∧ (s.onMonitor g f).queue = s.queue
    ∧ (s.onMonitor g f).grantPtr = s.grantPtr ∧ (s.onMonitor g f).turnOn = s.turnOn
    ∧ (s.onMonitor g f).settle = s.settle ∧ (s.onMonitor g f).tokens = s.tokens
    ∧ (s.onMonitor g f).refill = s.refill ∧ (s.onMonitor g f).groups = s.groups
    ∧ (s.onMonitor g f).monitors = upd s.monitors g f ∧ (s.onMonitor g f).outletTable = s.outletTable
    ∧ (s.onMonitor g f).bankTable = s.bankTable ∧ (s.onMonitor g f).phaseTable = s.phaseTable
    ∧ (s.onMonitor g f).calTable = s.calTable ∧ (s.onMonitor g f).groupTable = s.groupTable
    ∧ (s.onMonitor g f).grantTable = s.grantTable ∧ (s.onMonitor g f).systemTable = s.systemTable
    ∧ (s.onMonitor g f).calLock = s.calLock ∧ (s.onMonitor g f).link0 = s.link0
    ∧ (s.onMonitor g f).notifier = s.notifier ∧ (s.onMonitor g f).safe = s.safe
    ∧ (s.onMonitor g f).capture = s.capture := by
  repeat' constructor

@[simp] theorem State.onLink0_fields (s : State) (f : Link0 → Link0) :
    (s.onLink0 f).pending = s.pending ∧ (s.onLink0 f).uptime = s.uptime ∧ (s.onLink0 f).subMs = s.subMs
    ∧ (s.onLink0 f).opportunityTaken = s.opportunityTaken ∧ (s.onLink0 f).safePin = s.safePin
    ∧ (s.onLink0 f).holdIn = s.holdIn ∧ (s.onLink0 f).lanes = s.lanes ∧ (s.onLink0 f).meters = s.meters
    ∧ (s.onLink0 f).outlets = s.outlets ∧ (s.onLink0 f).interval = s.interval
    ∧ (s.onLink0 f).outletLimits = s.outletLimits ∧ (s.onLink0 f).bankLimits = s.bankLimits
    ∧ (s.onLink0 f).phaseLimits = s.phaseLimits ∧ (s.onLink0 f).loadLost = s.loadLost
    ∧ (s.onLink0 f).phaseElements = s.phaseElements ∧ (s.onLink0 f).sheds = s.sheds
    ∧ (s.onLink0 f).relays = s.relays ∧ (s.onLink0 f).shown = s.shown ∧ (s.onLink0 f).queue = s.queue
    ∧ (s.onLink0 f).grantPtr = s.grantPtr ∧ (s.onLink0 f).turnOn = s.turnOn ∧ (s.onLink0 f).settle = s.settle
    ∧ (s.onLink0 f).tokens = s.tokens ∧ (s.onLink0 f).refill = s.refill ∧ (s.onLink0 f).groups = s.groups
    ∧ (s.onLink0 f).monitors = s.monitors ∧ (s.onLink0 f).outletTable = s.outletTable
    ∧ (s.onLink0 f).bankTable = s.bankTable ∧ (s.onLink0 f).phaseTable = s.phaseTable
    ∧ (s.onLink0 f).calTable = s.calTable ∧ (s.onLink0 f).groupTable = s.groupTable
    ∧ (s.onLink0 f).grantTable = s.grantTable ∧ (s.onLink0 f).systemTable = s.systemTable
    ∧ (s.onLink0 f).calLock = s.calLock ∧ (s.onLink0 f).link0 = f s.link0 ∧ (s.onLink0 f).notifier = s.notifier
    ∧ (s.onLink0 f).safe = s.safe ∧ (s.onLink0 f).capture = s.capture := by
  repeat' constructor

@[simp] theorem State.onReports_fields (s : State) (f : Notifier × Link0 → Notifier × Link0) :
    (s.onReports f).pending = s.pending ∧ (s.onReports f).uptime = s.uptime ∧ (s.onReports f).subMs = s.subMs
    ∧ (s.onReports f).opportunityTaken = s.opportunityTaken ∧ (s.onReports f).safePin = s.safePin
    ∧ (s.onReports f).holdIn = s.holdIn ∧ (s.onReports f).lanes = s.lanes ∧ (s.onReports f).meters = s.meters
    ∧ (s.onReports f).outlets = s.outlets ∧ (s.onReports f).interval = s.interval
    ∧ (s.onReports f).outletLimits = s.outletLimits ∧ (s.onReports f).bankLimits = s.bankLimits
    ∧ (s.onReports f).phaseLimits = s.phaseLimits ∧ (s.onReports f).loadLost = s.loadLost
    ∧ (s.onReports f).phaseElements = s.phaseElements ∧ (s.onReports f).sheds = s.sheds
    ∧ (s.onReports f).relays = s.relays ∧ (s.onReports f).shown = s.shown ∧ (s.onReports f).queue = s.queue
    ∧ (s.onReports f).grantPtr = s.grantPtr ∧ (s.onReports f).turnOn = s.turnOn ∧ (s.onReports f).settle = s.settle
    ∧ (s.onReports f).tokens = s.tokens ∧ (s.onReports f).refill = s.refill ∧ (s.onReports f).groups = s.groups
    ∧ (s.onReports f).monitors = s.monitors ∧ (s.onReports f).outletTable = s.outletTable
    ∧ (s.onReports f).bankTable = s.bankTable ∧ (s.onReports f).phaseTable = s.phaseTable
    ∧ (s.onReports f).calTable = s.calTable ∧ (s.onReports f).groupTable = s.groupTable
    ∧ (s.onReports f).grantTable = s.grantTable ∧ (s.onReports f).systemTable = s.systemTable
    ∧ (s.onReports f).calLock = s.calLock ∧ (s.onReports f).link0 = (f (s.notifier, s.link0)).2
    ∧ (s.onReports f).notifier = (f (s.notifier, s.link0)).1 ∧ (s.onReports f).safe = s.safe
    ∧ (s.onReports f).capture = s.capture := by
  repeat' constructor

@[simp] theorem State.withPending_fields (s : State) (cs : List Instr) :
    (s.withPending cs).pending = cs ∧ (s.withPending cs).uptime = s.uptime ∧ (s.withPending cs).subMs = s.subMs
    ∧ (s.withPending cs).opportunityTaken = s.opportunityTaken ∧ (s.withPending cs).safePin = s.safePin
    ∧ (s.withPending cs).holdIn = s.holdIn ∧ (s.withPending cs).lanes = s.lanes
    ∧ (s.withPending cs).meters = s.meters ∧ (s.withPending cs).outlets = s.outlets
    ∧ (s.withPending cs).interval = s.interval ∧ (s.withPending cs).outletLimits = s.outletLimits
    ∧ (s.withPending cs).bankLimits = s.bankLimits ∧ (s.withPending cs).phaseLimits = s.phaseLimits
    ∧ (s.withPending cs).loadLost = s.loadLost ∧ (s.withPending cs).phaseElements = s.phaseElements
    ∧ (s.withPending cs).sheds = s.sheds ∧ (s.withPending cs).relays = s.relays ∧ (s.withPending cs).shown = s.shown
    ∧ (s.withPending cs).queue = s.queue ∧ (s.withPending cs).grantPtr = s.grantPtr
    ∧ (s.withPending cs).turnOn = s.turnOn ∧ (s.withPending cs).settle = s.settle
    ∧ (s.withPending cs).tokens = s.tokens ∧ (s.withPending cs).refill = s.refill
    ∧ (s.withPending cs).groups = s.groups ∧ (s.withPending cs).monitors = s.monitors
    ∧ (s.withPending cs).outletTable = s.outletTable ∧ (s.withPending cs).bankTable = s.bankTable
    ∧ (s.withPending cs).phaseTable = s.phaseTable ∧ (s.withPending cs).calTable = s.calTable
    ∧ (s.withPending cs).groupTable = s.groupTable ∧ (s.withPending cs).grantTable = s.grantTable
    ∧ (s.withPending cs).systemTable = s.systemTable ∧ (s.withPending cs).calLock = s.calLock
    ∧ (s.withPending cs).link0 = s.link0 ∧ (s.withPending cs).notifier = s.notifier
    ∧ (s.withPending cs).safe = s.safe ∧ (s.withPending cs).capture = s.capture := by
  repeat' constructor

end Sys2Proof.Machine
end

