-- ==== Sys2Proof/Laws/Frames.lean ====
section
/-! SUPPORT. Laws/Frames.lean: what the operations of the switching side leave unchanged. `State.quiet` blanks the fields
that raising events, switching, shedding, group operations and monitors write; each operation `op` there has the lemma
`(op s).quiet = s.quiet`, and `State.quiet_fields` reads from such an equation every field and part of a field that the
operation left as it was. -/

namespace Sys2Proof.Machine

/-! ## The blanked state -/

/-- A lane without what waits to be sent on it. -/
def Lane.quiet (l : Lane) : Lane := { l with relayList := [], indicator := none }

/-- A notifier without its pending set and streams: levels and mask. -/
def Notifier.quiet (n : Notifier) : Notifier :=
  { n with entries := [], overflow := none, streams := Vector.replicate 4 none }

/-- A link unit without notices and records. -/
def Link0.quiet (l : Link0) : Link0 := { l with notices := [], records := [], gap := 0 }

/-- The state without what the switching side writes. -/
def State.quiet (s : State) : State :=
  { s with
    lanes := Vector.ofFn fun b => s.lanes[b].quiet
    shown := State.reset.shown, relays := State.reset.relays, sheds := State.reset.sheds
    groups := State.reset.groups, monitors := State.reset.monitors, queue := []
    turnOn := State.reset.turnOn, settle := State.reset.settle
    outletTable := State.reset.outletTable, groupTable := State.reset.groupTable
    safe := { s.safe with followUp := [] }
    notifier := s.notifier.quiet, link0 := s.link0.quiet }

/-- What states with the same quiet part agree on. -/
theorem State.quiet_fields {s t : State} (h : t.quiet = s.quiet) :
    t.pending = s.pending ∧ t.uptime = s.uptime ∧ t.subMs = s.subMs ∧ t.opportunityTaken = s.opportunityTaken
    ∧ t.safePin = s.safePin ∧ t.holdIn = s.holdIn ∧ t.meters = s.meters ∧ t.outlets = s.outlets
    ∧ t.interval = s.interval ∧ t.outletLimits = s.outletLimits ∧ t.bankLimits = s.bankLimits
    ∧ t.phaseLimits = s.phaseLimits ∧ t.loadLost = s.loadLost ∧ t.phaseElements = s.phaseElements
    ∧ t.grantPtr = s.grantPtr ∧ t.tokens = s.tokens ∧ t.refill = s.refill ∧ t.bankTable = s.bankTable
    ∧ t.phaseTable = s.phaseTable ∧ t.calTable = s.calTable ∧ t.grantTable = s.grantTable
    ∧ t.systemTable = s.systemTable ∧ t.calLock = s.calLock ∧ t.capture = s.capture ∧ t.safe.cause = s.safe.cause
    ∧ t.notifier.quiet = s.notifier.quiet ∧ t.link0.quiet = s.link0.quiet := by
  simp only [State.quiet, State.mk.injEq] at h
  simp_all

/-- The lanes of states with the same quiet part agree but for what waits to be sent. -/
theorem State.quiet_lane {s t : State} (h : t.quiet = s.quiet) (b : Bank) : t.lanes[b].quiet = s.lanes[b].quiet := by
  have hl := congrArg State.lanes h
  simpa [State.quiet] using congrArg (fun v : Vector Lane 6 => v[b]) hl

/-- The link unit of states with the same quiet part agrees but for notices, records and the gap count. -/
theorem Link0.quiet_fields {l m : Link0} (h : m.quiet = l.quiet) :
    m.partialCell = l.partialCell ∧ m.framing = l.framing ∧ m.fifo = l.fifo ∧ m.reserved = l.reserved
    ∧ m.filled = l.filled ∧ m.restart = l.restart ∧ m.lastCause = l.lastCause ∧ m.errors = l.errors
    ∧ m.line = l.line := by
  simp only [Link0.quiet, Link0.mk.injEq] at h
  simp_all

theorem Notifier.quiet_fields {n m : Notifier} (h : m.quiet = n.quiet) : m.levels = n.levels ∧ m.mask = n.mask := by
  simp only [Notifier.quiet, Notifier.mk.injEq] at h
  simp_all

/-! ## Folds -/

/-- A part of the state that every step of a fold leaves alone is left alone by the fold. -/
theorem foldl_keeps {α β σ : Type} (p : σ → β) (f : σ → α → σ) (h : ∀ s a, p (f s a) = p s) (l : List α) (s : σ) :
    p (l.foldl f s) = p s := by
  induction l generalizing s with
  | nil => rfl
  | cons a l ih => simp [List.foldl, ih, h]

theorem foldl_quiet {α : Type} (f : State → α → State) (h : ∀ s a, (f s a).quiet = s.quiet) (l : List α) (s : State) :
    (l.foldl f s).quiet = s.quiet := foldl_keeps State.quiet f h l s

/-! ## Events -/

/-- The notifier and the link unit without what an event may change. -/
def quietPair (x : Notifier × Link0) : Notifier × Link0 := (x.1.quiet, x.2.quiet)

@[simp] theorem without_quiet (n : Notifier) (e : PendingEntry) : (n.without e).quiet = n.quiet := by
  unfold Notifier.without; split <;> rfl

@[simp] theorem settle_quiet (n : Notifier) (now : Uptime) (e : Event) : (n.settle now e).quiet = n.quiet := by
  unfold Notifier.settle; split <;> [rfl; split <;> rfl]

theorem moveNotices_quiet (k : Nat) (x : Notifier × Link0) : quietPair (moveNotices k x) = quietPair x := by
  induction k generalizing x with
  | zero => rfl
  | succ k ih =>
    unfold moveNotices
    split
    · split
      · rfl
      · rw [ih]; simp [quietPair, Link0.quiet]
    · rfl

@[simp] theorem fillNotices_quiet (x : Notifier × Link0) : quietPair (fillNotices x) = quietPair x :=
  moveNotices_quiet _ x

@[simp] theorem raiseUnbound_quiet (now : Uptime) (e : Event) (x : Notifier × Link0) :
    quietPair (raiseUnbound now e x) = quietPair x := by
  unfold raiseUnbound; split
  · rfl
  · simp [quietPair]
    have := fillNotices_quiet (x.1.settle now e, x.2)
    simpa [quietPair] using this

@[simp] theorem offerRecord_quiet (l : Link0) (r : Record) : (l.offerRecord r).quiet = l.quiet := by
  unfold Link0.offerRecord; split <;> rfl

theorem offerRecords_quiet (rs : List Record) (l : Link0) : (rs.foldl Link0.offerRecord l).quiet = l.quiet :=
  foldl_keeps Link0.quiet _ offerRecord_quiet rs l

@[simp] theorem streamProduces_quiet (now : Uptime) (i : Stream) (b : Binding) (rs : List Record)
    (x : Notifier × Link0) : quietPair (streamProduces now i b rs x) = quietPair x := by
  unfold streamProduces
  split
  · rw [raiseUnbound_quiet]; simp [quietPair, Notifier.quiet, offerRecords_quiet]
  · simp [quietPair, Notifier.quiet, offerRecords_quiet]

@[simp] theorem notify_quiet (now : Uptime) (e : Event) (x : Notifier × Link0) :
    quietPair (notify now e x) = quietPair x := by
  unfold notify
  split
  · simp
  · split <;> simp

theorem State.onReports_quiet (s : State) (f : Notifier × Link0 → Notifier × Link0)
    (h : ∀ x, quietPair (f x) = quietPair x) : (s.onReports f).quiet = s.quiet := by
  have hx := h (s.notifier, s.link0)
  simp only [quietPair, Prod.mk.injEq] at hx
  simp [State.quiet, hx.1, hx.2]

@[simp] theorem State.raiseEvent_quiet (s : State) (e : Event) : (s.raiseEvent e).quiet = s.quiet :=
  s.onReports_quiet _ (notify_quiet _ _)

@[simp] theorem State.raise_quiet (s : State) (k : EventKind) (n : Nat) (d : Detail) :
    (s.raise k n d).quiet = s.quiet := s.raiseEvent_quiet _

@[simp] theorem State.raiseLinkError_quiet (s : State) (n : Nat) (r r' : ErrorRecord) (k : ErrorKind) :
    (s.raiseLinkError n r r' k).quiet = s.quiet := by
  unfold State.raiseLinkError; split <;> simp

/-! ## Single updates -/

theorem State.onLane_quiet (s : State) (b : Bank) (f : Lane → Lane) (h : ∀ l, (f l).quiet = l.quiet) :
    (s.onLane b f).quiet = s.quiet := by
  have : (Vector.ofFn fun i : Fin 6 => (upd s.lanes b f)[i].quiet) = Vector.ofFn fun i : Fin 6 => s.lanes[i].quiet := by
    ext i hi
    simp only [Vector.getElem_ofFn, Fin.getElem_fin, upd_getElem]
    split
    · rename_i h'; subst h'; exact h _
    · rfl
  simp only [State.quiet, State.onLane_fields, this]

@[simp] theorem State.onRelay_quiet (s : State) (o : Outlet) (f : Relay → Relay) :
    (s.onRelay o f).quiet = s.quiet := rfl
@[simp] theorem State.onShed_quiet (s : State) (b : Bank) (f : ShedUnit → ShedUnit) :
    (s.onShed b f).quiet = s.quiet := rfl
@[simp] theorem State.onGroup_quiet (s : State) (g : Group) (f : GroupOp → GroupOp) :
    (s.onGroup g f).quiet = s.quiet := rfl
@[simp] theorem State.onMonitor_quiet (s : State) (g : Group) (f : Monitor → Monitor) :
    (s.onMonitor g f).quiet = s.quiet := rfl
@[simp] theorem State.dropEntry_quiet (s : State) (o : Outlet) : (s.dropEntry o).quiet = s.quiet := rfl
@[simp] theorem State.joinQueue_quiet (s : State) (o : Outlet) (a : Action) (r : Origin) :
    (s.joinQueue o a r).quiet = s.quiet := rfl
@[simp] theorem State.monitorsOffline_quiet (s : State) : s.monitorsOffline.quiet = s.quiet := by
  simp only [State.monitorsOffline, State.quiet]
@[simp] theorem State.endTurnOn_quiet (s : State) (b : Bank) (r : Completion) :
    (s.endTurnOn b r).quiet = s.quiet := rfl

/-! ## Modes, relay states, shed stacks -/

@[simp] theorem State.placeIndicate_quiet (s : State) (b : Bank) : (s.placeIndicate b).quiet = s.quiet := by
  unfold State.placeIndicate; split
  · exact s.onLane_quiet b _ fun _ => rfl
  · rfl

@[simp] theorem State.refreshModes_quiet (s : State) (b : Bank) : (s.refreshModes b).quiet = s.quiet := by
  unfold State.refreshModes; split
  · rfl
  · rw [State.placeIndicate_quiet]; rfl

@[simp] theorem State.refreshModesOf_quiet (s : State) (l : List Outlet) : (s.refreshModesOf l).quiet = s.quiet :=
  foldl_quiet _ (fun s b => by split <;> simp) _ s

@[simp] theorem State.notePower_quiet (s t : State) (g : Group) : (s.notePower t g).quiet = s.quiet := by
  unfold State.notePower; split <;> simp

@[simp] theorem State.notePowerOf_quiet (s t : State) (o : Outlet) : (s.notePowerOf t o).quiet = s.quiet := by
  unfold State.notePowerOf; split <;> simp

@[simp] theorem State.setRelay_quiet (s : State) (o : Outlet) (f : Relay → Relay) :
    (s.setRelay o f).quiet = s.quiet := by simp [State.setRelay]

@[simp] theorem State.refreshSheds_quiet (s : State) (b : Bank) : (s.refreshSheds b).quiet = s.quiet := rfl

@[simp] theorem State.refreshAllSheds_quiet (s : State) : s.refreshAllSheds.quiet = s.quiet :=
  foldl_quiet _ State.refreshSheds_quiet _ s

@[simp] theorem State.setStack_quiet (s : State) (o : Outlet) (f : List Outlet → List Outlet) :
    (s.setStack o f).quiet = s.quiet := by simp [State.setStack]

@[simp] theorem State.pushShed_quiet (s : State) (o : Outlet) : (s.pushShed o).quiet = s.quiet := s.setStack_quiet o _

@[simp] theorem State.unshed_quiet (s : State) (o : Outlet) : (s.unshed o).quiet = s.quiet := by
  unfold State.unshed; split <;> simp

@[simp] theorem State.endFlights_quiet (s : State) (o : Outlet) : (s.endFlights o).quiet = s.quiet := by
  simp [State.endFlights]

/-! ## The switching queue -/

@[simp] theorem State.request_quiet (s : State) (o : Outlet) (a : Action) (r : Origin) :
    (s.request o a r).2.quiet = s.quiet := by
  unfold State.request
  split
  · simp
  · split
    · rfl
    · split
      · rfl
      · split <;> simp

@[simp] theorem State.withdraw_quiet (s : State) (p : QueueEntry → Bool) : (s.withdraw p).quiet = s.quiet := by
  unfold State.withdraw
  rw [foldl_quiet _ (fun s e => by simp)]
  rfl

@[simp] theorem State.issueRelay_quiet (s : State) (o : Outlet) (a : Action) : (s.issueRelay o a).quiet = s.quiet := by
  unfold State.issueRelay
  refine (State.onLane_quiet _ _ _ ?_).trans (State.setRelay_quiet _ _ _)
  intro l; rfl

@[simp] theorem State.issue_quiet (s : State) (o : Outlet) (a : Action) : (s.issue o a).quiet = s.quiet := by
  unfold State.issue
  rw [State.issueRelay_quiet]; rfl

@[simp] theorem State.issueOpens_quiet (s : State) : s.issueOpens.quiet = s.quiet :=
  foldl_quiet _ (fun s e => by simp) _ s

/-! ## Tables that the switching side releases -/

@[simp] theorem State.applyOutlet_quiet (s : State) (o : Outlet) : (s.applyOutlet o).quiet = s.quiet := by
  unfold State.applyOutlet; rw [State.refreshModes_quiet]; rfl

@[simp] theorem State.raiseApplied_quiet (s : State) (t : TableId) (n : Nat) :
    (s.raiseApplied t n).quiet = s.quiet := s.raise_quiet _ _ _

/-- The outlet table is no part of the quiet state. -/
theorem State.setOutletTable_quiet (s : State) (t : Staged OutletEntry 48 48) :
    ({ s with outletTable := t } : State).quiet = s.quiet := rfl

/-- The group table is no part of the quiet state. -/
theorem State.setGroupTable_quiet (s : State) (t : Staged GroupEntry 32 32) :
    ({ s with groupTable := t } : State).quiet = s.quiet := rfl

@[simp] theorem State.releaseOutlet_quiet (s : State) (o : Outlet) : (s.releaseOutlet o).quiet = s.quiet := by
  unfold State.releaseOutlet
  split
  · dsimp only
    split
    · rw [State.raiseApplied_quiet, State.setOutletTable_quiet, State.setOutletTable_quiet, State.applyOutlet_quiet]
    · rw [State.setOutletTable_quiet, State.applyOutlet_quiet]
  · rfl

@[simp] theorem State.groupApplied_quiet (t s : State) (g : Group) : (State.groupApplied t s g).quiet = s.quiet := by
  simp [State.groupApplied]

@[simp] theorem State.applyGroups_quiet (s : State) (gs : List Group) : (s.applyGroups gs).quiet = s.quiet := by
  unfold State.applyGroups
  rw [foldl_quiet _ (fun t g => by simp)]
  rfl

@[simp] theorem State.releaseGroups_quiet (s : State) : s.releaseGroups.quiet = s.quiet := by
  unfold State.releaseGroups
  dsimp only
  split
  · rfl
  · split
    · rw [State.raiseApplied_quiet, State.setGroupTable_quiet, State.applyGroups_quiet]
    · rw [State.setGroupTable_quiet, State.applyGroups_quiet]

/-! ## The group engine -/

@[simp] theorem State.mark_quiet (s : State) (g : Group) (o : Outlet) (p : Progress) :
    (s.mark g o p).quiet = s.quiet := rfl

@[simp] theorem State.await_quiet (s : State) (g : Group) (o : Outlet) : (s.await g o).quiet = s.quiet := rfl

@[simp] theorem State.addFaulted_quiet (s : State) (g : Group) (o : Outlet) : (s.addFaulted g o).quiet = s.quiet := rfl

@[simp] theorem State.endOp_quiet (s : State) (g : Group) (r : OpResult) (w : Option OpReason) (v : Bool) :
    (s.endOp g r w v).quiet = s.quiet := by simp [State.endOp]

@[simp] theorem State.withdrawAwaited_quiet (s : State) (g : Group) : (s.withdrawAwaited g).quiet = s.quiet := by
  simp [State.withdrawAwaited]

@[simp] theorem State.failOp_quiet (s : State) (g : Group) (r : OpReason) : (s.failOp g r).quiet = s.quiet := by
  simp [State.failOp]

@[simp] theorem State.enterVerifying_quiet (s : State) (g : Group) : (s.enterVerifying g).quiet = s.quiet := by
  unfold State.enterVerifying; dsimp only; split <;> simp

@[simp] theorem State.oningOver_quiet (s : State) (g : Group) : (s.oningOver g).quiet = s.quiet := by
  unfold State.oningOver; split <;> simp

@[simp] theorem State.takeTurns_quiet (k : Nat) (g : Group) (i : Nat) (s : State) :
    (State.takeTurns k g i s).quiet = s.quiet := by
  induction k generalizing i s with
  | zero => rfl
  | succ k ih =>
    unfold State.takeTurns
    split
    · simp
    · dsimp only
      split
      · simp [ih]
      · split
        · simp [ih]
        · split
          · simp [ih]
          · split <;> simp [ih]

@[simp] theorem State.turnsFrom_quiet (s : State) (g : Group) (i : Nat) : (s.turnsFrom g i).quiet = s.quiet :=
  State.takeTurns_quiet _ g i s

@[simp] theorem State.enterOning_quiet (s : State) (g : Group) : (s.enterOning g).quiet = s.quiet := by
  simp [State.enterOning]

@[simp] theorem State.afterClose_quiet (s : State) (g : Group) : (s.afterClose g).quiet = s.quiet := by
  unfold State.afterClose; dsimp only; split <;> [skip; split] <;> simp

@[simp] theorem State.requestOpen_quiet (s : State) (g : Group) (o : Outlet) :
    (s.requestOpen g o).quiet = s.quiet := by simp [State.requestOpen]

@[simp] theorem State.offingOver_quiet (s : State) (g : Group) : (s.offingOver g).quiet = s.quiet := by
  unfold State.offingOver
  dsimp only
  split
  · rfl
  · split
    · simp
    · split
      · split <;> simp
      · split <;> simp

@[simp] theorem State.enterOffing_quiet (s : State) (g : Group) : (s.enterOffing g).quiet = s.quiet := by
  unfold State.enterOffing
  rw [State.offingOver_quiet, foldl_quiet _ (fun s o => by split <;> simp)]
  rfl

@[simp] theorem State.startOp_quiet (s : State) (g : Group) (x : OpState) (k : OpKind) (c : OpCause) :
    (s.startOp g x k c).quiet = s.quiet := by simp [State.startOp]

@[simp] theorem State.startCycle_quiet (s : State) (g : Group) (c : OpCause) :
    (s.startCycle g c).quiet = s.quiet := by simp [State.startCycle]

@[simp] theorem State.startOff_quiet (s : State) (g : Group) : (s.startOff g).quiet = s.quiet := by
  simp [State.startOff]

@[simp] theorem State.unshedMembers_quiet (s : State) (g : Group) : (s.unshedMembers g).quiet = s.quiet :=
  foldl_quiet _ (fun s o => by split <;> simp) _ s

@[simp] theorem State.startOn_quiet (s : State) (g : Group) : (s.startOn g).quiet = s.quiet := by
  simp [State.startOn]

@[simp] theorem State.offingCompletion_quiet (s : State) (g : Group) (o : Outlet) (a : Action) (r : Completion) :
    (s.offingCompletion g o a r).quiet = s.quiet := by
  unfold State.offingCompletion
  split
  · simp
  · simp
  · split
    · simp
    · split
      · simp
      · split <;> simp

@[simp] theorem State.oningCompletion_quiet (s : State) (g : Group) (o : Outlet) (r : Completion) :
    (s.oningCompletion g o r).quiet = s.quiet := by
  unfold State.oningCompletion
  split
  · split <;> simp
  · split <;> simp

@[simp] theorem State.groupCompletion_quiet (s : State) (o : Outlet) (a : Action) (r : Completion) :
    (s.groupCompletion o a r).quiet = s.quiet := by
  unfold State.groupCompletion
  split
  · rfl
  · dsimp only; split <;> simp

@[simp] theorem State.groupBankLost_quiet (s : State) (b : Bank) : (s.groupBankLost b).quiet = s.quiet :=
  foldl_quiet _ (fun s g => by dsimp only; split <;> simp) _ s

@[simp] theorem State.groupsSafe_quiet (s : State) : s.groupsSafe.quiet = s.quiet :=
  foldl_quiet _ (fun s g => by split <;> simp) _ s

@[simp] theorem State.groupToken_quiet (s : State) (g : Group) : (s.groupToken g).quiet = s.quiet := by
  unfold State.groupToken; split <;> simp

@[simp] theorem State.appendHistories_quiet (s : State) (p : Outlet → Option Int) :
    (s.appendHistories p).quiet = s.quiet :=
  foldl_quiet _ (fun s g => s.onGroup_quiet g _) _ s

@[simp] theorem State.verifyCurrent_quiet (s : State) (p : Outlet → Nat) : (s.verifyCurrent p).quiet = s.quiet :=
  foldl_quiet _ (fun s g => by split <;> simp) _ s

@[simp] theorem State.retryOp_quiet (s : State) (g : Group) : (s.retryOp g).quiet = s.quiet := by
  unfold State.retryOp; dsimp only; split <;> simp

/-! ## Safe control, completions, monitors, shedding -/

theorem State.requestSafe_quiet (s : State) : s.requestSafe.2.quiet = s.quiet :=
  foldl_keeps (fun x : SafeTally × State => x.2.quiet) _ (fun x o => by split <;> simp) _ _

/-- The follow-up set is no part of the quiet state. -/
theorem State.setFollowUp_quiet (s : State) (l : List Outlet) :
    ({ s with safe := { s.safe with followUp := l } } : State).quiet = s.quiet := rfl

@[simp] theorem State.safeFollowUp_quiet (s : State) (o : Outlet) : (s.safeFollowUp o).quiet = s.quiet := by
  unfold State.safeFollowUp
  split
  · dsimp only
    split
    · split
      · rfl
      · split
        · rfl
        · rw [State.request_quiet]; rfl
      · split
        · rfl
        · rw [State.request_quiet]; rfl
    · rfl
  · rfl

@[simp] theorem State.raiseSwitchDone_quiet (s : State) (r : ActionRecord) :
    (s.raiseSwitchDone r).quiet = s.quiet := s.raiseEvent_quiet _

@[simp] theorem State.complete_quiet (s : State) (o : Outlet) (r : Completion) (a : Option SetNo) :
    (s.complete o r a).quiet = s.quiet := by
  unfold State.complete
  split
  · rfl
  · dsimp only
    simp only [State.safeFollowUp_quiet, State.groupCompletion_quiet, State.endFlights_quiet,
      State.raiseSwitchDone_quiet]
    split <;> simp

@[simp] theorem State.hangBusy_quiet (s : State) (g : Group) (r : BusyReport) : (s.hangBusy g r).quiet = s.quiet := by
  simp [State.hangBusy]

@[simp] theorem State.hangAccepted_quiet (s : State) (g : Group) (x : Option Nat) :
    (s.hangAccepted g x).quiet = s.quiet := by simp [State.hangAccepted]

@[simp] theorem State.hangCycle_quiet (s : State) (g : Group) (x : Option Nat) :
    (s.hangCycle g x).quiet = s.quiet := by
  unfold State.hangCycle
  dsimp only
  split
  · simp
  · split <;> simp

@[simp] theorem State.graceActs_quiet (s : State) (g : Group) : (s.graceActs g).quiet = s.quiet := by
  unfold State.graceActs
  dsimp only
  split
  · rfl
  · simp
  · simp
  · split <;> simp

@[simp] theorem State.monitorToken_quiet (s : State) (g : Group) : (s.monitorToken g).quiet = s.quiet := by
  unfold State.monitorToken
  split
  · split <;> simp
  · simp
  · simp
  · simp
  · rfl
  · rfl
  · rfl

@[simp] theorem State.tokenFor_quiet (s : State) (g : Group) : (s.tokenFor g).quiet = s.quiet := by
  unfold State.tokenFor; split <;> simp

@[simp] theorem State.takeTokens_quiet (s : State) (l : List Byte) : (s.takeTokens l).quiet = s.quiet :=
  foldl_quiet _ (fun s n => by split <;> simp) _ s

@[simp] theorem State.shedFirst_quiet (b : Bank) (l : List Outlet) (s : State) :
    (State.shedFirst b l s).quiet = s.quiet := by
  induction l generalizing s with
  | nil => unfold State.shedFirst; split <;> simp
  | cons o l ih => unfold State.shedFirst; dsimp only; split <;> simp [ih]

@[simp] theorem State.restoreTop_quiet (s : State) (b : Bank) : (s.restoreTop b).quiet = s.quiet := by
  unfold State.restoreTop
  split
  · rfl
  · split
    · rfl
    · dsimp only; split <;> simp

/-! ## The relay block -/

@[simp] theorem State.reconcile_quiet (s : State) (o : Outlet) (x y : RelayState) (c : ReconcileCause) :
    (s.reconcile o x y c).quiet = s.quiet := by simp [State.reconcile]

@[simp] theorem State.relaySees_quiet (s : State) (o : Outlet) (x y : Bool) (c : ReconcileCause) :
    (s.relaySees o x y c).quiet = s.quiet := by
  unfold State.relaySees
  split <;> (try split) <;> simp

@[simp] theorem State.relaySet_quiet (s : State) (b : Bank) (m : BitVec 8) (x : Bool) (c : ReconcileCause) :
    (s.relaySet b m x c).quiet = s.quiet := foldl_quiet _ (fun s p => by simp) _ s

@[simp] theorem State.verified_quiet (s : State) (o : Outlet) (f : Flight) (c l : Bool) (x : Option Nat)
    (r : RelayState × Option FaultDetail) : (s.verified o f c l x r).quiet = s.quiet := by
  unfold State.verified; dsimp only; split <;> simp

@[simp] theorem State.watchFault_quiet (s : State) (o : Outlet) (st : RelayState) (d : FaultDetail) (l : Bool)
    (x : Option Nat) : (s.watchFault o st d l x).quiet = s.quiet := by simp [State.watchFault]

@[simp] theorem State.weldWatch_quiet (s : State) (o : Outlet) (l : Bool) (x : Nat) :
    (s.weldWatch o l x).quiet = s.quiet := by
  unfold State.weldWatch; dsimp only; split <;> [split <;> simp; simp]

@[simp] theorem State.openWatch_quiet (s : State) (o : Outlet) (k : WindowKind) (l : Bool) (x : Option Nat) :
    (s.openWatch o k l x).quiet = s.quiet := by
  unfold State.openWatch; dsimp only; split <;> [split <;> simp; simp]

@[simp] theorem State.relayAtClose_quiet (s : State) (o : Outlet) (w : Window) (k : WindowKind) (c : Bool)
    (x : Option Nat) : (s.relayAtClose o w k c x).quiet = s.quiet := by
  unfold State.relayAtClose
  dsimp only
  split
  · split <;> simp
  · split <;> simp

@[simp] theorem State.relaysAtClose_quiet (s : State) (b : Bank) (w : Window) (k : WindowKind) (c : Bool) :
    (s.relaysAtClose b w k c).quiet = s.quiet := foldl_quiet _ (fun s p => by simp) _ s

@[simp] theorem State.relayLost_quiet (s : State) (o : Outlet) : (s.relayLost o).quiet = s.quiet := by
  unfold State.relayLost; split <;> simp

end Sys2Proof.Machine
end

