-- ==== Sys2Proof/Laws/Ops.lean ====
section
/-! SUPPORT. Laws/Ops.lean: what each shared operation can do, said once: counters and timers, the taking of a command,
requests to the switching queue, error records, the notice queue and the record queue, HOLD_OUT, the derived power
state, receivers and bank loss. -/

namespace Sys2Proof.Machine

/-! ## Counters, clamps and timers -/

theorem satSucc_eq_min (max x : Nat) (h : x ≤ max) : satSucc max x = min max (x + 1) := by
  unfold satSucc; split <;> omega

theorem satSucc_le (max x : Nat) : satSucc max x ≤ max := by
  unfold satSucc; split <;> omega

@[simp] theorem due_none (now : Uptime) (len : Nat) : due none now len = false := rfl

@[simp] theorem due_some (start now : Uptime) (len : Nat) : due (some start) now len = true ↔ len ≤ elapsed now start := by
  simp [due]

/-- What the carry moves is not lost while the counter is below its largest value (R37). -/
theorem carryEnergy_sum (energy residue : Nat) (h : energy + residue / Config.energyUnit ≤ Config.energyMax) :
    (carryEnergy energy residue).1 * Config.energyUnit + (carryEnergy energy residue).2
      = energy * Config.energyUnit + residue := by
  simp only [carryEnergy, Nat.min_eq_right h, Nat.add_mul]
  rw [Nat.add_assoc, Nat.mul_comm (residue / _), Nat.div_add_mod]

/-! ## Taking a command (R160, R161) -/

theorem State.canTake_iff_ready (s : State) (kind tag : Byte) (payload : List Byte) :
    s.canTake { kind := kind, tag := tag, payload := payload } true = true ↔ s.ready kind tag payload := by
  simp only [State.canTake, State.ready, Link0.freeSlots, Config.responseSlots]
  cases s.link0.fifo <;> simp [and_assoc]

theorem State.canTake_iff_readyForToken (s : State) (tag : Byte) (payload : List Byte) :
    s.canTake { kind := 0x10, tag := tag, payload := payload } false = true ↔ s.readyForToken tag payload := by
  simp only [State.canTake, State.readyForToken]
  cases s.link0.fifo <;> simp

theorem State.popCommand_eq_taken (s : State) : s.popCommand = s.taken := rfl

theorem State.fillSlot_eq_answered (s : State) (tag kind : Byte) (st : Status) (a : Answer) :
    s.fillSlot tag kind (some (st, a)) = s.answered kind tag st a := rfl

/-- A command that can be taken, with a payload of its kind's length, runs and its reply fills the slot. -/
theorem State.take_of_ready {s : State} {kind tag : Byte} {payload : List Byte} {len : Nat} (run : State → Reply)
    (h : s.ready kind tag payload) (hl : payload.length = len) :
    s.take kind tag payload len run = .next ((run s.taken).state.fillSlot tag kind (run s.taken).answer) := by
  simp [State.take, (s.canTake_iff_ready kind tag payload).2 h, State.replyTo, hl, State.popCommand_eq_taken]

/-- A payload of another length is answered BAD_ARG with no offending index, and the owner does not run. -/
theorem State.take_of_badLength {s : State} {kind tag : Byte} {payload : List Byte} {len : Nat} (run : State → Reply)
    (h : s.ready kind tag payload) (hl : payload.length ≠ len) :
    s.take kind tag payload len run = .next (s.taken.answered kind tag .badArg (.offending none)) := by
  simp [State.take, (s.canTake_iff_ready kind tag payload).2 h, State.replyTo, hl, State.popCommand_eq_taken,
    State.reply, State.fillSlot_eq_answered]

/-- A command that cannot be taken changes nothing (entry 2). -/
theorem State.take_of_not_ready {s : State} {kind tag : Byte} {payload : List Byte} {len : Nat} (run : State → Reply)
    (h : ¬ s.ready kind tag payload) : s.take kind tag payload len run = .next s := by
  have hc : s.canTake { kind := kind, tag := tag, payload := payload } true = false := by
    rw [← Bool.not_eq_true, s.canTake_iff_ready]; exact h
  simp [State.take, hc]

/-! ## Requests to the switching queue (R84 to R86) -/

theorem State.request_of_noEntry {s : State} {o : Outlet} (a : Action) (r : Origin) (h : s.entryOf o = none) :
    s.request o a r = (.queued, s.joinQueue o a r) := by simp [State.request, h]

theorem State.request_of_issued {s : State} {o : Outlet} (a : Action) (r : Origin) {e : QueueEntry} {t : Uptime}
    (h : s.entryOf o = some e) (hi : e.state = .issued t) : s.request o a r = (.refusedBusy, s) := by
  simp [State.request, h, hi]

theorem State.request_of_sameAction {s : State} {o : Outlet} {a : Action} (r : Origin) {e : QueueEntry}
    (h : s.entryOf o = some e) (hw : e.state = .waiting) (ha : e.action = a) : s.request o a r = (.merged, s) := by
  simp [State.request, h, hw, ha]

theorem State.request_of_higherRank {s : State} {o : Outlet} {a : Action} {r : Origin} {e : QueueEntry}
    (h : s.entryOf o = some e) (hw : e.state = .waiting) (ha : e.action ≠ a) (hr : e.origin.rank < r.rank) :
    s.request o a r = (.refusedRank, s) := by
  simp [State.request, h, hw, ha, hr]

theorem State.request_of_replaced {s : State} {o : Outlet} {a : Action} {r : Origin} {e : QueueEntry}
    (h : s.entryOf o = some e) (hw : e.state = .waiting) (ha : e.action ≠ a) (hr : r.rank ≤ e.origin.rank) :
    s.request o a r = (.replaced, ((s.dropEntry o).endFlights o).joinQueue o a r) := by
  simp [State.request, h, hw, ha, Nat.not_lt.2 hr]

/-- A request that is not accepted changes nothing. -/
theorem State.request_of_not_accepted {s : State} {o : Outlet} {a : Action} {r : Origin}
    (h : (s.request o a r).1.accepted = false) : (s.request o a r).2 = s := by
  unfold State.request at h ⊢
  repeat' split
  all_goals first | rfl | skip
  all_goals simp_all [QueueAnswer.accepted]

@[simp] theorem State.refreshSheds_queue (s : State) (b : Bank) : (s.refreshSheds b).queue = s.queue := rfl

@[simp] theorem State.endFlights_queue (s : State) (o : Outlet) : (s.endFlights o).queue = s.queue := rfl

/-- The removal of WAITING entries leaves the others, in order (R87). -/
theorem State.withdraw_queue (s : State) (p : QueueEntry → Bool) :
    (s.withdraw p).queue = s.queue.filter fun e => !(e.isWaiting && p e) := by
  unfold State.withdraw
  generalize (s.queue.filter fun e => e.isWaiting && p e) = l
  generalize ht : ({ s with queue := s.queue.filter fun e => !(e.isWaiting && p e) } : State) = t
  have : t.queue = s.queue.filter fun e => !(e.isWaiting && p e) := by rw [← ht]
  rw [← this]
  clear this ht
  induction l generalizing t with
  | nil => rfl
  | cons e l ih => simp [ih]

theorem State.entryOf_none_iff (s : State) (o : Outlet) :
    s.entryOf o = none ↔ o ∉ s.queue.map (·.outlet) := by
  simp [State.entryOf, List.find?_eq_none]

/-- Dropping an entry, and any removal, keeps one entry an outlet at most (R84). -/
theorem State.queueKept_of_sublist {s t : State} (h : s.QueueKept) (hq : t.queue.Sublist s.queue) : t.QueueKept :=
  List.Nodup.sublist (hq.map _) h

/-- Every request keeps one entry an outlet at most (R84, R85). -/
theorem State.request_queueKept {s : State} (o : Outlet) (a : Action) (r : Origin) (h : s.QueueKept) :
    (s.request o a r).2.QueueKept := by
  unfold State.request
  split
  · rename_i hn
    rw [State.entryOf_none_iff] at hn
    simp only [State.QueueKept, State.joinQueue, List.map_append, List.map_cons, List.map_nil]
    exact List.nodup_append.2 ⟨h, by simp, by
      simpa using fun x hx he => hn (List.mem_map.2 ⟨x, hx, he⟩)⟩
  · repeat' split
    · exact h
    · exact h
    · exact h
    · simp only [State.QueueKept, State.joinQueue, State.endFlights_queue, State.dropEntry, List.map_append,
        List.map_cons, List.map_nil]
      refine List.nodup_append.2 ⟨List.Nodup.sublist (List.filter_sublist.map _) h, by simp, ?_⟩
      simp only [List.mem_map, List.mem_filter, List.mem_singleton]
      rintro _ ⟨x, hx, rfl⟩ _ rfl
      simpa using hx.2

/-! ## Error records (R5) -/

/-- The record operation is the record after the error, as the statements describe it, for a record whose kinds were
entered by it. -/
theorem ErrorRecord.add_eq_after (r : ErrorRecord) (k : ErrorKind) (bytes : List Byte) :
    r.add k bytes = r.after k bytes := by
  unfold ErrorRecord.add ErrorRecord.after
  cases r.kinds <;> simp

theorem ErrorRecord.add_kinds_mem (r : ErrorRecord) (k : ErrorKind) (bytes : List Byte) : k ∈ (r.add k bytes).kinds := by
  unfold ErrorRecord.add; dsimp only; split <;> simp_all

/-! ## Notices and records (R164, R173 to R175) -/

theorem Notifier.first_none_iff (n : Notifier) (l : List PendingEntry) : n.first l = none ↔ l = [] := by
  cases l with
  | nil => simp [Notifier.first]
  | cons e es => simp only [Notifier.first]; split <;> [simp; (split <;> simp)]

theorem moveNotices_length_le (k : Nat) (x : Notifier × Link0) (h : x.2.notices.length ≤ Config.noticeDepth) :
    (moveNotices k x).2.notices.length ≤ Config.noticeDepth := by
  induction k generalizing x with
  | zero => exact h
  | succ k ih =>
    unfold moveNotices
    split
    · split
      · exact h
      · exact ih _ (by simp; omega)
    · exact h

/-- With fuel for the room left, the moving ends with a full notice queue or with nothing that may be sent (R175). -/
theorem moveNotices_done (k : Nat) (x : Notifier × Link0) (h : Config.noticeDepth ≤ k + x.2.notices.length) :
    (moveNotices k x).2.notices.length < Config.noticeDepth → (moveNotices k x).1.candidates = [] := by
  induction k generalizing x with
  | zero => simp only [moveNotices]; intro hl; omega
  | succ k ih =>
    unfold moveNotices
    split
    · split
      · rename_i hn; intro _; exact (Notifier.first_none_iff _ _).1 hn
      · exact ih _ (by simp; omega)
    · intro hl; contradiction

theorem fillNotices_length_le (x : Notifier × Link0) (h : x.2.notices.length ≤ Config.noticeDepth) :
    (fillNotices x).2.notices.length ≤ Config.noticeDepth := moveNotices_length_le _ x h

theorem fillNotices_done (x : Notifier × Link0) :
    (fillNotices x).2.notices.length < Config.noticeDepth → (fillNotices x).1.candidates = [] :=
  moveNotices_done _ x (Nat.le_add_right _ _)

theorem moveNotices_succ (k : Nat) (x : Notifier × Link0) (h : Config.noticeDepth ≤ k + x.2.notices.length) :
    moveNotices (k + 1) x = moveNotices k x := by
  induction k generalizing x with
  | zero => simp only [moveNotices]; rw [if_neg (by omega)]
  | succ k ih =>
    rw [moveNotices, moveNotices]
    split
    · split
      · rfl
      · exact ih _ (by simp; omega)
    · rfl

theorem fillNotices_stay (x : Notifier × Link0) (h : Config.noticeDepth ≤ x.2.notices.length ∨ x.1.candidates = []) :
    fillNotices x = x := by
  unfold fillNotices
  rw [show Config.noticeDepth = 7 + 1 from rfl, moveNotices]
  split
  · rename_i hl
    rw [h.resolve_left (by omega)]; rfl
  · rfl

/-- One move of R175: with room, the first of the entries that may be sent leaves the set and its notice joins the
tail, and the filling goes on from there. -/
theorem fillNotices_move (x : Notifier × Link0) (e : PendingEntry) (hl : x.2.notices.length < Config.noticeDepth)
    (hf : x.1.first x.1.candidates = some e) :
    fillNotices x = fillNotices (x.1.without e, { x.2 with notices := x.2.notices ++ [x.1.notice e] }) := by
  unfold fillNotices
  rw [show Config.noticeDepth = 7 + 1 from rfl, moveNotices, if_pos hl, hf]
  exact (moveNotices_succ 7 _ (by simp [Config.noticeDepth]; omega)).symm

theorem Notifier.first_mem (n : Notifier) (l : List PendingEntry) (e : PendingEntry) (h : n.first l = some e) :
    e ∈ l := by
  induction l generalizing e with
  | nil => simp [Notifier.first] at h
  | cons a l ih =>
    simp only [Notifier.first] at h
    split at h
    · simp_all
    · rename_i f hf
      split at h <;> simp only [Option.some.injEq] at h <;> subst h
      · exact List.mem_cons_of_mem _ (ih _ hf)
      · exact List.mem_cons_self

theorem Notifier.sentBefore_asymm (n : Notifier) (a b : PendingEntry) (h : n.sentBefore a b = true) :
    n.sentBefore b a = false := by
  unfold Notifier.sentBefore at *
  by_cases hl : n.levelOf a.kind = n.levelOf b.kind
  · by_cases hk : a.kind.number = b.kind.number
    · simp_all; omega
    · have : ¬ b.kind.number = a.kind.number := fun e => hk e.symm
      simp_all; omega
  · have : ¬ n.levelOf b.kind = n.levelOf a.kind := fun e => hl e.symm
    simp_all; omega

/-- The entry that is sent before all others of a list is its first. -/
theorem Notifier.first_of_before (n : Notifier) (l : List PendingEntry) (p : PendingEntry) (hp : p ∈ l)
    (hb : ∀ q ∈ l, q ≠ p → n.sentBefore p q = true) : n.first l = some p := by
  induction l with
  | nil => cases hp
  | cons a l ih =>
    simp only [Notifier.first]
    by_cases hl : p ∈ l
    · rw [ih hl fun q hq => hb q (List.mem_cons_of_mem _ hq)]
      by_cases ha : a = p
      · subst ha; simp
      · simp [hb a List.mem_cons_self ha]
    · have ha : p = a := (List.mem_cons.1 hp).resolve_right hl
      subst ha
      split
      · rfl
      · rename_i f hf
        have hm := n.first_mem _ _ hf
        have : f ≠ p := fun e => hl (e ▸ hm)
        simp [n.sentBefore_asymm _ _ (hb f (List.mem_cons_of_mem _ hm) this)]

theorem Notifier.settle_length_le (n : Notifier) (now : Uptime) (e : Event)
    (h : n.entries.length ≤ Config.pendingSlots) : (n.settle now e).entries.length ≤ Config.pendingSlots := by
  unfold Notifier.settle
  split
  · simpa using h
  · split <;> simp <;> omega

theorem Link0.offerRecord_length_le (l : Link0) (r : Record) (h : l.records.length ≤ Config.recordDepth) :
    (l.offerRecord r).records.length ≤ Config.recordDepth := by
  unfold Link0.offerRecord
  split
  · simp; omega
  · exact h

theorem Link0.offerRecord_gap_le (l : Link0) (r : Record) (h : l.gap ≤ 255) : (l.offerRecord r).gap ≤ 255 := by
  unfold Link0.offerRecord
  split
  · exact h
  · exact satSucc_le 255 l.gap

/-! ## Shed units and monitors (R56, R58 to R60, R139, R140) -/

theorem runWhile_eq_ite (cond : Bool) (now : Uptime) (t : Timer) :
    runWhile cond now t = if cond then some (t.getD now) else none := by
  unfold runWhile; cases t <;> rfl

/-- The timers of a shed unit are brought in line as the statements describe it. -/
theorem State.refreshSheds_eq_timedShed (s : State) (b : Bank) :
    s.refreshSheds b = { s with sheds := upd s.sheds b (s.timedShed b) } := by
  simp [State.refreshSheds, State.onShed, upd, State.timedShed, runWhile_eq_ite, State.shedRuns, State.restoreRuns,
    State.isUp, State.inSafe, and_assoc]

theorem State.foldl_refreshSheds (bs : List Bank) (s : State) :
    bs.foldl State.refreshSheds s = { s with sheds := bs.foldl (fun v b => upd v b (s.timedShed b)) s.sheds } := by
  induction bs generalizing s with
  | nil => rfl
  | cons b bs ih => rw [List.foldl, ih, State.refreshSheds_eq_timedShed]; rfl

/-- The timers of all shed units are brought in line together: no unit's timers depend on another's. -/
theorem State.refreshAllSheds_eq_timedShed (s : State) :
    s.refreshAllSheds = { s with sheds := Vector.ofFn fun b => s.timedShed b s.sheds[b] } := by
  have h : allBanks = [0, 1, 2, 3, 4, 5] := by decide
  rw [State.refreshAllSheds, State.foldl_refreshSheds, h]
  generalize s.timedShed = f
  congr 1
  ext1 i hi
  match i, hi with
  | 0, _ => simp [upd]
  | 1, _ => simp [upd]
  | 2, _ => simp [upd]
  | 3, _ => simp [upd]
  | 4, _ => simp [upd]
  | 5, _ => simp [upd]

theorem upd_upd {α : Type} {n : Nat} (v : Vector α n) (i : Fin n) (f g : α → α) :
    upd (upd v i f) i g = upd v i fun x => g (f x) := by
  simp [upd]

/-- The end of an entry ends the flights of its outlet, the timers following. -/
theorem State.endFlights_eq_landed (s : State) (o : Outlet) :
    s.endFlights o =
      { s with sheds := upd s.sheds (bankOf o) fun d => s.timedShed (bankOf o) (d.landed o) } := by
  simp only [State.endFlights, State.refreshSheds_eq_timedShed, State.onShed, upd_upd]
  rfl

theorem Monitor.allOff_eq (m : Monitor) :
    m.allOff = if m.state ≠ .cycling ∧ m.state ≠ .offline then m.still .disarmed else m := by
  unfold Monitor.allOff
  cases h : m.state <;> rfl

/-- What the monitors become when the power of group `g` is looked at again (R139). -/
theorem State.notePower_eq_afterPower (s before : State) (g : Group) :
    s.notePower before g =
      { s with monitors := upd s.monitors g fun m => m.afterPower (before.power g) (s.power g) } := by
  have hu : upd s.monitors g (fun m => m) = s.monitors := by simp [upd]
  simp only [State.notePower, Monitor.afterPower]
  by_cases h : s.power g = .allOff ∧ before.power g ≠ .allOff
  · have : Monitor.allOff = fun m => if m.state ≠ .cycling ∧ m.state ≠ .offline then m.still .disarmed else m :=
      funext Monitor.allOff_eq
    simp [h, State.onMonitor, this]
  · rw [if_neg h]
    have : ∀ m : Monitor, ¬ (s.power g = .allOff ∧ before.power g ≠ .allOff ∧ m.state ≠ .cycling ∧ m.state ≠ .offline) :=
      fun m hm => h ⟨hm.1, hm.2.1⟩
    simp only [this, if_false, hu]

/-- What a monitor does when its group's entry applies is what the statements say (R140, R136). -/
theorem Monitor.entryApplied_eq_monitorWith (s : State) (g : Group) (new : GroupEntry) :
    s.monitors[g].entryApplied s.groupTable.active[g] new s.inSafe = s.monitorWith g new := by
  simp only [Monitor.entryApplied, State.monitorWith, GroupEntry.watched, State.inSafe]
  generalize s.monitors[g] = m
  generalize s.groupTable.active[g] = old
  have hs : (s.safe.cause.isSome = true) ↔ ¬ s.safe.cause = none := by cases s.safe.cause <;> simp
  have he : ∀ st, m.enter st = m.still st := fun _ => rfl
  have hw : (!(new.enabled && new.policy != .none)) = true ↔ new.enabled = false ∨ new.policy = .none := by
    cases new.enabled <;> cases new.policy <;> decide
  simp only [hw, hs, he, ne_comm (a := old.members)]
  split
  · rfl
  · split
    · by_cases h : s.safe.cause = none <;> simp [h]
    · rfl

/-! ## The relay block and the closes of a window (R64, R70 to R75) -/

theorem State.relaySet_eq_relaysSee (s : State) (b : Bank) (closed : BitVec 8) (sub : Bool) :
    s.relaySet b closed sub .uncommanded = s.relaysSee b closed sub := rfl

/-- The relay block takes a close as the statements describe it. -/
theorem State.relaysAtClose_eq_relaysTake (s : State) (b : Bank) (w : Window) (atCrossing : Bool) :
    s.relaysAtClose b w (w.kind atCrossing) atCrossing = s.relaysTake b w atCrossing := by
  have hk : (if w.invalid = true ∨ (w.aligned = false ∧ atCrossing = true) then WindowKind.invalid
      else if atCrossing = true then .valid else .noLine) = w.kind atCrossing := by
    simp [Window.kind]
  simp only [State.relaysTake, hk, State.relaysAtClose, allPositions]
  cases w.kind atCrossing <;> rfl

/-! ## Masks (R190) -/

/-- The mask of a list has its bits. -/
theorem isMask_maskOf (bits : List Bool) : IsMask (maskOf bits) bits := by
  induction bits with
  | nil => intro i; simp [maskOf]
  | cons b bs ih =>
    intro i
    cases i with
    | zero => cases b <;> simp [maskOf, Nat.testBit_zero]
    | succ i =>
      have h := ih i
      have hd : (maskOf (b :: bs)) / 2 = maskOf bs := by cases b <;> (simp [maskOf]; try omega)
      rw [Nat.testBit_succ, hd, h]; simp

/-! ## What is computed from the state, and records (R103, R159, R164) -/

theorem State.holdOut_iff (s : State) : s.holdOut = true ↔ 3 ≤ s.link0.fifo.length := by
  exact decide_eq_true_iff

theorem RelayState.faulted_iff (r : RelayState) : r.faulted = true ↔ r = .faultOpen ∨ r = .faultWelded := by
  cases r <;> simp [RelayState.faulted]

theorem State.isShed_iff (s : State) (o : Outlet) : s.isShed o = true ↔ o ∈ s.sheds[bankOf o].stack := by
  simp [State.isShed]

theorem State.countsOn_iff (s : State) (o : Outlet) :
    s.countsOn o = true ↔ o ∉ s.sheds[bankOf o].stack ∧ s.relays[o].state = .on := by
  simp [State.countsOn, State.isShed, and_comm]

theorem State.countsOff_iff (s : State) (o : Outlet) :
    s.countsOff o = true ↔ o ∈ s.sheds[bankOf o].stack ∨ s.relays[o].state = .off
      ∨ s.relays[o].state = .faultOpen ∨ s.relays[o].state = .faultWelded := by
  simp [State.countsOff, State.isShed, RelayState.faulted_iff, or_assoc]

theorem State.not_countsOff_of_countsOn (s : State) (o : Outlet) (h : s.countsOn o = true) : s.countsOff o = false := by
  obtain ⟨hs, hr⟩ := (s.countsOn_iff o).mp h
  rw [Bool.eq_false_iff, Ne, State.countsOff_iff, hr]
  rintro (h | h | h | h)
  · exact hs h
  all_goals exact absurd h (by decide)

theorem State.power_eq_allOff_iff (s : State) (g : Group) :
    s.power g = .allOff ↔ ∀ o ∈ s.members g, s.countsOff o = true := by
  rw [← List.all_eq_true]
  unfold State.power
  split
  · simp_all
  · split <;> simp_all

/-- A member cannot count as on and off, so the order of the tests shows only in a group without members. -/
theorem State.power_eq_allOn_iff (s : State) (g : Group) :
    s.power g = .allOn ↔ s.members g ≠ [] ∧ ∀ o ∈ s.members g, s.countsOn o = true := by
  rw [← List.all_eq_true]
  unfold State.power
  cases hm : s.members g with
  | nil => simp
  | cons o os =>
    split
    · rename_i h
      have ho : s.countsOff o = true := by simp_all
      have : s.countsOn o ≠ true := fun hon => by simp [s.not_countsOff_of_countsOn o hon] at ho
      simp [this]
    · split <;> simp_all

theorem Link0.offerRecord_eq (l : Link0) (r : Record) :
    l.offerRecord r = if l.records.length < 16 then { l with records := l.records ++ [r] }
      else { l with gap := min 255 (l.gap + 1) } := by
  have : satSucc 255 l.gap = min 255 (l.gap + 1) := by unfold satSucc; split <;> omega
  simp [Link0.offerRecord, Config.recordDepth, this]

/-! ## Receivers and bank loss (R2, R156, R78) -/

theorem framedCell_eq_heldCell (framing : Bool) (held chars : List LineChar) :
    framedCell framing held chars = heldCell framing held chars := rfl

@[simp] theorem framedCell_true (held chars : List LineChar) : framedCell true held chars = held ++ chars := rfl

@[simp] theorem framedCell_false (held chars : List LineChar) : framedCell false held chars = [] := rfl

/-- An outlet with an action in flight at the loss of its bank is UNKNOWN, and its entry completes LOST. -/
theorem State.relayLost_of_flight (s : State) (o : Outlet) (f : Flight) (h : s.relays[o].flight = some f) :
    s.relayLost o = (s.setRelay o fun _ =>
      { state := .unknown, detail := none, flight := none, weld := 0, dead := 0 }).complete o .lost
        (some f.actuateAt) := by
  unfold State.relayLost; rw [h]; rfl

theorem State.relayLost_of_none (s : State) (o : Outlet) (h : s.relays[o].flight = none) :
    s.relayLost o = { s with relays := upd s.relays o fun r => { r with weld := 0, dead := 0 } } := by
  unfold State.relayLost; rw [h]; rfl

end Sys2Proof.Machine
end

