-- ==== Sys2Proof/Laws/Groups.lean ====
section
/-! SUPPORT. Laws/Groups.lean: what the group engine's shared operations can do: the turns of ONING, and the two parts of
an interval close. -/

namespace Sys2Proof.Machine

/-! ## The turns of ONING (R111 to R113) -/

/-- A request changes the queue, and with REPLACED the shed units, and nothing else (R85, R86). -/
theorem State.request_changes (s : State) (o : Outlet) (a : Action) (r : Origin) :
    (s.request o a r).2 = { s with queue := (s.request o a r).2.queue, sheds := (s.request o a r).2.sheds } := by
  unfold State.request
  split
  · rfl
  · split
    · rfl
    · split
      · rfl
      · split <;> rfl

/-- The queue does not read the group engine's state, and a request leaves it as it is. -/
theorem State.request_withGroups (s : State) (v : Vector GroupOp 32) (o : Outlet) (a : Action) (r : Origin) :
    ({ s with groups := v } : State).request o a r
      = ((s.request o a r).1, { (s.request o a r).2 with groups := v }) := by
  unfold State.request
  show (match s.entryOf o with | none => _ | some e => _) = _
  cases s.entryOf o with
  | none => rfl
  | some e =>
    dsimp only
    cases e.state with
    | issued u => rfl
    | waiting =>
      dsimp only
      split
      · rfl
      · split <;> rfl

/-- How a turn passes over a member does not depend on the group engine's state. -/
theorem State.passedAs_withGroups (s : State) (v : Vector GroupOp 32) (g : Group) (m : Outlet) :
    ({ s with groups := v } : State).passedAs g m = s.passedAs g m := by
  unfold State.passedAs
  rw [State.request_withGroups]

/-- The operation after the turn at position `i` has passed over member `m` with mark `p`. -/
def GroupOp.passing (x : GroupOp) (ms : List Outlet) (i : Nat) (m : Outlet) (p : Progress) : GroupOp :=
  { x with turn := i, busyWait := false, progress := x.progress.set (ms.idxOf m) p
           faulted := if p = .faulted then ms.filter fun n => n == m || decide (n ∈ x.faulted) else x.faulted }

/-- What one turn does: it passes over the member and the next turn is taken, or the member's CLOSE is requested and the
member awaited, or there is no member left and ONING is over. -/
theorem State.takeTurns_succ (fuel : Nat) (g : Group) (i : Nat) (s : State) :
    State.takeTurns (fuel + 1) g i s =
      match (s.members g)[i]? with
      | none => s.oningOver g
      | some m =>
        match s.passedAs g m with
        | some p => State.takeTurns fuel g (i + 1) (s.onGroup g fun x => x.passing (s.members g) i m p)
        | none =>
          { (s.request m .close (.group g)).2 with
            groups := upd s.groups g fun x =>
              { x with
                turn := i, busyWait := decide ((s.request m .close (.group g)).1 = .refusedBusy)
                awaited := if m ∈ x.awaited then x.awaited else x.awaited ++ [m]
                progress := x.progress.set ((s.members g).idxOf m) .awaiting } } := by
  rw [State.takeTurns]
  cases hm : (s.members g)[i]? with
  | none => rfl
  | some m =>
    have hq := s.request_withGroups
      (upd s.groups g fun r => { r with turn := i, busyWait := false }) m .close (.group g)
    have hc := s.request_changes m .close (.group g)
    simp only [State.passedAs, ← State.isShed_iff, ← RelayState.faulted_iff]
    by_cases h1 : s.isShed m = true
    · rw [if_pos h1, if_pos (by exact h1)]
      simp only [State.mark, State.onGroup, upd_upd]
      rfl
    rw [if_neg h1, if_neg (by exact h1)]
    by_cases h2 : s.relays[m].state.faulted = true
    · rw [if_pos h2, if_pos (by exact h2)]
      simp only [State.addFaulted, State.mark, State.onGroup, upd_upd]
      rfl
    rw [if_neg h2, if_neg (by exact h2)]
    by_cases h3 : s.relays[m].state = .on
    · rw [if_pos h3, if_pos (by exact h3)]
      simp only [State.mark, State.onGroup, upd_upd]
      rfl
    rw [if_neg h3, if_neg (by exact h3)]
    simp only [State.onGroup]
    rw [hq]
    generalize hx : s.request m .close (.group g) = x at *
    obtain ⟨ans, t⟩ := x
    have ht : ans = .refusedRank → t = s := fun h => by
      have := State.request_of_not_accepted (s := s) (o := m) (a := .close) (r := .group g) (by rw [hx, h]; rfl)
      rw [hx] at this; exact this
    have hmem : t.groupTable = s.groupTable := by rw [show t = _ from hc]
    cases ans <;> simp only [State.await, State.mark, State.onGroup, upd_upd, State.members, hmem]
    case refusedRank =>
      cases ht rfl
      rfl
    all_goals simp only [reduceCtorEq, if_false, decide_false, decide_true]

theorem State.turnsBetween_self (s : State) (g : Group) (i : Nat) : s.turnsBetween g i i = [] := by
  simp [State.turnsBetween]

theorem State.turnsBetween_cons (s : State) (g : Group) {i j : Nat} {m : Outlet} (hm : (s.members g)[i]? = some m)
    (h : i < j) : s.turnsBetween g i j = m :: s.turnsBetween g (i + 1) j := by
  obtain ⟨hi, hv⟩ := List.getElem?_eq_some_iff.1 hm
  rw [State.turnsBetween, State.turnsBetween, List.drop_eq_getElem_cons (by simp; omega)]
  simp [hv]

theorem State.mem_of_turnsBetween {s : State} {g : Group} {i j : Nat} {m : Outlet} (h : m ∈ s.turnsBetween g i j) :
    m ∈ s.members g := List.mem_of_mem_take (List.mem_of_mem_drop h)

theorem State.passedOver_self (s : State) (g : Group) (i : Nat) : s.PassedOver g i i s.groups[g] := by
  simp [State.PassedOver, State.turnsBetween_self]

/-- A turn that passes over its member, and then the turns to `j`. -/
theorem State.passedOver_cons {s : State} {g : Group} {i j : Nat} {m : Outlet} {p : Progress} {x : GroupOp}
    (hm : (s.members g)[i]? = some m) (hp : s.passedAs g m = some p) (hij : i < j)
    (h : (s.onGroup g fun y => y.passing (s.members g) i m p).PassedOver g (i + 1) j x) : s.PassedOver g i j x := by
  have hmem : m ∈ s.members g := List.mem_of_getElem? hm
  have hr : (s.onGroup g fun y => y.passing (s.members g) i m p).groups[g]
      = s.groups[g].passing (s.members g) i m p := by simp [State.onGroup]
  have hpa : ∀ n, (s.onGroup g fun y => y.passing (s.members g) i m p).passedAs g n = s.passedAs g n :=
    fun n => s.passedAs_withGroups _ g n
  unfold State.PassedOver at h ⊢
  dsimp only at h ⊢
  rw [hr] at h
  simp only [hpa] at h
  rw [show (s.onGroup g fun y => y.passing (s.members g) i m p).members g = s.members g from rfl,
    show (s.onGroup g fun y => y.passing (s.members g) i m p).turnsBetween g (i + 1) j = s.turnsBetween g (i + 1) j
      from rfl] at h
  rw [s.turnsBetween_cons g hm hij]
  obtain ⟨h1, h2, h3, h4, h5⟩ := h
  refine ⟨?_, ?_, ?_, ?_, ?_⟩
  · rw [h1]
    by_cases hj : i + 1 < j
    · simp [GroupOp.passing, hj, hij]
    · have : j = i + 1 := by omega
      subst this
      simp [GroupOp.passing]
  · simpa [GroupOp.passing] using h2
  · intro n hn q y hq hy
    by_cases hrest : n ∈ s.turnsBetween g (i + 1) j
    · exact h3 n hrest q y hq hy
    · obtain rfl : n = m := (List.mem_cons.1 hn).resolve_right hrest
      rw [h4 _ fun a ha he => hrest ((show a = n from (List.idxOf_inj (State.mem_of_turnsBetween ha)).1 he) ▸ ha)] at hy
      rw [hp] at hq
      cases hq
      simp only [GroupOp.passing, List.getElem?_set, if_true] at hy
      split at hy <;> cases hy
      rfl
  · intro k hk
    rw [h4 k fun a ha => hk a (List.mem_cons_of_mem _ ha)]
    simp only [GroupOp.passing]
    exact List.getElem?_set_ne (hk m List.mem_cons_self)
  · rw [h5]
    by_cases hf : p = .faulted
    · subst hf
      have hex : ∃ n ∈ m :: s.turnsBetween g (i + 1) j, s.passedAs g n = some .faulted := ⟨m, List.mem_cons_self, hp⟩
      rw [if_pos hex]
      simp only [GroupOp.passing, if_true]
      split
      · apply List.filter_congr
        intro n hn
        simp only [List.mem_filter, hn, true_and, List.mem_cons, Bool.or_eq_true, beq_iff_eq, decide_eq_true_eq]
        by_cases hnm : n = m
        · subst hnm; simp [hp]
        · simp [hnm]
      · rename_i hno
        apply List.filter_congr
        intro n hn
        have : ¬ (n ∈ s.turnsBetween g (i + 1) j ∧ s.passedAs g n = some .faulted) := fun hh => hno ⟨n, hh⟩
        by_cases hnm : n = m
        · subst hnm; simp [hp]
        · simp [hnm, this]
    · have hne : s.passedAs g m ≠ some .faulted := by rw [hp]; simpa using hf
      have hiff : (∃ n ∈ m :: s.turnsBetween g (i + 1) j, s.passedAs g n = some .faulted)
          ↔ ∃ n ∈ s.turnsBetween g (i + 1) j, s.passedAs g n = some .faulted := by
        simp [hne]
      simp only [hiff, GroupOp.passing, hf, if_false]
      congr 1
      apply List.filter_congr
      intro n hn
      by_cases hnm : n = m
      · subst hnm; simp [hne]
      · simp [hnm]

/-- What the turns from position `i` on do, whoever takes them. -/
theorem State.takeTurns_taken (fuel : Nat) (g : Group) (i : Nat) (s : State) (hl : (s.members g).length ≤ i + fuel) :
    s.TurnsTaken (State.takeTurns (fuel + 1) g i s) g i := by
  rw [State.takeTurns_succ]
  cases hm : (s.members g)[i]? with
  | none =>
    intro j hij hj _
    have hi := List.getElem?_eq_none_iff.1 hm
    obtain rfl : j = i := by omega
    refine ⟨_, s.passedOver_self g j, fun m hj' _ => by simp [hm] at hj', fun _ => ?_⟩
    have hu : (upd s.groups g fun _ => s.groups[g]) = s.groups := by simp [upd]
    have hv : ∀ f : GroupOp → GroupOp, (upd s.groups g fun _ => f s.groups[g]) = upd s.groups g f := fun f => by
      simp [upd]
    dsimp only
    rw [hu, hv fun x => { x with op := .verifying, boot := some s.uptime }]
    refine ⟨fun h => ?_, fun h hn => ?_, fun h hn => ?_⟩
    · simp only [State.oningOver, h, if_true]
    · simp only [State.oningOver, h, Bool.false_eq_true, if_false, State.enterVerifying, State.groupEntry, hn]
      rfl
    · simp only [State.oningOver, h, Bool.false_eq_true, if_false, State.enterVerifying, State.groupEntry, hn, if_true]
      rfl
  | some m =>
    have hi := (List.getElem?_eq_some_iff.1 hm).1
    dsimp only
    cases hp : s.passedAs g m with
    | none =>
      intro j hij hj hpass
      obtain rfl : j = i := by
        rcases Nat.lt_or_ge i j with h | h
        · exact absurd hp (hpass m (by rw [s.turnsBetween_cons g hm h]; exact List.mem_cons_self))
        · omega
      refine ⟨_, s.passedOver_self g j, fun n hn _ => ?_, fun hl' => absurd hi (by omega)⟩
      obtain rfl : m = n := by simpa [hm] using hn
      refine ⟨by simp [upd], fun hq => ?_⟩
      have hn' : s.entryOf m = none := by simpa [State.entryOf] using hq
      rw [State.request_of_noEntry _ _ hn']
      rfl
    | some p =>
      cases fuel with
      | zero => omega
      | succ fuel =>
        intro j hij hj hpass
        by_cases hji : j = i
        · subst hji
          refine ⟨_, s.passedOver_self g j, fun n hn h => ?_, fun hl' => absurd hi (by omega)⟩
          obtain rfl : m = n := by simpa [hm] using hn
          rw [hp] at h; cases h
        · have hlt : i < j := by omega
          have hpa : ∀ n, (s.onGroup g fun y => y.passing (s.members g) i m p).passedAs g n = s.passedAs g n :=
            fun n => s.passedAs_withGroups _ g n
          obtain ⟨x, hx, hask, hend⟩ := State.takeTurns_taken fuel g (i + 1) (s.onGroup g fun y => y.passing (s.members g) i m p)
            (by show (s.members g).length ≤ _; omega) j hlt (.inr (hj.resolve_left hji)) fun n hn => by
              rw [hpa]
              exact hpass n (by rw [s.turnsBetween_cons g hm hlt]; exact List.mem_cons_of_mem _ hn)
          refine ⟨x, State.passedOver_cons hm hp hlt hx, fun n hn h => ?_, fun hl' => ?_⟩
          · obtain ⟨h1, h2⟩ := hask n hn (by rw [hpa]; exact h)
            refine ⟨h1.trans ?_, h2⟩
            simp only [State.onGroup, State.request_withGroups, upd_upd]
            rfl
          · have h3 := hend hl'
            simpa only [State.onGroup, upd_upd] using h3

theorem State.turnsFrom_taken (s : State) (g : Group) (i : Nat) : s.TurnsTaken (s.turnsFrom g i) g i :=
  State.takeTurns_taken _ g i s (by omega)

/-- The turns from `i` on come to a member that is not passed over, or to the end of the list. -/
theorem State.turns_end (s : State) (g : Group) (i : Nat) :
    ∃ j : Nat, i ≤ j ∧ (j = i ∨ j ≤ (s.members g).length) ∧ (∀ m ∈ s.turnsBetween g i j, s.passedAs g m ≠ none)
      ∧ ((∃ m, (s.members g)[j]? = some m ∧ s.passedAs g m = none) ∨ (s.members g).length ≤ j) := by
  generalize hn : (s.members g).length - i = n
  induction n generalizing i with
  | zero => exact ⟨i, le_rfl, .inl rfl, by simp [State.turnsBetween_self], .inr (by omega)⟩
  | succ n ih =>
    have hi : i < (s.members g).length := by omega
    have hm : (s.members g)[i]? = some (s.members g)[i] := List.getElem?_eq_getElem hi
    cases hp : s.passedAs g (s.members g)[i] with
    | none => exact ⟨i, le_rfl, .inl rfl, by simp [State.turnsBetween_self], .inl ⟨_, hm, hp⟩⟩
    | some p =>
      obtain ⟨j, h1, h2, h3, h4⟩ := ih (i + 1) (by omega)
      refine ⟨j, by omega, .inr (by omega), fun m hm' => ?_, h4⟩
      rw [s.turnsBetween_cons g hm h1] at hm'
      rcases List.mem_cons.1 hm' with rfl | hm'
      · rw [hp]; simp
      · exact h3 m hm'

/-- ONING begins with the first member's turn. -/
theorem State.enterOning_taken (s : State) (g : Group) :
    State.TurnsTaken { s with groups := upd s.groups g fun r => { r with op := .oning, dwell := none } }
      (s.enterOning g) g 0 := State.turnsFrom_taken _ g 0

/-! ## The end of an operation (R121, R152) -/

/-- Shown modes are computed again without any effect but on them and on the indicator slots. -/
theorem State.refreshModes_changes (s : State) (b : Bank) :
    s.refreshModes b = { s with lanes := (s.refreshModes b).lanes, shown := (s.refreshModes b).shown } := by
  unfold State.refreshModes State.placeIndicate
  split
  · rfl
  · split <;> rfl

theorem State.refreshModesOf_changes (s : State) (os : List Outlet) :
    s.refreshModesOf os = { s with lanes := (s.refreshModesOf os).lanes, shown := (s.refreshModesOf os).shown } := by
  unfold State.refreshModesOf
  generalize allBanks = bs
  induction bs generalizing s with
  | nil => rfl
  | cons b bs ih =>
    rw [List.foldl_cons]
    split
    · refine (ih (s.refreshModes b)).trans ?_
      generalize bs.foldl _ (s.refreshModes b) = x
      rw [s.refreshModes_changes b]
    · exact ih s

/-- The entry of one group applies: its operation state and last record stay, and nothing of other groups changes. -/
theorem State.groupApplied_groups (before s : State) (g : Group) :
    (State.groupApplied before s g).groupTable = s.groupTable
    ∧ (State.groupApplied before s g).groups =
        upd s.groups g (fun r => r.entryApplied before.groupTable.active[g] s.groupTable.active[g])
    ∧ ∀ h : Group, h ≠ g → (State.groupApplied before s g).monitors[h] = s.monitors[h] := by
  unfold State.groupApplied
  dsimp only
  rw [State.notePower_eq_afterPower]
  refine ⟨?_, ?_, fun h hh => ?_⟩
  · rw [State.refreshModesOf_changes]; rfl
  · rw [State.refreshModesOf_changes]; rfl
  · simp only []
    rw [upd_get_ne _ (Ne.symm hh), State.refreshModesOf_changes]
    simp only [State.onMonitor_fields]
    exact upd_get_ne _ (Ne.symm hh) _

/-- What an applied entry leaves of a group's operation: all but history and progress, and an empty history. -/
def GroupOp.LikeBefore (r r' : GroupOp) : Prop :=
  r'.op = r.op ∧ r'.lastRecord = r.lastRecord ∧ (r.history = [] → r'.history = [])

theorem GroupOp.likeBefore_self (r : GroupOp) : r.LikeBefore r := ⟨rfl, rfl, id⟩

theorem GroupOp.likeBefore_applied (r : GroupOp) (old new : GroupEntry) : r.LikeBefore (r.entryApplied old new) :=
  ⟨rfl, rfl, fun h => by simp only [GroupOp.entryApplied]; split <;> [rfl; exact h]⟩

theorem GroupOp.LikeBefore.trans {a b c : GroupOp} (h : a.LikeBefore b) (h' : b.LikeBefore c) : a.LikeBefore c :=
  ⟨h'.1.trans h.1, h'.2.1.trans h.2.1, fun e => h'.2.2 (h.2.2 e)⟩

theorem State.foldl_groupApplied (before : State) (gs : List Group) (s : State) :
    let t := gs.foldl (fun x g => State.groupApplied before x g) s
    t.groupTable = s.groupTable ∧ (∀ h, h ∉ gs → t.groups[h] = s.groups[h] ∧ t.monitors[h] = s.monitors[h])
    ∧ ∀ h : Group, s.groups[h].LikeBefore t.groups[h] := by
  induction gs generalizing s with
  | nil => exact ⟨rfl, fun _ _ => ⟨rfl, rfl⟩, fun _ => GroupOp.likeBefore_self _⟩
  | cons g gs ih =>
    obtain ⟨h1, h2, h3⟩ := State.groupApplied_groups before s g
    obtain ⟨i1, i2, i3⟩ := ih (State.groupApplied before s g)
    refine ⟨i1.trans h1, fun h hh => ?_, fun h => ?_⟩
    · have hg : h ≠ g := fun e => hh (e ▸ List.mem_cons_self)
      obtain ⟨j1, j2⟩ := i2 h fun hm => hh (List.mem_cons_of_mem _ hm)
      exact ⟨j1.trans (by rw [h2, upd_get_ne _ (Ne.symm hg)]), j2.trans (h3 h hg)⟩
    · refine .trans ?_ (i3 h)
      rw [h2, upd_get]
      split
      · rename_i e; subst e; exact GroupOp.likeBefore_applied _ _ _
      · exact GroupOp.likeBefore_self _

theorem Staged.copyEntries_active {α : Type} {n m : Nat} (t : Staged α n m) (is : List (Fin n)) (i : Fin n)
    (hi : i ∉ is) : (t.copyEntries is).active[i] = t.active[i] := by
  unfold Staged.copyEntries
  dsimp only
  generalize t.active = v
  induction is generalizing v with
  | nil => rfl
  | cons a is ih =>
    rw [List.foldl_cons, ih (fun hm => hi (List.mem_cons_of_mem _ hm))]
    exact upd_get_ne _ (fun e : a = i => hi (e ▸ List.mem_cons_self)) _

theorem State.pruneGroups_subset (s : State) (changed : List Group) (n : Nat) (set : List Group) :
    ∀ g ∈ s.pruneGroups changed n set, g ∈ set := by
  induction n generalizing set with
  | zero => exact fun g hg => hg
  | succ n ih => exact fun g hg => (List.mem_filter.1 (ih (s.freeOfOthers changed set) g hg)).1

/-- Only waiting entries of IDLE groups apply (R152). -/
theorem State.mem_applicable (s : State) (changed : List Group) (g : Group) :
    g ∈ s.applicable changed → g ∈ changed ∧ s.groups[g].op = .idle := by
  intro h
  have hm := s.pruneGroups_subset changed 32 _ g h
  simpa only [List.mem_filter, beq_iff_eq] using hm

/-- At a return to IDLE a group's operation, monitor and entry stay, unless the group is IDLE and its entry waits; and in
any case its operation state and its last record stay. -/
theorem State.releaseGroups_stays (s : State) :
    (∀ g : Group, s.groups[g].op ≠ .idle ∨ g ∉ s.groupTable.waiting →
      s.releaseGroups.groups[g] = s.groups[g] ∧ s.releaseGroups.monitors[g] = s.monitors[g]
      ∧ s.releaseGroups.groupTable.active[g] = s.groupTable.active[g])
    ∧ (∀ g : Group, s.groups[g].LikeBefore s.releaseGroups.groups[g])
    ∧ (∀ g ∈ s.releaseGroups.groupTable.waiting, g ∈ s.groupTable.waiting) := by
  have hset : ∀ g : Group, s.groups[g].op ≠ .idle ∨ g ∉ s.groupTable.waiting →
      g ∉ s.applicable s.groupTable.waiting := fun g hg hm =>
    hg.elim (fun h => h (s.mem_applicable _ g hm).2) fun h => h (s.mem_applicable _ g hm).1
  unfold State.releaseGroups
  dsimp only
  generalize s.applicable s.groupTable.waiting = set at *
  obtain ⟨h1, h2, h3⟩ := State.foldl_groupApplied s set { s with groupTable := s.groupTable.copyEntries set }
  split
  · exact ⟨fun g _ => ⟨rfl, rfl, rfl⟩, fun g => GroupOp.likeBefore_self _, fun g hg => hg⟩
  · have hact : ∀ g, g ∉ set → (s.applyGroups set).groupTable.active[g] = s.groupTable.active[g] := fun g hg =>
      (congrArg (fun t : Staged GroupEntry 32 32 => t.active[g]) h1).trans (Staged.copyEntries_active _ _ _ hg)
    split
    · exact ⟨fun g hg => ⟨(h2 g (hset g hg)).1, (h2 g (hset g hg)).2, hact g (hset g hg)⟩, h3,
        fun g hg => nomatch (show g ∈ ([] : List Group) from hg)⟩
    · exact ⟨fun g hg => ⟨(h2 g (hset g hg)).1, (h2 g (hset g hg)).2, hact g (hset g hg)⟩, h3,
        fun g hg => (List.mem_filter.1 hg).1⟩

/-- With no entry waiting nothing applies. -/
theorem State.releaseGroups_of_none (s : State) (h : s.groupTable.waiting = []) : s.releaseGroups = s := by
  have hs : s.applicable s.groupTable.waiting = [] :=
    List.eq_nil_iff_forall_not_mem.2 fun g hg => by simpa [h] using (s.mem_applicable _ g hg).1
  unfold State.releaseGroups
  simp [hs]

/-- GROUP_DONE of group `g` with the record `rec` (R121). -/
def groupDone (g : Group) (rec : OpRecord) : Event :=
  { kind := .groupDone, source := g.val + 1, detail := .groupDone rec, records := [.operation (some rec)] }

/-- The end of an operation is the group's move to IDLE with its record, GROUP_DONE, the monitor's and the relay block's
part, and then the return to IDLE as the table store takes it (R121). -/
theorem State.endOp_eq (s : State) (g : Group) (result : OpResult) (reason : Option OpReason) (verified : Bool) :
    ∃ x : State, s.endOp g result reason verified = x.releaseGroups
    ∧ x = { s.raiseEvent (groupDone g (s.groups[g].record g result reason s.uptime)) with
        groups := upd s.groups g fun r => r.toIdle (s.groups[g].record g result reason s.uptime)
        monitors := upd s.monitors g fun m => m.opEnd s.uptime verified
        lanes := x.lanes, shown := x.shown } := by
  unfold State.endOp
  dsimp only
  refine ⟨_, rfl, ?_⟩
  rw [State.refreshModesOf_changes]
  rfl

/-- What the end of `g`'s operation does to the group engine: `g` is IDLE with its record and an empty history; another
group's operation, monitor and entry stay, unless it is IDLE and its entry waits, and in any case its operation state,
its last record and an empty history stay. -/
theorem State.endOp_groups (s : State) (g : Group) (result : OpResult) (reason : Option OpReason) (verified : Bool) :
    let t := s.endOp g result reason verified
    (∀ h : Group, h ≠ g → s.groups[h].op ≠ .idle ∨ h ∉ s.groupTable.waiting →
      t.groups[h] = s.groups[h] ∧ t.monitors[h] = s.monitors[h] ∧ t.groupTable.active[h] = s.groupTable.active[h])
    ∧ (∀ h : Group, h ≠ g → s.groups[h].LikeBefore t.groups[h])
    ∧ (s.groups[g].toIdle (s.groups[g].record g result reason s.uptime)).LikeBefore t.groups[g]
    ∧ (∀ h ∈ t.groupTable.waiting, h ∈ s.groupTable.waiting)
    ∧ (g ∉ s.groupTable.waiting → t.monitors[g] = s.monitors[g].opEnd s.uptime verified) := by
  obtain ⟨x, hx, he⟩ := s.endOp_eq g result reason verified
  have hg : x.groups = upd s.groups g fun r => r.toIdle (s.groups[g].record g result reason s.uptime) := by rw [he]
  have hm : x.monitors = upd s.monitors g fun m => m.opEnd s.uptime verified := by rw [he]
  have ht : x.groupTable = s.groupTable := by rw [he]; rfl
  obtain ⟨h1, h2, h3⟩ := x.releaseGroups_stays
  rw [hg, hm, ht] at h1
  rw [hg] at h2
  rw [ht] at h3
  dsimp only
  rw [hx]
  refine ⟨fun h hne hh => ?_, fun h hne => ?_, ?_, h3, fun hw => ?_⟩
  · have := h1 h (by rwa [upd_get_ne _ (Ne.symm hne)])
    rwa [upd_get_ne _ (Ne.symm hne), upd_get_ne _ (Ne.symm hne)] at this
  · have := h2 h
    rwa [upd_get_ne _ (Ne.symm hne)] at this
  · have := h2 g
    rwa [upd_get_self] at this
  · rw [(h1 g (.inr hw)).2.1, upd_get_self]

/-! ## The start of an operation, and completions (R104, R107) -/

/-- The start of an operation changes the group's operation, its monitor, and shown modes with indicator slots. -/
theorem State.startOp_changes (s : State) (g : Group) (op : OpState) (k : OpKind) (c : OpCause) :
    s.startOp g op k c = { s with
      groups := upd s.groups g fun r => r.started op k c (s.members g).length s.uptime
      monitors := upd s.monitors g Monitor.opStart
      lanes := (s.startOp g op k c).lanes, shown := (s.startOp g op k c).shown } := by
  unfold State.startOp
  rw [State.refreshModesOf_changes]
  rfl

/-- An outlet awaited by one group alone is that group's. -/
theorem State.awaiter_of_one (s : State) (g : Group) (o : Outlet) (h : o ∈ s.groups[g].awaited)
    (hh : ∀ h : Group, h ≠ g → o ∉ s.groups[h].awaited) : s.awaiter o = some g := by
  unfold State.awaiter
  rw [List.find?_eq_some_iff_append]
  obtain ⟨a, b, hab⟩ := List.append_of_mem (show g ∈ allGroups from List.mem_finRange g)
  refine ⟨by simpa using h, a, b, hab, fun x hx => ?_⟩
  have hne : x ≠ g := by
    have := List.nodup_finRange 32
    rw [show List.finRange 32 = allGroups from rfl, hab] at this
    rintro rfl
    exact (List.nodup_append.1 this).2.2 _ hx _ List.mem_cons_self rfl
  simpa using hh x hne

/-- A completion that one group awaits: the outlet leaves its awaited set, and OFFING or ONING takes the completion. -/
theorem State.groupCompletion_of_awaited (s : State) (g : Group) (o : Outlet) (a : Action) (res : Completion)
    (h : o ∈ s.groups[g].awaited) (hh : ∀ h : Group, h ≠ g → o ∉ s.groups[h].awaited) :
    ∃ s' : State,
      s' = { s with groups := upd s.groups g fun r => { r with awaited := s.groups[g].awaited.filter (· ≠ o) } }
      ∧ s'.groups[g] = { s.groups[g] with awaited := s.groups[g].awaited.filter (· ≠ o) }
      ∧ (s.groups[g].op = .offing → s.groupCompletion o a res = s'.offingCompletion g o a res)
      ∧ (s.groups[g].op = .oning → s.groupCompletion o a res = s'.oningCompletion g o res) := by
  have hf : (s.groups[g].awaited.filter fun x => x != o) = s.groups[g].awaited.filter (· ≠ o) :=
    List.filter_congr fun x _ => by by_cases e : x = o <;> simp [e]
  have hs : (s.onGroup g fun r => { r with awaited := r.awaited.filter (· != o) })
      = { s with groups := upd s.groups g fun r => { r with awaited := s.groups[g].awaited.filter (· ≠ o) } } := by
    unfold State.onGroup upd
    rw [← hf]
  have hg := upd_get_self s.groups g fun r => { r with awaited := s.groups[g].awaited.filter (· ≠ o) }
  refine ⟨_, rfl, hg, fun hop => ?_, fun hop => ?_⟩
  all_goals
    unfold State.groupCompletion
    rw [s.awaiter_of_one g o h hh]
    dsimp only
    rw [hs]
  · rw [(congrArg GroupOp.op hg).trans hop]
  · rw [(congrArg GroupOp.op hg).trans hop]

/-! ## Members that leave their shed stacks (R61, R122) -/

/-- A group does not become ALL_OFF by members' leaving their stacks: each then counts by its relay state (R103). -/
theorem State.power_of_unshed {s t : State} (hr : t.relays = s.relays) (ht : t.groupTable = s.groupTable)
    (hs : ∀ o : Outlet, t.isShed o = true → s.isShed o = true) (g : Group) (h : t.power g = .allOff) :
    s.power g = .allOff := by
  rw [State.power_eq_allOff_iff] at h ⊢
  intro o ho
  have := h o (by unfold State.members at ho ⊢; rwa [ht])
  rw [State.countsOff_iff, ← State.isShed_iff, hr] at this
  rw [State.countsOff_iff, ← State.isShed_iff]
  exact this.imp_left (hs o)

/-- An outlet that leaves its stack changes the stack, the timers and the shown modes of its bank, and nothing else. -/
theorem State.unshed_changes (s : State) (o : Outlet) :
    s.unshed o = { s with sheds := (s.unshed o).sheds, lanes := (s.unshed o).lanes, shown := (s.unshed o).shown }
    ∧ ∀ b : Bank, (s.unshed o).sheds[b].shedFlight = s.sheds[b].shedFlight
      ∧ (s.unshed o).sheds[b].stack = s.sheds[b].stack.filter fun m => ¬ (m = o ∧ bankOf o = b) := by
  unfold State.unshed
  by_cases hshed : s.isShed o = true
  · rw [if_pos hshed]
    generalize hu : (s.onShed (bankOf o) fun u => { u with stack := u.stack.filter (· != o) }) = u
    have hus : u.sheds = upd s.sheds (bankOf o) fun u => { u with stack := u.stack.filter (· != o) } := by rw [← hu]; rfl
    have hsub : ∀ m : Outlet, (u.refreshModes (bankOf o)).isShed m = true → s.isShed m = true := by
      intro m hm
      rw [State.isShed_iff, State.refreshModes_changes, hus, upd_get] at hm
      rw [State.isShed_iff]
      split at hm
      · rename_i e
        have hb : ∀ b : Bank, bankOf o = b → m ∈ s.sheds[bankOf o].stack → m ∈ s.sheds[b].stack := by
          rintro _ rfl h; exact h
        exact hb _ e (List.mem_filter.1 hm).1
      · exact hm
    have hnote : (u.refreshModes (bankOf o)).notePowerOf s o = u.refreshModes (bankOf o) := by
      unfold State.notePowerOf State.notePower
      split
      · rfl
      · rename_i g _
        rw [if_neg]
        rintro ⟨h1, h2⟩
        refine h2 (State.power_of_unshed ?_ ?_ hsub g h1) <;> rw [State.refreshModes_changes, ← hu] <;> rfl
    have hset : s.setStack o (fun st => st.filter (· != o)) = (u.refreshModes (bankOf o)).refreshSheds (bankOf o) := by
      unfold State.setStack
      rw [hu, hnote]
    rw [hset, State.refreshModes_changes]
    refine ⟨by rw [← hu]; rfl, fun b => ?_⟩
    show (upd u.sheds (bankOf o) _)[b].shedFlight = _ ∧ (upd u.sheds (bankOf o) _)[b].stack = _
    by_cases hb : bankOf o = b
    · subst hb
      rw [upd_get_self, hus, upd_get_self]
      refine ⟨rfl, List.filter_congr fun m _ => ?_⟩
      by_cases e : m = o <;> simp [e]
    · rw [upd_get_ne _ hb, hus, upd_get_ne _ hb]
      simp [hb]
  · rw [if_neg hshed]
    refine ⟨rfl, fun b => ⟨rfl, ?_⟩⟩
    rw [List.filter_eq_self.2]
    rintro m hm
    simp only [decide_not, Bool.not_eq_true', decide_eq_false_iff_not]
    rintro ⟨rfl, rfl⟩
    exact hshed ((State.isShed_iff _ _).2 hm)

/-- GROUP_ON takes off their stacks the members that are no shed in flight; shed units, shown modes and indicator slots
alone change (R122). -/
theorem State.unshedMembers_changes (s : State) (g : Group) :
    s.unshedMembers g = { s with
      sheds := (s.unshedMembers g).sheds, lanes := (s.unshedMembers g).lanes, shown := (s.unshedMembers g).shown }
    ∧ ∀ b : Bank, (s.unshedMembers g).sheds[b].shedFlight = s.sheds[b].shedFlight
      ∧ (s.unshedMembers g).sheds[b].stack = s.sheds[b].stack.filter fun m =>
          ¬ (m ∈ s.members g ∧ bankOf m = b ∧ s.sheds[b].shedFlight ≠ some m) := by
  unfold State.unshedMembers
  generalize s.members g = ms
  induction ms generalizing s with
  | nil => exact ⟨rfl, fun b => ⟨rfl, by simp⟩⟩
  | cons o ms ih =>
    rw [List.foldl_cons]
    split
    · rename_i hf
      obtain ⟨h1, h2⟩ := ih s
      refine ⟨h1, fun b => ⟨(h2 b).1, (h2 b).2.trans (List.filter_congr fun m _ => ?_)⟩⟩
      refine decide_eq_decide.2 (not_congr ⟨fun ⟨x, y, z⟩ => ⟨List.mem_cons_of_mem _ x, y, z⟩, fun ⟨x, y, z⟩ => ?_⟩)
      refine ⟨(List.mem_cons.1 x).resolve_left ?_, y, z⟩
      rintro rfl
      subst y
      exact z hf
    · rename_i hf
      obtain ⟨u1, u2⟩ := s.unshed_changes o
      generalize s.unshed o = u at *
      obtain ⟨h1, h2⟩ := ih u
      have hall : ∀ A B C, ({ u with sheds := A, lanes := B, shown := C } : State)
          = { s with sheds := A, lanes := B, shown := C } := fun A B C => by rw [u1]
      refine ⟨h1.trans (hall _ _ _), fun b => ⟨(h2 b).1.trans (u2 b).1, ?_⟩⟩
      rw [(h2 b).2, (u2 b).2, (u2 b).1, List.filter_filter]
      refine List.filter_congr fun m _ => ?_
      simp only [← Bool.decide_and]
      refine decide_eq_decide.2 ?_
      by_cases e : m = o
      · subst e
        by_cases hb : bankOf m = b
        · subst hb
          exact ⟨fun h => by simp at h, fun h => (h ⟨List.mem_cons_self, rfl, hf⟩).elim⟩
        · simp [hb]
      · simp [e]

/-! ## An interval close (R47, R113) -/

theorem foldl_upd_get {α : Type} {n : Nat} (f : Fin n → α → α) (is : List (Fin n)) (v : Vector α n) (j : Fin n)
    (hn : is.Nodup) : (is.foldl (fun v i => upd v i (f i)) v)[j] = if j ∈ is then f j v[j] else v[j] := by
  induction is generalizing v with
  | nil => rfl
  | cons i is ih =>
    obtain ⟨hi, hn⟩ := List.nodup_cons.1 hn
    rw [List.foldl_cons, ih _ hn]
    by_cases e : j = i
    · subst e; rw [if_neg hi, if_pos List.mem_cons_self, upd_get_self]
    · rw [upd_get_ne _ (Ne.symm e)]; simp [e]

/-- Updates at every index are one update of all. -/
theorem foldl_upd_all {α : Type} {n : Nat} (f : Fin n → α → α) (v : Vector α n) :
    (List.finRange n).foldl (fun v i => upd v i (f i)) v = Vector.ofFn fun i => f i v[i] := by
  ext i hi
  have := foldl_upd_get f (List.finRange n) v ⟨i, hi⟩ (List.nodup_finRange n)
  simpa using this

/-- Changes of group operations that do not depend on the operations of others are changes of the one vector. -/
theorem State.foldl_onGroup (f : State → Group → GroupOp → GroupOp)
    (hf : ∀ (s : State) (v : Vector GroupOp 32), f { s with groups := v } = f s) (gs : List Group) (s : State) :
    gs.foldl (fun s g => s.onGroup g (f s g)) s
      = { s with groups := gs.foldl (fun v g => upd v g (f s g)) s.groups } := by
  induction gs generalizing s with
  | nil => rfl
  | cons g gs ih =>
    rw [List.foldl_cons, ih, show f (s.onGroup g (f s g)) = f s from hf s _]
    rfl

/-- Every group's history at once (R47). -/
theorem State.appendHistories_eq (s : State) (power : Outlet → Option Int) :
    s.appendHistories power = { s with groups := Vector.ofFn fun g => s.appended power g s.groups[g] } := by
  unfold State.appendHistories
  rw [State.foldl_onGroup (fun s => s.appended power) (fun _ _ => rfl)]
  exact congrArg (fun v => { s with groups := v }) (foldl_upd_all (s.appended power) s.groups)

/-- The sum is there just when every member's interval P is. -/
theorem memberSum_eq (power : Outlet → Option Int) (ms : List Outlet) :
    memberSum power ms =
      if ∀ o ∈ ms, (power o).isSome = true then some ((ms.map fun o => (power o).getD 0).sum) else none := by
  have hnone : ∀ l : List Outlet, l.foldl (fun acc o => addPower acc (power o)) none = none := by
    intro l; induction l with
    | nil => rfl
    | cons o l ih => exact ih
  have hsome : ∀ (l : List Outlet) (a : Int), l.foldl (fun acc o => addPower acc (power o)) (some a)
      = if ∀ o ∈ l, (power o).isSome = true then some (a + (l.map fun o => (power o).getD 0).sum) else none := by
    intro l; induction l with
    | nil => simp
    | cons o l ih =>
      intro a
      rw [List.foldl_cons]
      cases hp : power o with
      | none => rw [show addPower (some a) none = none from rfl, hnone]; simp [hp]
      | some p => rw [show addPower (some a) (some p) = some (a + p) from rfl, ih]; simp [hp, Int.add_assoc]
  simpa [memberSum] using hsome ms 0

/-- A group ends at an interval close: it is in VERIFYING with verify CURRENT and its boot threshold is reached (R113). -/
def State.bootVerified (s : State) (irms : Outlet → Nat) (g : Group) : Bool :=
  decide (s.groups[g].op = .verifying ∧ s.groupTable.active[g].verify = .current
    ∧ s.groupTable.active[g].bootThreshold ≤ ((s.members g).map irms).sum)

/-- One group's end leaves the test of the others as it was (R102). -/
theorem State.endOp_bootVerified (s : State) (irms : Outlet → Nat) (g h : Group) (hne : h ≠ g) (result : OpResult)
    (reason : Option OpReason) (verified : Bool) :
    (s.endOp g result reason verified).bootVerified irms h = s.bootVerified irms h := by
  obtain ⟨h1, h2, -⟩ := s.endOp_groups g result reason verified
  generalize s.endOp g result reason verified = t at *
  unfold State.bootVerified State.members
  by_cases hi : s.groups[h].op = .idle
  · rw [(h2 h hne).1, hi]; simp
  · obtain ⟨e1, -, e3⟩ := h1 h hne (.inl hi)
    rw [e1, e3]

/-- CURRENT verification ends the groups that are verified, by number (R113; entry 7). -/
theorem State.verifyCurrent_eq (s : State) (irms : Outlet → Nat) :
    s.verifyCurrent irms =
      (allGroups.filter (s.bootVerified irms)).foldl (fun u g => u.endOp g .done none false) s := by
  have hnd : allGroups.Nodup := List.nodup_finRange 32
  unfold State.verifyCurrent
  generalize allGroups = gs at hnd ⊢
  induction gs generalizing s with
  | nil => simp
  | cons g gs ih =>
    obtain ⟨hg, hnd⟩ := List.nodup_cons.1 hnd
    have hf : gs.filter ((s.endOp g .done none false).bootVerified irms) = gs.filter (s.bootVerified irms) :=
      List.filter_congr fun h hh => s.endOp_bootVerified irms g h (fun e : h = g => hg (e ▸ hh)) _ _ _
    rw [List.foldl_cons]
    by_cases hv : s.bootVerified irms g = true
    · rw [if_pos (by simpa [State.bootVerified, State.groupEntry] using hv), ih _ hnd, hf,
        List.filter_cons_of_pos hv, List.foldl_cons]
    · rw [if_neg (by simpa [State.bootVerified, State.groupEntry] using hv), ih _ hnd,
        List.filter_cons_of_neg hv]

/-- Groups that are in an operation and end one after the other, by number: each ends as it stood before the first; other
groups' operations and monitors stay, unless they are IDLE and their entries wait; with no entry waiting nothing but
GROUP_DONE is raised (R121). -/
theorem State.foldl_endOp (ends : List Group) (hn : ends.Nodup) (u : State)
    (hi : ∀ h ∈ ends, u.groups[h].op ≠ .idle) :
    let t := ends.foldl (fun u g => u.endOp g .done none false) u
    (∀ h, h ∉ ends → u.groups[h].op ≠ .idle ∨ h ∉ u.groupTable.waiting →
      t.groups[h] = u.groups[h] ∧ t.monitors[h] = u.monitors[h])
    ∧ (∀ h, h ∉ ends → u.groups[h].LikeBefore t.groups[h])
    ∧ (∀ h ∈ ends, (u.groups[h].toIdle (u.groups[h].record h .done none u.uptime)).LikeBefore t.groups[h])
    ∧ (u.groupTable.waiting = [] → (t.notifier, t.link0) = ends.foldl
        (fun x g => notify u.uptime (groupDone g (u.groups[g].record g .done none u.uptime)) x)
        (u.notifier, u.link0)) := by
  induction ends generalizing u with
  | nil =>
    exact ⟨fun _ _ _ => ⟨rfl, rfl⟩, fun h _ => GroupOp.likeBefore_self _, fun h hh => absurd hh (by simp), fun _ => rfl⟩
  | cons g gs ih =>
    obtain ⟨hg, hn⟩ := List.nodup_cons.1 hn
    obtain ⟨e1, e2, e3, e4, -⟩ := u.endOp_groups g .done none false
    obtain ⟨x, hx, hxe⟩ := u.endOp_eq g .done none false
    have hup : (u.endOp g .done none false).uptime = u.uptime :=
      (State.quiet_fields (u.endOp_quiet g .done none false)).2.1
    have hrep : u.groupTable.waiting = [] →
        ((u.endOp g .done none false).notifier, (u.endOp g .done none false).link0)
          = notify u.uptime (groupDone g (u.groups[g].record g .done none u.uptime)) (u.notifier, u.link0) := by
      intro hw
      have hxt : x.groupTable = u.groupTable := by rw [hxe]; rfl
      rw [hx, State.releaseGroups_of_none x (by rw [hxt, hw]), hxe]
      rfl
    dsimp only
    rw [List.foldl_cons, List.foldl_cons]
    clear hx
    generalize u.endOp g .done none false = v at *
    have hsame : ∀ h ∈ gs, v.groups[h] = u.groups[h] := fun h hh =>
      (e1 h (fun e : h = g => hg (e ▸ hh)) (.inl (hi h (List.mem_cons_of_mem _ hh)))).1
    obtain ⟨i1, i2, i3, i4⟩ := ih hn v fun h hh => by
      rw [hsame h hh]; exact hi h (List.mem_cons_of_mem _ hh)
    refine ⟨fun h hh hc => ?_, fun h hh => ?_, fun h hh => ?_, fun hw => ?_⟩
    · have hne : h ≠ g := fun e => hh (e ▸ List.mem_cons_self)
      obtain ⟨a, b, _⟩ := e1 h hne hc
      obtain ⟨a', b'⟩ := i1 h (fun m => hh (List.mem_cons_of_mem _ m))
        (hc.elim (fun z => .inl (by rw [a]; exact z)) fun z => .inr fun m => z (e4 _ m))
      exact ⟨a'.trans a, b'.trans b⟩
    · have hne : h ≠ g := fun e => hh (e ▸ List.mem_cons_self)
      exact (e2 h hne).trans (i2 h fun m => hh (List.mem_cons_of_mem _ m))
    · by_cases e : h = g
      · subst e; exact e3.trans (i2 h hg)
      · have hm := (List.mem_cons.1 hh).resolve_left e
        have := i3 h hm
        rwa [hup, hsame h hm] at this
    · rw [i4 (List.eq_nil_iff_forall_not_mem.2 fun a ha => by simpa [hw] using e4 a ha), hrep hw, hup]
      refine List.foldl_ext _ _ _ fun x a ha => ?_
      rw [hsame a ha]

/-- Events raised one after the other change the notifier and the link unit alone. -/
theorem State.foldl_raiseEvent (es : List Event) (s : State) : es.foldl State.raiseEvent s =
    { s with notifier := (es.foldl (fun x e => notify s.uptime e x) (s.notifier, s.link0)).1
             link0 := (es.foldl (fun x e => notify s.uptime e x) (s.notifier, s.link0)).2 } := by
  induction es generalizing s with
  | nil => rfl
  | cons e es ih => rw [List.foldl_cons, ih]; rfl

/-- An interval close: the six INTERVAL_CLOSED, the next interval with empty sums, and the histories; and on that the
CURRENT verification (R43 to R47, R113). -/
theorem State.closeInterval_eq (s : State) :
    ∃ x : State, s.closeInterval = x.verifyCurrent s.intervalIrms
    ∧ x = { s with
        notifier := ((List.finRange 6).foldl
          (fun x b => notify s.uptime (s.intervalEvent b s.intervalEnd) x) (s.notifier, s.link0)).1
        link0 := ((List.finRange 6).foldl
          (fun x b => notify s.uptime (s.intervalEvent b s.intervalEnd) x) (s.notifier, s.link0)).2
        groups := Vector.ofFn fun g => s.appended s.intervalPower g s.groups[g]
        outlets := Vector.ofFn fun o => { s.outlets[o] with sums := IntervalSums.clear }
        interval := { start := s.intervalEnd, length := s.systemTable.active[0].intervalLength
                      number := s.interval.number + 1 } } := by
  have happ : ∀ u : State, u.groupTable = s.groupTable → u.groups = s.groups →
      u.appendHistories s.intervalPower
        = { u with groups := Vector.ofFn fun g => s.appended s.intervalPower g s.groups[g] } := by
    intro u hu hg
    have ha : u.appended s.intervalPower = s.appended s.intervalPower := by
      unfold State.appended State.groupEntry State.members; rw [hu]
    rw [State.appendHistories_eq, ha, hg]
  have h := State.foldl_raiseEvent ((List.finRange 6).map fun b => s.intervalEvent b s.intervalEnd) s
  simp only [List.foldl_map] at h
  unfold State.closeInterval allBanks
  dsimp only
  rw [h, happ]
  · exact ⟨_, rfl, by simp only [State.clearSums]⟩
  · simp only [State.clearSums]
  · simp only [State.clearSums]

end Sys2Proof.Machine
end

