-- ==== Sys2Proof/Tests/Slice0.lean ====
section
/-! SUPPORT. Tests/Slice0.lean: the smoke test of WellFormed, worked values of the spec, and for each statement with
hypotheses a concrete state that meets them. -/

namespace Sys2Proof.Tests

open Sys2Proof.Machine

/-! ## WellFormed refuses what cannot be put to the part -/

/-- A payload of 129 bytes, one more than a cell can hold (R156). -/
def long : List Byte := List.replicate 129 0

theorem test_wellFormed_accepts :
    (Instr.readEntry 0 [1, 1, 0]).wellFormed = true ∧ (Instr.unknownCommand 0 0 []).wellFormed = true
    ∧ (Instr.unknownCommand 0x1D 0 []).wellFormed = true ∧ Instr.powerOn.wellFormed = true := by decide

theorem test_wellFormed_refuses_named_kinds :
    (Instr.unknownCommand 0x01 0 []).wellFormed = false ∧ (Instr.unknownCommand 0x1C 0 []).wellFormed = false := by
  decide

theorem test_wellFormed_refuses_long_payloads :
        [Instr.readEntry 0 long, Instr.writeEntry 0 long, Instr.discard 0 long, Instr.commit 0 long, Instr.lockCal
     0 long, Instr.switch 0 long, Instr.clearFault 0 long, Instr.clearEnergy 0 long, Instr.readOutlet 0 long,
     Instr.cycle 0 long, Instr.groupOff 0 long, Instr.groupOn 0 long, Instr.cancel 0 long, Instr.readGroup 0 long,
     Instr.clearLockout 0 long, Instr.token 0 long, Instr.setLevel 0 long, Instr.setMask 0 long, Instr.bindStream 0
     long, Instr.unbindStream 0 long, Instr.triggerStream 0 long, Instr.capture 0 long, Instr.readCapture 0 long,
     Instr.forceSafe 0 long, Instr.resume 0 long, Instr.status 0 long, Instr.restart 0 long, Instr.clearLinkErrors
     0 long, Instr.unknownCommand 0 0 long].all (fun c => !c.wellFormed) = true := by decide +kernel

/-! ## Worked values of the spec -/

/-- The check value of the CRC-8 (spec/12): the single byte 0x01 gives 0x9D. -/
theorem test_crc8_check_value : crc8 [0x01] = 0x9D := by decide

/-- No row of the opcode table gives bits, so no word spells a command. -/
theorem test_decode_spells_nothing : decodeTableWord 8 0x31 = none := rfl

/-- R39: eight windows that sum to 533 give 6004 centihertz; 640 gives 5000. -/
theorem test_frequency :
    frequencyOf [67, 67, 66, 67, 67, 66, 67, 66] = 6004 ∧ frequencyOf (List.replicate 8 80) = 5000 := by
  simp [frequencyOf, roundDivNat]

/-- R20: the default entry keeps a code; a full-scale code saturates. -/
theorem test_calibrate :
    calibrate .default 1000 = (1000, false) ∧ calibrate .default (BitVec.ofInt 16 (-32768)) = (-32767, true)
    ∧ calibrate { gain := 1, offset := 0, delay := 0 } 16384 = (1, false)
    ∧ calibrate { gain := 1, offset := 0, delay := 0 } (BitVec.ofInt 16 (-16384)) = (-1, false) := by
  simp [calibrate, CalEntry.default, roundDiv, clampInt]

/-- spec/04 4.10: with the crossing at 2,200, 80 sets a window, operate delay 20, off offset 2 and newest set 2,215, an
OPEN is sent for set 2,262. -/
theorem test_actuateAt :
    (2200 : SetNo) + BitVec.ofInt 32 (predictionIndex 80 20 2 (setDiff 2215 2200) * 80 - 20 + 2) = 2262 := by decide

/-- A RELAY cell's bytes (spec/12 12.2). -/
theorem test_relay_cell :
    RelayCell.bytes { pos := 3, action := .opens, at8 := 0xD6 } = sealCell [0x32, 4, 0, 0xD6] := rfl

/-- An INDICATE cell's bytes: ON, then BLINK, then OFF six times (spec/12 12.2). -/
theorem test_indicate_cell :
    indicateBytes #v[.on, .blink, .off, .off, .off, .off, .off, .off] = sealCell [0x33, 0x60, 0x00] := rfl

/-! ## States that meet the hypotheses of the statements -/

def zeroSet : RawSet := { volt := 0, cur := Vector.replicate 8 0, closed := 0, load := 0 }
def zeroCell (seq : Byte) : SampleCell := { seq := seq, set := zeroSet }

/-- Power-on state with lane 1 changed. -/
def withLane (f : Lane → Lane) : State := { State.reset with lanes := upd State.reset.lanes 0 f }

/-- Lane 1 in UP with a last good set and a cell of sequence `seq` in its FIFO. -/
def upState (seq : Byte) : State :=
  withLane fun l => { l with link := .up, lastGood := some zeroSet, silence := some 0, fifo := [zeroCell seq] }

/-- Group 1 with outlets 1 and 2 on an UP bank, in operation state `op`, outlet 1 ON. -/
def groupState (op : OpState) : State :=
  { upState 1 with
    groupTable := .ofActive (upd (Vector.replicate 32 .default) 0 fun e => { e with enabled := true, members := [1, 2] })
    groups := upd State.reset.groups 0 fun r => { r with op := op }
    relays := upd State.reset.relays 0 fun r => { r with state := .on } }

/-- Monitor 1 SUSPECT with a grace started at 0, at uptime 100 s, under policy `p`. -/
def suspectState (p : HangPolicy) : State :=
  { groupState .idle with
    uptime := 100000
    groupTable := .ofActive (upd (Vector.replicate 32 .default) 0 fun e =>
      { e with enabled := true, members := [1, 2], policy := p })
    monitors := upd State.reset.monitors 0 fun m =>
      { m with state := .suspect, grace := some { start := 0, retry := false } } }

def closeEntry (st : EntryState) : QueueEntry :=
  { outlet := 0, action := .close, origin := .manual, enqueued := 0, state := st }
def openEntry (st : EntryState) : QueueEntry :=
  { outlet := 1, action := .opens, origin := .manual, enqueued := 0, state := st }

/-- A SAMPLE cell as it stands on the line, good and spoilt. -/
def goodCell : List LineChar := goodChars (zeroCell 7).bytes
def shortCell : List LineChar := goodChars [0x31, 7]
def wrongCrc : List LineChar := goodChars ((zeroCell 7).bytes.dropLast ++ [0])
def badStop : List LineChar := [{ byte := 0x31, stopOk := false }]

theorem witness_restarts :
    (let s : State := { State.reset with link0 := { Link0.reset with restart := some { kind := .engine, sending := true } } }
     s.link0.restart = some { kind := .engine, sending := true })
    ∧ (let s : State := { State.reset with safePin := true, link0 := { Link0.reset with restart := some { kind := .all, sending := true } } }
       s.link0.restart = some { kind := .all, sending := true } ∧ s.safePin = true) := by decide

theorem witness_lane_cells :
    (let l := (withLane fun l => { l with link := .syncing, framing := true }).lanes[0]
     l.link ≠ .absent ∧ (∀ cell ∈ [badStop, shortCell, wrongCrc, goodCell], heldCell l.framing l.partialCell cell = cell))
    ∧ (let l := (withLane fun l => { l with link := .syncing }).lanes[0]
       l.framing = false ∧ heldCell l.framing l.partialCell goodCell = [])
    ∧ (∃ c ∈ badStop, c.stopOk = false)
    ∧ (∀ c ∈ shortCell, c.stopOk = true) ∧ (shortCell.map (·.byte)).length ≠ 23
    ∧ (∀ c ∈ goodCell, c.stopOk = true) ∧ (goodCell.map (·.byte)).head? = some 0x31
    ∧ (goodCell.map (·.byte)).length = 23
    ∧ (goodCell.map (·.byte)).getLast? = some (crc8 (goodCell.map (·.byte)).dropLast)
    ∧ (wrongCrc.map (·.byte)).length = 23
    ∧ (wrongCrc.map (·.byte)).getLast? ≠ some (crc8 (wrongCrc.map (·.byte)).dropLast)
    ∧ (withLane fun l => { l with link := .up, fifo := List.replicate 4 (zeroCell 0) }).lanes[0].fifo.length = 4 := by
  decide +kernel

theorem witness_runs :
    (let s := withLane fun l => { l with link := .syncing, fifo := [zeroCell 5], runSeq := some 4, runCount := 14 }
     s.lanes[0].link = .syncing ∧ s.lanes[0].fifo = [zeroCell 5] ∧ 200 ≤ s.lanes[0].sinceTake
      ∧ s.lanes[0].runSeq = some ((5 : Byte) - 1) ∧ s.lanes[0].runCount + 1 < 16)
    ∧ (let s := withLane fun l => { l with link := .lost, fifo := [zeroCell 0], runSeq := some 255, runCount := 15 }
       s.lanes[0].link = .lost ∧ s.lanes[0].fifo = [zeroCell 0] ∧ s.lanes[0].runSeq = some ((0 : Byte) - 1)
        ∧ 15 ≤ s.lanes[0].runCount) := by decide

/-- d = 1, 128, 0 and 129 (R10). -/
theorem witness_cell_in_up :
    (∀ x ∈ [1, 128, 0, 129], (upState x).lanes[0].link = .up ∧ (upState x).lanes[0].fifo = [zeroCell x]
      ∧ 200 ≤ (upState x).lanes[0].sinceTake ∧ (upState x).lanes[0].lastGood = some zeroSet)
    ∧ ((1 : Byte).toNat + 256 - (upState 1).lanes[0].counter.toNat % 256) % 256 = 1
    ∧ ((128 : Byte).toNat + 256 - (upState 128).lanes[0].counter.toNat % 256) % 256 = 128
    ∧ ((0 : Byte).toNat + 256 - (upState 0).lanes[0].counter.toNat % 256) % 256 = 0
    ∧ ((129 : Byte).toNat + 256 - (upState 129).lanes[0].counter.toNat % 256) % 256 = 129 := by decide

/-- 20 ms and 1,000 ms of silence, with a group, a capture and two table commits that wait for the bank. -/
theorem witness_lane_timers :
    (let s : State := { groupState .dwell with
        uptime := 20
        capture := { Capture.reset with state := .armed, outlet := some 0 }
        calTable := { State.reset.calTable with state := .committing, waiting := [0], held := some 1 }
        bankTable := { State.reset.bankTable with state := .committing, waiting := [0], held := some 2 } }
     s.lanes[0].link = .up ∧ s.lanes[0].silence = some 0 ∧ 20 ≤ (s.uptime - 0).toNat
      ∧ s.groups[0].op = .dwell ∧ s.groups[0].cancel = false ∧ (∃ o ∈ s.members 0, bankOf o = 0)
      ∧ s.capture.state = .armed ∧ (0 : Bank) ∈ s.calTable.waiting ∧ (0 : Bank) ∈ s.bankTable.waiting)
    ∧ due (upState 1).lanes[0].silence 19 20 = false
    ∧ (let s : State := { (withLane fun l => { l with link := .lost, signal := some 0 }) with uptime := 1000 }
       due s.lanes[0].signal s.uptime 1000 = true ∧ s.lanes[0].link = .lost)
    ∧ due (some 0) 999 1000 = false := by decide

theorem witness_transmitter :
    (withLane fun l => { l with relayList := [{ pos := 7, action := .close, at8 := 255 }] }).lanes[0].relayList
        = [{ pos := 7, action := .close, at8 := 255 }]
    ∧ (withLane fun l => { l with indicator := some (Vector.replicate 8 .blink) }).lanes[0].indicator
        = some (Vector.replicate 8 .blink)
    ∧ State.reset.lanes[0].relayList = [] ∧ State.reset.lanes[0].indicator = none := by decide

/-- An open window of `n` sets on bank 1. -/
def windowState (n : Nat) (aligned invalid : Bool) : State :=
  { State.reset with meters := upd State.reset.meters 0 fun m =>
      { m with window := some { Window.opened aligned 1 with n := n, invalid := invalid } } }

theorem witness_windows :
    (windowState 94 true false).meters[0].armed = false
    ∧ (windowState 94 true false).meters[0].window = some { Window.opened true 1 with n := 94, invalid := false }
    ∧ ({ Window.opened true 1 with n := 94, invalid := false } : Window).n < 95
    ∧ (windowState 56 true false).meters[0].window = some { Window.opened true 1 with n := 56, invalid := false }
    ∧ (windowState 10 false false).meters[0].window = some { Window.opened false 1 with n := 10, invalid := false }
    ∧ (windowState 96 true false).meters[0].window = some { Window.opened true 1 with n := 96, invalid := false } := by
  decide

/-- The values of the valid close: P above 0 and at its threshold, and P below it (R36, R37). -/
theorem witness_valid_close :
    (let w : Window := { Window.opened true 1 with n := 56, sums := Vector.replicate 8 { i2 := 0, vi := 1120000 } }
     0 < roundDiv w.sums[0].vi w.n ∧ (20 : Int) * 1000 ≤ roundDiv w.sums[0].vi w.n)
    ∧ (let w : Window := { Window.opened true 1 with n := 56, sums := Vector.replicate 8 { i2 := 0, vi := 1119900 } }
       ¬ ((20 : Int) * 1000 ≤ roundDiv w.sums[0].vi w.n)) := by decide

theorem witness_ready :
    State.reset.ready 0x08 1 [0] ∧ State.reset.ready 0x0A 1 [1] ∧ State.reset.ready 0x02 1 (1 :: 1 :: List.replicate 26 0)
    ∧ ({ State.reset with link0 := { Link0.reset with fifo := [{ kind := 0x03, tag := 1, payload := [7] }] } } : State).ready
        0x03 1 [7]
    ∧ State.reset.readyForToken 1 (1 :: List.replicate 16 1) := by
  refine ⟨⟨rfl, by decide, .inl rfl⟩, ⟨rfl, by decide, .inl rfl⟩, ⟨rfl, by decide, .inl rfl⟩, ⟨rfl, by decide, .inr rfl⟩,
    rfl, .inl rfl⟩

/-- A command that cannot be taken: all 8 slots in use; and one with a payload of the wrong length. -/
theorem witness_not_ready :
    ¬ ({ State.reset with link0 := { Link0.reset with reserved := List.replicate 8 { tag := 0, kind := 3 } } } : State).ready
        0x1A 1 []
    ∧ answeredCommand 0x1A 1 [] = some (.status 1 [], 0) ∧ answeredCommand 0x01 1 [] = some (.readEntry 1 [], 3)
    ∧ answeredCommand 0x1C 1 [] = some (.clearLinkErrors 1 [], 0) ∧ answeredCommand 0x10 1 [] = none
    ∧ answeredCommand 0x1D 1 [] = none := by
  refine ⟨fun h => absurd h.2.1 (by decide), by decide, by decide, by decide, by decide, by decide⟩

theorem witness_interval :
    (let s : State := { State.reset with uptime := 1000 }
     s.interval.length * 1000 ≤ (s.uptime - s.interval.start).toNat ∧ ∀ g : Group, s.groups[g].op ≠ .verifying)
    ∧ ¬ (State.reset.interval.length * 1000 ≤ ((999 : Uptime) - State.reset.interval.start).toNat) := by decide

/-- A threshold machine at its persistence and below it, at a target that differs from its state. -/
theorem witness_limits :
    (let p : LimitParams := { warn := 10, crit := 20, hysteresis := 5, persistence := 2 }
     p.target .normal 20 ≠ .normal ∧ p.target .normal 10 = .warn ∧ p.target .critical 15 = .critical
      ∧ p.target .critical 14 = .warn ∧ p.target .warn 4 = .normal ∧ p.persistence ≤ 2 ∧ (1 : Nat) < p.persistence) := by
  decide

/-- Outlet 2, of priority 1 and ON, is the one candidate; then outlet 1 on the stack. -/
theorem witness_shedding :
    (let s : State := { State.reset with
        uptime := 2000
        sheds := upd State.reset.sheds 0 fun u => { u with shedTimer := some 0 }
        relays := upd State.reset.relays 1 fun r => { r with state := .on }
        outletTable := .ofActive (upd (Vector.replicate 48 .default) 1 fun e => { e with shedPriority := 1 }) }
     due s.sheds[0].shedTimer s.uptime s.bankTable.active[0].shedDelay = true
      ∧ s.relays[1].state = .on ∧ s.outletTable.active[1].shedPriority = 1 ∧ (1 : Outlet) ∉ s.sheds[0].stack
      ∧ s.groupOf 1 = none ∧ (s.request 1 .opens .shed).1 = .queued ∧ bankOf 1 = 0)
    ∧ (let s : State := { State.reset with
        uptime := 30000
        sheds := upd State.reset.sheds 0 fun u => { u with stack := [0], restoreTimer := some 0 } }
       due s.sheds[0].restoreTimer s.uptime (s.bankTable.active[0].restoreDelay * 1000) = true
        ∧ s.sheds[0].stack = [0] ∧ s.groupOf 0 = none ∧ (s.request 0 .close .restore).1 = .queued)
    ∧ (({ groupState .dwell with queue := [openEntry (.issued 0)] } : State).request 1 .close .restore).1 = .refusedBusy
    ∧ (groupState .dwell).groupOf 0 = some 0 := by decide

theorem witness_verification :
    (let f : Flight := { action := .opens, actuateAt := 100, verifyAt := 124 }
     let w : Window := { Window.opened true 60 with n := 65, lastReceived := some { num := 124, closed := 0, load := 0 } }
     0 ≤ (w.last - f.verifyAt).toInt ∧ 0 ≤ ((124 : SetNo) - f.verifyAt).toInt
      ∧ (({ w with n := 64 } : Window).last - f.verifyAt).toInt < 0 ∧ ((123 : SetNo) - f.verifyAt).toInt < 0)
    ∧ (({ State.reset with relays := upd State.reset.relays 0 fun r =>
        { r with flight := some { action := .close, actuateAt := 0, verifyAt := 24 } } } : State).relays[0].flight).isSome
        = true := by decide

theorem witness_queue :
    (let s : State := { State.reset with queue := [closeEntry .waiting, openEntry (.issued 0)] }
     s.QueueKept ∧ (∀ e ∈ s.queue, e.outlet ≠ 2) ∧ s.queue = [] ++ closeEntry .waiting :: [openEntry (.issued 0)]) := by
  refine ⟨?_, by decide, rfl⟩
  unfold State.QueueKept; decide

theorem witness_switch :
    (upState 1).safe.cause = none ∧ (upState 1).lanes[bankOf 0].link = .up ∧ (upState 1).groupOf 0 = none
    ∧ (48 : Byte).toNat = (47 : Outlet).val + 1 ∧ State.reset.lanes[bankOf 47].link ≠ .up
    ∧ (groupState .dwell).groupOf 0 = some 0 ∧ (groupState .dwell).groups[0].op ≠ .idle := by decide

theorem witness_dispatch :
    (let s : State := { upState 1 with queue := [closeEntry .waiting, openEntry .waiting] }
     s.uptime.toNat % 5 = 0 ∧ s.opportunityTaken = false ∧ s.QueueKept
      ∧ s.grantTable.active[s.grantPtr] = some 0 ∧ s.turnOn[0] = none ∧ s.settle[0] = none
      ∧ s.bankLimits[0].level ≠ .critical ∧ 0 < s.tokens[s.bankTable.active[0].phase]) := by
  refine ⟨by decide, by decide, ?_, by decide⟩
  unfold State.QueueKept; decide

theorem witness_switching_timers :
    (let s : State := { State.reset with
        uptime := 60000, settle := upd State.reset.settle 0 fun _ => some 59900
        tokens := upd State.reset.tokens 0 fun _ => 1, refill := upd State.reset.refill 0 fun _ => some 59750
        queue := [closeEntry .waiting] }
     s.bankTable.active[0].settle ≤ (s.uptime - 59900).toNat
      ∧ s.phaseTable.active[0].refill ≤ (s.uptime - 59750).toNat
      ∧ s.systemTable.active[0].grantTimeout * 1000 ≤ (s.uptime - (closeEntry .waiting).enqueued).toNat
      ∧ ∀ g : Group, (0 : Outlet) ∉ s.groups[g].awaited) := by decide

/-- The groups of the group statements: IDLE with outlet 1 ON, and each other operation state. -/
theorem witness_groups :
    (groupState .idle).safe.cause = none ∧ (groupState .idle).groupTable.active[0].enabled = true
    ∧ (∀ o ∈ (groupState .idle).members 0, (groupState .idle).lanes[bankOf o].link = .up)
    ∧ (groupState .idle).groups[0].op = .idle ∧ (groupState .idle).members 0 = [0, 1]
    ∧ (∃ o ∈ (groupState .idle).members 0, (groupState .idle).relays[o].state ≠ .off)
    ∧ (∃ o ∈ (groupState .idle).members 0, o ∉ (groupState .idle).sheds[bankOf o].stack)
    ∧ State.reset.groupTable.active[0].enabled = false ∧ (groupState .offing).groups[0].op = .offing := by decide

/-- A GROUP_ON whose first member is UNKNOWN and has no entry; and one whose members are all ON. -/
theorem witness_group_on :
    (let s : State := { groupState .idle with relays := State.reset.relays }
     s.members 0 = 0 :: [1] ∧ s.relays[0].state = .unknown ∧ s.sheds[bankOf 0].shedFlight ≠ some 0
      ∧ ∀ e ∈ s.queue, e.outlet ≠ 0)
    ∧ (let s : State := { groupState .idle with
        relays := Vector.replicate 48 { Relay.reset with state := .on } }
       ∀ o ∈ s.members 0, s.relays[o].state = .on ∧ s.sheds[bankOf o].shedFlight ≠ some o) := by
  decide

/-- GROUP_ON puts a monitor that is not OFFLINE in CYCLING, the operation going on (R107, R138). -/
theorem test_group_on_monitors :
    [MonitorState.suspect, .disarmed, .offline].map (fun st =>
      let s : State := { groupState .idle with
        uptime := 1, relays := State.reset.relays
        monitors := upd State.reset.monitors 0 fun m => { m with state := st, deadline := some 0, busy := 2 } }
      match exec (.groupOn 7 [1]) s with
      | .next t => some (t.groups[0].op, t.monitors[0].state, t.monitors[0].deadline, t.monitors[0].busy)
      | _ => none) =
    [some (.oning, .cycling, none, 0), some (.oning, .cycling, none, 0), some (.oning, .offline, some 0, 2)] := by
  decide +kernel

/-- A cancelled OFFING with an ISSUED and with a WAITING awaited entry. -/
theorem witness_cancel :
    (let s : State := { groupState .offing with
        queue := [openEntry (.issued 0)]
        groups := upd State.reset.groups 0 fun r => { r with op := .offing, awaited := [1] } }
     s.groups[0].op ≠ .idle ∧ s.groups[0].cancel = false ∧ s.QueueKept ∧ ∃ o ∈ s.groups[0].awaited, s.isIssued o = true)
    ∧ (let s : State := { groupState .offing with
        queue := [openEntry .waiting]
        groups := upd State.reset.groups 0 fun r => { r with op := .offing, awaited := [1] } }
       ∀ o ∈ s.groups[0].awaited, s.isIssued o = false) := by
  refine ⟨⟨by decide, by decide, ?_, by decide⟩, by decide⟩
  unfold State.QueueKept; decide

theorem witness_group_timers :
    (let s : State := { groupState .dwell with
        uptime := 10000, relays := State.reset.relays
        groups := upd State.reset.groups 0 fun r => { r with op := .dwell, dwell := some 0 } }
     due s.groups[0].dwell s.uptime (s.groupTable.active[0].offDwell * 1000) = true
      ∧ (s.members 0)[0]? = some 0 ∧ s.relays[0].state = .unknown)
    ∧ (let s : State := { groupState .oning with
        uptime := 2000
        groups := upd State.reset.groups 0 fun r => { r with op := .oning, stagger := some 0 } }
       due s.groups[0].stagger s.uptime (s.groupTable.active[0].onStagger * 1000) = true
        ∧ (s.members 0)[s.groups[0].turn + 1]? = some 1 ∧ s.relays[1].state = .unknown)
    ∧ (let s : State := { groupState .verifying with
        uptime := 300000
        groups := upd State.reset.groups 0 fun r => { r with op := .verifying, boot := some 0 } }
       due s.groups[0].boot s.uptime (s.groupTable.active[0].bootWindow * 1000) = true
        ∧ s.groups[0].retry < s.groupTable.active[0].retries
        ∧ (∀ o ∈ s.members 0, s.lanes[bankOf o].link = .up) ∧ ∃ o ∈ s.members 0, s.relays[o].state ≠ .off) := by
  decide

/-- Group 1 at the stagger expiry that takes outlet 2's turn, with the switching queue `q`. -/
def turnState (q : List QueueEntry) : State :=
  { groupState .oning with
    uptime := 2000, queue := q
    groups := upd State.reset.groups 0 fun r =>
      { r with op := .oning, kind := some .on, stagger := some 0, progress := [.closed, .pending] } }

/-- Outlet 2's entries that its turn's CLOSE meets: none; a CLOSE; an OPEN that gives way; one ISSUED; one of SHED. -/
def turnQueues : List (List QueueEntry) :=
  [[], [{ openEntry .waiting with action := .close }], [openEntry .waiting], [openEntry (.issued 0)],
   [{ openEntry .waiting with origin := .shed }]]

/-- The five answers of the switching queue to a turn's CLOSE, and whether the turn passes over the member (R111). -/
theorem witness_turn_answers :
    turnQueues.map (fun q => ((turnState q).request 1 .close (.group 0)).1) =
      [.queued, .merged, .replaced, .refusedBusy, .refusedRank]
    ∧ turnQueues.map (fun q => (turnState q).passedAs 0 1) = [none, none, none, none, some .passed]
    ∧ ∀ q ∈ turnQueues, due (turnState q).groups[0].stagger (turnState q).uptime
        ((turnState q).groupTable.active[0].onStagger * 1000) = true ∧ (turnState q).members 0 = [0, 1] := by decide

/-- A member shed, in fault, welded and ON at its turn is passed over, all of them as the turns run to the end (R111). -/
theorem witness_turns_pass_over :
    ({ turnState [] with sheds := upd State.reset.sheds 0 fun u => { u with stack := [1] } } : State).passedAs 0 1
      = some .passed
    ∧ ([RelayState.faultOpen, .faultWelded, .on].map fun st =>
        ({ turnState [] with relays := Vector.replicate 48 { Relay.reset with state := st } } : State).passedAs 0 1)
      = [some .faulted, some .faulted, some .closed]
    ∧ (∀ m ∈ (turnState []).turnsBetween 0 1 1, (turnState []).passedAs 0 m ≠ none)
    ∧ (let s : State := { turnState [] with relays := Vector.replicate 48 { Relay.reset with state := .on } }
       s.turnsBetween 0 0 2 = [0, 1] ∧ ∀ m ∈ s.turnsBetween 0 0 2, s.passedAs 0 m ≠ none) := by decide

/-- What the turn leaves: outlet 2 awaited but for REFUSED_RANK, the wait set by REFUSED_BUSY alone, its progress; after
REFUSED_RANK, at the last member and with verify NONE, the operation is over (R111, R113). -/
theorem test_turn_answers :
    turnQueues.map (fun q => match exec (.staggerExpiry 0) (turnState q) with
      | .next t => some (t.groups[0].op, t.groups[0].awaited, t.groups[0].busyWait, t.groups[0].progress)
      | _ => none) =
    [some (.oning, [1], false, [.closed, .awaiting]), some (.oning, [1], false, [.closed, .awaiting]),
     some (.oning, [1], false, [.closed, .awaiting]), some (.oning, [1], true, [.closed, .awaiting]),
     some (.idle, [], false, [.closed, .passed])] := by decide +kernel

theorem witness_hangs :
    (let s : State := { suspectState .cycle with
        uptime := 120000, monitors := upd State.reset.monitors 0 fun m => { m with state := .armed, deadline := some 0 } }
     due s.monitors[0].deadline s.uptime (s.groupTable.active[0].deadline * 1000) = true
      ∧ s.groupTable.active[0].grace ≠ 0)
    ∧ (suspectState .notify).graceDue 0 = true ∧ (suspectState .cycleIfFlat).graceDue 0 = true
    ∧ (suspectState .cycle).graceDue 0 = true ∧ (suspectState .cycle).groupTable.active[0].budget = 3
    ∧ (suspectState .cycle).monitors[0].window = none
    ∧ (∃ o ∈ (suspectState .cycle).members 0, (suspectState .cycle).relays[o].state ≠ .off)
    ∧ due (some 0) 21600000 ((suspectState .cycle).groupTable.active[0].budgetWindow * 3600000) = true
    ∧ due (some 0) 21599999 ((suspectState .cycle).groupTable.active[0].budgetWindow * 3600000) = false := by decide

/-- Histories of eight values: flat, not flat, and with an absent value. -/
theorem witness_flat_test :
    flatTest (List.replicate 8 (some 100)) 8 50 = .flat 0
    ∧ flatTest (some 49 :: List.replicate 7 (some 100)) 8 50 = .notFlat 51
    ∧ flatTest (none :: List.replicate 7 (some 100)) 8 50 = .insufficient 7
    ∧ flatTest (none :: List.replicate 8 (some 100)) 8 50 = .flat 0 := by decide

theorem witness_tokens :
    (let s := groupState .idle
     s.groupTable.active[0].enabled = true ∧ s.groups[0].op ≠ .verifying ∧ s.power 0 ≠ .allOff)
    ∧ (suspectState .notify).monitors[0].state = .suspect := by decide

/-- A written area for each table that reads back; an undefined enumeration value. -/
theorem witness_areas :
    OutletEntry.read (OutletEntry.area .default) = some .default
    ∧ BankEntry.read (BankEntry.area (.default 2)) = some (.default 2)
    ∧ GroupEntry.read (GroupEntry.area .default) = some .default ∧ OutletEntry.read (List.replicate 26 3) = none
    ∧ (OutletEntry.area .default).length = 26 := by decide

theorem witness_commit :
    State.reset.systemTable.state = .clean ∧ (∃ i : Fin 32, State.reset.grantTable.pending[i] ≠ none)
    ∧ (∀ i : Fin 32, (Vector.replicate 32 (none : Option Bank))[i] = none)
    ∧ (let s : State := { upState 1 with
        calTable := { State.reset.calTable with
          state := .dirty, pending := upd State.reset.calTable.pending 48 fun e => { e with gain := 1 } } }
       s.calLock = false ∧ s.calTable.state = .dirty ∧ s.lanes[bankOfCal 48].link = .up
        ∧ s.calTable.pending[48] ≠ s.calTable.active[48])
    ∧ (let s : State := { upState 1 with
        queue := [openEntry (.issued 0)]
        outletTable := { State.reset.outletTable with
          state := .dirty, pending := upd State.reset.outletTable.pending 1 fun e => { e with low := 1 } } }
       s.isIssued 1 = true ∧ s.outletTable.pending[1] ≠ s.outletTable.active[1]) := by decide

/-- Group 2 offends by a member of group 1; the default table has no offender. -/
theorem witness_group_commit :
    (let v := upd (upd (Vector.replicate 32 GroupEntry.default) 0 fun e => { e with members := [1] }) 1 fun e =>
      { e with members := [1] }
     firstOffender v = some 1)
    ∧ firstOffender State.reset.groupTable.pending = none ∧ ∀ g : Group, State.reset.groups[g].op = .idle := by decide

theorem witness_link0_cells :
    (let bytes := CommandCell.bytes { kind := 0x1A, tag := 5, payload := [] }
     bytes.length = (bytes.getD 2 0).toNat + 4 ∧ bytes.getLast? = some (crc8 bytes.dropLast))
    ∧ (let bytes := CommandCell.bytes { kind := 0x09, tag := 5, payload := [48] }
       ¬ (bytes.length < 4 ∨ 128 < (bytes.getD 2 0).toNat ∨ bytes.length ≠ (bytes.getD 2 0).toNat + 4))
    ∧ classifyCommand (goodChars [0, 0, 0]) = .bad .length ∧ classifyCommand (goodChars [0, 0, 0, 0]) = .bad .crc := by
  decide +kernel

/-- A response, a notice and a record, each alone in front of the arbiter. -/
theorem witness_arbiter :
    (State.reset.answered 0x1B 1 .ok .empty).link0.filled = [{ tag := 1, kind := 0x1B, status := .ok, answer := .empty }]
    ∧ (State.reset.raise .bankUp 1 (.bankUp .syncing)).link0.notices.length = 1
    ∧ (State.reset.onLink0 fun l => l.offerRecord { triggered := false, body := .operation none }).link0.records.length
        = 1
    ∧ State.reset.holdIn = false := by decide

/-- A notifier with 64 entries, all held back by mask 6, and one with stream 1 bound to SWITCH_DONE. -/
def fullNotifier : Notifier :=
  { Notifier.reset with
    mask := 6
    entries := (List.range 64).map fun i =>
      { kind := .linkError, source := i, count := 255, time := 0, detail := .bankAbsent } }

def boundTo (remaining : Nat) : Binding :=
  { kind := .switchDone, source := none, remaining := remaining, bound := 2 }

def boundNotifier (remaining : Nat) : Notifier :=
  { Notifier.reset with streams := upd Notifier.reset.streams 0 fun _ => some (boundTo remaining) }

theorem witness_events :
    fullNotifier.entries.length = 64 ∧ (∀ q ∈ fullNotifier.entries, ¬ (q.kind = .bankUp ∧ q.source = 1))
    ∧ fullNotifier.levels[EventKind.bankUp.index] ≠ 0 ∧ Notifier.reset.levels[EventKind.switchDone.index] = 0
    ∧ (boundNotifier 2).streams[0] = some (boundTo 2)
    ∧ (boundNotifier 2).streams[1] = none ∧ (boundNotifier 2).streams[2] = none ∧ (boundNotifier 2).streams[3] = none
    ∧ fullNotifier.candidates = [] := by decide

theorem witness_notifier_commands :
    (3 : Byte).toNat = EventKind.number .bankLost ∧ (24 : Byte).toNat = EventKind.number .switchDone
    ∧ (23 : Byte).toNat = EventKind.number .intervalClosed ∧ Notifier.reset.streams[3] = none
    ∧ ¬ ((48 : Byte).toNat ≠ 0xFF ∧ ((48 : Byte).toNat = 0 ∨ 48 < (48 : Byte).toNat)) := by decide

theorem witness_safe :
    State.reset.safe.cause = none ∧ State.reset.safePin = false ∧ State.reset.QueueKept
    ∧ ({ State.reset with safe := { cause := some .pin, followUp := [] } } : State).safe.cause ≠ none := by
  refine ⟨by decide, by decide, ?_, by decide⟩
  unfold State.QueueKept; decide

theorem witness_capture :
    State.reset.capture.state = .empty ∧ (upState 1).lanes[bankOf 0].link = .up
    ∧ (let c : Capture := { state := .full, outlet := some 0, buffer := [], first := some 1
                            header := some { outlet := some 0, result := some .complete, kind := some .valid, n := 80
                                             first := some 1, stamp := some (0, 0) } }
       c.state = .full ∧ ∃ h, c.header = some h ∧ (80 : Byte).toNat ≤ h.n ∧ h.n < (81 : Byte).toNat) := by
  refine ⟨by decide, by decide, rfl, _, rfl, by decide, by decide⟩

/-- The power-on state meets the promises that need no table to be looked through; the steps from it are steps. -/
theorem witness_promises :
    State.reset.QueueKept ∧ State.reset.SafeKept ∧ step State.reset = .next State.reset.tick
    ∧ State.reset.pending.head? ≠ some .powerOn := by
  refine ⟨by unfold State.QueueKept; decide, fun h => absurd rfl h, rfl, by decide⟩

/-! ## States that meet the clauses on restarts, windows and intervals -/

/-- Characters before the first idle gap, and after a BREAK, are discarded without an error (R156, R157). -/
theorem test_link0_frames_from_a_gap :
    (match exec (.link0CellReceived (goodChars [0x1A, 5, 0, 0])) State.reset with
      | .next t => t.link0.fifo.isEmpty && t.link0.errors.kinds.isEmpty && t.link0.framing | _ => false) = true
    ∧ (match exec (.link0Break []) (State.reset.onLink0 fun l => { l with framing := true }) with
      | .next t => (match exec (.link0CellReceived (goodChars [0, 0, 0])) t with
        | .next u => u.link0.errors.kinds == [.brk] && u.link0.framing | _ => false)
      | _ => false) = true := by decide +kernel

/-- Link 0 inside a cell: the characters up to the gap form one. -/
theorem witness_link0_framing :
    (State.reset.onLink0 fun l => { l with framing := true, partialCell := goodChars [0, 0] }).link0.framing = true
    ∧ State.reset.link0.framing = false := by decide

/-- A table of each kind with an entry that waits and one that does not, under a RESTART that takes effect. -/
theorem witness_restart_tables :
    let s : State := { State.reset with
      link0 := { Link0.reset with restart := some { kind := .engine, sending := true } }
      outletTable := { State.reset.outletTable with state := .deferred, waiting := [47], written := true }
      bankTable := { State.reset.bankTable with state := .committing, waiting := [5], held := some 2 }
      calTable := { State.reset.calTable with state := .committing, waiting := [5], held := some 1 }
      groupTable := { State.reset.groupTable with state := .deferred, waiting := [31] } }
    s.link0.restart = some { kind := .engine, sending := true }
    ∧ s.outletTable.state = .deferred ∧ (47 : Outlet) ∈ s.outletTable.waiting ∧ (0 : Outlet) ∉ s.outletTable.waiting
    ∧ s.outletTable.written = true ∧ s.bankTable.state = .committing ∧ (5 : Bank) ∈ s.bankTable.waiting
    ∧ s.calTable.state = .committing ∧ bankOfCal 53 ∈ s.calTable.waiting ∧ bankOfCal 0 ∉ s.calTable.waiting
    ∧ s.groupTable.state = .deferred ∧ (31 : Group) ∈ s.groupTable.waiting ∧ s.groupTable.written = false
    ∧ State.reset.bankTable.state = .clean ∧ State.reset.systemTable.state = .clean := by decide

/-- Bank 1 armed after a voltage of -1, with an open window of `n` sets: a set of voltage 0 is a crossing. -/
def armedState (n : Nat) (aligned : Bool) : State :=
  { windowState n aligned false with meters := upd (windowState n aligned false).meters 0 fun m =>
      { m with armed := true, history := [-1] } }

/-- A crossing at N of 55 and 56 of an aligned window, at 95 of one, of an unaligned one, and with no window open. -/
theorem witness_crossings :
    (∀ s ∈ [armedState 55 true, armedState 56 true, armedState 95 true, armedState 1 false],
      s.meters[0].armed = true ∧ (∃ u ∈ s.meters[0].history.head?, u < 0)
      ∧ 0 ≤ (calibrate s.calTable.active[48] zeroSet.volt).1)
    ∧ (armedState 55 true).meters[0].window.map (·.n) = some 55
    ∧ (armedState 56 true).meters[0].window.map (·.n) = some 56
    ∧ (armedState 1 false).meters[0].window.map (·.aligned) = some false
    ∧ (windowState 95 true false).meters[0].armed = false
    ∧ (windowState 95 true false).meters[0].window.map (·.n) = some 95
    ∧ State.reset.meters[0].window = none := by decide +kernel

/-- At N of 55 the crossing joins the window; at 56 it closes it and opens an aligned one (R24 to R26). -/
theorem test_crossing_at_the_shortest_window :
    ((armedState 55 true).handSet 0 7 zeroSet false).meters[0].window.map (·.n) = some 56
    ∧ ((armedState 56 true).handSet 0 7 zeroSet false).meters[0].window.map (·.first) = some 7 := by decide +kernel

/-- Energy in range, with no valid power yet, and with one just below the creep threshold and one at it (R38). -/
theorem witness_estimates :
    State.reset.EnergyKept ∧ State.reset.outlets[0].lastValidP = none
    ∧ ¬ ((0 : Int) < 19999 ∧ (State.reset.outletTable.active[0].creep * 1000 : Int) ≤ 19999)
    ∧ (State.reset.outletTable.active[0].creep * 1000 : Int) ≤ 20000 := by
  refine ⟨?_, by decide, by decide, by decide⟩
  unfold State.EnergyKept; decide

/-- Bank 1 at 1,000 ms with group 1 in VERIFYING by CURRENT, its outlets 1 and 2 having `n` windows' sums. -/
def verifyingState (i2 : Nat) : State :=
  { groupState .verifying with
    uptime := 1000
    groupTable := .ofActive (upd (Vector.replicate 32 .default) 0 fun e =>
      { e with enabled := true, members := [1, 2], verify := .current, bootThreshold := 250 })
    outlets := upd State.reset.outlets 0 fun m => { m with sums := { m.sums with n := 80, i2 := i2 } } }

/-- Group 1 verified by an interval Irms_code of 250, not by 249; an outlet without a valid window (R45, R113). -/
theorem witness_verification_by_current :
    (verifyingState (80 * 62500)).outlets[0].sums.irms = some 250
    ∧ (verifyingState (80 * 62001)).outlets[0].sums.irms = some 249
    ∧ (verifyingState 0).groups[0].op = .verifying ∧ (verifyingState 0).members 0 = [0, 1]
    ∧ (verifyingState 0).outlets[1].sums.n = 0 ∧ (verifyingState 0).outlets[1].sums.irms = none
    ∧ (verifyingState 0).groupTable.active[0].verify = .current
    ∧ (verifyingState 0).interval.length * 1000 ≤ ((verifyingState 0).uptime - 0).toNat := by decide +kernel

/-- An interval close with group 1 in VERIFYING and not verified, and with it verified: no entry waits in the one, that of
group 2, IDLE, in the other; each group is IDLE or not, waiting or not. -/
theorem witness_interval_with_group_verifying :
    (let s := verifyingState (80 * 62001)
     s.groups[0].op = .verifying ∧ s.groupTable.waiting = []
      ∧ ¬ s.groupTable.active[0].bootThreshold ≤ ((s.members 0).map fun o => s.outlets[o].sums.irms.getD 0).sum
      ∧ ∀ g : Group, g ≠ 0 → s.groups[g].op ≠ .verifying)
    ∧ (let s := verifyingState (80 * 62500)
       let w : State := { s with groupTable := { s.groupTable with waiting := [1] } }
       w.groups[0].op = .verifying
        ∧ w.groupTable.active[0].bootThreshold ≤ ((w.members 0).map fun o => w.outlets[o].sums.irms.getD 0).sum
        ∧ w.groups[1].op = .idle ∧ 1 ∈ w.groupTable.waiting ∧ 2 ∉ w.groupTable.waiting) := by decide +kernel

/-- At 249 of 250 the group goes on with its history appended; at 250 it is IDLE, DONE, with an empty history (R113). -/
theorem test_interval_verifies_by_current :
    [80 * 62001, 80 * 62500].map (fun i2 => match exec .intervalClose (verifyingState i2) with
      | .next t => some (t.groups[0].op, t.groups[0].history, t.groups[0].lastRecord.map (·.result))
      | _ => none) =
    [some (.verifying, [none], none), some (.idle, [], some .done)] := by decide +kernel

/-- A load-lost detector one below its persistence and two below it; one that is set; one that is not watched (R55). -/
theorem witness_load_lost :
    let s : State := { State.reset with
      relays := upd State.reset.relays 0 fun r => { r with state := .on }
      outletTable := .ofActive (upd (Vector.replicate 48 .default) 0 fun e =>
        { e with low := 100, hysteresis := 5, persistence := 3 })
      loadLost := upd State.reset.loadLost 0 fun _ => { lost := false, run := 2 } }
    s.relays[0].state = .on ∧ s.outletTable.active[0].low ≠ 0 ∧ s.loadLost[0].lost = false
    ∧ s.outletTable.active[0].persistence ≤ s.loadLost[0].run + 1
    ∧ State.reset.loadLost[0].run + 1 < s.outletTable.active[0].persistence
    ∧ (s.evalLoad 0 99).loadLost[0].lost = true ∧ (s.evalLoad 0 100).loadLost[0] = { lost := false, run := 0 }
    ∧ (({ s with loadLost := upd s.loadLost 0 fun _ => { lost := true, run := 3 } }).evalLoad 0 104).loadLost[0].lost = true
    ∧ State.reset.relays[0].state ≠ .on := by decide

/-- A shed timer that has run with no outlet to shed, the mark clear and set; a restore timer with an empty stack, and
with a top outlet whose group has an operation. -/
theorem witness_nothing_shed_or_restored :
    (let s : State := { State.reset with
        uptime := 2000, sheds := upd State.reset.sheds 0 fun u => { u with shedTimer := some 0 } }
     due s.sheds[0].shedTimer s.uptime s.bankTable.active[0].shedDelay = true
      ∧ (∀ o : Outlet, s.relays[o].state ≠ .on) ∧ s.sheds[0].exhausted = false
      ∧ (upd s.sheds 0 fun u => { u with exhausted := true })[0].exhausted = true)
    ∧ (let s : State := { groupState .dwell with
        uptime := 30000, sheds := upd State.reset.sheds 0 fun u => { u with restoreTimer := some 0 } }
       due s.sheds[0].restoreTimer s.uptime (s.bankTable.active[0].restoreDelay * 1000) = true
        ∧ s.sheds[0].stack = [] ∧ s.groupOf 0 = some 0 ∧ s.groups[0].op ≠ .idle ∧ bankOf 0 = 0) := by decide

/-! ## States that meet the clauses on relays, the queue and groups -/

/-- An OFF and an ON outlet at the second count of its watch, with an Irms_code at and below the weld threshold. -/
theorem witness_watches :
    let s : State := { State.reset with
      relays := upd (upd State.reset.relays 0 fun r => { r with state := .off, weld := 2 }) 1 fun r =>
        { r with state := .on, dead := 2 } }
    s.relays[0].flight = none ∧ s.relays[0].state = .off ∧ 3 ≤ s.relays[0].weld + 1
    ∧ s.relays[1].state = .on ∧ 3 ≤ s.relays[1].dead + 1 ∧ s.relays[1].flight = none
    ∧ s.outletTable.active[0].weld ≤ 50 ∧ ¬ (s.outletTable.active[0].weld ≤ 9)
    ∧ s.relays[2].state = .unknown ∧ s.relays[2].weld + 1 < 3 := by decide

/-- spec/04 4.10 on the state of the machine: the OPEN of outlet 1 is sent for set 2,262; without a valid length, or
after a NO_LINE close, it is sent for the set 4 after the newest (R67 to R69). -/
theorem test_actuate_at_of_the_machine :
    let s : State := { withLane fun l => { l with counter := 2215 } with
      meters := upd State.reset.meters 0 fun m =>
        { m with crossing := some 2200, winLen := some 80, lastKind := some .valid }
      outletTable := .ofActive (upd (Vector.replicate 48 .default) 0 fun e =>
        { e with operateDelay := 20, offOffset := 2 }) }
    s.actuateAt 0 .opens = 2262 ∧ State.reset.actuateAt 0 .opens = 4
    ∧ ({ s with meters := upd s.meters 0 fun m => { m with lastKind := some .noLine } }).actuateAt 0 .close = 2219 := by
  decide

/-- The entries whose completion is spoken of: an ISSUED CLOSE and a WAITING one, awaited by no group. -/
theorem witness_completion :
    (let s : State := { upState 1 with queue := [closeEntry (.issued 0), openEntry .waiting] }
     s.queue = [] ++ closeEntry (.issued 0) :: [openEntry .waiting] ∧ (closeEntry (.issued 0)).state ≠ .waiting
      ∧ (∀ e' ∈ [openEntry .waiting], e'.outlet ≠ 0) ∧ (∀ g : Group, (0 : Outlet) ∉ s.groups[g].awaited)
      ∧ (0 : Outlet) ∉ s.safe.followUp) := by decide

/-- GROUP_OFF where a member is ON, and where nothing is left to open; group 1 in DWELL, ONING and VERIFYING. -/
theorem witness_group_off_in_operation :
    (∀ op ∈ [OpState.dwell, .oning, .verifying],
      let s := groupState op
      s.groups[0].op = op ∧ s.groups[0].cancel = false ∧ s.safe.cause = none
      ∧ s.groupTable.active[0].enabled = true ∧ (∀ o ∈ s.members 0, s.lanes[bankOf o].link = .up)
      ∧ s.queue = [] ∧ ∃ o ∈ s.members 0, s.relays[o].state ≠ .off)
    ∧ (let s : State := { groupState .verifying with relays := Vector.replicate 48 { Relay.reset with state := .off } }
       ∀ o : Outlet, ¬ (o ∈ s.groups[0].awaited) ∧ ¬ (o ∈ s.members 0 ∧ s.relays[o].state ≠ .off)) := by decide

/-- Group 1 awaiting outlet 1 or outlets 1 and 2 in operation state `op`, with the members' relays in state `st`. -/
def awaitingState (op : OpState) (awaited : List Outlet) (st : RelayState) (f : GroupOp → GroupOp) : State :=
  { groupState op with
    relays := Vector.replicate 48 { Relay.reset with state := st }
    groups := upd State.reset.groups 0 fun r => f { r with op := op, kind := some .cycle, awaited := awaited } }

/-- What the completion of outlet 1's entry meets: others still awaited or none, a welded member, the cancel mark, a
turn refused BUSY, the last member's turn, and the re-power mark. -/
theorem witness_group_completions :
    (∀ op ∈ [OpState.offing, .oning], ∀ w ∈ [[0], [0, 1]],
      let s := awaitingState op w .off id
      (0 : Outlet) ∈ s.groups[0].awaited ∧ s.groups[0].op = op ∧ s.groups[0].cancel = false
      ∧ s.groups[0].busyWait = false ∧ ∀ h : Group, h ≠ 0 → (0 : Outlet) ∉ s.groups[h].awaited)
    ∧ (awaitingState .offing [0] .off id).groups[0].awaited.filter (· ≠ 0) = []
    ∧ (∃ m ∈ (awaitingState .offing [0] .faultWelded id).members 0,
        (awaitingState .offing [0] .faultWelded id).relays[m].state = .faultWelded)
    ∧ (awaitingState .offing [0] .on id).relays[0].state ≠ .off
    ∧ (awaitingState .offing [0] .off fun r => { r with cancel := true }).groups[0].cancel = true
    ∧ (awaitingState .oning [0] .off fun r => { r with busyWait := true }).groups[0].busyWait = true
    ∧ ((awaitingState .oning [0] .on fun r => { r with turn := 1 }).members 0).length ≤ 1 + 1
    ∧ (awaitingState .oning [0] .on id).groups[0].turn + 1 < ((awaitingState .oning [0] .on id).members 0).length
    ∧ (awaitingState .oning [0] .on id).groupTable.active[0].onStagger ≠ 0 := by decide

/-- Monitor 1 at grace expiry under CYCLE with its budget of 3 used and with one left, its group in an operation, its
bank down, not enabled, and with all members shed; and at deadline expiry with no grace. -/
theorem witness_hang_answers :
    (let s : State := { suspectState .cycle with monitors := upd (suspectState .cycle).monitors 0 fun m =>
        { m with budget := 3, window := some 0 } }
     s.graceDue 0 = true ∧ s.monitors[0].window = some 0 ∧ s.groupTable.active[0].budget ≤ s.monitors[0].budget)
    ∧ (let s := suspectState .cycle
       s.groupTable.active[0].enabled = true ∧ (∀ o ∈ s.members 0, s.lanes[bankOf o].link = .up)
        ∧ s.groups[0].op = .idle ∧ ∃ o ∈ s.members 0, o ∉ s.sheds[bankOf o].stack)
    ∧ ({ suspectState .cycle with groups := (groupState .dwell).groups } : State).groups[0].op ≠ .idle
    ∧ ({ suspectState .cycle with lanes := State.reset.lanes } : State).lanes[bankOf 0].link ≠ .up
    ∧ (let s : State := { suspectState .cycle with
        sheds := upd State.reset.sheds 0 fun u => { u with stack := [1, 0] } }
       ¬ ∃ o ∈ s.members 0, o ∉ s.sheds[bankOf o].stack)
    ∧ (let s : State := { suspectState .cycle with
        groupTable := .ofActive (upd (Vector.replicate 32 .default) 0 fun e =>
          { e with enabled := true, members := [1, 2], grace := 0, policy := .cycle })
        uptime := 120000
        monitors := upd State.reset.monitors 0 fun m => { m with state := .armed, deadline := some 0 } }
       s.monitors[0].state = .armed ∧ s.groupTable.active[0].grace = 0
        ∧ due s.monitors[0].deadline s.uptime (s.groupTable.active[0].deadline * 1000) = true) := by decide

/-- A monitor under CYCLE_IF_FLAT with eight equal values, at the band of 50. -/
theorem witness_flat_history :
    let s : State := { suspectState .cycleIfFlat with
      groups := upd State.reset.groups 0 fun r => { r with history := List.replicate 7 (some 100) ++ [some 150] } }
    s.graceDue 0 = true ∧ s.groupTable.active[0].flatIntervals = 8 ∧ s.groupTable.active[0].flatBand = 50
    ∧ (s.groups[0].history.drop (s.groups[0].history.length - 8)).filterMap id = List.replicate 7 100 ++ [150] := by
  decide

/-! ## States that meet the clauses on tables, reads, SAFE and captures -/

/-- A bank commit with the bank UP and changed and with no UP bank; tables that refuse a COMMIT as BUSY; the table
numbers 0 and 8. -/
theorem witness_bank_commit :
    (let s : State := { upState 1 with bankTable := { State.reset.bankTable with
        state := .dirty, pending := upd State.reset.bankTable.pending 0 fun e => { e with warn := 1 } } }
     s.bankTable.state = .dirty ∧ s.lanes[0].link = .up ∧ s.bankTable.pending[0] ≠ s.bankTable.active[0])
    ∧ (∀ b : Bank, State.reset.lanes[b].link ≠ .up) ∧ State.reset.bankTable.state = .clean
    ∧ ({ State.reset.outletTable with state := .deferred } : Staged OutletEntry 48 48).state = .deferred
    ∧ ({ State.reset.calTable with state := .committing } : Staged CalEntry 54 6).state = .committing
    ∧ State.reset.calLock = false ∧ (8 : Byte).toNat = 8 ∧ ¬ (7 < (7 : Byte).toNat) := by decide

/-- A group commit with group 1 in an operation and changed; an outlet entry, a group entry and a bank's parts that
wait for their release. -/
theorem witness_waiting_entries :
    (let s : State := { groupState .dwell with groupTable := { (groupState .dwell).groupTable with
        state := .dirty, pending := upd (groupState .dwell).groupTable.pending 0 fun e => { e with retries := 3 } } }
     s.groupTable.state = .dirty ∧ firstOffender s.groupTable.pending = none ∧ s.groups[0].op ≠ .idle
      ∧ s.groupTable.pending[0] ≠ s.groupTable.active[0])
    ∧ (let s : State := { groupState .idle with
        groupTable := { (groupState .idle).groupTable with state := .deferred, waiting := [0], waited := 1 }
        outletTable := { State.reset.outletTable with state := .deferred, waiting := [47, 0], waited := 2 }
        bankTable := { State.reset.bankTable with state := .committing, waiting := [0, 5], held := some 2 }
        calTable := { State.reset.calTable with state := .committing, waiting := [0], held := some 1 } }
       (0 : Group) ∈ s.groupTable.waiting ∧ s.groups[0].op = .idle ∧ (0 : Outlet) ∈ s.outletTable.waiting
        ∧ s.outletTable.waiting.filter (· ≠ 0) ≠ [] ∧ s.calTable.completedBy 0 = [1] ∧ s.bankTable.completedBy 0 = []
        ∧ (0 : Bank) ∈ s.bankTable.waiting ∧ (1 : Bank) ∉ s.bankTable.waiting) := by decide

/-- The released group entry applies and the table is CLEAN; a bank's part that is not the last keeps its table's slot. -/
theorem test_releases :
    (let s : State := { groupState .idle with
      groupTable := { (groupState .idle).groupTable with state := .deferred, waiting := [0], waited := 1 } }
     s.releaseGroups.groupTable.state = .clean ∧ s.releaseGroups.groupTable.waiting = [])
    ∧ (let s : State := { State.reset with bankTable := { State.reset.bankTable with
        state := .committing, waiting := [0, 5], held := some 2 } }
       (s.boundary 0).bankTable.state = .committing ∧ (s.boundary 0).bankTable.held = some 2) := by decide +kernel

/-- The first and last index of each table, the one past it, and the copy bytes 1 and 2. -/
theorem witness_read_entries :
    (1 : Byte).toNat = (0 : Outlet).val + 1 ∧ (48 : Byte).toNat = (47 : Outlet).val + 1 ∧ 48 < (49 : Byte).toNat
    ∧ (6 : Byte).toNat = (5 : Bank).val + 1 ∧ 6 < (7 : Byte).toNat ∧ (3 : Byte).toNat = (2 : SupplyPhase).val + 1
    ∧ (54 : Byte).toNat = (53 : Fin 54).val + 1 ∧ 54 < (55 : Byte).toNat ∧ (32 : Byte).toNat = (31 : Group).val + 1
    ∧ (0 : Byte).toNat = (0 : Fin 32).val ∧ (31 : Byte).toNat = (31 : Fin 32).val ∧ 31 < (32 : Byte).toNat
    ∧ (1 : Byte).toNat ≤ 1 ∧ 1 < (2 : Byte).toNat ∧ (2 : Byte).toNat ≠ 1 := by decide

/-- In SAFE, outlets 1 to 3 in the follow-up set with safe actions HOLD, ON and OFF. -/
theorem witness_follow_up :
    let s : State := { State.reset with
      safe := { cause := some .command, followUp := [0, 1, 2] }
      outletTable := .ofActive (upd (upd (Vector.replicate 48 .default) 1 fun e => { e with safeAction := .on }) 2
        fun e => { e with safeAction := .off }) }
    s.safe.cause ≠ none ∧ (0 : Outlet) ∈ s.safe.followUp ∧ (3 : Outlet) ∉ s.safe.followUp
    ∧ s.outletTable.active[0].safeAction = .hold ∧ s.outletTable.active[1].safeAction = .on
    ∧ s.outletTable.active[2].safeAction = .off ∧ s.relays[1].state ≠ .on ∧ s.relays[2].state ≠ .off := by decide

/-- A capture of outlet 1 ARMED before a window opens and FILLING in one that goes on or closes at a crossing. -/
theorem witness_capture_fills :
    (∀ st ∈ [CaptureState.armed, .filling],
      let s : State := { State.reset with capture := { Capture.reset with state := st, outlet := some 0 } }
      s.capture.state = st ∧ s.capture.outlet = some 0 ∧ bankOf 0 = 0 ∧ s.meters[0].window = none)
    ∧ (windowState 94 true false).meters[0].armed = false
    ∧ (windowState 94 true false).meters[0].window.map (·.n) = some 94
    ∧ (armedState 56 true).meters[0].window.map (·.n) = some 56 ∧ bankOf 8 ≠ 0 := by decide

/-- A relay in FAULT_WELDED blinks under AUTO; a forced mode stands. -/
theorem test_shown_modes :
    let s : State := { State.reset with
      relays := upd State.reset.relays 0 fun r => { r with state := .faultWelded }
      outletTable := .ofActive (upd (Vector.replicate 48 .default) 1 fun e => { e with indicator := .on }) }
    s.modeOf 0 = .blink ∧ s.modeOf 1 = .on ∧ s.modeOf 2 = .off := by decide

/-! ## States that meet the clauses on closes, completions and monitors -/

/-- HANG_DECLARED of the sequence of spec/07 7.8 (action CYCLE, busy 1, count 1, end 8,780 s, spread 30): a spread of two
bytes (R132, R190); with NOTIFY its bytes are zeros. -/
theorem test_hang_declared_bytes :
    Detail.bytes .hangDeclared (.hangDeclaredCycle 1 1 8780000 (some 30)) = [3, 1, 1, 1, 0, 0x85, 0xF8, 0xE0, 0, 30]
    ∧ Detail.bytes .hangDeclared (.hangDeclaredNotify 1) = [0, 0, 1, 0, 0, 0, 0, 0, 0, 0] := by decide

/-- Bank 1 with a window at whose close the OPEN in flight of outlet 1 is verified, and one with no action in flight. -/
theorem witness_close_verifies :
    (let w : Window := { Window.opened true 60 with n := 65, lastReceived := some { num := 124, closed := 0, load := 0 } }
     let f : Flight := { action := .opens, actuateAt := 100, verifyAt := 124 }
     let s : State := { windowState 65 true false with
       meters := upd State.reset.meters 0 fun m => { m with window := some w }
       relays := upd State.reset.relays 0 fun r => { r with state := .opening, flight := some f } }
     s.meters[0].window = some w ∧ s.relays[0].flight = some f
      ∧ w.lastReceived = some { num := 124, closed := 0, load := 0 } ∧ 0 ≤ (w.last - f.verifyAt).toInt
      ∧ 0 ≤ ((124 : SetNo) - f.verifyAt).toInt ∧ (s.closeWindow 0 true).relays[0].state = .off)
    ∧ ∀ p : Position, (windowState 65 true false).relays[outletAt 0 p].flight = none := by decide +kernel

/-- Outlet 1, ON and the last of group 1 to count as on, is the one to be shed: the group becomes ALL_OFF and its ARMED
monitor DISARMED (R139). -/
theorem test_all_off_disarms :
    let s : State := { groupState .idle with
      relays := upd (Vector.replicate 48 { Relay.reset with state := .off }) 0 fun r => { r with state := .on }
      monitors := upd State.reset.monitors 0 fun m => { m with state := .armed, deadline := some 0 } }
    s.groupOf 0 = some 0 ∧ s.power 0 = .partly ∧ (s.pushShed 0).power 0 = .allOff
    ∧ (s.pushShed 0).monitors[0].state = .disarmed
    ∧ ((s.setRelay 0 fun r => { r with state := .off }).monitors[0]).deadline = none := by decide

/-- A SWITCH that replaces a WAITING entry, one of an outlet on its stack, and one that meets an entry of higher rank and
an ISSUED one. -/
theorem witness_switch_answers :
    (let s : State := { upState 1 with
       queue := [{ closeEntry .waiting with origin := .manual }], sheds := upd State.reset.sheds 0 fun u =>
         { u with stack := [1], restoreFlight := some 0 } }
     (s.request 0 .opens .manual).1 = .replaced ∧ (1 : Outlet) ∈ s.sheds[bankOf 1].stack
      ∧ (s.request 1 .close .manual).1 = .queued ∧ (0 : Outlet) ∉ s.sheds[bankOf 0].stack)
    ∧ (({ upState 1 with queue := [{ closeEntry .waiting with origin := .safe }] } : State).request 0 .opens .manual).1
        = .refusedRank
    ∧ (({ upState 1 with queue := [closeEntry (.issued 0)] } : State).request 0 .opens .manual).1 = .refusedBusy := by
  decide

/-- The power-on state shows the modes that are to be shown. -/
theorem test_modes_at_power_on (p : Position) : State.reset.shown[(0 : Bank)][p] = State.reset.modeOf (outletAt 0 p) := by
  revert p; decide +kernel

/-- Values 100 to 151 in the newest eight: the extremes and a spread of 51 above the band of 50; to 150, within it. -/
theorem witness_spread :
    (∀ x ∈ List.replicate 7 (100 : Int) ++ [151], 100 ≤ x ∧ x ≤ 151) ∧ ((50 : Nat) : Int) < 151 - 100
    ∧ (100 : Int) ∈ List.replicate 7 (100 : Int) ++ [151] ∧ (151 : Int) ∈ List.replicate 7 (100 : Int) ++ [151]
    ∧ (∀ x ∈ List.replicate 7 (100 : Int) ++ [150], 100 ≤ x ∧ x ≤ 150) ∧ ¬ ((50 : Nat) : Int) < 150 - 100 := by decide

/-- An operation with kind and cause that can be cancelled in each state; an UP lane that has been silent for 20 ms. -/
theorem witness_ends_and_boundaries :
    (∀ op ∈ [OpState.dwell, .verifying, .oning],
      let s : State := { groupState op with groups := upd State.reset.groups 0 fun r =>
        { r with op := op, kind := some .cycle, cause := some .hang } }
      s.groups[0].op = op ∧ s.groups[0].cancel = false ∧ s.groups[0].kind = some .cycle
      ∧ s.groups[0].cause = some .hang)
    ∧ (upState 1).lanes[0].link = .up ∧ due (upState 1).lanes[0].silence 20 20 = true
    ∧ (windowState 1 true false).meters[0].window ≠ none ∧ State.reset.meters[0].window = none := by decide +kernel

/-- A monitor whose group's entry applies: not watched, watched again out of SAFE, other members, a smaller budget. -/
theorem test_monitor_with_entry :
    let s : State := { groupState .idle with
      monitors := upd State.reset.monitors 0 fun m => { m with state := .armed, budget := 3, busy := 2 } }
    let e := s.groupTable.active[0]
    (s.monitorWith 0 { e with policy := .none }).state = .offline
    ∧ (s.monitorWith 1 { e with policy := .cycle }).state = .disarmed
    ∧ (s.monitorWith 0 { e with policy := .cycle, members := [1] }).state = .disarmed
    ∧ s.monitorWith 0 { e with policy := .cycle, budget := 1 } = { s.monitors[0] with budget := 1 } := by decide

/-- A capture FILLING as the 96th set of its window comes: the close has a kind. -/
theorem witness_capture_at_the_last_set :
    let s : State := { windowState 95 true false with
      capture := { Capture.reset with state := .filling, outlet := some 0 } }
    s.meters[0].window.map (·.n) = some 95 ∧ s.meters[0].armed = false
    ∧ (s.handSet 0 7 zeroSet false).meters[0].lastKind = some .noLine
    ∧ (s.handSet 0 7 zeroSet false).capture.state = .full := by decide +kernel

/-! ## HOLD_OUT, reports, triggers and captures of sets that close no window -/

/-- HOLD_OUT at fills of 2 and 3 (R159). -/
theorem test_hold_out :
    let filled : Nat → State := fun n =>
      State.reset.onLink0 fun l => { l with fifo := List.replicate n { kind := 0x1A, tag := 0, payload := [] } }
    (filled 2).link0.fifo.length = 2 ∧ (filled 2).holdOut = false
    ∧ (filled 3).link0.fifo.length = 3 ∧ (filled 3).holdOut = true := by decide

/-- A FILLING capture of an armed bank whose voltage stays below 0, of the crossing of an aligned window of 55 sets, and
an ARMED one at a crossing that closes: each stores the set (R187). -/
theorem test_armed_captures :
    let capturing : CaptureState → Nat → State := fun st n =>
      { armedState n true with capture := { Capture.reset with state := st, outlet := some 0 } }
    let below : RawSet := { zeroSet with volt := -1 }
    (calibrate State.reset.calTable.active[48] below.volt).1 < 0
    ∧ ((capturing .filling 60).handSet 0 7 below false).capture.buffer = [{ v := -1, i := 0, substituted := false }]
    ∧ ((capturing .filling 55).handSet 0 7 zeroSet false).capture.buffer.length = 1
    ∧ ((capturing .filling 55).handSet 0 7 zeroSet false).capture.state = .filling
    ∧ ((capturing .armed 55).handSet 0 7 zeroSet false).capture.state = .armed
    ∧ ((capturing .armed 56).handSet 0 7 zeroSet false).capture =
        { state := .filling, outlet := some 0, buffer := [{ v := 0, i := 0, substituted := false }], first := some 7
          header := none } := by
  decide +kernel

/-- Group 1 with both members ON, with one of them shed, with none ON, and a group without members; the progress of its
two members (R103, R124). -/
theorem test_group_reports :
    let on : State := { groupState .oning with
      relays := Vector.replicate 48 { Relay.reset with state := .on }
      groups := upd State.reset.groups 0 fun r => { r with op := .oning, progress := [.closed, .awaiting] } }
    (on.groupReport 0).power = .allOn ∧ (on.groupReport 0).members.map (·.progress) = [.closed, .awaiting]
    ∧ (({ on with sheds := upd on.sheds 0 fun u => { u with stack := [1] } } : State).groupReport 0).power = .partly
    ∧ (({ on with relays := Vector.replicate 48 { Relay.reset with state := .off } } : State).groupReport 0).power
        = .allOff
    ∧ on.members 1 = [] ∧ (on.groupReport 1).power = .allOff
    ∧ ((groupState .idle).groupReport 0).members.map (·.progress) = [.pending, .pending] := by decide

/-- A member shed, in fault or ON at its turn, and one OFF; a member's CLOSE that completes (R111, R112). -/
theorem test_progress_is_marked :
    let at_ : (Outlet → RelayState) → List Outlet → State := fun f shed => { groupState .dwell with
      relays := Vector.ofFn fun o => { Relay.reset with state := f o }
      sheds := upd State.reset.sheds 0 fun u => { u with stack := shed }
      groups := upd State.reset.groups 0 fun r => { r with op := .oning, progress := [.pending, .pending] } }
    let marks : State → List Progress := fun s => (s.turnsFrom 0 0).groups[0].progress
    marks (at_ (fun _ => .off) [0]) = [.passed, .awaiting]
    ∧ marks (at_ (fun o => if o = 0 then .faultOpen else .off) []) = [.faulted, .awaiting]
    ∧ marks (at_ (fun o => if o = 0 then .on else .off) []) = [.closed, .awaiting]
    ∧ marks (at_ (fun _ => .off) []) = [.awaiting, .pending] := by decide

/-- The last count of a binding, for an outlet without an entry, with a WAITING and with an ISSUED one (R179). -/
theorem test_last_trigger :
    let bound : List QueueEntry → State := fun q => { State.reset with
      notifier := boundNotifier 1, queue := q
      relays := upd State.reset.relays 0 fun r =>
        { r with state := .closing, flight := some { action := .close, actuateAt := 40, verifyAt := 64 } } }
    let body : Option (Action × Origin × Uptime) → Option (Uptime × SetNo) → ActionRecord := fun request issue =>
      { outlet := 0, request := request, result := none, issue := issue, relay := .closing, detail := none }
    let gives : List QueueEntry → ActionRecord → Bool := fun q r =>
      match exec (.triggerStream 5 [1, 1]) (bound q) with
      | .next t => decide (t.link0.records = [{ triggered := true, body := .action r }])
          && decide (t.notifier.streams[0] = none)
          && decide (t.link0.notices.map (fun x => (x.kind, x.source, x.detail)) =
              [(.streamEnd, 1, .streamEnd .switchDone none 2)])
      | _ => false
    (boundTo 1).remaining ≤ 1 ∧ gives [] (body none none) = true
    ∧ gives [closeEntry .waiting] (body (some (.close, .manual, 0)) none) = true
    ∧ gives [closeEntry (.issued 3)] (body (some (.close, .manual, 0)) (some (3, 40))) = true := by decide

/-- What a trigger of GROUP_DONE, CAPTURE_DONE and INTERVAL_CLOSED records at power-on and in FILLING (R179, R188). -/
theorem test_triggered_bodies :
    let none_ : CaptureHeader := { outlet := none, result := none, kind := none, n := 0, first := none, stamp := none }
    State.reset.triggeredRecords .groupDone 32 = [.operation none]
    ∧ State.reset.triggeredRecords .captureDone 48 = [.capture none_]
    ∧ (State.reset.triggeredRecords .intervalClosed 6).length = 2
    ∧ (let s : State := { State.reset with capture :=
        { Capture.reset with state := .filling, outlet := some 0, first := some 4
                             buffer := [{ v := 1, i := 2, substituted := true }] } }
       s.triggeredRecords .captureDone 1 = [.capture { none_ with outlet := some 0, n := 1, first := some 4 }])
    ∧ (let h : CaptureHeader := { none_ with outlet := some 0, result := some .complete, n := 80 }
       let s : State := { State.reset with capture := { Capture.reset with state := .full, header := some h } }
       s.triggeredRecords .captureDone 1 = [.capture h]) := by decide

/-! ## A lane's first gap, the events of UP, LOST and SAFE, and a token that verifies nothing -/

/-- A step leaves lane 1 in SYNCING without an error, framing or not, with `n` cells in its FIFO. -/
def leavesSyncing (r : Result) (framing : Bool) (n : Nat) : Bool :=
  match r with
  | .next t => t.lanes[0].link == .syncing && t.lanes[0].framing == framing && t.lanes[0].fifo.length == n
      && t.lanes[0].errors.kinds.isEmpty
  | _ => false

/-- Lane 1 in SYNCING, heard and not yet framing, or framing. -/
def syncingState (framing : Bool) : State := withLane fun l => { l with link := .syncing, framing := framing }

/-- A character brings an ABSENT lane to SYNCING; a whole cell and an error before the first gap are discarded, and the
cell after the gap is good (R2, R7). -/
theorem test_first_gap_of_a_lane :
    leavesSyncing (exec (.laneCharacter 0 { byte := 0x31, stopOk := true }) State.reset) false 0 = true
    ∧ leavesSyncing (exec (.laneCellReceived 0 goodCell) (syncingState false)) true 0 = true
    ∧ leavesSyncing (exec (.laneCellReceived 0 badStop) (syncingState false)) true 0 = true
    ∧ leavesSyncing (exec (.laneCellReceived 0 goodCell) State.reset) true 0 = true
    ∧ leavesSyncing (exec (.laneCellReceived 0 goodCell) (syncingState true)) true 1 = true := by decide +kernel

/-- The notices of a step, by kind, source and detail. -/
def noticesOf (r : Result) : List (EventKind × Nat × Detail) :=
  match r with
  | .next t => t.link0.notices.map fun n => (n.kind, n.source, n.detail)
  | _ => []

/-- The sixteenth cell raises BANK_UP with the state left (R9). -/
theorem test_bank_up :
    (∀ st ∈ [LinkState.syncing, .lost],
      let s := withLane fun l => { l with link := st, fifo := [zeroCell 5], runSeq := some 4, runCount := 15 }
      noticesOf (exec (.takeSampleCell 0) s) = [(.bankUp, 1, .bankUp st)]) := by decide +kernel

/-- Silence of bank 1 with the CLOSE of outlet 1 ISSUED and a capture FILLING: BANK_LOST with the last set's number, a
SWITCH_DONE record LOST, and CAPTURE_DONE ABORTED (R13, R78, R187). -/
theorem test_bank_lost :
    let s : State := { (withLane fun l => { l with link := .up, silence := some 0, counter := 300 }) with
      uptime := 20
      queue := [closeEntry (.issued 3)]
      notifier := boundNotifier 2
      relays := upd State.reset.relays 0 fun r =>
        { r with state := .closing, flight := some { action := .close, actuateAt := 340, verifyAt := 364 } }
      sheds := upd State.reset.sheds 0 fun d => { d with shedTimer := some 1, restoreTimer := some 2 }
      capture := { Capture.reset with
        state := .filling, outlet := some 3, buffer := [{ v := 1, i := 2, substituted := false }], first := some 299 } }
    let aborted : CaptureHeader :=
      { outlet := some 3, result := some .aborted, kind := none, n := 1, first := some 299, stamp := some (0, 20) }
    noticesOf (exec (.silenceTimerExpiry 0) s) = [(.bankLost, 1, .bankLost 300), (.captureDone, 4, .captureDone aborted)]
    ∧ (match exec (.silenceTimerExpiry 0) s with
      | .next t =>
        decide (t.sheds[0].shedTimer = none ∧ t.sheds[0].restoreTimer = none ∧ t.queue = [])
          && decide (t.link0.records.map (·.body) = [.action
            { outlet := 0, request := some (.close, .manual, 0), result := some (.lost, 20), issue := some (3, 340),
              relay := .unknown, detail := none }])
      | _ => false) = true := by decide +kernel

/-- Five outlets with safe action OFF: one entry withdrawn and so queued, one merged, one replaced, one followed up, and
one without an entry queued (R182). -/
theorem test_safe_entered :
    let s : State := { State.reset with
      outletTable := .ofActive (Vector.ofFn fun o => { OutletEntry.default with
        safeAction := if o.val < 5 then .off else .hold })
      queue := [closeEntry .waiting, { openEntry .waiting with origin := .shed },
        { closeEntry .waiting with outlet := 2, origin := .safe }, { openEntry (.issued 0) with outlet := 3 }] }
    noticesOf (exec (.safePinChange true) s) = [(.safeEntered, 0, .safeEntered .pin 1 2 1 1 1)] := by decide +kernel

/-- A token of a group in VERIFYING with verify CURRENT is recorded and the operation goes on; with TOKEN it ends DONE
(R114, R127). -/
theorem test_token_in_verifying :
    let s : Verify → State := fun v => { groupState .verifying with
      uptime := 70
      groupTable := .ofActive (upd (Vector.replicate 32 .default) 0 fun e =>
        { e with enabled := true, members := [1, 2], verify := v })
      monitors := upd State.reset.monitors 0 fun m => { m with state := .cycling } }
    ((s .current).tokenFor 0).monitors[0].lastToken = some 70 ∧ ((s .current).tokenFor 0).groups[0].op = .verifying
    ∧ ((s .token).tokenFor 0).monitors[0].lastToken = some 70 ∧ ((s .token).tokenFor 0).groups[0].op = .idle := by
  decide +kernel

/-- Kinds and sources of the notices a filling adds to `k` notices, with those left pending and the overflow mark. -/
def filled (n : Notifier) (k : Nat) : List (EventKind × Nat) × List (EventKind × Nat) × Bool :=
  let old : Notice := { kind := .bankAbsent, source := 6, level := 3, count := 0, time := 0, detail := .bankAbsent }
  let y := fillNotices (n, { Link0.reset with notices := List.replicate k old })
  ((y.2.notices.drop k).map fun m => (m.kind, m.source), y.1.entries.map fun e => (e.kind, e.source),
    y.1.overflow.isSome)

/-- Two LINK_ERRORs, a BANK_LOST held back by nothing, and the overflow entry, at mask 0. -/
def mixedNotifier : Notifier :=
  let entry : EventKind → Nat → PendingEntry := fun k n =>
    { kind := k, source := n, count := 0, time := 0, detail := .bankAbsent }
  { Notifier.reset with
    mask := 0
    entries := [entry .linkError 2, entry .linkError 1, entry .bankLost 4]
    overflow := some { count := 3, time := 9, kind := .bankUp, source := 2 } }

/-- The overflow entry is moved first and becomes clear, then the higher level, then the lower source; what finds no
room stays, and with 8 notices or nothing eligible nothing moves (R174, R175). -/
theorem test_notices_move_one_by_one :
    filled mixedNotifier 8 = ([], [(.linkError, 2), (.linkError, 1), (.bankLost, 4)], true)
    ∧ filled mixedNotifier 7 = ([(.pendingOverflow, 0)], [(.linkError, 2), (.linkError, 1), (.bankLost, 4)], false)
    ∧ filled mixedNotifier 5 = ([(.pendingOverflow, 0), (.bankLost, 4), (.linkError, 1)], [(.linkError, 2)], false)
    ∧ filled mixedNotifier 0 =
      ([(.pendingOverflow, 0), (.bankLost, 4), (.linkError, 1), (.linkError, 2)], [], false)
    ∧ (filled fullNotifier 0).1 = [] ∧ fullNotifier.candidates = [] := by decide +kernel

/-- The cells of a notice and of a record of each kind, byte by byte but for the CRC-8 (spec/12 12.4, R191). -/
theorem test_notice_and_record_cells :
    let action : ActionRecord :=
      { outlet := 8, request := some (.close, .group 4, 0x0A0B0C0D), result := some (.done, 7), issue := none
        relay := .on, detail := none }
    let operation : OpRecord :=
      { group := 31, kind := .off, cause := .manual, result := .failed, reason := some .welded, start := 1, stop := 258
        retries := 0, faulted := [47] }
    let capture : CaptureHeader :=
      { outlet := some 0, result := none, kind := none, n := 0, first := none, stamp := none }
    let head : IntervalHead := { number := 1, time := 2, length := 60, bank := 5, link := .up }
    let block : OutletBlock :=
      { pos := 0, irms := none, power := none, maxIrms := 258, valid := 3, estimated := 0, relay := .on
        reverse := true, overRange := true, energy := 5 }
    Notice.bytes { kind := .bankLost, source := 4, level := 6, count := 2, time := 0x01020304, detail := .bankLost 300 }
      = sealCell [0x81, 0, 12, 3, 4, 6, 2, 1, 2, 3, 4, 0, 0, 1, 0x2C]
    ∧ Record.bytes { triggered := true, body := .action action } 9
      = sealCell [0x83, 0, 26, 9, 7, 9, 2, 1, 2, 5, 0, 0x0A, 0x0B, 0x0C, 0x0D, 0, 0, 0, 0, 0, 0, 0, 0, 0, 0, 0, 7, 2, 0]
    ∧ Record.bytes { triggered := false, body := .operation none } 255
      = sealCell ([0x84, 0, 21, 255, 0] ++ List.replicate 19 0)
    ∧ Record.bytes { triggered := false, body := .operation (some operation) } 0
      = sealCell [0x84, 0, 21, 0, 2, 32, 1, 0, 2, 3, 0, 0, 0, 1, 0, 0, 1, 2, 0, 1, 48, 0, 0, 0]
    ∧ Record.bytes { triggered := true, body := .capture capture } 0
      = sealCell ([0x85, 0, 19, 0, 3, 1, 1] ++ List.replicate 15 0)
    ∧ Record.bytes { triggered := false, body := .interval 1 head [block] } 1
      = sealCell [0x82, 0, 31, 1, 0, 1, 0, 0, 0, 1, 0, 0, 0, 2, 60, 6, 2, 1, 0xFF, 0xFF, 0x80, 0, 0, 1, 2, 0, 3, 0, 0,
          0xC2, 0, 0, 0, 5] := by decide +kernel

/-- At entry to SAFE the WAITING SHED OPEN of a HOLD outlet stays, ahead of the SAFE entries that join by outlet number
(R62, R182). -/
theorem test_safe_queue :
    let safeOpen : Outlet → QueueEntry := fun o =>
      { outlet := o, action := .opens, origin := .safe, enqueued := 40, state := .waiting }
    let shedOpen : QueueEntry := { openEntry .waiting with outlet := 9, origin := .shed }
    let s : State := { State.reset with
      uptime := 40
      outletTable := .ofActive (Vector.ofFn fun o => { OutletEntry.default with
        safeAction := if o.val < 3 then .off else .hold })
      queue := [{ closeEntry .waiting with outlet := 2 }, shedOpen,
        { closeEntry .waiting with outlet := 1, origin := .safe }] }
    (match exec (.safePinChange true) s with
      | .next t => decide (t.queue = [shedOpen, safeOpen 0, safeOpen 1, safeOpen 2])
      | _ => false) = true := by decide +kernel

end Sys2Proof.Tests
end

