-- ==== Sys2Proof/Proofs/Reports.lean ====
section
/-! What raises events and what does not: the notifier and the link unit after each operation of the switching side come
from those before by events alone. -/

namespace Sys2Proof.Machine

/-! ## Notifier and link unit under events -/

/-- `y` comes from `x` by events that the notifier takes one after the other (R170). -/
def Raised (x y : Notifier × Link0) : Prop :=
  Relation.ReflTransGen (fun a b => ∃ (now : Uptime) (e : Event), b = notify now e a) x y

@[simp] theorem Raised.refl (x : Notifier × Link0) : Raised x x := Relation.ReflTransGen.refl

@[simp] theorem Raised.refl_pair (n : Notifier) (l : Link0) : Raised (n, l) (n, l) := Raised.refl _

/-- What every event keeps, the operation keeps. -/
theorem Raised.keeps {P : Notifier × Link0 → Prop} (hP : ∀ now e x, P x → P (notify now e x)) {x y : Notifier × Link0}
    (h : Raised x y) (hx : P x) : P y := by
  induction h with
  | refl => exact hx
  | tail _ hstep ih =>
    obtain ⟨now, e, rfl⟩ := hstep
    exact hP now e _ ih

/-- The notifier and the link unit of a state. -/
@[simp] abbrev State.reports (s : State) : Notifier × Link0 := (s.notifier, s.link0)

variable {x : Notifier × Link0}

/-- A fold of operations that raise events raises events. -/
theorem foldl_raised {α : Type} (f : State → α → State)
    (h : ∀ s a, Raised x s.reports → Raised x (f s a).reports) (l : List α) (s : State)
    (hs : Raised x s.reports) : Raised x (l.foldl f s).reports :=
  List.foldlRecOn l f hs fun s hs a _ => h s a hs

@[simp] theorem State.raiseEvent_raised (s : State) (e : Event) (h : Raised x s.reports) :
    Raised x (s.raiseEvent e).reports :=
  h.tail ⟨s.uptime, e, rfl⟩

@[simp] theorem State.raise_raised (s : State) (k : EventKind) (n : Nat) (d : Detail)
    (h : Raised x s.reports) : Raised x (s.raise k n d).reports :=
  s.raiseEvent_raised _ h

@[simp] theorem State.raiseLinkError_raised (s : State) (n : Nat) (r r' : ErrorRecord) (k : ErrorKind)
    (h : Raised x s.reports) :
    Raised x (s.raiseLinkError n r r' k).reports := by
  unfold State.raiseLinkError; split <;> simp [h]

/-! ## Operations that raise nothing -/

@[simp] theorem State.placeIndicate_raised (s : State) (b : Bank) (h : Raised x s.reports) :
    Raised x (s.placeIndicate b).reports := by
  unfold State.placeIndicate; split <;> simp [h]

@[simp] theorem State.refreshModes_raised (s : State) (b : Bank) (h : Raised x s.reports) :
    Raised x (s.refreshModes b).reports := by
  unfold State.refreshModes; split <;> simp [h]

@[simp] theorem State.refreshModesOf_raised (s : State) (l : List Outlet) (h : Raised x s.reports) :
    Raised x (s.refreshModesOf l).reports :=
  foldl_raised _ (fun s b h => by split <;> simp [h]) _ s h

@[simp] theorem State.notePower_raised (s t : State) (g : Group) (h : Raised x s.reports) :
    Raised x (s.notePower t g).reports := by
  unfold State.notePower; split <;> simp [h]

@[simp] theorem State.notePowerOf_raised (s t : State) (o : Outlet) (h : Raised x s.reports) :
    Raised x (s.notePowerOf t o).reports := by
  unfold State.notePowerOf; split <;> simp [h]

@[simp] theorem State.setRelay_raised (s : State) (o : Outlet) (f : Relay → Relay)
    (h : Raised x s.reports) : Raised x (s.setRelay o f).reports := by
  simp [State.setRelay, h]

@[simp] theorem State.refreshSheds_raised (s : State) (b : Bank) (h : Raised x s.reports) :
    Raised x (s.refreshSheds b).reports := h

@[simp] theorem State.refreshAllSheds_raised (s : State) (h : Raised x s.reports) :
    Raised x (s.refreshAllSheds).reports :=
  foldl_raised _ (fun s b h => s.refreshSheds_raised b h) _ s h

@[simp] theorem State.setStack_raised (s : State) (o : Outlet) (f : List Outlet → List Outlet)
    (h : Raised x s.reports) : Raised x (s.setStack o f).reports :=
  State.refreshSheds_raised _ _ (State.notePowerOf_raised _ _ _ (State.refreshModes_raised _ _ h))

@[simp] theorem State.pushShed_raised (s : State) (o : Outlet) (h : Raised x s.reports) :
    Raised x (s.pushShed o).reports := s.setStack_raised o _ h

@[simp] theorem State.unshed_raised (s : State) (o : Outlet) (h : Raised x s.reports) :
    Raised x (s.unshed o).reports := by
  unfold State.unshed; split <;> simp [h]

@[simp] theorem State.endFlights_raised (s : State) (o : Outlet) (h : Raised x s.reports) :
    Raised x (s.endFlights o).reports := h

/-! ## The switching queue -/

@[simp] theorem State.request_raised (s : State) (o : Outlet) (a : Action) (r : Origin) (h : Raised x s.reports) :
    Raised x (s.request o a r).2.reports := by
  rw [State.request_changes]; exact h

@[simp] theorem State.withdraw_raised (s : State) (p : QueueEntry → Bool) (h : Raised x s.reports) :
    Raised x (s.withdraw p).reports :=
  foldl_raised _ (fun s _ h => s.endFlights_raised _ h) _ _ h

@[simp] theorem State.issueRelay_raised (s : State) (o : Outlet) (a : Action) (h : Raised x s.reports) :
    Raised x (s.issueRelay o a).reports := by
  simp [State.issueRelay, h]

@[simp] theorem State.issue_raised (s : State) (o : Outlet) (a : Action) (h : Raised x s.reports) :
    Raised x (s.issue o a).reports := by
  simp [State.issue, h]

@[simp] theorem State.issueOpens_raised (s : State) (h : Raised x s.reports) : Raised x (s.issueOpens).reports :=
  foldl_raised _ (fun s _ h => s.issue_raised _ _ h) _ s h

/-! ## Tables that the switching side releases -/

@[simp] theorem State.applyOutlet_raised (s : State) (o : Outlet) (h : Raised x s.reports) :
    Raised x (s.applyOutlet o).reports := by
  simp [State.applyOutlet, h]

@[simp] theorem State.raiseApplied_raised (s : State) (t : TableId) (n : Nat) (h : Raised x s.reports) :
    Raised x (s.raiseApplied t n).reports :=
  s.raise_raised _ _ _ h

@[simp] theorem State.releaseOutlet_raised (s : State) (o : Outlet) (h : Raised x s.reports) :
    Raised x (s.releaseOutlet o).reports := by
  unfold State.releaseOutlet
  split
  · dsimp only
    split <;> simp [h]
  · exact h

@[simp] theorem State.groupApplied_raised (t s : State) (g : Group) (h : Raised x s.reports) :
    Raised x (State.groupApplied t s g).reports := by
  simp [State.groupApplied, h]

@[simp] theorem State.applyGroups_raised (s : State) (gs : List Group) (h : Raised x s.reports) :
    Raised x (s.applyGroups gs).reports :=
  foldl_raised _ (fun t g h => s.groupApplied_raised t g h) _ _ h

@[simp] theorem State.releaseGroups_raised (s : State) (h : Raised x s.reports) :
    Raised x (s.releaseGroups).reports := by
  unfold State.releaseGroups
  dsimp only
  split
  · exact h
  · split <;> simp [h]

/-! ## The group engine -/

@[simp] theorem State.mark_raised (s : State) (g : Group) (o : Outlet) (p : Progress) (h : Raised x s.reports) :
    Raised x (s.mark g o p).reports := h

@[simp] theorem State.await_raised (s : State) (g : Group) (o : Outlet) (h : Raised x s.reports) :
    Raised x (s.await g o).reports := h

@[simp] theorem State.addFaulted_raised (s : State) (g : Group) (o : Outlet) (h : Raised x s.reports) :
    Raised x (s.addFaulted g o).reports := h

@[simp] theorem State.endOp_raised (s : State) (g : Group) (r : OpResult) (w : Option OpReason) (v : Bool)
    (h : Raised x s.reports) : Raised x (s.endOp g r w v).reports := by
  obtain ⟨y, hy, he⟩ := s.endOp_eq g r w v
  rw [hy]
  refine y.releaseGroups_raised ?_
  rw [he]
  exact s.raiseEvent_raised _ h

@[simp] theorem State.withdrawAwaited_raised (s : State) (g : Group) (h : Raised x s.reports) :
    Raised x (s.withdrawAwaited g).reports := by
  simp [State.withdrawAwaited, h]

@[simp] theorem State.failOp_raised (s : State) (g : Group) (r : OpReason) (h : Raised x s.reports) :
    Raised x (s.failOp g r).reports := by
  simp [State.failOp, h]

@[simp] theorem State.enterVerifying_raised (s : State) (g : Group) (h : Raised x s.reports) :
    Raised x (s.enterVerifying g).reports := by
  unfold State.enterVerifying; dsimp only; split <;> simp [h]

@[simp] theorem State.oningOver_raised (s : State) (g : Group) (h : Raised x s.reports) :
    Raised x (s.oningOver g).reports := by
  unfold State.oningOver; split <;> simp [h]

@[simp] theorem State.takeTurns_raised (k : Nat) (g : Group) (i : Nat) (s : State) (h : Raised x s.reports) :
    Raised x (State.takeTurns k g i s).reports := by
  induction k generalizing i s with
  | zero => exact h
  | succ k ih =>
    rw [State.takeTurns_succ]
    split
    · simp [h]
    · split
      · exact ih _ _ h
      · exact s.request_raised _ _ _ h

@[simp] theorem State.turnsFrom_raised (s : State) (g : Group) (i : Nat) (h : Raised x s.reports) :
    Raised x (s.turnsFrom g i).reports :=
  State.takeTurns_raised _ g i s h

@[simp] theorem State.enterOning_raised (s : State) (g : Group) (h : Raised x s.reports) :
    Raised x (s.enterOning g).reports := by
  simp [State.enterOning, h]

@[simp] theorem State.afterClose_raised (s : State) (g : Group) (h : Raised x s.reports) :
    Raised x (s.afterClose g).reports := by
  unfold State.afterClose
  dsimp only
  split
  · simp [h]
  · split <;> simp [h]

@[simp] theorem State.requestOpen_raised (s : State) (g : Group) (o : Outlet) (h : Raised x s.reports) :
    Raised x (s.requestOpen g o).reports :=
  s.request_raised _ _ _ h

@[simp] theorem State.offingOver_raised (s : State) (g : Group) (h : Raised x s.reports) :
    Raised x (s.offingOver g).reports := by
  unfold State.offingOver
  dsimp only
  split
  · exact h
  · split
    · simp [h]
    · split
      · split <;> simp [h]
      · split <;> simp [h]

@[simp] theorem State.enterOffing_raised (s : State) (g : Group) (h : Raised x s.reports) :
    Raised x (s.enterOffing g).reports :=
  State.offingOver_raised _ g (foldl_raised _ (fun s o h => by
    split
    · exact h
    · exact s.requestOpen_raised g o h) _ _ h)

@[simp] theorem State.startOp_raised (s : State) (g : Group) (y : OpState) (k : OpKind) (c : OpCause)
    (h : Raised x s.reports) : Raised x (s.startOp g y k c).reports := by
  simp [State.startOp, h]

@[simp] theorem State.startCycle_raised (s : State) (g : Group) (c : OpCause) (h : Raised x s.reports) :
    Raised x (s.startCycle g c).reports := by
  simp [State.startCycle, h]

@[simp] theorem State.startOff_raised (s : State) (g : Group) (h : Raised x s.reports) :
    Raised x (s.startOff g).reports := by
  simp [State.startOff, h]

@[simp] theorem State.unshedMembers_raised (s : State) (g : Group) (h : Raised x s.reports) :
    Raised x (s.unshedMembers g).reports :=
  foldl_raised _ (fun s o h => by split <;> simp [h]) _ s h

@[simp] theorem State.startOn_raised (s : State) (g : Group) (h : Raised x s.reports) :
    Raised x (s.startOn g).reports :=
  State.enterOning_raised _ g (State.startOp_raised _ _ _ _ _ (s.unshedMembers_raised g h))

@[simp] theorem State.offingCompletion_raised (s : State) (g : Group) (o : Outlet) (a : Action) (r : Completion)
    (h : Raised x s.reports) : Raised x (s.offingCompletion g o a r).reports := by
  unfold State.offingCompletion
  split
  · simp [h]
  · simp [h]
  · split
    · simp [h]
    · split
      · simp [h]
      · split <;> simp [h]

@[simp] theorem State.oningCompletion_raised (s : State) (g : Group) (o : Outlet) (r : Completion)
    (h : Raised x s.reports) : Raised x (s.oningCompletion g o r).reports := by
  unfold State.oningCompletion
  split
  · split <;> simp [h]
  · split <;> simp [h]

@[simp] theorem State.groupCompletion_raised (s : State) (o : Outlet) (a : Action) (r : Completion)
    (h : Raised x s.reports) : Raised x (s.groupCompletion o a r).reports := by
  unfold State.groupCompletion
  split
  · exact h
  · dsimp only; split <;> simp [h]

@[simp] theorem State.groupBankLost_raised (s : State) (b : Bank) (h : Raised x s.reports) :
    Raised x (s.groupBankLost b).reports :=
  foldl_raised _ (fun s g h => by dsimp only; split <;> simp [h]) _ s h

@[simp] theorem State.groupsSafe_raised (s : State) (h : Raised x s.reports) : Raised x (s.groupsSafe).reports :=
  foldl_raised _ (fun s g h => by split <;> simp [h]) _ s h

@[simp] theorem State.groupToken_raised (s : State) (g : Group) (h : Raised x s.reports) :
    Raised x (s.groupToken g).reports := by
  unfold State.groupToken; split <;> simp [h]

@[simp] theorem State.appendHistories_raised (s : State) (p : Outlet → Option Int) (h : Raised x s.reports) :
    Raised x (s.appendHistories p).reports :=
  foldl_raised _ (fun s g h => by simpa using h) _ s h

@[simp] theorem State.verifyCurrent_raised (s : State) (p : Outlet → Nat) (h : Raised x s.reports) :
    Raised x (s.verifyCurrent p).reports :=
  foldl_raised _ (fun s g h => by split <;> simp [h]) _ s h

@[simp] theorem State.retryOp_raised (s : State) (g : Group) (h : Raised x s.reports) :
    Raised x (s.retryOp g).reports := by
  unfold State.retryOp; dsimp only; split <;> simp [h]

/-! ## Safe control, completions, monitors, shedding -/

@[simp] theorem State.requestSafe_raised (s : State) (h : Raised x s.reports) : Raised x s.requestSafe.2.reports := by
  unfold State.requestSafe
  refine List.foldlRecOn (motive := fun y : SafeTally × State => Raised x y.2.reports) _ _ h fun y hy o _ => ?_
  split
  · exact hy
  · exact y.2.request_raised _ _ _ hy

@[simp] theorem State.safeFollowUp_raised (s : State) (o : Outlet) (h : Raised x s.reports) :
    Raised x (s.safeFollowUp o).reports := by
  unfold State.safeFollowUp
  split
  · dsimp only
    split
    · split
      · exact h
      · split
        · exact h
        · exact State.request_raised _ _ _ _ h
      · split
        · exact h
        · exact State.request_raised _ _ _ _ h
    · exact h
  · exact h

@[simp] theorem State.monitorsOffline_raised (s : State) (h : Raised x s.reports) :
    Raised x (s.monitorsOffline).reports := by
  simpa [State.monitorsOffline] using h

@[simp] theorem State.enterSafe_raised (s : State) (c : SafeCause) (h : Raised x s.reports) :
    Raised x (s.enterSafe c).reports := by
  have hr := State.requestSafe_raised _ (State.withdraw_raised { s with safe := { cause := some c, followUp := [] } }
    QueueEntry.notSafeOrShed h)
  unfold State.enterSafe
  dsimp only
  generalize State.requestSafe _ = y at hr ⊢
  refine State.refreshAllSheds_raised _ (State.monitorsOffline_raised _ (State.groupsSafe_raised _
    (State.raise_raised _ _ _ _ ?_)))
  exact hr

@[simp] theorem State.enterSafeOnce_raised (s : State) (c : SafeCause) (h : Raised x s.reports) :
    Raised x (s.enterSafeOnce c).reports := by
  unfold State.enterSafeOnce; split <;> simp [h]

@[simp] theorem State.leaveSafe_raised (s : State) (h : Raised x s.reports) : Raised x (s.leaveSafe).reports :=
  State.refreshAllSheds_raised _ h

@[simp] theorem State.endTurnOn_raised (s : State) (b : Bank) (r : Completion) (h : Raised x s.reports) :
    Raised x (s.endTurnOn b r).reports := h

@[simp] theorem State.raiseSwitchDone_raised (s : State) (r : ActionRecord) (h : Raised x s.reports) :
    Raised x (s.raiseSwitchDone r).reports :=
  s.raiseEvent_raised _ h

@[simp] theorem State.complete_raised (s : State) (o : Outlet) (r : Completion) (a : Option SetNo)
    (h : Raised x s.reports) : Raised x (s.complete o r a).reports := by
  unfold State.complete
  split
  · exact h
  · have hrel := State.releaseOutlet_raised (s.dropEntry o) o h
    refine State.safeFollowUp_raised _ _ (State.groupCompletion_raised _ _ _ _ (State.endFlights_raised _ _
      (State.raiseSwitchDone_raised _ _ ?_)))
    split <;> exact hrel

@[simp] theorem State.hangBusy_raised (s : State) (g : Group) (r : BusyReport) (h : Raised x s.reports) :
    Raised x (s.hangBusy g r).reports := by
  simp [State.hangBusy, h]

@[simp] theorem State.hangAccepted_raised (s : State) (g : Group) (y : Option Nat) (h : Raised x s.reports) :
    Raised x (s.hangAccepted g y).reports := by
  simp [State.hangAccepted, h]

@[simp] theorem State.hangCycle_raised (s : State) (g : Group) (y : Option Nat) (h : Raised x s.reports) :
    Raised x (s.hangCycle g y).reports := by
  unfold State.hangCycle
  dsimp only
  split
  · simp [h]
  · split <;> simp [h]

@[simp] theorem State.graceActs_raised (s : State) (g : Group) (h : Raised x s.reports) :
    Raised x (s.graceActs g).reports := by
  unfold State.graceActs
  dsimp only
  split
  · exact h
  · simp [h]
  · simp [h]
  · split <;> simp [h]

@[simp] theorem State.monitorToken_raised (s : State) (g : Group) (h : Raised x s.reports) :
    Raised x (s.monitorToken g).reports := by
  unfold State.monitorToken
  split <;> (try split) <;> simp [h]

@[simp] theorem State.tokenFor_raised (s : State) (g : Group) (h : Raised x s.reports) :
    Raised x (s.tokenFor g).reports := by
  unfold State.tokenFor; split <;> simp [h]

@[simp] theorem State.takeTokens_raised (s : State) (l : List Byte) (h : Raised x s.reports) :
    Raised x (s.takeTokens l).reports :=
  foldl_raised _ (fun s n h => by split <;> simp [h]) _ s h

@[simp] theorem State.shedFirst_raised (b : Bank) (l : List Outlet) (s : State) (h : Raised x s.reports) :
    Raised x (State.shedFirst b l s).reports := by
  induction l generalizing s with
  | nil => unfold State.shedFirst; split <;> simp [h]
  | cons o l ih =>
    unfold State.shedFirst
    dsimp only
    split
    · exact State.raise_raised _ _ _ _ (State.pushShed_raised _ _ (s.request_raised _ _ _ h))
    · exact ih s h

@[simp] theorem State.restoreTop_raised (s : State) (b : Bank) (h : Raised x s.reports) :
    Raised x (s.restoreTop b).reports := by
  unfold State.restoreTop
  split
  · exact h
  · split
    · exact h
    · dsimp only
      split
      · exact State.raise_raised _ _ _ _ (State.unshed_raised _ _ (s.request_raised _ _ _ h))
      · exact h

/-! ## The relay block -/

@[simp] theorem State.reconcile_raised (s : State) (o : Outlet) (y z : RelayState) (c : ReconcileCause)
    (h : Raised x s.reports) : Raised x (s.reconcile o y z c).reports := by
  simp [State.reconcile, h]

@[simp] theorem State.relaySees_raised (s : State) (o : Outlet) (y z : Bool) (c : ReconcileCause)
    (h : Raised x s.reports) : Raised x (s.relaySees o y z c).reports := by
  unfold State.relaySees
  split <;> (try split) <;> simp [h]

@[simp] theorem State.relaySet_raised (s : State) (b : Bank) (m : BitVec 8) (y : Bool) (c : ReconcileCause)
    (h : Raised x s.reports) : Raised x (s.relaySet b m y c).reports :=
  foldl_raised _ (fun s p h => by simp [h]) _ s h

@[simp] theorem State.verified_raised (s : State) (o : Outlet) (f : Flight) (c l : Bool) (i : Option Nat)
    (r : RelayState × Option FaultDetail) (h : Raised x s.reports) :
    Raised x (s.verified o f c l i r).reports := by
  have hc := fun r' => State.complete_raised _ o r' (some f.actuateAt)
    (s.setRelay_raised o (fun _ => Relay.settled r.1 r.2) h)
  unfold State.verified
  dsimp only
  split
  · exact State.raise_raised _ _ _ _ (hc .fault)
  · exact hc .done

@[simp] theorem State.watchFault_raised (s : State) (o : Outlet) (st : RelayState) (d : FaultDetail) (l : Bool) (i : Option Nat)
    (h : Raised x s.reports) : Raised x (s.watchFault o st d l i).reports := by
  simp [State.watchFault, h]

@[simp] theorem State.weldWatch_raised (s : State) (o : Outlet) (l : Bool) (i : Nat) (h : Raised x s.reports) :
    Raised x (s.weldWatch o l i).reports := by
  unfold State.weldWatch
  dsimp only
  split
  · split <;> simp [h]
  · simp [h]

@[simp] theorem State.openWatch_raised (s : State) (o : Outlet) (k : WindowKind) (l : Bool) (i : Option Nat)
    (h : Raised x s.reports) : Raised x (s.openWatch o k l i).reports := by
  unfold State.openWatch
  dsimp only
  split
  · split <;> simp [h]
  · simp [h]

@[simp] theorem State.relayAtClose_raised (s : State) (o : Outlet) (w : Window) (k : WindowKind) (c : Bool) (i : Option Nat)
    (h : Raised x s.reports) : Raised x (s.relayAtClose o w k c i).reports := by
  unfold State.relayAtClose
  dsimp only
  split
  · split <;> simp [h]
  · split <;> simp [h]

@[simp] theorem State.relaysAtClose_raised (s : State) (b : Bank) (w : Window) (k : WindowKind) (c : Bool)
    (h : Raised x s.reports) : Raised x (s.relaysAtClose b w k c).reports :=
  foldl_raised _ (fun s p h => by simp [h]) _ s h

@[simp] theorem State.relayLost_raised (s : State) (o : Outlet) (h : Raised x s.reports) :
    Raised x (s.relayLost o).reports := by
  unfold State.relayLost; split <;> simp [h]

end Sys2Proof.Machine
end

