-- ==== Sys2Proof/Proofs/Metering.lean ====
section
/-! What the metering side leaves unchanged, and the promises on fills, slots and lane states. -/

namespace Sys2Proof.Machine

/-! ## The metering side -/

/-- The state without what the switching side writes, and without measurements, limits and the capture unit. -/
def State.calm (s : State) : State :=
  { s.quiet with
    meters := State.reset.meters, outlets := State.reset.outlets
    outletLimits := State.reset.outletLimits, bankLimits := State.reset.bankLimits
    phaseLimits := State.reset.phaseLimits, loadLost := State.reset.loadLost
    phaseElements := State.reset.phaseElements, capture := State.reset.capture }

theorem State.calm_of_quiet {s t : State} (h : t.quiet = s.quiet) : t.calm = s.calm := by
  simp only [State.calm, h]

/-- What states with the same calm part agree on, as far as the promises on lanes and link 0 need it. -/
theorem State.calm_fields {s t : State} (h : t.calm = s.calm) :
    (∀ b : Bank, t.lanes[b].quiet = s.lanes[b].quiet) ∧ t.link0.quiet = s.link0.quiet
    ∧ t.calTable = s.calTable ∧ t.bankTable = s.bankTable := by
  simp only [State.calm, State.quiet, State.mk.injEq] at h
  refine ⟨fun b => ?_, by simp_all, by simp_all, by simp_all⟩
  have hl : (Vector.ofFn fun b : Fin 6 => t.lanes[b].quiet) = Vector.ofFn fun b : Fin 6 => s.lanes[b].quiet := by
    simp_all
  simpa using congrArg (fun v : Vector Lane 6 => v[b]) hl

theorem foldl_calm {α : Type} (f : State → α → State) (h : ∀ s a, (f s a).calm = s.calm) (l : List α) (s : State) :
    (l.foldl f s).calm = s.calm := foldl_keeps State.calm f h l s

@[simp] theorem State.onMeter_calm (s : State) (b : Bank) (f : BankMeter → BankMeter) :
    (s.onMeter b f).calm = s.calm := rfl

@[simp] theorem State.onOutlet_calm (s : State) (o : Outlet) (f : OutletMeter → OutletMeter) :
    (s.onOutlet o f).calm = s.calm := rfl

@[simp] theorem State.raiseLimit_calm (s : State) (k : EventKind) (n : Nat) (x y : Level) (i : Nat) :
    (s.raiseLimit k n x y i).calm = s.calm := by
  unfold State.raiseLimit
  split
  · rfl
  · exact State.calm_of_quiet (s.raise_quiet _ _ _)

@[simp] theorem State.evalOutlet_calm (s : State) (o : Outlet) (i : Nat) : (s.evalOutlet o i).calm = s.calm :=
  State.raiseLimit_calm { s with outletLimits := upd s.outletLimits o fun _ => _ } _ _ _ _ _

@[simp] theorem State.evalLoad_calm (s : State) (o : Outlet) (i : Nat) : (s.evalLoad o i).calm = s.calm := by
  unfold State.evalLoad
  dsimp only
  split
  · rw [State.calm_of_quiet (State.raise_quiet _ _ _ _)]; rfl
  · rfl

@[simp] theorem State.evalBank_calm (s : State) (b : Bank) (i : Nat) : (s.evalBank b i).calm = s.calm := by
  unfold State.evalBank
  dsimp only
  rw [State.calm_of_quiet (State.refreshSheds_quiet _ _), State.calm_of_quiet (State.onShed_quiet _ _ _),
    State.raiseLimit_calm]
  rfl

@[simp] theorem State.evalPhase_calm (s : State) (b : Bank) (i : Nat) : (s.evalPhase b i).calm = s.calm := by
  unfold State.evalPhase
  dsimp only
  rw [State.raiseLimit_calm]
  rfl

@[simp] theorem State.limitsAtClose_calm (s : State) (b : Bank) (irms : Outlet → Nat) (i : Nat) :
    (s.limitsAtClose b irms i).calm = s.calm := by
  simp [State.limitsAtClose, foldl_calm]

@[simp] theorem State.limitsAt_calm (s : State) (b : Bank) (w : Window) (k : WindowKind) :
    (s.limitsAt b w k).calm = s.calm := by
  unfold State.limitsAt; split <;> simp

@[simp] theorem State.metersAtClose_calm (s : State) (b : Bank) (w : Window) (k : WindowKind) :
    (s.metersAtClose b w k).calm = s.calm :=
  foldl_calm _ (fun s _ => s.onOutlet_calm _ _) _ _

@[simp] theorem State.relaysAtClose_calm (s : State) (b : Bank) (w : Window) (k : WindowKind) (c : Bool) :
    (s.relaysAtClose b w k c).calm = s.calm := State.calm_of_quiet (s.relaysAtClose_quiet b w k c)

@[simp] theorem State.raiseCaptureDone_calm (s : State) (o : Outlet) (h : CaptureHeader) :
    (s.raiseCaptureDone o h).calm = s.calm := State.calm_of_quiet (s.raiseEvent_quiet _)

@[simp] theorem State.captureAtClose_calm (s : State) (b : Bank) (k : WindowKind) :
    (s.captureAtClose b k).calm = s.calm := by
  unfold State.captureAtClose
  split
  · rfl
  · split
    · dsimp only; rw [State.raiseCaptureDone_calm]; rfl
    · rfl

@[simp] theorem State.captureLost_calm (s : State) (b : Bank) : (s.captureLost b).calm = s.calm := by
  unfold State.captureLost
  split
  · rfl
  · split
    · rw [State.raiseCaptureDone_calm]; rfl
    · rfl

@[simp] theorem State.openWindow_calm (s : State) (b : Bank) (n : SetNo) (a : Bool) :
    (s.openWindow b n a).calm = s.calm := rfl

@[simp] theorem State.addSet_calm (s : State) (b : Bank) (c : CalSet) : (s.addSet b c).calm = s.calm := rfl

@[simp] theorem State.discardWindow_calm (s : State) (b : Bank) : (s.discardWindow b).calm = s.calm := rfl

/-! ## Events of the metering side -/

variable {x : Notifier × Link0}

@[simp] theorem State.raiseLimit_raised (s : State) (k : EventKind) (n : Nat) (y z : Level) (i : Nat)
    (h : Raised x s.reports) : Raised x (s.raiseLimit k n y z i).reports := by
  unfold State.raiseLimit; split <;> simp [h]

@[simp] theorem State.evalOutlet_raised (s : State) (o : Outlet) (i : Nat) (h : Raised x s.reports) :
    Raised x (s.evalOutlet o i).reports := by
  simp [State.evalOutlet, h]

@[simp] theorem State.evalLoad_raised (s : State) (o : Outlet) (i : Nat) (h : Raised x s.reports) :
    Raised x (s.evalLoad o i).reports := by
  unfold State.evalLoad; dsimp only; split <;> simp [h]

@[simp] theorem State.evalBank_raised (s : State) (b : Bank) (i : Nat) (h : Raised x s.reports) :
    Raised x (s.evalBank b i).reports := by
  unfold State.evalBank
  exact State.refreshSheds_raised (State.onShed _ _ _) _ (State.raiseLimit_raised _ _ _ _ _ _ h)

@[simp] theorem State.evalPhase_raised (s : State) (b : Bank) (i : Nat) (h : Raised x s.reports) :
    Raised x (s.evalPhase b i).reports := by
  simp [State.evalPhase, h]

@[simp] theorem State.limitsAtClose_raised (s : State) (b : Bank) (irms : Outlet → Nat) (i : Nat)
    (h : Raised x s.reports) : Raised x (s.limitsAtClose b irms i).reports :=
  State.evalPhase_raised _ b i (State.evalBank_raised _ b i
    (foldl_raised _ (fun s o h => (s.evalOutlet o _).evalLoad_raised o _ (s.evalOutlet_raised o _ h)) _ s h))

@[simp] theorem State.limitsAt_raised (s : State) (b : Bank) (w : Window) (k : WindowKind)
    (h : Raised x s.reports) : Raised x (s.limitsAt b w k).reports := by
  unfold State.limitsAt; split <;> simp [h]

@[simp] theorem State.metersAtClose_raised (s : State) (b : Bank) (w : Window) (k : WindowKind)
    (h : Raised x s.reports) : Raised x (s.metersAtClose b w k).reports :=
  foldl_raised _ (fun s p h => by simpa using h) _ _ (by simpa using h)

@[simp] theorem State.captureAtClose_raised (s : State) (b : Bank) (k : WindowKind) (h : Raised x s.reports) :
    Raised x (s.captureAtClose b k).reports := by
  unfold State.captureAtClose
  split
  · exact h
  · split
    · exact State.raiseEvent_raised _ _ h
    · exact h

@[simp] theorem State.captureLost_raised (s : State) (b : Bank) (h : Raised x s.reports) :
    Raised x (s.captureLost b).reports := by
  unfold State.captureLost
  split
  · exact h
  · split
    · exact State.raiseEvent_raised _ _ h
    · exact h

end Sys2Proof.Machine
end

