-- ==== Sys2Proof/Proofs/Slots.lean ====
section
/-! Fills and slots. -/

namespace Sys2Proof.Machine

/-! ## Record queue and gap count -/

/-- The record queue holds at most 16 cells and the gap count 8 bits (R164). -/
def Link0.Fits (l : Link0) : Prop := l.records.length ≤ 16 ∧ l.gap ≤ 255

theorem moveNotices_records (k : Nat) (x : Notifier × Link0) :
    (moveNotices k x).2.records = x.2.records ∧ (moveNotices k x).2.gap = x.2.gap := by
  induction k generalizing x with
  | zero => exact ⟨rfl, rfl⟩
  | succ k ih =>
    unfold moveNotices
    split
    · split
      · exact ⟨rfl, rfl⟩
      · exact ih _
    · exact ⟨rfl, rfl⟩

theorem fillNotices_fits (x : Notifier × Link0) (h : x.2.Fits) : (fillNotices x).2.Fits := by
  obtain ⟨hr, hg⟩ := moveNotices_records Config.noticeDepth x
  unfold fillNotices Link0.Fits
  rw [hr, hg]
  exact h

theorem raiseUnbound_fits (now : Uptime) (e : Event) (x : Notifier × Link0) (h : x.2.Fits) :
    (raiseUnbound now e x).2.Fits := by
  unfold raiseUnbound
  split
  · exact h
  · exact fillNotices_fits _ h

theorem offerRecords_fits (rs : List Record) (l : Link0) (h : l.Fits) : (rs.foldl Link0.offerRecord l).Fits :=
  List.foldlRecOn rs Link0.offerRecord h fun l h r _ => ⟨l.offerRecord_length_le r h.1, l.offerRecord_gap_le r h.2⟩

theorem streamProduces_fits (now : Uptime) (i : Stream) (b : Binding) (rs : List Record) (x : Notifier × Link0)
    (h : x.2.Fits) : (streamProduces now i b rs x).2.Fits := by
  have hl := offerRecords_fits rs x.2 h
  unfold streamProduces
  split
  · exact raiseUnbound_fits _ _ _ hl
  · exact hl

theorem notify_fits (now : Uptime) (e : Event) (x : Notifier × Link0) (h : x.2.Fits) : (notify now e x).2.Fits := by
  unfold notify
  split
  · exact raiseUnbound_fits _ _ _ h
  · split
    · exact raiseUnbound_fits _ _ _ h
    · exact streamProduces_fits _ _ _ _ _ h

/-- Events keep the record queue and the gap count within their ranges. -/
theorem Raised.fits {x y : Notifier × Link0} (h : Raised x y) (hx : x.2.Fits) : y.2.Fits :=
  h.keeps (P := fun z => z.2.Fits) notify_fits hx

/-! ## Window boundaries (R150) -/

/-- The part of a bank that waited applies: it leaves the waiting set, which with it may become empty, and then the held
COMMIT is answered. -/
theorem Staged.releaseBank_holds {α : Type} {n : Nat} {t : Staged α n 6} {b : Bank} {is : List (Fin n)}
    (h : t.HoldsWhileWaiting) (hb : b ∈ t.waiting) : (t.releaseBank b is).HoldsWhileWaiting := by
  obtain ⟨hheld, hstate, hd⟩ := h
  have hne : t.waiting ≠ [] := List.ne_nil_of_mem hb
  unfold Staged.releaseBank Staged.HoldsWhileWaiting
  dsimp only
  split
  · simp
  · rename_i hr
    refine ⟨?_, ?_, hd⟩
    · exact ⟨fun _ => hr, fun _ => hheld.2 hne⟩
    · exact ⟨fun _ => hr, fun _ => hstate.2 hne⟩

/-- A release answers the held COMMIT or leaves it held. -/
theorem Staged.releaseBank_held {α : Type} {n : Nat} (t : Staged α n 6) (b : Bank) (is : List (Fin n)) :
    t.held.toList = (t.answers b).toList ++ (t.releaseBank b is).held.toList := by
  unfold Staged.answers Staged.releaseBank
  dsimp only
  split
  · simp
  · simp [Staged.copyEntries]

/-- A window boundary changes the two tables committed by bank and the response slots, and nothing else. -/
theorem State.boundary_changes (s : State) (b : Bank) :
    s.boundary b = { s with
      calTable := (s.boundary b).calTable, bankTable := (s.boundary b).bankTable
      link0 := { s.link0 with
        reserved := (s.boundary b).link0.reserved, filled := (s.boundary b).link0.filled } } := by
  unfold State.boundary State.releaseBankEntry State.releaseCal State.fillHeld
  repeat' split
  all_goals rfl

/-- The slots of a link unit whose reserved ones, as a list, are those of `tags`: at most 8 in use. -/
def Link0.SlotsOf (l : Link0) (tags : List Byte) : Prop :=
  l.reserved.length + l.filled.length ≤ 8 ∧ l.reserved.Perm (tags.map fun t => { tag := t, kind := 0x03 })

theorem State.slotsKept_iff (s : State) : s.SlotsKept ↔
    s.link0.SlotsOf (s.calTable.held.toList ++ s.bankTable.held.toList) ∧ s.calTable.HoldsWhileWaiting
      ∧ s.bankTable.HoldsWhileWaiting := by
  simp [State.SlotsKept, Link0.SlotsOf, State.heldSlots, and_assoc]

/-- The answer to a held COMMIT moves its slot from the reserved ones to the filled ones (R162). -/
theorem State.fillHeld_slots {s : State} {tag : Option Byte} {tags : List Byte}
    (h : s.link0.SlotsOf (tag.toList ++ tags)) : (s.fillHeld tag).link0.SlotsOf tags := by
  cases tag with
  | none => exact h
  | some t =>
    obtain ⟨hl, hp⟩ := h
    have hmem : ({ tag := t, kind := 0x03 } : HeldSlot) ∈ s.link0.reserved := hp.symm.subset (by simp)
    refine ⟨?_, ?_⟩
    · simp only [State.fillHeld, State.onLink0_fields, List.length_erase_of_mem hmem, List.length_append,
        List.length_singleton]
      have := List.length_pos_of_mem hmem
      omega
    · simpa [State.fillHeld] using hp.erase { tag := t, kind := 0x03 }

theorem State.fillHeld_tables (s : State) (tag : Option Byte) :
    (s.fillHeld tag).calTable = s.calTable ∧ (s.fillHeld tag).bankTable = s.bankTable := by
  cases tag <;> exact ⟨rfl, rfl⟩

theorem State.releaseCal_slots {s : State} (b : Bank) (h : s.SlotsKept) : (s.releaseCal b).SlotsKept := by
  unfold State.releaseCal
  split
  · rename_i hb
    rw [State.slotsKept_iff] at h
    obtain ⟨hs, hc, hk⟩ := h
    rw [Staged.releaseBank_held s.calTable b (calEntriesOf b), List.append_assoc] at hs
    have hf := State.fillHeld_slots (s := { s with calTable := s.calTable.releaseBank b (calEntriesOf b) }) hs
    rw [State.slotsKept_iff, (State.fillHeld_tables _ _).1, (State.fillHeld_tables _ _).2]
    exact ⟨hf, Staged.releaseBank_holds hc hb, hk⟩
  · exact h

theorem State.releaseBankEntry_slots {s : State} (b : Bank) (h : s.SlotsKept) : (s.releaseBankEntry b).SlotsKept := by
  unfold State.releaseBankEntry
  split
  · rename_i hb
    rw [State.slotsKept_iff] at h
    obtain ⟨hs, hc, hk⟩ := h
    have hs' : s.link0.SlotsOf ((s.bankTable.answers b).toList
        ++ (s.calTable.held.toList ++ (s.bankTable.releaseBank b [b]).held.toList)) := by
      refine ⟨hs.1, hs.2.trans (List.Perm.map _ ?_)⟩
      rw [Staged.releaseBank_held s.bankTable b [b]]
      simpa using List.perm_append_comm_assoc _ _ _
    have hf := State.fillHeld_slots (s := { s with bankTable := s.bankTable.releaseBank b [b] }) hs'
    rw [State.slotsKept_iff, (State.fillHeld_tables _ _).1, (State.fillHeld_tables _ _).2]
    exact ⟨hf, hc, Staged.releaseBank_holds hk hb⟩
  · exact h

theorem State.boundary_slots {s : State} (b : Bank) (h : s.SlotsKept) : (s.boundary b).SlotsKept :=
  State.releaseBankEntry_slots b (State.releaseCal_slots b h)

end Sys2Proof.Machine
end

