-- ==== Sys2Proof/Proofs/Lanes.lean ====
section
/-! Handing over of sets; what each step keeps. -/

namespace Sys2Proof.Machine

/-! ## What switching and metering carry over -/

/-- `t` comes from `s` by acts of the switching and the metering side: each lane is as it was but for what waits to be
sent, the command FIFO is as it was, and the fills and slots of link 0 stay within their promises. -/
structure State.Carries (s t : State) : Prop where
  lane : ∀ b : Bank, t.lanes[b].quiet = s.lanes[b].quiet
  fifo : t.link0.fifo = s.link0.fifo
  fits : s.link0.Fits → t.link0.Fits
  slots : s.SlotsKept → t.SlotsKept

theorem State.Carries.refl (s : State) : s.Carries s := ⟨fun _ => rfl, rfl, id, id⟩

theorem State.Carries.trans {s t u : State} (h : s.Carries t) (h' : t.Carries u) : s.Carries u :=
  ⟨fun b => (h'.lane b).trans (h.lane b), h'.fifo.trans h.fifo, h'.fits ∘ h.fits, h'.slots ∘ h.slots⟩

/-- The promise on slots reads the response slots and the two tables committed by bank alone. -/
theorem State.SlotsKept.congr {s t : State} (h : s.SlotsKept) (hr : t.link0.reserved = s.link0.reserved)
    (hf : t.link0.filled = s.link0.filled) (hc : t.calTable = s.calTable) (hb : t.bankTable = s.bankTable) :
    t.SlotsKept := by
  simpa only [State.SlotsKept, State.heldSlots, hr, hf, hc, hb] using h

theorem State.Carries.of_calm {s t : State} (h : t.calm = s.calm) (hr : Raised s.reports t.reports) :
    s.Carries t := by
  obtain ⟨hlane, hlink, hcal, hbank⟩ := State.calm_fields h
  obtain ⟨-, -, hfifo, hres, hfil, -⟩ := Link0.quiet_fields hlink
  exact ⟨hlane, hfifo, hr.fits, fun hs => hs.congr hres hfil hcal hbank⟩

theorem State.Carries.of_quiet {s t : State} (h : t.quiet = s.quiet) (hr : Raised s.reports t.reports) :
    s.Carries t := .of_calm (State.calm_of_quiet h) hr

theorem State.foldl_carries {α : Type} (f : State → α → State) (h : ∀ (s : State) (a : α), s.Carries (f s a))
    (l : List α) (s : State) :
    s.Carries (l.foldl f s) :=
  List.foldlRecOn (motive := s.Carries) l f (.refl s) fun t ht a _ => ht.trans (h t a)

/-! ## The handing over of a set -/

theorem State.boundary_carries (s : State) (b : Bank) : s.Carries (s.boundary b) := by
  refine ⟨fun b' => ?_, ?_, fun h => ?_, State.boundary_slots b⟩
  · rw [State.boundary_changes]
  · rw [State.boundary_changes]
  · rw [State.boundary_changes]; exact h

theorem State.closeWindow_carries (s : State) (b : Bank) (c : Bool) : s.Carries (s.closeWindow b c) := by
  unfold State.closeWindow
  split
  · exact .refl s
  · rename_i w _
    refine .trans (.of_calm ?_ ?_) (State.boundary_carries _ b)
    · simp
    · exact State.captureAtClose_raised _ _ _ (State.relaysAtClose_raised _ _ _ _ _
        (State.limitsAt_raised _ _ _ _ (State.metersAtClose_raised _ _ _ _ (.refl _))))

theorem State.openWindow_carries (s : State) (b : Bank) (n : SetNo) (a : Bool) : s.Carries (s.openWindow b n a) :=
  .of_calm (s.openWindow_calm b n a) (.refl _)

theorem State.placeSet_carries (s : State) (b : Bank) (n : SetNo) (c : Bool) : s.Carries (s.placeSet b n c) := by
  unfold State.placeSet
  split
  · exact s.openWindow_carries b n c
  · split
    · exact (s.closeWindow_carries b true).trans (State.openWindow_carries _ b n true)
    · exact .refl s

theorem State.closeFull_carries (s : State) (b : Bank) : s.Carries (s.closeFull b) := by
  unfold State.closeFull
  split
  · exact s.closeWindow_carries b false
  · exact .refl s

theorem State.onMeter_carries (s : State) (b : Bank) (f : BankMeter → BankMeter) : s.Carries (s.onMeter b f) :=
  .of_calm (s.onMeter_calm b f) (.refl _)

theorem State.addSet_carries (s : State) (b : Bank) (x : CalSet) : s.Carries (s.addSet b x) :=
  .of_calm (s.addSet_calm b x) (.refl _)

theorem State.relaySet_carries (s : State) (b : Bank) (closed : BitVec 8) (sub : Bool) (c : ReconcileCause) :
    s.Carries (s.relaySet b closed sub c) :=
  .of_quiet (s.relaySet_quiet b closed sub c) (s.relaySet_raised b closed sub c (.refl _))

theorem State.handSet_carries (s : State) (b : Bank) (n : SetNo) (raw : RawSet) (sub : Bool) :
    s.Carries (s.handSet b n raw sub) := by
  unfold State.handSet
  exact (State.onMeter_carries _ _ _).trans ((State.placeSet_carries _ _ _ _).trans
    ((State.relaySet_carries _ _ _ _ _).trans ((State.addSet_carries _ _ _).trans (State.closeFull_carries _ _))))

/-! ## What a step keeps -/

/-- `t` comes from `s` with every lane's link state as it was and the promised fills and slots kept. -/
structure State.Stays (s t : State) : Prop where
  link : ∀ b : Bank, t.lanes[b].link = s.lanes[b].link
  fills : s.FillsKept → t.FillsKept
  slots : s.SlotsKept → t.SlotsKept

/-- `t` comes from `s` with every lane's link state as it was or moved by the table of spec/01 1.5, and the promised fills
and slots kept. -/
structure State.Moves (s t : State) : Prop where
  link : ∀ b : Bank, t.lanes[b].link = s.lanes[b].link ∨ (s.lanes[b].link, t.lanes[b].link) ∈ laneMoves
  fills : s.FillsKept → t.FillsKept
  slots : s.SlotsKept → t.SlotsKept

theorem State.Stays.refl (s : State) : s.Stays s := ⟨fun _ => rfl, id, id⟩

theorem State.Stays.trans {s t u : State} (h : s.Stays t) (h' : t.Stays u) : s.Stays u :=
  ⟨fun b => (h'.link b).trans (h.link b), h'.fills ∘ h.fills, h'.slots ∘ h.slots⟩

theorem State.Stays.moves {s t : State} (h : s.Stays t) : s.Moves t := ⟨fun b => .inl (h.link b), h.fills, h.slots⟩

theorem State.Stays.trans_moves {s t u : State} (h : s.Stays t) (h' : t.Moves u) : s.Moves u :=
  ⟨fun b => h.link b ▸ h'.link b, h'.fills ∘ h.fills, h'.slots ∘ h.slots⟩

theorem State.Moves.trans_stays {s t u : State} (h : s.Moves t) (h' : t.Stays u) : s.Moves u :=
  ⟨fun b => (h'.link b).symm ▸ h.link b, h'.fills ∘ h.fills, h'.slots ∘ h.slots⟩

theorem Lane.quiet_fields {l m : Lane} (h : m.quiet = l.quiet) :
    m.link = l.link ∧ m.fifo = l.fifo ∧ m.runCount = l.runCount ∧ m.runSeq = l.runSeq ∧ m.counter = l.counter
    ∧ m.lastGood = l.lastGood ∧ m.silence = l.silence ∧ m.signal = l.signal ∧ m.errors = l.errors ∧ m.line = l.line
    ∧ m.partialCell = l.partialCell ∧ m.framing = l.framing ∧ m.sinceTake = l.sinceTake := by
  simp only [Lane.quiet, Lane.mk.injEq] at h
  simp_all

theorem State.Carries.stays {s t : State} (h : s.Carries t) : s.Stays t := by
  refine ⟨fun b => (Lane.quiet_fields (h.lane b)).1, fun ⟨hl, hf, hr⟩ => ⟨fun b => ?_, ?_, h.fits hr⟩, h.slots⟩
  · rw [(Lane.quiet_fields (h.lane b)).2.1]; exact hl b
  · rw [h.fifo]; exact hf

/-- A change of one lane that moves its link state by the table and keeps its FIFO within 4 cells. -/
theorem State.onLane_moves (s : State) (b : Bank) (f : Lane → Lane)
    (hlink : (f s.lanes[b]).link = s.lanes[b].link ∨ (s.lanes[b].link, (f s.lanes[b]).link) ∈ laneMoves)
    (hfifo : s.lanes[b].fifo.length ≤ 4 → (f s.lanes[b]).fifo.length ≤ 4) : s.Moves (s.onLane b f) := by
  have hget : ∀ b' : Bank, (s.onLane b f).lanes[b'] = if b = b' then f s.lanes[b] else s.lanes[b'] :=
    fun b' => upd_get s.lanes b b' f
  refine ⟨fun b' => ?_, fun ⟨hl, hf, hr⟩ => ⟨fun b' => ?_, hf, hr⟩, id⟩
  · rw [hget]
    split
    · rename_i e; subst e; exact hlink
    · exact .inl rfl
  · rw [hget]
    split
    · exact hfifo (hl b)
    · exact hl b'

/-- A change of one lane that leaves its link state and keeps its FIFO within 4 cells. -/
theorem State.onLane_stays (s : State) (b : Bank) (f : Lane → Lane) (hlink : (f s.lanes[b]).link = s.lanes[b].link)
    (hfifo : s.lanes[b].fifo.length ≤ 4 → (f s.lanes[b]).fifo.length ≤ 4) : s.Stays (s.onLane b f) := by
  have hm := s.onLane_moves b f (.inl hlink) hfifo
  refine ⟨fun b' => ?_, hm.fills, hm.slots⟩
  show (upd s.lanes b f)[b'].link = _
  rw [upd_get]
  split
  · rename_i e; subst e; exact hlink
  · rfl

/-! ## Lanes -/

theorem State.raiseEvent_carries (s : State) (e : Event) : s.Carries (s.raiseEvent e) :=
  .of_quiet (s.raiseEvent_quiet e) (s.raiseEvent_raised e (.refl _))

theorem State.raise_carries (s : State) (k : EventKind) (n : Nat) (d : Detail) : s.Carries (s.raise k n d) :=
  s.raiseEvent_carries _

theorem State.laneError_stays (s : State) (b : Bank) (k : ErrorKind) (bytes : List Byte) :
    s.Stays (s.laneError b k bytes) :=
  (s.onLane_stays b _ rfl id).trans
    (State.Carries.of_quiet (State.raiseLinkError_quiet _ _ _ _ _)
      (State.raiseLinkError_raised _ _ _ _ _ (.refl _))).stays

theorem State.offerSample_stays (s : State) (b : Bank) (c : SampleCell) (bytes : List Byte) :
    s.Stays (s.offerSample b c bytes) := by
  unfold State.offerSample
  split
  · rename_i h
    exact s.onLane_stays b _ rfl fun _ => by simp only [List.length_append, List.length_singleton]; exact h
  · exact s.laneError_stays b _ _

theorem State.laneCell_stays (s : State) (b : Bank) (cell : List LineChar) : s.Stays (s.laneCell b cell) := by
  unfold State.laneCell
  split
  · exact s.laneError_stays b _ _
  · exact s.offerSample_stays b _ _

/-- A character brings an ABSENT lane to SYNCING and leaves the other link states; the FIFO stays. -/
theorem Lane.hear_link (l : Lane) (now : Uptime) :
    ((l.hear now).link = l.link ∨ (l.link, (l.hear now).link) ∈ laneMoves) ∧ (l.hear now).fifo = l.fifo := by
  unfold Lane.hear
  cases hl : l.link <;> simp [LinkState.hears, Lane.clearRun, hl, laneMoves]

theorem Lane.hear_of_hears {l : Lane} (now : Uptime) (h : l.link.hears = true) :
    l.hear now = { l with signal := some now } := by simp [Lane.hear, h]

theorem execLaneCharacter_moves (b : Bank) (c : LineChar) {s t : State} (h : execLaneCharacter b c s = .next t) :
    s.Moves t := by
  cases h
  have hk := s.lanes[b].hear_link s.uptime
  refine s.onLane_moves b _ ?_ ?_
  · unfold Lane.receive; dsimp only; split <;> exact hk.1
  · unfold Lane.receive; dsimp only; split <;> exact fun hl => hk.2 ▸ hl

theorem execLaneCellReceived_moves (b : Bank) (chars : List LineChar) {s t : State}
    (h : execLaneCellReceived b chars s = .next t) : s.Moves t := by
  have hk := s.lanes[b].hear_link s.uptime
  unfold execLaneCellReceived at h
  dsimp only at h
  split at h
  · cases h
    split
    · exact (State.Stays.refl s).moves
    · exact s.onLane_moves b _ hk.1 fun hl => hk.2 ▸ hl
  · rename_i hh
    have hhear : s.lanes[b].link.hears = true := by simpa using hh
    have hgap : s.Stays (s.onLane b fun l => (if chars = [] then l else l.hear s.uptime).gap) := by
      refine s.onLane_stays b _ ?_ ?_
      all_goals
        rw [Lane.hear_of_hears _ hhear]
        split
      · rfl
      · rfl
      · exact id
      · exact id
    cases h
    split
    · exact hgap.moves
    · exact (hgap.trans (State.laneCell_stays _ b _)).moves

theorem execLaneBreak_moves (b : Bank) {s t : State} (h : execLaneBreak b s = .next t) : s.Moves t := by
  unfold execLaneBreak at h
  split at h <;> cases h
  · exact ((s.onLane_stays b _ rfl id).trans (State.laneError_stays _ b _ _)).moves
  · exact (State.Stays.refl s).moves

theorem State.handNext_carries (s : State) (b : Bank) (raw : RawSet) (sub : Bool) : s.Stays (s.handNext b raw sub) :=
  (s.onLane_stays b _ rfl id).trans (State.handSet_carries _ b _ raw sub).stays

theorem State.handSubstitutes_stays (n : Nat) (b : Bank) (raw : RawSet) (s : State) :
    s.Stays (State.handSubstitutes n b raw s) := by
  induction n generalizing s with
  | zero => exact .refl s
  | succ n ih => exact (s.handNext_carries b raw true).trans (ih _)

theorem State.takeInUp_stays (s : State) (b : Bank) (c : SampleCell) : s.Stays (s.takeInUp b c) := by
  have hlast : ∀ u : State, u.Stays (u.onLane b fun l => { l with lastGood := some c.set, silence := some s.uptime }) :=
    fun u => u.onLane_stays b _ rfl id
  unfold State.takeInUp
  dsimp only
  split
  · exact ((State.handSubstitutes_stays _ b _ s).trans (State.handNext_carries _ b _ _)).trans (hlast _)
  · exact .refl s

theorem State.enterUp_moves (s : State) (b : Bank) (c : SampleCell)
    (hl : s.lanes[b].link = .syncing ∨ s.lanes[b].link = .lost) : s.Moves (s.enterUp b c) := by
  have hmove : (s.lanes[b].link, LinkState.up) ∈ laneMoves := by
    obtain h | h := hl <;> rw [h] <;> decide
  have hlane := s.onLane_moves b (fun l => l.enterUp c s.uptime) (.inr hmove) id
  have hreset : ∀ u : State, u.Carries
      { u.onMeter b BankMeter.windowReset with
        phaseElements := upd (u.onMeter b BankMeter.windowReset).phaseElements b fun _ => none } :=
    fun u => .of_calm rfl (.refl _)
  have hshow : ∀ u : State, u.Carries ((u.placeIndicate b).refreshSheds b) := fun u =>
    .of_quiet (by simp) (by simp)
  unfold State.enterUp
  refine hlane.trans_stays (State.Carries.stays ?_)
  exact (hreset _).trans ((State.raise_carries _ _ _ _).trans ((State.relaySet_carries _ _ _ _ _).trans
    ((hshow _).trans (State.handSet_carries _ _ _ _ _))))

theorem State.takeInRun_moves (s : State) (b : Bank) (c : SampleCell)
    (hl : s.lanes[b].link = .syncing ∨ s.lanes[b].link = .lost) : s.Moves (s.takeInRun b c) := by
  unfold State.takeInRun
  split
  · exact s.enterUp_moves b c hl
  · exact (s.onLane_stays b _ rfl id).moves

theorem execTakeSampleCell_moves (b : Bank) {s t : State} (h : execTakeSampleCell b s = .next t) : s.Moves t := by
  unfold execTakeSampleCell at h
  split at h
  · cases h; exact (State.Stays.refl s).moves
  · rename_i c rest hfifo
    have htake : s.Stays (s.onLane b fun l => { l with fifo := rest, sinceTake := 0 }) :=
      s.onLane_stays b _ rfl fun hl => by
        rw [hfifo] at hl
        exact (Nat.le_succ _).trans hl
    have hlink : (s.onLane b fun l => { l with fifo := rest, sinceTake := 0 }).lanes[b].link = s.lanes[b].link :=
      htake.link b
    split at h
    · dsimp only at h
      split at h <;> cases h
      · exact (State.Stays.refl s).moves
      · rename_i hs
        exact htake.trans_moves (State.takeInRun_moves _ b c (.inl (hlink.trans hs)))
      · exact (htake.trans (State.takeInUp_stays _ b c)).moves
      · rename_i hs
        exact htake.trans_moves (State.takeInRun_moves _ b c (.inr (hlink.trans hs)))
    · cases h; exact (State.Stays.refl s).moves

theorem State.enterLost_moves (s : State) (b : Bank) (hl : s.lanes[b].link = .up) : s.Moves (s.enterLost b) := by
  have hlane := s.onLane_moves b Lane.enterLost (.inr (hl ▸ (by decide : (LinkState.up, LinkState.lost) ∈ laneMoves))) id
  have hdiscard : ∀ u : State, u.Carries (u.discardWindow b) := fun u => .of_calm (by simp) (.refl _)
  have hstop : ∀ u : State, u.Carries ((u.refreshSheds b).groupBankLost b) := fun u =>
    .of_quiet (by simp) (by simp)
  have hrelay : ∀ (u : State) (o : Outlet), u.Carries (u.relayLost o) := fun u o =>
    .of_quiet (by simp) (by simp)
  have hcapture : ∀ u : State, u.Carries (u.captureLost b) := fun u => .of_calm (by simp) (by simp)
  unfold State.enterLost
  refine hlane.trans_stays (State.Carries.stays ?_)
  exact (hdiscard _).trans ((State.raise_carries _ _ _ _).trans ((hstop _).trans
    ((State.foldl_carries _ hrelay _ _).trans ((hcapture _).trans (State.boundary_carries _ _)))))

theorem execSilenceTimerExpiry_moves (b : Bank) {s t : State} (h : execSilenceTimerExpiry b s = .next t) :
    s.Moves t := by
  unfold execSilenceTimerExpiry at h
  split at h
  · rename_i hc
    obtain ⟨rfl⟩ := Host.Outcome.next.inj h
    exact s.enterLost_moves b hc.1
  · cases h; exact (State.Stays.refl s).moves

theorem execSignalTimerExpiry_moves (b : Bank) {s t : State} (h : execSignalTimerExpiry b s = .next t) :
    s.Moves t := by
  have hsilent : (s.lanes[b].link, LinkState.absent) ∈ laneMoves → s.Moves (s.onLane b Lane.enterAbsent) := fun hm =>
    s.onLane_moves b Lane.enterAbsent (.inr hm) fun _ => Nat.zero_le _
  unfold execSignalTimerExpiry at h
  split at h
  · split at h <;> cases h
    · rename_i hl
      exact hsilent (by rw [hl]; decide)
    · rename_i hl
      exact (hsilent (by rw [hl]; decide)).trans_stays (State.raise_carries _ _ _ _).stays
    · exact (State.Stays.refl s).moves
    · exact (State.Stays.refl s).moves
  · cases h; exact (State.Stays.refl s).moves

theorem execLaneCellStart_moves (b : Bank) {s t : State} (h : execLaneCellStart b s = .next t) : s.Moves t := by
  cases h
  refine (s.onLane_stays b _ ?_ ?_).moves
  all_goals
    unfold Lane.startCell
    split
  · rfl
  · rfl
  · rfl
  all_goals exact id

end Sys2Proof.Machine
end

