-- ==== Sys2Proof/Proofs/Commands.lean ====
section
/-! Commands and the promises on fills and slots. -/

namespace Sys2Proof.Machine

/-! ## What leaves the slots alone -/

/-- `t` comes from `s` with link states, response slots and the tables committed by bank as they were, and the promised
fills kept. -/
structure State.Spares (s t : State) : Prop where
  link : ∀ b : Bank, t.lanes[b].link = s.lanes[b].link
  fills : s.FillsKept → t.FillsKept
  reserved : t.link0.reserved = s.link0.reserved
  filled : t.link0.filled = s.link0.filled
  cal : t.calTable = s.calTable
  bank : t.bankTable = s.bankTable

theorem State.Spares.refl (s : State) : s.Spares s := ⟨fun _ => rfl, id, rfl, rfl, rfl, rfl⟩

theorem State.Spares.trans {s t u : State} (h : s.Spares t) (h' : t.Spares u) : s.Spares u :=
  ⟨fun b => (h'.link b).trans (h.link b), h'.fills ∘ h.fills, h'.reserved.trans h.reserved, h'.filled.trans h.filled,
    h'.cal.trans h.cal, h'.bank.trans h.bank⟩

theorem State.Spares.stays {s t : State} (h : s.Spares t) : s.Stays t :=
  ⟨h.link, h.fills, fun hs => hs.congr h.reserved h.filled h.cal h.bank⟩

theorem State.Spares.of_calm {s t : State} (h : t.calm = s.calm) (hr : Raised s.reports t.reports) : s.Spares t := by
  obtain ⟨-, hlink, hcal, hbank⟩ := State.calm_fields h
  obtain ⟨-, -, -, hres, hfil, -⟩ := Link0.quiet_fields hlink
  have hst := (State.Carries.of_calm h hr).stays
  exact ⟨hst.link, hst.fills, hres, hfil, hcal, hbank⟩

theorem State.Spares.of_quiet {s t : State} (h : t.quiet = s.quiet) (hr : Raised s.reports t.reports) : s.Spares t :=
  .of_calm (State.calm_of_quiet h) hr

/-- Lanes, link 0 and the tables committed by bank are as they were. -/
theorem State.Spares.of_eq {s t : State} (hl : t.lanes = s.lanes) (hk : t.link0 = s.link0)
    (hc : t.calTable = s.calTable) (hb : t.bankTable = s.bankTable) : s.Spares t :=
  ⟨fun b => by rw [hl], fun h => by unfold State.FillsKept; rw [hl, hk]; exact h, by rw [hk], by rw [hk], hc, hb⟩

/-- Link 0 changes, but neither its response slots nor, for the worse, its fills. -/
theorem State.Spares.of_link0 {s t : State} (hl : t.lanes = s.lanes) (hr : t.link0.reserved = s.link0.reserved)
    (hf : t.link0.filled = s.link0.filled) (hc : t.calTable = s.calTable) (hb : t.bankTable = s.bankTable)
    (hq : s.link0.fifo.length ≤ 4 → t.link0.fifo.length ≤ 4) (hfits : s.link0.Fits → t.link0.Fits) : s.Spares t :=
  ⟨fun b => by rw [hl], fun ⟨h1, h2, h3⟩ => ⟨fun b => by rw [hl]; exact h1 b, hq h2, hfits h3⟩, hr, hf, hc, hb⟩

theorem State.foldl_spares {α : Type} (f : State → α → State) (h : ∀ (s : State) (a : α), s.Spares (f s a))
    (l : List α)
    (s : State) : s.Spares (l.foldl f s) :=
  List.foldlRecOn (motive := s.Spares) l f (.refl s) fun t ht a _ => ht.trans (h t a)

/-! ## The taking of a command -/

/-- The owner's reply to a command spares the part as above, but for the tables committed by bank, which it leaves with the
held COMMITs they had; or it is a COMMIT that is held. -/
structure State.Serves (s : State) (kind tag : Byte) (r : Reply) : Prop where
  link : ∀ b : Bank, r.state.lanes[b].link = s.lanes[b].link
  fills : s.FillsKept → r.state.FillsKept
  reserved : r.state.link0.reserved = s.link0.reserved
  filled : r.state.link0.filled = s.link0.filled
  tables : s.calTable.HoldsWhileWaiting → s.bankTable.HoldsWhileWaiting →
    r.state.calTable.HoldsWhileWaiting ∧ r.state.bankTable.HoldsWhileWaiting
    ∧ List.Perm (match r.answer with | some _ => s.heldSlots | none => s.heldSlots ++ [{ tag := tag, kind := kind }])
        r.state.heldSlots

theorem State.Spares.serves {s : State} {kind tag : Byte} {r : Reply} (h : s.Spares r.state) {x : Status × Answer}
    (ha : r.answer = some x) : s.Serves kind tag r := by
  refine ⟨h.link, h.fills, h.reserved, h.filled, fun hc hb => ⟨h.cal ▸ hc, h.bank ▸ hb, ?_⟩⟩
  rw [ha, State.heldSlots, State.heldSlots, h.cal, h.bank]

theorem State.reply_serves {kind tag : Byte} {s t : State} (h : s.Spares t) (st : Status) :
    s.Serves kind tag (t.reply st) := State.Spares.serves h rfl

theorem State.replyWith_serves {kind tag : Byte} {s t : State} (h : s.Spares t) (st : Status) (a : Answer) :
    s.Serves kind tag (t.replyWith st a) := State.Spares.serves h rfl

theorem State.popCommand_spares (s : State) : s.Spares s.popCommand :=
  .of_link0 rfl rfl rfl rfl rfl (fun h => by
    show s.link0.fifo.tail.length ≤ 4
    rw [List.length_tail]; omega) id

/-- The reply of a served command fills or reserves its slot, of which one was free (R160 to R162). -/
theorem State.Serves.fillSlot_stays {s : State} {kind tag : Byte} {r : Reply} (h : s.Serves kind tag r)
    (hfree : s.link0.reserved.length + s.link0.filled.length < 8) :
    s.Stays (r.state.fillSlot tag kind r.answer) := by
  refine ⟨fun b => ?_, fun hf => ?_, fun ⟨_, hp, hc, hb⟩ => ?_⟩
  · rw [← h.link b]; cases r.answer <;> rfl
  · have := h.fills hf
    cases r.answer <;> exact this
  · obtain ⟨hc', hb', hperm⟩ := h.tables hc hb
    rw [← h.reserved] at hp hfree
    rw [← h.filled] at hfree
    cases hr : r.answer with
    | none =>
      rw [hr] at hperm
      refine ⟨?_, ?_, hc', hb'⟩
      · simp only [State.fillSlot, State.onLink0_fields, List.length_append, List.length_singleton]
        omega
      · exact (hp.append_right _).trans hperm
    | some a =>
      rw [hr] at hperm
      refine ⟨?_, hp.trans hperm, hc', hb'⟩
      simp only [State.fillSlot, State.onLink0_fields, List.length_append, List.length_singleton]
      omega

/-- A command whose owner serves it is taken, or changes nothing. -/
theorem State.take_moves {s t : State} {kind tag : Byte} {payload : List Byte} {len : Nat} {run : State → Reply}
    (hrun : ∀ u : State, u.Serves kind tag (run u)) (h : s.take kind tag payload len run = .next t) : s.Moves t := by
  unfold State.take at h
  split at h
  · rename_i hc
    cases h
    obtain ⟨_, hfree, _⟩ := (s.canTake_iff_ready kind tag payload).1 hc
    have hserve : s.popCommand.Serves kind tag (s.popCommand.replyTo payload len run) := by
      unfold State.replyTo
      split
      · exact hrun _
      · exact State.reply_serves (.refl _) _
    exact (s.popCommand_spares.stays.trans (hserve.fillSlot_stays hfree)).moves
  · cases h; exact (State.Stays.refl s).moves

end Sys2Proof.Machine
end

