-- ==== Sys2Proof/Proofs/Tables.lean ====
section
/-! Tables. -/

namespace Sys2Proof.Machine

/-! ## Tables -/

theorem Staged.held_of_not_waiting {α : Type} {n : Nat} {t : Staged α n 6} (h : t.HoldsWhileWaiting)
    (hs : t.state ≠ .committing) : t.held = none ∧ t.waiting = [] := by
  obtain ⟨hheld, hstate, -⟩ := h
  have hw : t.waiting = [] := by_contra fun hw => hs (hstate.2 hw)
  exact ⟨by simpa [hw] using hheld, hw⟩

theorem Staged.not_committing_of_commitable {α : Type} {n m : Nat} {t : Staged α n m} (h : t.commitable = true) :
    t.state ≠ .committing := by
  intro hs; simp [Staged.commitable, hs] at h

/-- A commit by bank holds its COMMIT just when banks wait (R150). -/
theorem Staged.commitByBank_holds {α : Type} {n : Nat} {t : Staged α n 6} (h : t.HoldsWhileWaiting)
    (hc : t.commitable = true) (now : List (Fin n)) (waiting : List Bank) (tag : Byte) :
    (t.commitByBank now waiting tag).HoldsWhileWaiting
    ∧ (t.commitByBank now waiting tag).held = if waiting = [] then none else some tag := by
  obtain ⟨hheld, hwait⟩ := Staged.held_of_not_waiting h (Staged.not_committing_of_commitable hc)
  unfold Staged.commitByBank Staged.HoldsWhileWaiting
  split
  · rename_i hw; simp [Staged.copyEntries, hheld, hwait]
  · rename_i hw; simp [hw]

/-- A table that keeps its held COMMIT, its waiting set and whether it is COMMITTING or DEFERRED. -/
theorem Staged.HoldsWhileWaiting.congr {α : Type} {n : Nat} {t t' : Staged α n 6} (h : t.HoldsWhileWaiting)
    (hheld : t'.held = t.held) (hwait : t'.waiting = t.waiting)
    (hcom : t'.state = .committing ↔ t.state = .committing) (hdef : t'.state = .deferred → t.state = .deferred) :
    t'.HoldsWhileWaiting := by
  obtain ⟨h1, h2, h3⟩ := h
  exact ⟨by rw [hheld, hwait]; exact h1, by rw [hcom, hwait]; exact h2, fun hd => h3 (hdef hd)⟩

theorem Staged.write_holds {α : Type} {n : Nat} {t : Staged α n 6} (h : t.HoldsWhileWaiting) (i : Fin n) (e : α) :
    (t.write i e).HoldsWhileWaiting := by
  refine h.congr rfl rfl ?_ ?_ <;> cases hs : t.state <;> simp [Staged.write, hs]

theorem Staged.discard_holds {α : Type} {n : Nat} {t : Staged α n 6} (h : t.HoldsWhileWaiting) (w : Fin n → Bool) :
    (t.discard w).HoldsWhileWaiting ∧ (t.discard w).held = t.held := by
  cases hs : t.state
  all_goals
    simp only [Staged.discard, hs]
    refine ⟨h.congr rfl rfl ?_ ?_, ?_⟩
  all_goals simp [hs]

/-- The tables committed by bank change, with the same COMMITs held. -/
theorem State.Serves.of_tables {s : State} {kind tag : Byte} {r : Reply} {x : Status × Answer}
    (ha : r.answer = some x) (hl : r.state.lanes = s.lanes) (hk : r.state.link0 = s.link0)
    (ht : s.calTable.HoldsWhileWaiting → s.bankTable.HoldsWhileWaiting →
      r.state.calTable.HoldsWhileWaiting ∧ r.state.bankTable.HoldsWhileWaiting)
    (hheld : r.state.calTable.held = s.calTable.held ∧ r.state.bankTable.held = s.bankTable.held) :
    s.Serves kind tag r := by
  refine ⟨fun b => by rw [hl], fun h => ?_, by rw [hk], by rw [hk], fun hc hb => ?_⟩
  · unfold State.FillsKept; rw [hl, hk]; exact h
  · rw [ha, State.heldSlots, State.heldSlots, hheld.1, hheld.2]
    exact ⟨(ht hc hb).1, (ht hc hb).2, .refl _⟩

theorem State.writeBank_serves (s : State) (kind tag : Byte) (k : Nat) (area : List Byte) :
    s.Serves kind tag (s.writeBank k area) := by
  unfold State.writeBank
  repeat' split
  · exact .of_tables rfl rfl rfl (fun hc hb => ⟨hc, Staged.write_holds hb _ _⟩) ⟨rfl, rfl⟩
  all_goals exact State.reply_serves (.refl s) _

theorem State.writeCal_serves (s : State) (kind tag : Byte) (k : Nat) (area : List Byte) :
    s.Serves kind tag (s.writeCal k area) := by
  unfold State.writeCal
  dsimp only
  repeat' split
  · exact State.reply_serves (.refl s) _
  · exact .of_tables rfl rfl rfl (fun hc hb => ⟨Staged.write_holds hc _ _, hb⟩) ⟨rfl, rfl⟩
  all_goals exact State.reply_serves (.refl s) _

theorem State.writeEntry_serves (s : State) (kind tag : Byte) (t : TableId) (k : Nat) (area : List Byte) :
    s.Serves kind tag (s.writeEntry t k area) := by
  cases t
  case bank => exact s.writeBank_serves kind tag k area
  case calibration => exact s.writeCal_serves kind tag k area
  all_goals
    simp only [State.writeEntry, State.writeOutlet, State.writePhase, State.writeGroup, State.writeGrant,
      State.writeSystem]
    repeat' split
  all_goals exact State.Spares.serves (.of_eq rfl rfl rfl rfl) rfl

theorem State.discardTable_serves (s : State) (kind tag : Byte) (t : TableId) :
    s.Serves kind tag (s.discardTable t) := by
  cases t
  case bank =>
    exact .of_tables rfl rfl rfl (fun hc hb => ⟨hc, (Staged.discard_holds hb _).1⟩) ⟨rfl, by
      cases hs : s.bankTable.state <;> simp [State.discardTable, State.reply, Staged.discard, hs]⟩
  case calibration =>
    exact .of_tables rfl rfl rfl (fun hc hb => ⟨(Staged.discard_holds hc _).1, hb⟩) ⟨by
      cases hs : s.calTable.state <;> simp [State.discardTable, State.reply, Staged.discard, hs], rfl⟩
  all_goals exact State.Spares.serves (.of_eq rfl rfl rfl rfl) rfl

theorem State.commitOutlets_serves (s : State) (kind tag : Byte) : s.Serves kind tag s.commitOutlets := by
  have happly : ∀ l : List Outlet, s.Spares (l.foldl State.applyOutlet s) := fun l =>
    State.foldl_spares _ (fun u o => .of_quiet (u.applyOutlet_quiet o) (u.applyOutlet_raised o (.refl _))) l s
  have htable : ∀ (u : State) (t : Staged OutletEntry 48 48), u.Spares { u with outletTable := t } := fun u t =>
    .of_eq rfl rfl rfl rfl
  unfold State.commitOutlets
  dsimp only
  split
  · exact State.reply_serves ((happly _).trans (htable _ _)) _
  · exact State.replyWith_serves ((happly _).trans (htable _ _)) _ _

theorem State.commitGroups_serves (s : State) (kind tag : Byte) : s.Serves kind tag s.commitGroups := by
  have happly : ∀ l : List Group, s.Spares (s.applyGroups l) := fun l =>
    .of_quiet (s.applyGroups_quiet l) (s.applyGroups_raised l (.refl _))
  have htable : ∀ (u : State) (t : Staged GroupEntry 32 32), u.Spares { u with groupTable := t } := fun u t =>
    .of_eq rfl rfl rfl rfl
  unfold State.commitGroups
  dsimp only
  split
  · exact State.replyWith_serves (.refl s) _ _
  · split
    · exact State.reply_serves ((happly _).trans (htable _ _)) _
    · exact State.replyWith_serves ((happly _).trans (htable _ _)) _ _

theorem State.alignPhase_spares (s : State) (p : SupplyPhase) : s.Spares (s.alignPhase p) := by
  unfold State.alignPhase
  dsimp only
  repeat' split
  all_goals exact .of_eq rfl rfl rfl rfl

theorem State.commitPhases_serves (s : State) (kind tag : Byte) : s.Serves kind tag s.commitPhases := by
  have htable : s.Spares { s with phaseTable := s.phaseTable.applyAll } := .of_eq rfl rfl rfl rfl
  exact State.reply_serves (htable.trans (State.foldl_spares _ State.alignPhase_spares _ _)) _

theorem State.commitGrants_serves (s : State) (kind tag : Byte) : s.Serves kind tag s.commitGrants := by
  unfold State.commitGrants
  split
  · exact State.replyWith_serves (.refl s) _ _
  · exact State.Spares.serves (.of_eq rfl rfl rfl rfl) rfl

theorem State.commitSystem_serves (s : State) (kind tag : Byte) : s.Serves kind tag s.commitSystem :=
  State.Spares.serves (.of_eq rfl rfl rfl rfl) rfl

/-- The COMMIT of a table by bank is answered, or held with its tag (R150, R162). -/
theorem State.replyByBank_serves {s t : State} {tag : Byte} {waiting : List Bank} (hl : t.lanes = s.lanes)
    (hk : t.link0 = s.link0)
    (ht : s.calTable.HoldsWhileWaiting → s.bankTable.HoldsWhileWaiting →
      t.calTable.HoldsWhileWaiting ∧ t.bankTable.HoldsWhileWaiting ∧
      List.Perm (s.heldSlots ++ if waiting = [] then [] else [{ tag := tag, kind := 0x03 }]) t.heldSlots) :
    s.Serves 0x03 tag (t.replyByBank waiting) := by
  have hr : (t.replyByBank waiting).state = t := by unfold State.replyByBank; split <;> rfl
  refine ⟨fun b => by rw [hr, hl], fun h => ?_, by rw [hr, hk], by rw [hr, hk], fun hc hb => ?_⟩
  · rw [hr]; unfold State.FillsKept; rw [hl, hk]; exact h
  · rw [hr]
    obtain ⟨hc', hb', hp⟩ := ht hc hb
    refine ⟨hc', hb', ?_⟩
    unfold State.replyByBank
    split at hp
    · rename_i hw; simpa [hw, State.reply] using hp
    · rename_i hw; simpa [hw] using hp

theorem State.commitCal_serves (s : State) (tag : Byte) (hc : s.calTable.commitable = true) :
    s.Serves 0x03 tag (s.commitCal tag) := by
  unfold State.commitCal
  refine State.replyByBank_serves rfl rfl fun hcal hbank => ?_
  obtain ⟨h1, h2⟩ := Staged.commitByBank_holds hcal hc
    (s.calTable.changedEntries.filter fun i => !s.isUp (bankOfCal i))
    (allBanks.filter fun b => s.isUp b && s.calTable.changedEntries.any fun i => bankOfCal i == b) tag
  refine ⟨h1, hbank, ?_⟩
  rw [State.heldSlots, State.heldSlots, h2,
    (Staged.held_of_not_waiting hcal (Staged.not_committing_of_commitable hc)).1]
  split
  · simp
  · simp

theorem State.commitBanks_serves (s : State) (tag : Byte) (hc : s.bankTable.commitable = true) :
    s.Serves 0x03 tag (s.commitBanks tag) := by
  unfold State.commitBanks
  refine State.replyByBank_serves rfl rfl fun hcal hbank => ?_
  obtain ⟨h1, h2⟩ := Staged.commitByBank_holds hbank hc (s.bankTable.changedEntries.filter fun b => !s.isUp b)
    (s.bankTable.changedEntries.filter fun b => s.isUp b) tag
  refine ⟨hcal, h1, ?_⟩
  rw [State.heldSlots, State.heldSlots, h2,
    (Staged.held_of_not_waiting hbank (Staged.not_committing_of_commitable hc)).1]
  split <;> simp

theorem State.commitTable_serves (s : State) (t : TableId) (tag : Byte) :
    s.Serves 0x03 tag (s.commitTable t tag) := by
  have hbusy : ∀ st : Status, s.Serves 0x03 tag (s.reply st) := fun st => State.reply_serves (.refl s) st
  cases t
  all_goals
    simp only [State.commitTable]
    split
  case outlet.isTrue => exact s.commitOutlets_serves _ tag
  case bank.isTrue hc => exact s.commitBanks_serves tag hc
  case phase.isTrue => exact s.commitPhases_serves _ tag
  case calibration.isFalse =>
    split
    · rename_i hc; exact s.commitCal_serves tag hc
    · exact hbusy _
  case group.isTrue => exact s.commitGroups_serves _ tag
  case grant.isTrue => exact s.commitGrants_serves _ tag
  case system.isTrue => exact s.commitSystem_serves _ tag
  all_goals exact hbusy _

end Sys2Proof.Machine
end

