-- ==== Sys2Proof/Proofs/Exec.lean ====
section
/-! Every command. -/

namespace Sys2Proof.Machine

/-! ## Timers and intervals -/

theorem State.Spares.moves {s t : State} (h : s.Spares t) : s.Moves t := h.stays.moves

theorem State.Moves.refl (s : State) : s.Moves s := (State.Stays.refl s).moves

/-- A command that, when its condition holds, spares the part, and else changes nothing. -/
theorem moves_of_ite {s t u : State} {c : Prop} [Decidable c]
    (h : (if c then Host.Outcome.next u else .next s : Result) = .next t) (hu : c → s.Spares u) : s.Moves t := by
  split at h
  · rename_i hc
    obtain ⟨rfl⟩ := Host.Outcome.next.inj h
    exact (hu hc).moves
  · cases h; exact .refl s

theorem State.closeInterval_spares (s : State) : s.Spares s.closeInterval := by
  have hevents : ∀ l : List Bank, s.Spares (l.foldl (fun t b => t.raiseEvent (s.intervalEvent b s.intervalEnd)) s) :=
    fun l => State.foldl_spares _ (fun u b => .of_quiet (u.raiseEvent_quiet _) (u.raiseEvent_raised _ (.refl _))) l s
  have hnext : ∀ (u : State) (v : IntervalClock), u.Spares { u.clearSums with interval := v } :=
    fun u v => by refine .of_eq ?_ ?_ ?_ ?_ <;> simp only [State.clearSums]
  have hgroups : ∀ (u : State) (p : Outlet → Option Int) (i : Outlet → Nat),
      u.Spares ((u.appendHistories p).verifyCurrent i) := fun u p i =>
    .of_quiet (by simp) (by simp)
  unfold State.closeInterval
  exact (hevents _).trans ((hnext _ _).trans (hgroups _ _ _))

theorem execIntervalClose_moves {s t : State} (h : execIntervalClose s = .next t) : s.Moves t :=
  moves_of_ite h fun _ => s.closeInterval_spares

theorem execShedTimerExpiry_moves (b : Bank) {s t : State} (h : execShedTimerExpiry b s = .next t) : s.Moves t :=
  moves_of_ite h fun _ => .of_quiet (by simp) (by simp)

theorem execRestoreTimerExpiry_moves (b : Bank) {s t : State} (h : execRestoreTimerExpiry b s = .next t) :
    s.Moves t :=
  moves_of_ite h fun _ => .of_quiet (by simp) (by simp)

theorem State.grantTurn_spares (s : State) : s.Spares s.grantTurn := by
  have htoken : ∀ (u : State) (p : SupplyPhase) (v : Vector (Option Outlet) 6),
      u.Spares { u.takeToken p with turnOn := v } := fun u p v => .of_eq rfl rfl rfl rfl
  have hissue : ∀ (u : State) (o : Outlet), u.Spares (u.issue o .close) := fun u o =>
    .of_quiet (by simp) (by simp)
  unfold State.grantTurn
  split
  · exact .refl s
  · split
    · exact .refl s
    · exact (htoken _ _ _).trans (hissue _ _)

theorem execDispatchOpportunity_moves {s t : State} (h : execDispatchOpportunity s = .next t) : s.Moves t := by
  have hopens : s.Spares s.issueOpens := .of_quiet (by simp) (by simp)
  have hmark : ∀ u : State, u.Spares { u with grantPtr := u.grantPtr + 1, opportunityTaken := true } := fun u =>
    .of_eq rfl rfl rfl rfl
  exact moves_of_ite h fun _ => (hopens.trans (State.grantTurn_spares _)).trans (hmark _)

theorem execSettleTimerExpiry_moves (b : Bank) {s t : State} (h : execSettleTimerExpiry b s = .next t) : s.Moves t :=
  moves_of_ite h fun _ => .of_eq rfl rfl rfl rfl

theorem execRefillTimerExpiry_moves (p : SupplyPhase) {s t : State} (h : execRefillTimerExpiry p s = .next t) :
    s.Moves t :=
  moves_of_ite h fun _ => .of_eq rfl rfl rfl rfl

theorem execGrantTimeout_moves (o : Outlet) {s t : State} (h : execGrantTimeout o s = .next t) : s.Moves t := by
  unfold execGrantTimeout at h
  split at h
  · cases h; exact .refl s
  · exact moves_of_ite h fun _ => .of_quiet (by simp) (by simp)

theorem execDwellExpiry_moves (g : Group) {s t : State} (h : execDwellExpiry g s = .next t) : s.Moves t :=
  moves_of_ite h fun _ => .of_quiet (by simp) (by simp)

theorem execStaggerExpiry_moves (g : Group) {s t : State} (h : execStaggerExpiry g s = .next t) : s.Moves t :=
  moves_of_ite h fun _ => .of_quiet (by simp) (by simp)

theorem execBootWindowExpiry_moves (g : Group) {s t : State} (h : execBootWindowExpiry g s = .next t) :
    s.Moves t := by
  have hretry : s.Spares (s.retryOp g) := .of_quiet (by simp) (by simp)
  have hfail : s.Spares (s.failOp g .noBoot) := .of_quiet (by simp) (by simp)
  unfold execBootWindowExpiry at h
  split at h
  · split at h <;> (obtain ⟨rfl⟩ := Host.Outcome.next.inj h)
    · exact hretry.moves
    · exact hfail.moves
  · cases h; exact .refl s

theorem execDeadlineExpiry_moves (g : Group) {s t : State} (h : execDeadlineExpiry g s = .next t) : s.Moves t :=
  moves_of_ite h fun _ => .of_quiet (by split <;> simp) (by split <;> simp)

theorem execGraceExpiry_moves (g : Group) {s t : State} (h : execGraceExpiry g s = .next t) : s.Moves t :=
  moves_of_ite h fun _ => .of_quiet (by simp) (by simp)

theorem execBudgetWindowExpiry_moves (g : Group) {s t : State} (h : execBudgetWindowExpiry g s = .next t) :
    s.Moves t :=
  moves_of_ite h fun _ => .of_eq rfl rfl rfl rfl

/-! ## Link 0 -/

theorem State.raiseLinkError_spares (s : State) (n : Nat) (r r' : ErrorRecord) (k : ErrorKind) :
    s.Spares (s.raiseLinkError n r r' k) :=
  .of_quiet (s.raiseLinkError_quiet n r r' k) (s.raiseLinkError_raised n r r' k (.refl _))

theorem State.linkError_spares (s : State) (k : ErrorKind) (bytes : List Byte) : s.Spares (s.linkError k bytes) := by
  have hrecord : ∀ r : ErrorRecord, s.Spares (s.onLink0 fun l => { l with errors := r }) := fun r =>
    .of_link0 rfl rfl rfl rfl rfl id id
  unfold State.linkError
  exact (hrecord _).trans (State.raiseLinkError_spares _ _ _ _ _)

theorem State.offerCommand_spares (s : State) (c : CommandCell) (bytes : List Byte) :
    s.Spares (s.offerCommand c bytes) := by
  unfold State.offerCommand
  split
  · rename_i hroom
    exact .of_link0 rfl rfl rfl rfl rfl (fun _ => by
      simp only [State.onLink0_fields, List.length_append, List.length_singleton]; exact hroom) id
  · exact s.linkError_spares _ _

theorem execLink0CellReceived_moves (chars : List LineChar) {s t : State}
    (h : execLink0CellReceived chars s = .next t) : s.Moves t := by
  have hgap : s.Spares (s.onLink0 fun l => { l with framing := true, partialCell := [] }) :=
    .of_link0 rfl rfl rfl rfl rfl id id
  unfold execLink0CellReceived at h
  obtain ⟨rfl⟩ := Host.Outcome.next.inj h
  split
  · exact hgap.moves
  · split
    · exact (hgap.trans (State.linkError_spares _ _ _)).moves
    · exact (hgap.trans (State.offerCommand_spares _ _ _)).moves

theorem execLink0Break_moves (chars : List LineChar) {s t : State} (h : execLink0Break chars s = .next t) :
    s.Moves t := by
  have hflush : s.Spares (s.onLink0 fun l => { l with fifo := [], framing := false, partialCell := [] }) :=
    .of_link0 rfl rfl rfl rfl rfl (fun _ => Nat.zero_le _) id
  cases h
  exact (hflush.trans (State.linkError_spares _ _ _)).moves

/-- The moving of notices leaves all of the part alone but notifier and notice queue. -/
theorem State.onReports_fillNotices_spares (s : State) (n : Notifier) :
    s.Spares (s.onReports fun x => fillNotices (n, x.2)) := by
  have hq := fillNotices_quiet (n, s.link0)
  simp only [quietPair, Prod.mk.injEq] at hq
  obtain ⟨-, -, hfifo, hres, hfil, -⟩ := Link0.quiet_fields hq.2
  exact .of_link0 rfl hres hfil rfl rfl (fun h => hfifo ▸ h) (fillNotices_fits (n, s.link0))

theorem State.startUpstream_stays (s : State) : s.Stays s.startUpstream := by
  unfold State.startUpstream
  split
  · rename_i r rest hfil
    refine ⟨fun _ => rfl, id, fun ⟨hl, hp, hc, hb⟩ => ⟨?_, hp, hc, hb⟩⟩
    rw [hfil] at hl
    show s.link0.reserved.length + rest.length ≤ 8
    simp only [List.length_cons] at hl
    omega
  · rename_i n rest _ _
    have hstart : s.Spares (s.onLink0 fun l => { l with notices := rest, line := some n.bytes }) :=
      .of_link0 rfl rfl rfl rfl rfl id id
    exact (hstart.trans (State.onReports_fillNotices_spares _ s.notifier)).stays
  · rename_i r rest _ _ hrec
    have hstart : s.Spares (s.startRecord r rest) := .of_link0 rfl rfl rfl rfl rfl id fun ⟨hl, _⟩ => by
      rw [hrec] at hl
      exact ⟨Nat.le_of_succ_le hl, Nat.zero_le _⟩
    exact hstart.stays
  · have hidle : s.Spares (s.onLink0 fun l => { l with line := none }) := .of_link0 rfl rfl rfl rfl rfl id id
    exact hidle.stays

theorem execUpstreamCellStart_moves {s t : State} (h : execUpstreamCellStart s = .next t) : s.Moves t := by
  unfold execUpstreamCellStart at h
  split at h <;> cases h
  · exact .refl s
  · exact s.startUpstream_stays.moves

theorem execHoldInChange_moves (asserted : Bool) {s t : State} (h : execHoldInChange asserted s = .next t) :
    s.Moves t := by
  have hpin : s.Spares { s with holdIn := asserted } := .of_eq rfl rfl rfl rfl
  cases h
  exact hpin.moves

/-! ## Safe control and restarts -/

theorem State.enterSafe_spares (s : State) (c : SafeCause) : s.Spares (s.enterSafe c) := by
  have hset : ∀ (u : State) (v : SafeControl), u.Spares { u with safe := v } := fun u v => .of_eq rfl rfl rfl rfl
  have hwithdraw : ∀ u : State, u.Spares (u.withdraw QueueEntry.notSafeOrShed) := fun u =>
    .of_quiet (by simp) (by simp)
  have hrequest : ∀ u : State, u.Spares u.requestSafe.2 := fun u =>
    .of_quiet u.requestSafe_quiet (u.requestSafe_raised (.refl _))
  have hraise : ∀ (u : State) (d : Detail), u.Spares (u.raise .safeEntered 0 d) := fun u d =>
    .of_quiet (u.raise_quiet _ _ _) (u.raise_raised _ _ _ (.refl _))
  have hends : ∀ u : State, u.Spares u.groupsSafe.monitorsOffline.refreshAllSheds := fun u =>
    .of_quiet (by simp)
      (State.refreshAllSheds_raised _ (State.monitorsOffline_raised _ (u.groupsSafe_raised (.refl _))))
  unfold State.enterSafe
  dsimp only
  exact (hset _ _).trans ((hwithdraw _).trans ((hrequest _).trans ((hset _ _).trans ((hraise _ _).trans (hends _)))))

theorem State.enterSafeOnce_spares (s : State) (c : SafeCause) : s.Spares (s.enterSafeOnce c) := by
  unfold State.enterSafeOnce
  split
  · exact .refl s
  · exact s.enterSafe_spares c

theorem execSafePinChange_moves (asserted : Bool) {s t : State} (h : execSafePinChange asserted s = .next t) :
    s.Moves t := by
  have hpin : ∀ x : Bool, s.Spares { s with safePin := x } := fun x => .of_eq rfl rfl rfl rfl
  unfold execSafePinChange at h
  split at h
  · cases h; exact .refl s
  · split at h <;> (obtain ⟨rfl⟩ := Host.Outcome.next.inj h)
    · exact ((hpin _).trans (State.enterSafeOnce_spares _ _)).moves
    · exact (hpin _).moves

theorem State.safeByPin_spares (s : State) : s.Spares s.safeByPin := by
  unfold State.safeByPin
  split
  · exact s.enterSafe_spares _
  · exact .refl s

theorem State.showModes_spares (s : State) : s.Spares s.showModes := by
  have hshown : ∀ v : Vector (Vector Mode 8) 6, s.Spares { s with shown := v } := fun v => .of_eq rfl rfl rfl rfl
  unfold State.showModes
  exact (hshown _).trans (State.foldl_spares _ (fun u b => .of_quiet (by simp) (by simp)) _ _)

/-- A restart empties link 0's queues and leaves every lane's link state and FIFO; with no COMMIT held after it the
promises hold. -/
theorem State.restarted_stays {s t : State} {c : RestartCause} {k : Bool}
    (hl : ∀ b : Bank, t.lanes[b].link = s.lanes[b].link ∧ t.lanes[b].fifo = s.lanes[b].fifo)
    (hk : t.link0 = s.link0.restarted c k)
    (ht : s.SlotsKept → (t.calTable.HoldsWhileWaiting ∧ t.calTable.held = none)
      ∧ t.bankTable.HoldsWhileWaiting ∧ t.bankTable.held = none) : s.Stays t := by
  refine ⟨fun b => (hl b).1, fun ⟨h1, _, _⟩ => ⟨fun b => (hl b).2 ▸ h1 b, ?_⟩, fun hs => ?_⟩
  · rw [hk]; simp [Link0.restarted]
  · obtain ⟨⟨hc, hc'⟩, hb, hb'⟩ := ht hs
    refine ⟨by simp [hk, Link0.restarted], ?_, hc, hb⟩
    simp [hk, Link0.restarted, State.heldSlots, hc', hb']

/-- At RESTART_ENGINE what waits applies, and no COMMIT is held. -/
theorem Staged.restartBanks_holds {α : Type} {n : Nat} {t : Staged α n 6} (h : t.HoldsWhileWaiting)
    (f : Bank → List (Fin n)) : (t.restartBanks f).HoldsWhileWaiting ∧ (t.restartBanks f).held = none := by
  have hnone : t.state ≠ .committing → t.HoldsWhileWaiting ∧ t.held = none := fun hs =>
    ⟨h, (Staged.held_of_not_waiting h hs).1⟩
  unfold Staged.restartBanks
  split
  · simp [Staged.HoldsWhileWaiting]
  all_goals rename_i hs; exact hnone (by simp [hs])

theorem Staged.ofActive_holds {α : Type} {n : Nat} (v : Vector α n) :
    (Staged.ofActive v : Staged α n 6).HoldsWhileWaiting ∧ (Staged.ofActive v : Staged α n 6).held = none := by
  simp [Staged.HoldsWhileWaiting, Staged.ofActive]

theorem State.restartEngine_stays (s : State) : s.Stays s.restartEngine := by
  unfold State.restartEngine
  dsimp only
  refine .trans (State.restarted_stays (c := .restartEngine) (k := true) (fun b => ?_) rfl fun hs => ?_)
    (State.showModes_spares _).stays
  · simp [Lane.restart]
  · exact ⟨Staged.restartBanks_holds hs.2.2.1 _, Staged.restartBanks_holds hs.2.2.2 _⟩

theorem State.restartAll_stays (s : State) : s.Stays s.restartAll := by
  unfold State.restartAll
  refine .trans (.trans (State.restarted_stays (c := .restartAll) (k := false) (fun b => ?_) rfl fun hs => ?_)
    (State.showModes_spares _).stays) (State.safeByPin_spares _).stays
  · simp [Lane.restart]
  · refine ⟨?_, Staged.ofActive_holds _⟩
    simp only [State.resetBlocks, State.defaultTables]
    split
    · simp [Staged.HoldsWhileWaiting]
    · exact Staged.ofActive_holds _

theorem execRestartTakesEffect_moves {s t : State} (h : execRestartTakesEffect s = .next t) : s.Moves t := by
  unfold execRestartTakesEffect at h
  split at h
  · cases h; exact .refl s
  · split at h
    · obtain ⟨rfl⟩ := Host.Outcome.next.inj h
      split
      · exact s.restartEngine_stays.moves
      · exact s.restartAll_stays.moves
    · cases h; exact .refl s

/-! ## Commands of link 0 -/

theorem execUnknownCommand_moves (kind tag : Byte) (payload : List Byte) {s t : State}
    (h : execUnknownCommand kind tag payload s = .next t) : s.Moves t := by
  unfold execUnknownCommand at h
  split at h
  · cases h; exact .refl s
  · exact State.take_moves (fun u => State.reply_serves (.refl u) _) h

theorem execReadEntry_moves (tag : Byte) (payload : List Byte) {s t : State}
    (h : execReadEntry tag payload s = .next t) : s.Moves t := by
  refine State.take_moves (fun u => ?_) h
  repeat' split
  all_goals exact State.Spares.serves (.refl u) rfl

theorem execWriteEntry_moves (tag : Byte) (payload : List Byte) {s t : State}
    (h : execWriteEntry tag payload s = .next t) : s.Moves t := by
  refine State.take_moves (fun u => ?_) h
  split
  · exact State.reply_serves (.refl u) _
  · exact u.writeEntry_serves _ _ _ _ _

theorem execDiscard_moves (tag : Byte) (payload : List Byte) {s t : State}
    (h : execDiscard tag payload s = .next t) : s.Moves t := by
  refine State.take_moves (fun u => ?_) h
  split
  · exact State.reply_serves (.refl u) _
  · exact u.discardTable_serves _ _ _

theorem execCommit_moves (tag : Byte) (payload : List Byte) {s t : State}
    (h : execCommit tag payload s = .next t) : s.Moves t := by
  refine State.take_moves (fun u => ?_) h
  split
  · exact State.reply_serves (.refl u) _
  · exact u.commitTable_serves _ tag

theorem execLockCal_moves (tag : Byte) (payload : List Byte) {s t : State}
    (h : execLockCal tag payload s = .next t) : s.Moves t := by
  refine State.take_moves (fun u => ?_) h
  repeat' split
  all_goals exact State.Spares.serves (.of_eq rfl rfl rfl rfl) rfl

/-- A reply with a state of the same quiet part, made with events alone. -/
theorem State.reply_serves_of_quiet {s u : State} {kind tag : Byte} (st : Status) (h : u.quiet = s.quiet)
    (hr : Raised s.reports u.reports) : s.Serves kind tag (u.reply st) := State.reply_serves (.of_quiet h hr) st

theorem execSwitch_moves (tag : Byte) (payload : List Byte) {s t : State}
    (h : execSwitch tag payload s = .next t) : s.Moves t := by
  refine State.take_moves (fun u => ?_) h
  split
  · rename_i o a _ _
    unfold State.switchOutlet
    dsimp only
    repeat' split
    all_goals first
      | exact State.reply_serves (.refl u) _
      | exact State.reply_serves_of_quiet _ (by simp) (by simp)
  · exact State.reply_serves (.refl u) _
  · exact State.reply_serves (.refl u) _

theorem execClearFault_moves (tag : Byte) (payload : List Byte) {s t : State}
    (h : execClearFault tag payload s = .next t) : s.Moves t := by
  refine State.take_moves (fun u => ?_) h
  repeat' split
  · exact State.reply_serves (.refl u) _
  · exact State.reply_serves_of_quiet _ (by simp) (by simp)
  · exact State.reply_serves (.refl u) _

theorem execClearEnergy_moves (tag : Byte) (payload : List Byte) {s t : State}
    (h : execClearEnergy tag payload s = .next t) : s.Moves t := by
  have hmeters : ∀ (u : State) (v : Vector OutletMeter 48), u.Spares { u with outlets := v } := fun u v =>
    .of_eq rfl rfl rfl rfl
  refine State.take_moves (fun u => ?_) h
  repeat' split
  · exact State.reply_serves (hmeters u _) _
  · exact State.reply_serves (.refl u) _
  · exact State.reply_serves (hmeters u _) _

theorem execReadOutlet_moves (tag : Byte) (payload : List Byte) {s t : State}
    (h : execReadOutlet tag payload s = .next t) : s.Moves t := by
  refine State.take_moves (fun u => ?_) h
  split
  all_goals exact State.Spares.serves (.refl u) rfl

/-- A group command whose tests are passed acts by the group engine alone. -/
theorem execCycle_moves (tag : Byte) (payload : List Byte) {s t : State}
    (h : execCycle tag payload s = .next t) : s.Moves t := by
  refine State.take_moves (fun u => ?_) h
  split
  · exact State.reply_serves (.refl u) _
  · unfold State.cycleGroup
    dsimp only
    repeat' split
    all_goals exact State.reply_serves_of_quiet _ (by simp) (by simp)

theorem execGroupOff_moves (tag : Byte) (payload : List Byte) {s t : State}
    (h : execGroupOff tag payload s = .next t) : s.Moves t := by
  refine State.take_moves (fun u => ?_) h
  split
  · exact State.reply_serves (.refl u) _
  · unfold State.offGroup
    dsimp only
    repeat' split
    all_goals exact State.reply_serves_of_quiet _ (by simp) (by simp)

theorem execGroupOn_moves (tag : Byte) (payload : List Byte) {s t : State}
    (h : execGroupOn tag payload s = .next t) : s.Moves t := by
  refine State.take_moves (fun u => ?_) h
  split
  · exact State.reply_serves (.refl u) _
  · unfold State.onGroupPower
    dsimp only
    repeat' split
    all_goals exact State.reply_serves_of_quiet _ (by simp) (by simp)

@[simp] theorem State.cancelOffing_quiet (s : State) (g : Group) : (s.cancelOffing g).quiet = s.quiet := by
  simp [State.cancelOffing]

@[simp] theorem State.cancelOffing_raised {x : Notifier × Link0} (s : State) (g : Group) (h : Raised x s.reports) :
    Raised x (s.cancelOffing g).reports := by
  simp [State.cancelOffing, h]

theorem execCancel_moves (tag : Byte) (payload : List Byte) {s t : State}
    (h : execCancel tag payload s = .next t) : s.Moves t := by
  refine State.take_moves (fun u => ?_) h
  split
  · exact State.reply_serves (.refl u) _
  · unfold State.cancelGroup
    dsimp only
    repeat' split
    all_goals exact State.reply_serves_of_quiet _ (by simp) (by simp)

theorem execReadGroup_moves (tag : Byte) (payload : List Byte) {s t : State}
    (h : execReadGroup tag payload s = .next t) : s.Moves t := by
  refine State.take_moves (fun u => ?_) h
  split
  all_goals exact State.Spares.serves (.refl u) rfl

theorem execClearLockout_moves (tag : Byte) (payload : List Byte) {s t : State}
    (h : execClearLockout tag payload s = .next t) : s.Moves t := by
  refine State.take_moves (fun u => ?_) h
  split
  all_goals exact State.Spares.serves (.of_eq rfl rfl rfl rfl) rfl

theorem execToken_moves (tag : Byte) (payload : List Byte) {s t : State}
    (h : execToken tag payload s = .next t) : s.Moves t := by
  have htokens : ∀ u : State, u.Spares (u.takeTokens (tokenList payload)) := fun u => .of_quiet (by simp) (by simp)
  unfold execToken at h
  split at h
  · obtain ⟨rfl⟩ := Host.Outcome.next.inj h
    exact (s.popCommand_spares.trans (htokens _)).moves
  · cases h; exact .refl s

theorem execSetLevel_moves (tag : Byte) (payload : List Byte) {s t : State}
    (h : execSetLevel tag payload s = .next t) : s.Moves t := by
  refine State.take_moves (fun u => ?_) h
  repeat' split
  · exact State.reply_serves (.refl u) _
  · exact State.reply_serves (.refl u) _
  · rename_i k _ _
    exact State.reply_serves (u.onReports_fillNotices_spares (u.notifier.setLevel k (arg payload 1))) _

theorem execSetMask_moves (tag : Byte) (payload : List Byte) {s t : State}
    (h : execSetMask tag payload s = .next t) : s.Moves t := by
  refine State.take_moves (fun u => ?_) h
  split
  · exact State.reply_serves (.refl u) _
  · exact State.reply_serves (u.onReports_fillNotices_spares { u.notifier with mask := arg payload 0 }) _

theorem execBindStream_moves (tag : Byte) (payload : List Byte) {s t : State}
    (h : execBindStream tag payload s = .next t) : s.Moves t := by
  refine State.take_moves (fun u => ?_) h
  split
  · split
    · exact State.reply_serves (.refl u) _
    · dsimp only
      repeat' split
      all_goals exact State.Spares.serves (.of_eq rfl rfl rfl rfl) rfl
  · exact State.reply_serves (.refl u) _
  · exact State.reply_serves (.refl u) _

theorem execUnbindStream_moves (tag : Byte) (payload : List Byte) {s t : State}
    (h : execUnbindStream tag payload s = .next t) : s.Moves t := by
  refine State.take_moves (fun u => ?_) h
  repeat' split
  all_goals exact State.Spares.serves (.of_eq rfl rfl rfl rfl) rfl

theorem State.streamProduces_spares (s : State) (i : Stream) (b : Binding) (rs : List Record) :
    s.Spares (s.onReports fun x => streamProduces s.uptime i b rs x) := by
  have hq := streamProduces_quiet s.uptime i b rs (s.notifier, s.link0)
  simp only [quietPair, Prod.mk.injEq] at hq
  obtain ⟨-, -, hfifo, hres, hfil, -⟩ := Link0.quiet_fields hq.2
  exact .of_link0 rfl hres hfil rfl rfl (fun h => hfifo ▸ h) (streamProduces_fits _ _ _ _ (s.notifier, s.link0))

theorem execTriggerStream_moves (tag : Byte) (payload : List Byte) {s t : State}
    (h : execTriggerStream tag payload s = .next t) : s.Moves t := by
  refine State.take_moves (fun u => ?_) h
  repeat' split
  · exact State.reply_serves (.refl u) _
  · exact State.reply_serves (.refl u) _
  · unfold State.triggerBound
    repeat' split
    · exact State.reply_serves (.refl u) _
    · exact State.reply_serves (.refl u) _
    · exact State.reply_serves (u.streamProduces_spares _ _ _) _

theorem execCapture_moves (tag : Byte) (payload : List Byte) {s t : State}
    (h : execCapture tag payload s = .next t) : s.Moves t := by
  refine State.take_moves (fun u => ?_) h
  repeat' split
  all_goals exact State.Spares.serves (.of_eq rfl rfl rfl rfl) rfl

theorem execReadCapture_moves (tag : Byte) (payload : List Byte) {s t : State}
    (h : execReadCapture tag payload s = .next t) : s.Moves t := by
  refine State.take_moves (fun u => ?_) h
  dsimp only
  repeat' split
  all_goals exact State.Spares.serves (.refl u) rfl

theorem execForceSafe_moves (tag : Byte) (payload : List Byte) {s t : State}
    (h : execForceSafe tag payload s = .next t) : s.Moves t :=
  State.take_moves (fun u => State.reply_serves (u.enterSafeOnce_spares _) _) h

theorem State.leaveSafe_spares (s : State) : s.Spares s.leaveSafe := by
  have hleave : ∀ v : Vector Monitor 32, s.Spares { s with safe := { cause := none, followUp := [] }, monitors := v } :=
    fun v => .of_eq rfl rfl rfl rfl
  exact (hleave _).trans (.of_quiet (State.refreshAllSheds_quiet _) (State.refreshAllSheds_raised _ (.refl _)))

theorem execResume_moves (tag : Byte) (payload : List Byte) {s t : State}
    (h : execResume tag payload s = .next t) : s.Moves t := by
  refine State.take_moves (fun u => ?_) h
  split
  · exact State.reply_serves u.leaveSafe_spares _
  · exact State.reply_serves (.refl u) _

theorem execStatus_moves (tag : Byte) (payload : List Byte) {s t : State}
    (h : execStatus tag payload s = .next t) : s.Moves t :=
  State.take_moves (fun u => State.replyWith_serves (.refl u) _ _) h

theorem execRestart_moves (tag : Byte) (payload : List Byte) {s t : State}
    (h : execRestart tag payload s = .next t) : s.Moves t := by
  refine State.take_moves (fun u => ?_) h
  split
  · exact State.reply_serves (.refl u) _
  · exact State.Spares.serves (.of_link0 rfl rfl rfl rfl rfl id id) rfl

theorem execClearLinkErrors_moves (tag : Byte) (payload : List Byte) {s t : State}
    (h : execClearLinkErrors tag payload s = .next t) : s.Moves t := by
  have hclear : ∀ u : State, u.Spares u.clearLinkErrors := fun u => by
    refine ⟨fun b => ?_, fun ⟨h1, h2, h3⟩ => ⟨fun b => ?_, h2, h3⟩, rfl, rfl, rfl, rfl⟩
    · simp [State.clearLinkErrors]
    · simpa [State.clearLinkErrors] using h1 b
  exact State.take_moves (fun u => State.reply_serves (hclear u) _) h

end Sys2Proof.Machine
end

