-- ==== Sys2Proof/Proofs/Steps.lean ====
section
/-! The two promises. -/

namespace Sys2Proof.Machine

/-! ## Steps -/

/-- Every command but POWER_ON moves lanes by the table and keeps the promised fills and slots. -/
theorem exec_moves {c : Instr} {s t : State} (hc : c ≠ .powerOn) (h : exec c s = .next t) : s.Moves t := by
  cases c with
  | powerOn => exact absurd rfl hc
  | laneCharacter b c => exact execLaneCharacter_moves b c h
  | laneCellReceived b chars => exact execLaneCellReceived_moves b chars h
  | laneBreak b => exact execLaneBreak_moves b h
  | takeSampleCell b => exact execTakeSampleCell_moves b h
  | silenceTimerExpiry b => exact execSilenceTimerExpiry_moves b h
  | signalTimerExpiry b => exact execSignalTimerExpiry_moves b h
  | laneCellStart b => exact execLaneCellStart_moves b h
  | intervalClose => exact execIntervalClose_moves h
  | shedTimerExpiry b => exact execShedTimerExpiry_moves b h
  | restoreTimerExpiry b => exact execRestoreTimerExpiry_moves b h
  | dispatchOpportunity => exact execDispatchOpportunity_moves h
  | settleTimerExpiry b => exact execSettleTimerExpiry_moves b h
  | refillTimerExpiry p => exact execRefillTimerExpiry_moves p h
  | grantTimeout o => exact execGrantTimeout_moves o h
  | dwellExpiry g => exact execDwellExpiry_moves g h
  | staggerExpiry g => exact execStaggerExpiry_moves g h
  | bootWindowExpiry g => exact execBootWindowExpiry_moves g h
  | deadlineExpiry g => exact execDeadlineExpiry_moves g h
  | graceExpiry g => exact execGraceExpiry_moves g h
  | budgetWindowExpiry g => exact execBudgetWindowExpiry_moves g h
  | link0CellReceived chars => exact execLink0CellReceived_moves chars h
  | link0Break chars => exact execLink0Break_moves chars h
  | upstreamCellStart => exact execUpstreamCellStart_moves h
  | holdInChange asserted => exact execHoldInChange_moves asserted h
  | safePinChange asserted => exact execSafePinChange_moves asserted h
  | restartTakesEffect => exact execRestartTakesEffect_moves h
  | unknownCommand kind tag payload => exact execUnknownCommand_moves kind tag payload h
  | readEntry tag payload => exact execReadEntry_moves tag payload h
  | writeEntry tag payload => exact execWriteEntry_moves tag payload h
  | discard tag payload => exact execDiscard_moves tag payload h
  | commit tag payload => exact execCommit_moves tag payload h
  | lockCal tag payload => exact execLockCal_moves tag payload h
  | switch tag payload => exact execSwitch_moves tag payload h
  | clearFault tag payload => exact execClearFault_moves tag payload h
  | clearEnergy tag payload => exact execClearEnergy_moves tag payload h
  | readOutlet tag payload => exact execReadOutlet_moves tag payload h
  | cycle tag payload => exact execCycle_moves tag payload h
  | groupOff tag payload => exact execGroupOff_moves tag payload h
  | groupOn tag payload => exact execGroupOn_moves tag payload h
  | cancel tag payload => exact execCancel_moves tag payload h
  | readGroup tag payload => exact execReadGroup_moves tag payload h
  | clearLockout tag payload => exact execClearLockout_moves tag payload h
  | token tag payload => exact execToken_moves tag payload h
  | setLevel tag payload => exact execSetLevel_moves tag payload h
  | setMask tag payload => exact execSetMask_moves tag payload h
  | bindStream tag payload => exact execBindStream_moves tag payload h
  | unbindStream tag payload => exact execUnbindStream_moves tag payload h
  | triggerStream tag payload => exact execTriggerStream_moves tag payload h
  | capture tag payload => exact execCapture_moves tag payload h
  | readCapture tag payload => exact execReadCapture_moves tag payload h
  | forceSafe tag payload => exact execForceSafe_moves tag payload h
  | resume tag payload => exact execResume_moves tag payload h
  | status tag payload => exact execStatus_moves tag payload h
  | restart tag payload => exact execRestart_moves tag payload h
  | clearLinkErrors tag payload => exact execClearLinkErrors_moves tag payload h

theorem State.tick_spares (s : State) : s.Spares s.tick := by
  have hlanes : s.Spares { s with lanes := Vector.ofFn fun b => s.lanes[b].tick } := by
    refine ⟨fun b => ?_, fun ⟨h1, h2, h3⟩ => ⟨fun b => ?_, h2, h3⟩, rfl, rfl, rfl, rfl⟩
    · simp [Lane.tick]
    · simpa [Lane.tick] using h1 b
  have hclock : ∀ (u : State) (n : Nat) (v : Uptime) (x : Bool),
      u.Spares { u with subMs := n, uptime := v, opportunityTaken := x } := fun u n v x => .of_eq rfl rfl rfl rfl
  unfold State.tick
  dsimp only
  split
  · exact hlanes.trans (hclock _ _ _ _)
  · exact hlanes.trans (hclock _ _ _ _)

/-- A step whose command is not POWER_ON. -/
theorem step_moves {s t : State} (hp : s.pending.head? ≠ some .powerOn) (h : step s = .next t) : s.Moves t := by
  unfold step at h
  split at h
  · cases h; exact s.tick_spares.moves
  · rename_i c rest hq
    have hrest : s.Spares (s.withPending rest) := .of_eq rfl rfl rfl rfl
    exact hrest.stays.trans_moves (exec_moves (fun hc => hp (by rw [hq, hc]; rfl)) h)

/-- Power-on leaves the promised fills and slots, whatever they were before. -/
theorem execPowerOn_keeps {s t : State} (h : execPowerOn s = .next t) : t.FillsKept ∧ t.SlotsKept := by
  obtain ⟨rfl⟩ := Host.Outcome.next.inj h
  have hsafe := (State.safeByPin_spares
    { State.reset with pending := s.pending, safePin := s.safePin, holdIn := s.holdIn }).stays
  refine ⟨hsafe.fills ⟨fun b => ?_, ?_⟩, hsafe.slots ?_⟩
  · simp [State.reset, Lane.reset]
  · simp [State.reset, Link0.reset]
  · exact ⟨Nat.zero_le _, .refl _, (Staged.ofActive_holds _).1, (Staged.ofActive_holds _).1⟩

theorem step_keeps_fills_and_slots {s t : State} (h : step s = .next t) :
    (s.FillsKept → t.FillsKept) ∧ (s.SlotsKept → t.SlotsKept) := by
  by_cases hp : s.pending.head? = some .powerOn
  · obtain ⟨rest, hq⟩ : ∃ rest, s.pending = .powerOn :: rest := by
      cases hq : s.pending with
      | nil => rw [hq] at hp; cases hp
      | cons c rest => rw [hq] at hp; cases hp; exact ⟨rest, rfl⟩
    unfold step at h
    rw [hq] at h
    obtain ⟨hf, hs⟩ := execPowerOn_keeps h
    exact ⟨fun _ => hf, fun _ => hs⟩
  · have hm := step_moves hp h
    exact ⟨hm.fills, hm.slots⟩

/-- Settles O57: no command but POWER_ON, which empties them, brings a FIFO, queue or slot beyond its promise. -/
theorem everyStepKeepsFillsAndSlots : Obligations.EveryStepKeepsFillsAndSlots :=
  ⟨fun _ _ hs h => (step_keeps_fills_and_slots h).1 hs, fun _ _ hs h => (step_keeps_fills_and_slots h).2 hs⟩

/-- Settles O60: only the five commands of a lane's own chapter change a link state, each by a move of the table. -/
theorem everyStepMovesLanesByTheTable : Obligations.EveryStepMovesLanesByTheTable :=
  fun _ _ b h hp => (step_moves hp h).link b

end Sys2Proof.Machine
end

