-- ==== Sys2Proof/Proofs/LaneCommands.lean ====
section
/-! The lane receivers, timers and transmitters (spec/01): what each lane command does. -/

namespace Sys2Proof.Machine

/-! ## Characters -/

theorem LinkState.hears_iff (l : LinkState) : l.hears = true ↔ l ≠ .absent := by
  cases l <;> simp [LinkState.hears]

theorem Lane.hear_of_absent {l : Lane} (now : Uptime) (h : l.link = .absent) :
    l.hear now = { l with link := .syncing, runCount := 0, runSeq := none, signal := some now, framing := false
                          partialCell := [] } := by
  simp [Lane.hear, h, LinkState.hears, Lane.clearRun]

theorem Lane.hear_of_not_absent {l : Lane} (now : Uptime) (h : l.link ≠ .absent) :
    l.hear now = { l with signal := some now } :=
  Lane.hear_of_hears now ((LinkState.hears_iff _).2 h)

/-- The update of a lane whose value is known. -/
theorem upd_congr {α : Type} {n : Nat} {v : Vector α n} {i : Fin n} {f g : α → α} (h : f v[i] = g v[i]) :
    upd v i f = upd v i g := by
  unfold upd; rw [h]

theorem State.onLane_congr {s : State} {b : Bank} {f g : Lane → Lane} (h : f s.lanes[b] = g s.lanes[b]) :
    s.onLane b f = s.onLane b g := by
  unfold State.onLane; rw [upd_congr h]

theorem State.onLane_onLane (s : State) (b : Bank) (f g : Lane → Lane) :
    (s.onLane b f).onLane b g = s.onLane b fun l => g (f l) := by
  unfold State.onLane; rw [upd_upd]

/-- Settles O5: the link state before the character decides what it does. -/
theorem laneCharacterIsHeard : Obligations.LaneCharacterIsHeard := by
  intro b c s
  refine congrArg Host.Outcome.next (State.onLane_congr ?_)
  by_cases hl : s.lanes[b].link = .absent
  · rw [if_pos hl, Lane.receive, Lane.hear_of_absent _ hl]
    rfl
  · rw [if_neg hl, Lane.receive, Lane.hear_of_not_absent _ hl]
    cases s.lanes[b].framing <;> simp

/-! ## Errors -/

/-- The error operation is the state after an error as the statements describe it (R5, R8). -/
theorem State.laneError_eq_withLaneError (s : State) (b : Bank) (k : ErrorKind) (bytes : List Byte) :
    s.laneError b k bytes = s.withLaneError b k bytes := by
  unfold State.laneError State.withLaneError State.raiseLinkError
  dsimp only
  rw [ErrorRecord.add_eq_after]
  rfl

/-- Settles O7: the cell in progress is dropped, its bytes go into the record. -/
theorem laneBreakIsRecorded : Obligations.LaneBreakIsRecorded := by
  intro b s
  refine ⟨fun hl => ?_, fun hl => ?_⟩
  · show execLaneBreak b s = _
    unfold execLaneBreak
    rw [hl]
    rfl
  · simp only [exec, execLaneBreak, (LinkState.hears_iff _).2 hl, if_true, State.laneError_eq_withLaneError]
    rfl

/-! ## Runs -/

/-- The run goes on with the next sequence number modulo 256, and begins anew with any other (R8). -/
theorem Lane.countRun_eq (l : Lane) (seq : Byte) : l.countRun seq =
    { l with runCount := if l.runSeq = some (seq - 1) then l.runCount + 1 else 1, runSeq := some seq } := by
  unfold Lane.countRun
  cases l.runSeq with
  | none => simp
  | some q => simp [eq_sub_iff_add_eq, eq_comm]

/-- The state once the head cell of bank `b`'s FIFO is taken, `rest` being the others (R4). -/
def State.withRest (s : State) (b : Bank) (rest : List SampleCell) : State :=
  s.onLane b fun l => { l with fifo := rest, sinceTake := 0 }

theorem State.withRest_lane (s : State) (b : Bank) (rest : List SampleCell) :
    (s.withRest b rest).lanes[b] = { s.lanes[b] with fifo := rest, sinceTake := 0 } := upd_get_self s.lanes b _

theorem execTakeSampleCell_of_wait {b : Bank} {s : State}
    (h : s.lanes[b].fifo = [] ∨ s.lanes[b].sinceTake < 200) : execTakeSampleCell b s = .next s := by
  unfold execTakeSampleCell
  split
  · rfl
  · rename_i c rest hfifo
    rw [if_neg]
    have hspace := h.resolve_left (by rw [hfifo]; exact List.cons_ne_nil _ _)
    exact Nat.not_le.2 hspace

theorem execTakeSampleCell_inRun {b : Bank} {s : State} {c : SampleCell} {rest : List SampleCell}
    (hfifo : s.lanes[b].fifo = c :: rest) (hspace : 200 ≤ s.lanes[b].sinceTake)
    (hlink : s.lanes[b].link = .syncing ∨ s.lanes[b].link = .lost) :
    execTakeSampleCell b s = .next ((s.withRest b rest).takeInRun b c) := by
  unfold execTakeSampleCell
  rw [hfifo]
  dsimp only
  rw [if_pos (show Config.takeSpacing ≤ _ from hspace)]
  rcases hlink with hl | hl <;> rw [hl] <;> rfl

theorem execTakeSampleCell_inUp {b : Bank} {s : State} {c : SampleCell} {rest : List SampleCell}
    (hfifo : s.lanes[b].fifo = c :: rest) (hspace : 200 ≤ s.lanes[b].sinceTake) (hlink : s.lanes[b].link = .up) :
    execTakeSampleCell b s = .next ((s.withRest b rest).takeInUp b c) := by
  unfold execTakeSampleCell
  rw [hfifo]
  dsimp only
  rw [if_pos (show Config.takeSpacing ≤ _ from hspace), hlink]
  rfl

/-- Settles O8: the cell counts toward the run, and a run below 16 does nothing else. -/
theorem runOfSetsIsCounted : Obligations.RunOfSetsIsCounted := by
  intro b s
  refine ⟨execTakeSampleCell_of_wait, fun c rest n hfifo hspace hlink hn hlt => ?_⟩
  refine (execTakeSampleCell_inRun hfifo hspace hlink).trans (congrArg Host.Outcome.next ?_)
  have hcount : (s.withRest b rest).lanes[b].countRun c.seq
      = { s.lanes[b] with fifo := rest, sinceTake := 0, runCount := n, runSeq := some c.seq } := by
    rw [State.withRest_lane, Lane.countRun_eq, hn]
  have hlow : ¬ Config.runToUp ≤ ((s.withRest b rest).lanes[b].countRun c.seq).runCount := by
    rw [hcount]; exact Nat.not_le.2 hlt
  unfold State.takeInRun
  rw [if_neg hlow, State.withRest, State.onLane_onLane]
  refine State.onLane_congr ?_
  rw [Lane.countRun_eq, hn]

/-! ## The signal timer -/

/-- Settles O12: each link state has its own arm. -/
theorem signalTimerExpires : Obligations.SignalTimerExpires := by
  intro b s t
  refine ⟨fun h => ?_, fun hd hl => ?_, fun hd hl => ?_⟩
  all_goals show execSignalTimerExpiry b s = _; unfold execSignalTimerExpiry Config.signalMs
  · rcases h with h | h | h
    · rw [h]; rfl
    · rw [h]; split <;> rfl
    · rw [h]; split <;> rfl
  · rw [hd, hl]; rfl
  · rw [hd, hl]; rfl

/-! ## The transmitter -/

/-- The bytes of a RELAY cell as spec/12 12.2 lists them. -/
theorem RelayCell.bytes_eq (c : RelayCell) :
    c.bytes = sealCell [0x32, BitVec.ofNat 8 (c.pos.val + 1), BitVec.ofNat 8 c.action.code, c.at8] := by
  simp [RelayCell.bytes, toBytes, numberOf, Config.kindRelay]

/-- The two bits of a mode in an INDICATE cell (spec/12 12.2). -/
theorem Mode.code_eq (m : Mode) : m.code = match m with | .off => 0 | .on => 1 | .blink => 2 := by
  cases m <;> rfl

theorem Vector.toList_eight {α : Type} (v : Vector α 8) :
    v.toList = [v[0], v[1], v[2], v[3], v[4], v[5], v[6], v[7]] := by
  refine List.ext_getElem (by simp) fun i h _ => ?_
  have hi : i < 8 := by simpa using h
  interval_cases i <;> simp

/-- The bytes of an INDICATE cell as spec/12 12.2 lists them. -/
theorem indicateBytes_eq (m : Vector Mode 8) (bits : Nat)
    (hbits : bits = ((((((m[0].code * 4 + m[1].code) * 4 + m[2].code) * 4 + m[3].code) * 4 + m[4].code) * 4
      + m[5].code) * 4 + m[6].code) * 4 + m[7].code) :
    indicateBytes m = sealCell [0x33, BitVec.ofNat 8 (bits / 256), BitVec.ofNat 8 bits] := by
  unfold indicateBytes
  rw [Vector.toList_eight, hbits]
  simp [toBytes, Config.kindIndicate]

/-- Settles O13: the relay list comes first, then the indicator slot. -/
theorem laneTransmitterStartsCells : Obligations.LaneTransmitterStartsCells := by
  intro b s
  have hstart : ∀ f : Lane → Lane, s.lanes[b].startCell = f s.lanes[b] →
      exec (.laneCellStart b) s = .next (s.onLane b f) := fun f h =>
    congrArg Host.Outcome.next (State.onLane_congr h)
  refine ⟨fun c rest hr => ?_, fun m hr hm => ?_, fun hr hm => ?_⟩
  · refine hstart (fun l => { l with relayList := rest, line := some (sealCell _) }) ?_
    rw [Lane.startCell, hr]
    dsimp only
    rw [RelayCell.bytes_eq]
    cases c.action <;> rfl
  · intro two bits
    refine hstart (fun l => { l with indicator := none, line := some (sealCell _) }) ?_
    rw [Lane.startCell, hr, hm]
    dsimp only
    rw [indicateBytes_eq m bits]
    simp only [Mode.code_eq]
    rfl
  · refine hstart (fun l => { l with line := none }) ?_
    rw [Lane.startCell, hr, hm]

end Sys2Proof.Machine
end

