-- ==== Sys2Proof/Proofs/LaneCells.lean ====
section
/-! The classification of lane cells (R2, R4). -/

namespace Sys2Proof.Machine

/-! ## Verdicts -/

theorem classifySample_character {cell : List LineChar} (h : ∃ c ∈ cell, c.stopOk = false) :
    classifySample cell = .bad .character := by
  have hany : (cell.any fun c => !c.stopOk) = true := by simpa [List.any_eq_true] using h
  unfold classifySample
  dsimp only
  rw [if_pos hany]

theorem any_badStop_eq_false {cell : List LineChar} (h : ∀ c ∈ cell, c.stopOk = true) :
    ¬ (cell.any fun c => !c.stopOk) = true := by
  simpa using h

theorem areaByte_zero_eq_iff {bytes : List Byte} (hne : bytes ≠ []) (x : Byte) :
    areaByte bytes 0 = x ↔ bytes.head? = some x := by
  cases bytes with
  | nil => exact absurd rfl hne
  | cons y ys => simp [areaByte]

theorem classifySample_length {cell : List LineChar} (hne : cell ≠ []) (h : ∀ c ∈ cell, c.stopOk = true)
    (hl : (cell.map (·.byte)).head? ≠ some 0x31 ∨ (cell.map (·.byte)).length ≠ 23) :
    classifySample cell = .bad .length := by
  have hbad : areaByte (cell.map (·.byte)) 0 ≠ Config.kindSample ∨ (cell.map (·.byte)).length ≠ Config.sampleBytes :=
    hl.imp_left fun hk he => hk ((areaByte_zero_eq_iff (by simpa using hne) _).1 he)
  unfold classifySample
  dsimp only
  rw [if_neg (any_badStop_eq_false h), if_pos hbad]

/-- The last of 23 bytes against the CRC-8 of those before it. -/
theorem crc_of_23 {bytes : List Byte} (hl : bytes.length = 23) :
    bytes.getLast? = some (crc8 bytes.dropLast) ↔ crc8 (bytes.take 22) = areaByte bytes 22 := by
  rw [List.getLast?_eq_getElem?, List.dropLast_eq_take, hl, areaByte, List.getD_eq_getElem?_getD,
    List.getElem?_eq_getElem (by omega)]
  simp [eq_comm]

/-- A cell of 23 bytes of kind SAMPLE is judged by its CRC-8. -/
theorem classifySample_crc {cell : List LineChar} (h : ∀ c ∈ cell, c.stopOk = true)
    (hk : (cell.map (·.byte)).head? = some 0x31) (hl : (cell.map (·.byte)).length = 23) :
    classifySample cell =
      if (cell.map (·.byte)).getLast? = some (crc8 (cell.map (·.byte)).dropLast) then .good (sampleOf (cell.map (·.byte)))
      else .bad .crc := by
  have hne : cell.map (·.byte) ≠ [] := fun he => by rw [he] at hk; cases hk
  have hgood : ¬ (areaByte (cell.map (·.byte)) 0 ≠ Config.kindSample
      ∨ (cell.map (·.byte)).length ≠ Config.sampleBytes) :=
    not_or.2 ⟨not_not.2 ((areaByte_zero_eq_iff hne _).2 hk), not_not.2 hl⟩
  unfold classifySample
  dsimp only
  rw [if_neg (any_badStop_eq_false h), if_neg hgood]
  rw [ite_not]
  exact if_congr (crc_of_23 hl).symm rfl rfl

/-! ## What the lane makes of the verdict -/

/-- The state after the gap that ends a cell, the characters before it heard (R2, R7). -/
def State.afterGap (s : State) (b : Bank) (chars : List LineChar) : State :=
  { s with lanes := upd s.lanes b fun l =>
    { l with framing := true, partialCell := [], signal := if chars = [] then l.signal else some s.uptime } }

theorem State.afterGap_fifo (s : State) (b : Bank) (chars : List LineChar) :
    (s.afterGap b chars).lanes[b].fifo = s.lanes[b].fifo := by
  unfold State.afterGap
  rw [upd_get_self]

/-- A gap on a lane that hears ends the cell framed so far, if there is one. -/
theorem execLaneCellReceived_of_hearing {s : State} {b : Bank} (chars : List LineChar) (hl : s.lanes[b].link ≠ .absent) :
    execLaneCellReceived b chars s =
      .next (if heldCell s.lanes[b].framing s.lanes[b].partialCell chars = [] then s.afterGap b chars
        else (s.afterGap b chars).laneCell b (heldCell s.lanes[b].framing s.lanes[b].partialCell chars)) := by
  have hgap : (s.onLane b fun l => (if chars = [] then l else l.hear s.uptime).gap) = s.afterGap b chars := by
    refine State.onLane_congr ?_
    rw [Lane.hear_of_not_absent _ hl]
    by_cases hc : chars = [] <;> simp [hc, Lane.gap]
  unfold execLaneCellReceived
  dsimp only
  rw [if_neg (by simpa using (LinkState.hears_iff _).2 hl), hgap]
  rfl

theorem execLaneCellReceived_of_cell {s : State} {b : Bank} {chars : List LineChar} (hl : s.lanes[b].link ≠ .absent)
    (hne : heldCell s.lanes[b].framing s.lanes[b].partialCell chars ≠ []) :
    execLaneCellReceived b chars s =
      .next ((s.afterGap b chars).laneCell b (heldCell s.lanes[b].framing s.lanes[b].partialCell chars)) := by
  rw [execLaneCellReceived_of_hearing chars hl, if_neg hne]

theorem State.laneCell_of_bad {s : State} {b : Bank} {cell : List LineChar} {k : ErrorKind}
    (h : classifySample cell = .bad k) : s.laneCell b cell = s.withLaneError b k (cell.map (·.byte)) := by
  unfold State.laneCell
  rw [h]
  exact s.laneError_eq_withLaneError b k _

theorem State.laneCell_of_good {s : State} {b : Bank} {cell : List LineChar} {c : SampleCell}
    (h : classifySample cell = .good c) : s.laneCell b cell = s.offerSample b c (cell.map (·.byte)) := by
  unfold State.laneCell
  rw [h]

/-- Settles O6: each verdict of R2 on the cell, and an ABSENT lane. -/
theorem laneCellIsClassified : Obligations.LaneCellIsClassified := by
  intro b chars s l cell bytes t
  have hfifo : t.lanes[b].fifo = l.fifo := s.afterGap_fifo b chars
  refine ⟨fun hl => ⟨fun hc => ?_, fun hne hbad => ?_, fun hne hok hlen => ?_, fun hok hk hlen => ?_⟩,
    fun hf hl => ?_, fun hl => ⟨fun hc => ?_, fun hc => ?_⟩⟩
  · exact (execLaneCellReceived_of_hearing chars hl).trans (by rw [if_pos hc]; rfl)
  · exact (execLaneCellReceived_of_cell hl hne).trans
      (congrArg _ (State.laneCell_of_bad (classifySample_character hbad)))
  · exact (execLaneCellReceived_of_cell hl hne).trans
      (congrArg _ (State.laneCell_of_bad (classifySample_length hne hok hlen)))
  · have hne : cell ≠ [] := fun he => by simp [bytes, he] at hk
    have hverdict := classifySample_crc hok hk hlen
    refine ⟨fun hcrc => ?_, fun hcrc hroom => ?_, fun hcrc hfull => ?_⟩
    all_goals refine (execLaneCellReceived_of_cell hl hne).trans (congrArg Host.Outcome.next ?_)
    · rw [if_neg hcrc] at hverdict
      exact State.laneCell_of_bad hverdict
    · rw [if_pos hcrc] at hverdict
      refine (State.laneCell_of_good hverdict).trans ?_
      exact if_pos (show t.lanes[b].fifo.length < 4 by rw [hfifo]; exact hroom)
    · rw [if_pos hcrc] at hverdict
      refine (State.laneCell_of_good hverdict).trans ?_
      refine (if_neg (show ¬ t.lanes[b].fifo.length < 4 by rw [hfifo]; exact Nat.not_lt.2 hfull)).trans ?_
      exact State.laneError_eq_withLaneError _ b _ _
  · exact (execLaneCellReceived_of_hearing chars hl).trans
      (by rw [show s.lanes[b].framing = false from hf, if_pos (show heldCell false _ _ = [] from rfl)]; rfl)
  all_goals
    show execLaneCellReceived b chars s = _
    unfold execLaneCellReceived
    dsimp only
    rw [show s.lanes[b].link = .absent from hl]
    refine congrArg Host.Outcome.next ?_
  · rw [if_pos hc]
  · rw [if_neg hc]
    refine (State.onLane_congr ?_).trans (State.onLane_onLane s b _ _).symm
    rw [Lane.hear_of_absent _ hl]
    simp only [Lane.gap, hc, if_false]
    rfl

end Sys2Proof.Machine
end

