-- ==== Sys2Proof/Proofs/LinkCommands.lean ====
section
/-! The management link unit's own commands (R6, R161, R166, R167). -/

namespace Sys2Proof.Machine

theorem namesCommand_iff (kind : Byte) : namesCommand kind = true ↔ 1 ≤ kind.toNat ∧ kind.toNat ≤ 28 :=
  decide_eq_true_iff

/-- A cell whose kind names no command is answered UNKNOWN, whatever its payload (R161). -/
theorem execUnknownCommand_of_ready {kind tag : Byte} {payload : List Byte} {s : State}
    (hk : kind.toNat = 0 ∨ 28 < kind.toNat) (h : s.ready kind tag payload) :
    execUnknownCommand kind tag payload s = .next (s.taken.answered kind tag .unknown .empty) := by
  have hn : ¬ namesCommand kind = true := by rw [namesCommand_iff]; omega
  unfold execUnknownCommand
  rw [if_neg hn, State.take_of_ready _ h rfl]
  rfl

/-- RESTART by the value of its argument (R167). -/
theorem execRestart_of_ready {tag x : Byte} {s : State} (h : s.ready 0x1B tag [x]) :
    execRestart tag [x] s = .next (match restartKindOf x.toNat with
      | none => s.taken.answered 0x1B tag .badArg (.offending none)
      | some k => (s.taken.onLink0 fun l => { l with restart := some { kind := k, sending := false } }).answered 0x1B tag
          .ok .empty) := by
  unfold execRestart
  rw [State.take_of_ready (len := 1) _ h rfl, show arg [x] 0 = x.toNat from rfl]
  cases restartKindOf x.toNat <;> rfl

theorem restartKindOf_eq_none {n : Nat} (h : 1 < n) : restartKindOf n = none := by
  obtain ⟨m, rfl⟩ := Nat.exists_eq_add_of_le h
  rw [show 1 + 1 + m = m + 2 by omega]
  rfl

/-- A restart that is not being answered on the line has no effect yet (R167). -/
theorem execRestartTakesEffect_of_not_sending {s : State}
    (h : ∀ k : RestartKind, s.link0.restart ≠ some { kind := k, sending := true }) :
    execRestartTakesEffect s = .next s := by
  unfold execRestartTakesEffect
  split
  · rfl
  · rename_i p hp
    rw [if_neg]
    intro hs
    obtain ⟨k, sending⟩ := p
    subst hs
    exact h k hp

/-- Settles O46: the four commands of the link unit, and HOLD_IN. -/
theorem linkCommandsAct : Obligations.LinkCommandsAct := by
  refine ⟨fun kind tag payload s => ⟨execUnknownCommand_of_ready, fun hk => ?_⟩, fun tag x s h => ?_,
    fun s h => execRestartTakesEffect_of_not_sending h, fun tag s h => ?_, fun _ _ => rfl⟩
  · exact if_pos ((namesCommand_iff kind).2 hk)
  · have hrestart := execRestart_of_ready h
    refine ⟨fun hx => ?_, fun hx => ?_, fun hx => ?_⟩
    · rw [hx] at hrestart; exact hrestart
    · rw [hx] at hrestart; exact hrestart
    · rw [restartKindOf_eq_none hx] at hrestart; exact hrestart
  · exact State.take_of_ready _ h rfl

end Sys2Proof.Machine
end

