-- ==== Sys2Proof/Proofs/CellBytes.lean ====
section
/-! Cells as bytes: what a sender writes is what the classifier reads back (spec/12). -/

namespace Sys2Proof.Machine

/-! ## Bytes -/

theorem beNat_halves (x : BitVec 16) : beNat [x.extractLsb' 8 8, x.extractLsb' 0 8] = x.toNat := by
  simp only [beNat, List.foldl_cons, List.foldl_nil, BitVec.extractLsb'_toNat, Nat.shiftRight_eq_div_pow]
  omega

theorem goodChars_bytes (bytes : List Byte) : (goodChars bytes).map (·.byte) = bytes := by
  simp [goodChars, Function.comp_def]

theorem goodChars_stopOk (bytes : List Byte) : ∀ c ∈ goodChars bytes, c.stopOk = true := by
  simp [goodChars]

theorem sealCell_length (bytes : List Byte) : (sealCell bytes).length = bytes.length + 1 := by
  simp [sealCell]

theorem sealCell_crc (bytes : List Byte) :
    (sealCell bytes).getLast? = some (crc8 (sealCell bytes).dropLast) := by
  simp [sealCell]

/-! ## SAMPLE cells -/

/-- A SAMPLE cell's bytes, one by one (spec/12 12.2). -/
theorem SampleCell.bytes_eq (c : SampleCell) : c.bytes = sealCell
    ([0x31, c.seq, c.set.volt.extractLsb' 8 8, c.set.volt.extractLsb' 0 8]
      ++ ([c.set.cur[0], c.set.cur[1], c.set.cur[2], c.set.cur[3], c.set.cur[4], c.set.cur[5], c.set.cur[6],
        c.set.cur[7]].flatMap fun x => [x.extractLsb' 8 8, x.extractLsb' 0 8])
      ++ [c.set.closed, c.set.load]) := by
  unfold SampleCell.bytes
  rw [Vector.toList_eight]

theorem SampleCell.bytes_length (c : SampleCell) : c.bytes.length = 23 := by
  simp [SampleCell.bytes_eq, sealCell_length]

/-- A raw code is read back from its two bytes. -/
theorem rawCode_beNat_halves (x : RawCode) : BitVec.ofNat 16 (beNat [x.extractLsb' 8 8, x.extractLsb' 0 8]) = x := by
  rw [beNat_halves, BitVec.ofNat_toNat, BitVec.setWidth_eq]

theorem areaNat_bytes_volt (c : SampleCell) :
    areaNat c.bytes 2 2 = beNat [c.set.volt.extractLsb' 8 8, c.set.volt.extractLsb' 0 8] := by
  rw [c.bytes_eq]
  rfl

theorem areaNat_bytes_cur (c : SampleCell) (p : Position) :
    areaNat c.bytes (4 + 2 * p.val) 2 = beNat [c.set.cur[p].extractLsb' 8 8, c.set.cur[p].extractLsb' 0 8] := by
  rw [c.bytes_eq]
  fin_cases p <;> rfl

theorem sampleOf_bytes (c : SampleCell) : sampleOf c.bytes = c := by
  have hvolt : BitVec.ofNat 16 (areaNat c.bytes 2 2) = c.set.volt := by
    rw [areaNat_bytes_volt, rawCode_beNat_halves]
  have hcur : (Vector.ofFn fun p : Position => BitVec.ofNat 16 (areaNat c.bytes (4 + 2 * p.val) 2)) = c.set.cur := by
    refine Vector.ext fun i hi => ?_
    rw [Vector.getElem_ofFn, areaNat_bytes_cur, rawCode_beNat_halves]
    rfl
  have hmarks : areaByte c.bytes 1 = c.seq ∧ areaByte c.bytes 20 = c.set.closed ∧ areaByte c.bytes 21 = c.set.load := by
    rw [c.bytes_eq]
    exact ⟨rfl, rfl, rfl⟩
  obtain ⟨hseq, hclosed, hload⟩ := hmarks
  unfold sampleOf
  rw [hvolt, hcur, hseq, hclosed, hload]

theorem classifySample_bytes (c : SampleCell) : classifySample (goodChars c.bytes) = .good c := by
  have hkind : c.bytes.head? = some 0x31 := rfl
  have hcrc : c.bytes.getLast? = some (crc8 c.bytes.dropLast) := sealCell_crc _
  rw [classifySample_crc (goodChars_stopOk _)]
  all_goals rw [goodChars_bytes]
  · rw [if_pos hcrc, sampleOf_bytes]
  · exact hkind
  · exact c.bytes_length

/-! ## Command cells -/

/-- A command cell of good characters, as long as its length byte says and with the CRC-8 of what precedes it. -/
theorem classifyCommand_of_good {bytes : List Byte} (hl : bytes.length = (areaByte bytes 2).toNat + 4)
    (hmax : (areaByte bytes 2).toNat ≤ 128)
    (hcrc : crc8 (bytes.take ((areaByte bytes 2).toNat + 3)) = areaByte bytes ((areaByte bytes 2).toNat + 3)) :
    classifyCommand (goodChars bytes) = .good
      { kind := areaByte bytes 0, tag := areaByte bytes 1
        payload := (bytes.drop 3).take (areaByte bytes 2).toNat } := by
  have hlen : ¬ (bytes.length < 4 ∨ Config.maxPayload < (areaByte bytes 2).toNat
      ∨ bytes.length ≠ (areaByte bytes 2).toNat + 4) := by
    have : Config.maxPayload = 128 := rfl
    omega
  unfold classifyCommand
  dsimp only
  rw [goodChars_bytes, if_neg (any_badStop_eq_false (goodChars_stopOk bytes)), if_neg hlen,
    if_neg (not_not.2 hcrc)]

theorem CommandCell.bytes_eq (c : CommandCell) : c.bytes =
    c.kind :: c.tag :: BitVec.ofNat 8 c.payload.length :: (c.payload
      ++ [crc8 (c.kind :: c.tag :: BitVec.ofNat 8 c.payload.length :: c.payload)]) := rfl

theorem CommandCell.lengthByte (c : CommandCell) (h : c.payload.length ≤ 128) :
    (areaByte c.bytes 2).toNat = c.payload.length := by
  show (BitVec.ofNat 8 c.payload.length).toNat = _
  rw [BitVec.toNat_ofNat]
  omega

theorem classifyCommand_bytes (c : CommandCell) (h : c.payload.length ≤ 128) :
    classifyCommand (goodChars c.bytes) = .good c := by
  have hlb := c.lengthByte h
  rw [classifyCommand_of_good]
  all_goals rw [hlb]
  · have hpayload : (c.bytes.drop 3).take c.payload.length = c.payload := by simp [c.bytes_eq]
    rw [hpayload]
    rfl
  · simp [c.bytes_eq]
  · exact h
  · simp [c.bytes_eq, areaByte]

/-- Settles O44: SAMPLE cells and command cells. -/
theorem cellsReadBack : Obligations.CellsReadBack :=
  ⟨fun c => ⟨c.bytes_length, classifySample_bytes c⟩, classifyCommand_bytes⟩

end Sys2Proof.Machine
end

