-- ==== Sys2Proof/Proofs/SetsInOrder.lean ====
section
/-! A cell taken in UP: the sets it hands over (R10, R11). -/

namespace Sys2Proof.Machine

/-- The distance of a cell's sequence number from the counter, modulo 256. -/
theorem seq_sub_counter_toNat (seq : Byte) (counter : SetNo) :
    (seq - counter.truncate 8).toNat = (seq.toNat + 256 - counter.toNat % 256) % 256 := by
  have hlow : (counter.truncate 8).toNat = counter.toNat % 256 := BitVec.toNat_setWidth 8 counter
  rw [BitVec.toNat_sub, hlow]
  omega

/-- The hand-over of one set, its mark with it. -/
def State.handPair (b : Bank) (s : State) (x : RawSet × Bool) : State := s.handNext b x.1 x.2

theorem State.handSubstitutes_eq_foldl (n : Nat) (b : Bank) (raw : RawSet) (s : State) :
    State.handSubstitutes n b raw s = (List.replicate n (raw, true)).foldl (State.handPair b) s := by
  induction n generalizing s with
  | zero => rfl
  | succ n ih => rw [State.handSubstitutes, ih, List.replicate_succ, List.foldl_cons, State.handPair]

/-- The substitutes and then the received set, as one list of sets handed over in order. -/
theorem State.handAll_eq_foldl (n : Nat) (b : Bank) (g raw : RawSet) (s : State) :
    (State.handSubstitutes n b g s).handNext b raw false
      = (List.replicate n (g, true) ++ [(raw, false)]).foldl (State.handPair b) s := by
  rw [List.foldl_append, ← State.handSubstitutes_eq_foldl, List.foldl_cons, List.foldl_nil, State.handPair]

/-! ## The counter -/

theorem State.Carries.counter {s t : State} (h : s.Carries t) (b : Bank) : t.lanes[b].counter = s.lanes[b].counter := by
  obtain ⟨-, -, -, -, hcounter, -⟩ := Lane.quiet_fields (h.lane b)
  exact hcounter

theorem State.handNext_counter (s : State) (b : Bank) (raw : RawSet) (sub : Bool) :
    (s.handNext b raw sub).lanes[b].counter = s.lanes[b].counter + 1 := by
  unfold State.handNext
  refine ((State.handSet_carries _ b _ raw sub).counter b).trans ?_
  rw [State.onLane, upd_get_self]

theorem State.handPair_foldl_counter (b : Bank) (l : List (RawSet × Bool)) (s : State) :
    (l.foldl (State.handPair b) s).lanes[b].counter = s.lanes[b].counter + BitVec.ofNat 32 l.length := by
  induction l generalizing s with
  | nil => simp
  | cons x l ih =>
    rw [List.foldl_cons, ih, State.handPair, State.handNext_counter, List.length_cons]
    simp only [BitVec.ofNat_add]
    ac_rfl

/-! ## The cell -/

theorem State.takeInUp_of_far {s : State} {b : Bank} {c : SampleCell}
    (h : ¬ (1 ≤ (c.seq - s.lanes[b].counter.truncate 8).toNat ∧ (c.seq - s.lanes[b].counter.truncate 8).toNat ≤ 128)) :
    s.takeInUp b c = s := if_neg h

theorem State.takeInUp_of_near {s : State} {b : Bank} {c : SampleCell} {g : RawSet} {d : Nat}
    (hd : (c.seq - s.lanes[b].counter.truncate 8).toNat = d) (hlow : 1 ≤ d) (hhigh : d ≤ 128)
    (hg : s.lanes[b].lastGood = some g) :
    s.takeInUp b c = ((List.replicate (d - 1) (g, true) ++ [(c.set, false)]).foldl (State.handPair b) s).onLane b
      fun l => { l with lastGood := some c.set, silence := some s.uptime } := by
  subst hd
  unfold State.takeInUp
  dsimp only
  rw [if_pos ⟨hlow, hhigh⟩, hg, Option.getD_some, State.handAll_eq_foldl]

/-- Settles O10: by the distance of the cell's sequence number from the counter. -/
theorem cellInUpHandsItsSetsInOrder : Obligations.CellInUpHandsItsSetsInOrder := by
  intro b c rest g s hlink hfifo hspace hg d s0 hand
  have hstep : exec (.takeSampleCell b) s = .next ((s.withRest b rest).takeInUp b c) :=
    execTakeSampleCell_inUp hfifo hspace hlink
  have hlane := s.withRest_lane b rest
  have hcounter : (s.withRest b rest).lanes[b].counter = s.lanes[b].counter := by rw [hlane]
  have hgood : (s.withRest b rest).lanes[b].lastGood = some g := by rw [hlane]; exact hg
  have hd : (c.seq - (s.withRest b rest).lanes[b].counter.truncate 8).toNat = d := by
    rw [hcounter]; exact seq_sub_counter_toNat c.seq s.lanes[b].counter
  refine ⟨fun hlow hhigh => ⟨?_, ?_⟩, fun hfar => ?_⟩
  · refine (State.handPair_foldl_counter b _ s0).trans ?_
    rw [show s0.lanes[b].counter = s.lanes[b].counter from hcounter]
    simp only [List.length_append, List.length_replicate, List.length_singleton, Nat.sub_add_cancel hlow]
  · rw [hstep, State.takeInUp_of_near hd hlow hhigh hgood]
    rfl
  · rw [hstep, State.takeInUp_of_far (by rw [hd]; omega)]
    rfl

end Sys2Proof.Machine
end

