-- ==== Sys2Proof/Proofs/RelayReads.lean ====
section
/-! What the relay block's reading of a set changes (R64 to R66). -/

namespace Sys2Proof.Machine

/-! ## Outlets of a bank -/

theorem bankOf_outletAt (b : Bank) (p : Position) : bankOf (outletAt b p) = b := by
  refine Fin.ext ?_
  show (b.val * 8 + p.val) / 8 = b.val
  omega

theorem posOf_outletAt (b : Bank) (p : Position) : posOf (outletAt b p) = p := by
  refine Fin.ext ?_
  show (b.val * 8 + p.val) % 8 = p.val
  omega

theorem outletAt_posOf {o : Outlet} {b : Bank} (h : bankOf o = b) : outletAt b (posOf o) = o := by
  subst h
  refine Fin.ext ?_
  show o.val / 8 * 8 + o.val % 8 = o.val
  omega

/-! ## The frame -/

/-- The lane of bank `b` is UP and an INDICATE cell with the shown modes waits on it. -/
def State.Shows (s : State) (b : Bank) : Prop :=
  s.lanes[b].link = .up ∧ s.lanes[b].indicator = some s.shown[b]

/-- `t` comes from `s` by new relay records of bank `b` and what follows from them: shown modes, the indicator slot,
monitors and reports. -/
structure State.Rereads (b : Bank) (s t : State) : Prop where
  changes : t = { s with relays := t.relays, shown := t.shown, lanes := t.lanes, monitors := t.monitors
                         notifier := t.notifier, link0 := t.link0 }
  lane : t.lanes[b] = { s.lanes[b] with indicator := t.lanes[b].indicator }
  otherLanes : ∀ b' : Bank, b' ≠ b → t.lanes[b'] = s.lanes[b']
  shows : s.Shows b → t.Shows b

theorem State.Rereads.refl (b : Bank) (s : State) : s.Rereads b s := ⟨rfl, rfl, fun _ _ => rfl, id⟩

theorem State.Rereads.trans {b : Bank} {s t u : State} (h : s.Rereads b t) (h' : t.Rereads b u) : s.Rereads b u := by
  refine ⟨?_, ?_, fun b' hb => (h'.otherLanes b' hb).trans (h.otherLanes b' hb), h'.shows ∘ h.shows⟩
  · have ht := h.changes
    have hu := h'.changes
    generalize u.relays = x1, u.shown = x2, u.lanes = x3, u.monitors = x4, u.notifier = x5, u.link0 = x6 at hu ⊢
    rw [hu, ht]
  · rw [h'.lane, h.lane]

theorem State.Rereads.raiseEvent {b : Bank} {s t : State} (h : s.Rereads b t) (e : Event) : s.Rereads b (t.raiseEvent e) :=
  h.trans ⟨rfl, rfl, fun _ _ => rfl, id⟩

theorem Lane.eq_withIndicator {l m : Lane} {x : Option (Vector Mode 8)} (h : m = { l with indicator := x }) :
    m = { l with indicator := m.indicator } := by rw [h]

theorem State.placeIndicate_eq_of_up {s : State} {b : Bank} (h : s.lanes[b].link = .up) :
    s.placeIndicate b = s.onLane b fun l => { l with indicator := some s.shown[b] } :=
  if_pos (show (s.lanes[b].link == .up) = true by rw [h]; rfl)

theorem State.placeIndicate_eq_of_not_up {s : State} {b : Bank} (h : s.lanes[b].link ≠ .up) : s.placeIndicate b = s :=
  if_neg (show ¬ (s.lanes[b].link == .up) = true by simpa using h)

theorem State.refreshModes_rereads (s : State) (b : Bank) : s.Rereads b (s.refreshModes b) := by
  unfold State.refreshModes
  split
  · exact .refl b s
  · by_cases hup : s.lanes[b].link = .up
    · rw [State.placeIndicate_eq_of_up (by exact hup)]
      generalize hv : (upd s.shown b fun _ => s.modesOf b) = v
      have hlane : (upd s.lanes b fun l => { l with indicator := some v[b] })[b]
          = { s.lanes[b] with indicator := some v[b] } := upd_get_self _ b _
      refine ⟨rfl, ?_, fun b' hb => upd_get_ne _ (Ne.symm hb) _, fun _ => ⟨?_, ?_⟩⟩
      · exact Lane.eq_withIndicator hlane
      · exact (congrArg Lane.link hlane).trans hup
      · exact congrArg Lane.indicator hlane
    · rw [State.placeIndicate_eq_of_not_up (by exact hup)]
      exact ⟨rfl, rfl, fun _ _ => rfl, fun hs => absurd hs.1 hup⟩

theorem State.notePowerOf_rereads (s before : State) (o : Outlet) (b : Bank) : s.Rereads b (s.notePowerOf before o) := by
  unfold State.notePowerOf
  split
  · exact .refl b s
  · rw [State.notePower_eq_afterPower]
    exact ⟨rfl, rfl, fun _ _ => rfl, id⟩

theorem State.setRelay_rereads (s : State) (b : Bank) (o : Outlet) (hb : bankOf o = b) (f : Relay → Relay) :
    s.Rereads b (s.setRelay o f) := by
  have hrec : s.Rereads b (s.onRelay o f) := ⟨rfl, rfl, fun _ _ => rfl, id⟩
  subst hb
  exact (hrec.trans (State.refreshModes_rereads _ _)).trans (State.notePowerOf_rereads _ s o _)

theorem State.setRelay_relays (s : State) (o : Outlet) (f : Relay → Relay) :
    (s.setRelay o f).relays = upd s.relays o f := by
  have hnote : ∀ u : State, (u.notePowerOf s o).relays = u.relays := fun u => by
    unfold State.notePowerOf
    split
    · rfl
    · rw [State.notePower_eq_afterPower]
  unfold State.setRelay
  rw [hnote, State.refreshModes_changes]
  rfl

/-! ## One outlet -/

/-- The relay record after a set with the outlet's closed bit (R64 to R66). -/
def Relay.seen (closed substituted : Bool) (r : Relay) : Relay :=
  match r.state with
  | .unknown => .settled (stateOfBit closed) none
  | .off => if closed && !substituted then .settled .on none else r
  | .on => if !closed && !substituted then .settled .off none else r
  | .closing => r
  | .opening => r
  | .faultOpen => r
  | .faultWelded => r

theorem State.reconcile_rereads (s : State) (b : Bank) (o : Outlet) (hb : bankOf o = b) (x y : RelayState)
    (c : ReconcileCause) : s.Rereads b (s.reconcile o x y c) := (s.setRelay_rereads b o hb _).raiseEvent _

theorem State.relaySees_rereads (s : State) (b : Bank) (o : Outlet) (hb : bankOf o = b) (closed sub : Bool)
    (c : ReconcileCause) : s.Rereads b (s.relaySees o closed sub c) := by
  unfold State.relaySees
  split
  · exact s.setRelay_rereads b o hb _
  · split
    · exact s.reconcile_rereads b o hb _ _ c
    · exact .refl b s
  · split
    · exact s.reconcile_rereads b o hb _ _ c
    · exact .refl b s
  all_goals exact .refl b s

theorem State.raise_relays (s : State) (k : EventKind) (n : Nat) (d : Detail) : (s.raise k n d).relays = s.relays := rfl

theorem State.reconcile_relays (s : State) (o : Outlet) (x y : RelayState) (c : ReconcileCause) :
    (s.reconcile o x y c).relays = upd s.relays o fun _ => .settled y none := by
  unfold State.reconcile
  rw [State.raise_relays, State.setRelay_relays]

theorem State.relaySees_relays (s : State) (o : Outlet) (closed sub : Bool) (c : ReconcileCause) :
    (s.relaySees o closed sub c).relays = upd s.relays o (Relay.seen closed sub) := by
  have hsame : Relay.seen closed sub s.relays[o] = s.relays[o] → s.relays = upd s.relays o (Relay.seen closed sub) :=
    fun h => (upd_id s.relays o).symm.trans (upd_congr h.symm)
  have hnew : ∀ {v new}, v = upd s.relays o (fun _ => new) → Relay.seen closed sub s.relays[o] = new →
      v = upd s.relays o (Relay.seen closed sub) := fun hv h => hv.trans (upd_congr h.symm)
  have hset := fun new => s.setRelay_relays o fun _ => new
  have hrec := fun x y => s.reconcile_relays o x y c
  unfold State.relaySees
  cases hst : s.relays[o].state
  case unknown => exact hnew (hset _) (by rw [Relay.seen, hst])
  case off =>
    dsimp only
    by_cases h : (closed && !sub) = true
    · rw [if_pos h]; exact hnew (hrec _ _) (by rw [Relay.seen, hst]; dsimp only; rw [if_pos h])
    · rw [if_neg h]; exact hsame (by rw [Relay.seen, hst]; dsimp only; rw [if_neg h])
  case on =>
    dsimp only
    by_cases h : (!closed && !sub) = true
    · rw [if_pos h]; exact hnew (hrec _ _) (by rw [Relay.seen, hst]; dsimp only; rw [if_pos h])
    · rw [if_neg h]; exact hsame (by rw [Relay.seen, hst]; dsimp only; rw [if_neg h])
  all_goals exact hsame (by rw [Relay.seen, hst])

/-! ## A bank's eight outlets -/

theorem State.foldl_rereads {α : Type} (b : Bank) (f : State → α → State)
    (h : ∀ (s : State) (a : α), s.Rereads b (f s a))
    (l : List α) (s : State) : s.Rereads b (l.foldl f s) :=
  List.foldlRecOn (motive := s.Rereads b) l f (.refl b s) fun t ht a _ => ht.trans (h t a)

theorem State.relaySet_rereads (s : State) (b : Bank) (closed : BitVec 8) (sub : Bool) (c : ReconcileCause) :
    s.Rereads b (s.relaySet b closed sub c) :=
  State.foldl_rereads b _ (fun s p => s.relaySees_rereads b _ (bankOf_outletAt b p) _ sub c) _ s

theorem mem_outletsOf (o : Outlet) (b : Bank) : o ∈ outletsOf b ↔ bankOf o = b := by
  refine ⟨fun h => ?_, fun h => ?_⟩
  · obtain ⟨p, -, rfl⟩ := List.mem_map.1 h
    exact bankOf_outletAt b p
  · exact List.mem_map.2 ⟨posOf o, List.mem_finRange _, outletAt_posOf h⟩

theorem outletsOf_nodup (b : Bank) : (outletsOf b).Nodup := by
  refine List.Nodup.map (fun p q h => ?_) (List.nodup_finRange 8)
  rw [← posOf_outletAt b p, h, posOf_outletAt]

/-- Positions 1 to 8 are visited each once: a fold over them that updates each outlet's record updates each on its own. -/
theorem foldl_outlets_relays {f : State → Position → State} {b : Bank} {g : Outlet → Relay → Relay}
    (h : ∀ (s : State) (p : Position), (f s p).relays = upd s.relays (outletAt b p) (g (outletAt b p))) (s : State)
    (o : Outlet) :
    (allPositions.foldl f s).relays[o] = if bankOf o = b then g o s.relays[o] else s.relays[o] := by
  have hfold : ∀ (l : List Position) (s : State), (l.foldl f s).relays
      = (l.map (outletAt b)).foldl (fun v o => upd v o (g o)) s.relays := fun l => by
    induction l with
    | nil => exact fun _ => rfl
    | cons p l ih => intro s; rw [List.foldl_cons, ih, h, List.map_cons, List.foldl_cons]
  rw [hfold]
  refine (foldl_upd_get g (outletsOf b) s.relays o (outletsOf_nodup b)).trans ?_
  exact if_congr (mem_outletsOf o b) rfl rfl

theorem State.relaySet_relays (s : State) (b : Bank) (closed : BitVec 8) (sub : Bool) (c : ReconcileCause) (o : Outlet) :
    (s.relaySet b closed sub c).relays[o]
      = if bankOf o = b then Relay.seen (closed.getLsbD (posOf o).val) sub s.relays[o] else s.relays[o] := by
  refine foldl_outlets_relays (g := fun o => Relay.seen (closed.getLsbD (posOf o).val) sub) (fun s p => ?_) s o
  rw [posOf_outletAt]
  exact State.relaySees_relays _ _ _ _ _

/-- A received set settles an outlet whose state is UNKNOWN, OFF or ON, whether it is read once or twice. -/
theorem Relay.seen_seen_state (closed : Bool) (r : Relay) :
    (Relay.seen closed false (Relay.seen closed false r)).state =
      if r.state = .unknown ∨ r.state = .off ∨ r.state = .on then stateOfBit closed else r.state := by
  obtain ⟨st, d, f, w, z⟩ := r
  cases st <;> cases closed <;> rfl

end Sys2Proof.Machine
end

