-- ==== Sys2Proof/Proofs/BankUp.lean ====
section
/-! The sixteenth cell of a run: the lane comes UP (R9, R29, R66). -/

namespace Sys2Proof.Machine

/-! ## What the re-reading of relays leaves -/

theorem State.Rereads.fields {b : Bank} {s t : State} (h : s.Rereads b t) :
    t.uptime = s.uptime ∧ t.meters = s.meters ∧ t.outlets = s.outlets ∧ t.interval = s.interval
    ∧ t.bankLimits = s.bankLimits ∧ t.phaseElements = s.phaseElements ∧ t.sheds = s.sheds ∧ t.queue = s.queue
    ∧ t.turnOn = s.turnOn ∧ t.settle = s.settle ∧ t.tokens = s.tokens ∧ t.groups = s.groups
    ∧ t.outletTable = s.outletTable ∧ t.bankTable = s.bankTable ∧ t.calTable = s.calTable
    ∧ t.groupTable = s.groupTable ∧ t.safe = s.safe := by
  rw [h.changes]
  repeat' constructor

/-! ## The first set of a period -/

/-- The state in which the first window of a period is open, before its first set is read. -/
def State.beginWindow (s : State) (b : Bank) (num : SetNo) (v : Int) : State :=
  (s.onMeter b fun m => m.enterVoltage v false s.bankTable.active[b].zeroCross).openWindow b num false

theorem State.beginWindow_meter (s : State) (b : Bank) (num : SetNo) (v : Int) :
    ∃ h a, (s.beginWindow b num v).meters = upd s.meters b fun m =>
      { m with history := h, armed := a, window := some (.opened false num) } := by
  refine ⟨(s.meters[b].enterVoltage v false s.bankTable.active[b].zeroCross).history,
    (s.meters[b].enterVoltage v false s.bankTable.active[b].zeroCross).armed, ?_⟩
  unfold State.beginWindow State.openWindow State.onMeter
  dsimp only
  rw [upd_upd]
  exact upd_congr rfl

/-- A received set is the first of a window that is not full and stays valid. -/
theorem Window.add_opened (num : SetNo) {x : CalSet} (hx : x.substituted = false) :
    ((Window.opened false num).add x).n = 1 ∧ ((Window.opened false num).add x).aligned = false
    ∧ ((Window.opened false num).add x).first = num ∧ ((Window.opened false num).add x).invalid = false := by
  refine ⟨rfl, rfl, rfl, ?_⟩
  simp [Window.add, Window.opened, hx]

/-- The set that begins a period: no crossing is seen without a history, a window opens, the relay block reads the set,
and the set is added. -/
theorem State.handSet_of_reset {s : State} {b : Bank} (hhist : s.meters[b].history = []) (hwin : s.meters[b].window = none)
    (num : SetNo) (raw : RawSet) : ∃ v x, x.substituted = false ∧ s.handSet b num raw false
      = ((s.beginWindow b num v).relaySet b raw.closed false .uncommanded).addSet b x := by
  generalize hv : (calibrate s.calTable.active[voltEntry b] raw.volt).1 = v
  have hcross : s.meters[b].crosses v false = false := by
    unfold BankMeter.crosses; rw [hhist]
  have hplace : (s.onMeter b fun m => m.enterVoltage v false s.bankTable.active[b].zeroCross).placeSet b num false
      = s.beginWindow b num v := by
    have hnone : (s.onMeter b fun m => m.enterVoltage v false s.bankTable.active[b].zeroCross).meters[b].window = none := by
      rw [State.onMeter, upd_get_self]; exact hwin
    unfold State.placeSet
    rw [hnone]
    rfl
  refine ⟨v, ((s.beginWindow b num v).relaySet b raw.closed false .uncommanded).calSet b num raw false, rfl, ?_⟩
  unfold State.handSet
  dsimp only
  rw [hv, hcross, hplace]
  obtain ⟨h, a, hm⟩ := s.beginWindow_meter b num v
  obtain ⟨-, hmeters, -⟩ := (State.relaySet_rereads (s.beginWindow b num v) b raw.closed false .uncommanded).fields
  generalize hu : (s.beginWindow b num v).relaySet b raw.closed false .uncommanded = u at hmeters ⊢
  have hfull : (u.addSet b (u.calSet b num raw false)).meters[b].isFull = false := by
    show (upd u.meters b _)[b].isFull = false
    rw [upd_get_self, hmeters, hm, upd_get_self]
    rfl
  unfold State.closeFull
  rw [hfull]
  rfl

/-- What the set that begins a period leaves: relays are re-read, and the meter has a window of one set. -/
theorem State.handSet_of_reset_changes {s t : State} {b : Bank} (hhist : s.meters[b].history = [])
    (hwin : s.meters[b].window = none) {num : SetNo} {raw : RawSet} (ht : t = s.handSet b num raw false) :
    s.Rereads b { t with meters := s.meters, capture := s.capture }
    ∧ (∀ o : Outlet, t.relays[o]
        = if bankOf o = b then Relay.seen (raw.closed.getLsbD (posOf o).val) false s.relays[o] else s.relays[o])
    ∧ ∃ (h : List Int) (a : Bool) (w : Window),
      w.n = 1 ∧ w.aligned = false ∧ w.first = num ∧ w.invalid = false
      ∧ t.meters = upd s.meters b fun m => { m with history := h, armed := a, window := some w } := by
  obtain ⟨v, x, hx, hset⟩ := State.handSet_of_reset hhist hwin num raw
  have hread := (s.beginWindow b num v).relaySet_rereads b raw.closed false .uncommanded
  have hrelays := (s.beginWindow b num v).relaySet_relays b raw.closed false .uncommanded
  obtain ⟨h, a, hbegin⟩ := s.beginWindow_meter b num v
  obtain ⟨-, hmeters, -⟩ := hread.fields
  obtain ⟨hn, haligned, hfirst, hinvalid⟩ := Window.add_opened num hx
  rw [hset] at ht
  generalize (s.beginWindow b num v).relaySet b raw.closed false .uncommanded = u at *
  subst ht
  refine ⟨⟨?_, hread.lane, hread.otherLanes, hread.shows⟩, hrelays, h, a, (Window.opened false num).add x,
    hn, haligned, hfirst, hinvalid, ?_⟩
  · have hu := hread.changes
    show ({ u with meters := s.meters, capture := s.capture } : State) = _
    generalize u.relays = x1, u.shown = x2, u.lanes = x3, u.monitors = x4, u.notifier = x5, u.link0 = x6 at hu ⊢
    rw [hu]
    rfl
  · unfold State.addSet State.onMeter
    dsimp only
    rw [hmeters, hbegin, upd_upd]
    exact upd_congr rfl

/-! ## Entry to UP -/

theorem State.timedShed_congr {s t : State} {b : Bank} (hlimits : t.bankLimits = s.bankLimits)
    (hlink : t.lanes[b].link = s.lanes[b].link) (huptime : t.uptime = s.uptime) (hsafe : t.safe = s.safe) :
    t.timedShed b = s.timedShed b := by
  funext d
  unfold State.timedShed
  rw [hlimits, hlink, huptime, hsafe]

/-- The counter's advance at entry to UP is 1 to 256, and brings its low byte to the cell's sequence number (R9). -/
theorem advance_spec (counter : SetNo) (seq : Byte) : 1 ≤ advance counter seq ∧ advance counter seq ≤ 256
    ∧ (counter + BitVec.ofNat 32 (advance counter seq)).toNat % 256 = seq.toNat := by
  have hd := seq_sub_counter_toNat seq counter
  have hseq := seq.isLt
  unfold advance
  dsimp only
  rw [hd, BitVec.toNat_add, BitVec.toNat_ofNat]
  split <;> omega

/-- The lane, meter and phase element of bank `b` at entry to UP with counter `n`, before any set is read. -/
def State.begunUp (s : State) (b : Bank) (c : SampleCell) (rest : List SampleCell) (n : SetNo) : State :=
  { s with
    lanes := upd s.lanes b fun l => { l with
      link := .up, counter := n, lastGood := some c.set, runCount := 0, runSeq := none
      silence := some s.uptime, fifo := rest, sinceTake := 0 }
    meters := upd s.meters b fun m => { m with
      history := [], armed := false, window := none, crossing := none, winLen := none, lastKind := none
      freqList := [], frequency := 0 }
    phaseElements := upd s.phaseElements b fun _ => none }

/-- BANK_UP is raised and the relay block reads the set (R66). -/
def State.seenUp (s : State) (b : Bank) (c : SampleCell) (rest : List SampleCell) (n : SetNo) : State :=
  ((s.begunUp b c rest n).raise .bankUp (b.val + 1) (.bankUp s.lanes[b].link)).relaySet b c.set.closed false .atUp

/-- An INDICATE cell with the shown modes waits, and the shed unit's timers follow their conditions. -/
def State.indicated (s : State) (b : Bank) : State :=
  { s with lanes := upd s.lanes b fun l => { l with indicator := some s.shown[b] }
           sheds := upd s.sheds b (s.timedShed b) }

theorem State.indicated_lane (s : State) (b : Bank) :
    (s.indicated b).lanes[b] = { s.lanes[b] with indicator := some s.shown[b] } := upd_get_self s.lanes b _

theorem State.indicated_counter (s : State) (b : Bank) : (s.indicated b).lanes[b].counter = s.lanes[b].counter := by
  rw [s.indicated_lane b]

theorem State.refreshSheds_placeIndicate {s : State} {b : Bank} (h : s.lanes[b].link = .up) :
    (s.placeIndicate b).refreshSheds b = s.indicated b := by
  have hlink : (s.onLane b fun l => { l with indicator := some s.shown[b] }).lanes[b].link = s.lanes[b].link := by
    rw [State.onLane, upd_get_self]
  have hsheds : (s.onLane b fun l => { l with indicator := some s.shown[b] }).timedShed b = s.timedShed b :=
    State.timedShed_congr rfl hlink rfl rfl
  rw [State.placeIndicate_eq_of_up h, State.refreshSheds_eq_timedShed, hsheds]
  rfl

theorem State.begunUp_lane (s : State) (b : Bank) (c : SampleCell) (rest : List SampleCell) (n : SetNo) :
    (s.begunUp b c rest n).lanes[b] = { s.lanes[b] with
      link := .up, counter := n, lastGood := some c.set, runCount := 0, runSeq := none
      silence := some s.uptime, fifo := rest, sinceTake := 0 } := upd_get_self s.lanes b _

theorem State.seenUp_rereads (s : State) (b : Bank) (c : SampleCell) (rest : List SampleCell) (n : SetNo) :
    (s.begunUp b c rest n).Rereads b (s.seenUp b c rest n) :=
  ((State.Rereads.refl b _).raiseEvent _).trans (State.relaySet_rereads _ b _ _ _)

theorem State.seenUp_lane (s : State) (b : Bank) (c : SampleCell) (rest : List SampleCell) (n : SetNo) :
    (s.seenUp b c rest n).lanes[b].link = .up ∧ (s.seenUp b c rest n).lanes[b].counter = n := by
  rw [(s.seenUp_rereads b c rest n).lane, s.begunUp_lane b c rest n]
  exact ⟨rfl, rfl⟩

/-- The lane of bank `b` enters UP as the statement describes it. -/
theorem State.enterUp_eq (s : State) (b : Bank) (c : SampleCell) (rest : List SampleCell) {n : SetNo}
    (hn : n = s.lanes[b].counter + BitVec.ofNat 32 (advance s.lanes[b].counter c.seq)) :
    (s.withRest b rest).enterUp b c = ((s.seenUp b c rest n).indicated b).handSet b n c.set false := by
  have hlane := s.withRest_lane b rest
  have hbegun : (fun u : State => { u with phaseElements := upd u.phaseElements b fun _ => none })
      (((s.withRest b rest).onLane b fun l => l.enterUp c s.uptime).onMeter b BankMeter.windowReset)
        = s.begunUp b c rest n := by
    rw [State.withRest, State.onLane_onLane, State.onLane_congr (g := fun l => { l with
      link := .up, counter := n, lastGood := some c.set, runCount := 0, runSeq := none
      silence := some s.uptime, fifo := rest, sinceTake := 0 }) (by rw [hn]; rfl)]
    rfl
  obtain ⟨hlink, hcounter⟩ := s.seenUp_lane b c rest n
  have hn' := (s.seenUp b c rest n).indicated_counter b
  rw [hcounter] at hn'
  have hleft : (s.withRest b rest).lanes[b].link = s.lanes[b].link := by rw [hlane]
  unfold State.enterUp
  dsimp only at hbegun ⊢
  rw [show (s.withRest b rest).uptime = s.uptime from rfl, hbegun, hleft,
    show (State.raise (s.begunUp b c rest n) .bankUp (numberOf b) (.bankUp s.lanes[b].link)).relaySet b c.set.closed
      false .atUp = s.seenUp b c rest n from by unfold State.seenUp numberOf; rfl, State.refreshSheds_placeIndicate hlink, hn']

theorem execTakeSampleCell_toUp {b : Bank} {s : State} {c : SampleCell} {rest : List SampleCell}
    (hlink : s.lanes[b].link = .syncing ∨ s.lanes[b].link = .lost) (hfifo : s.lanes[b].fifo = c :: rest)
    (hspace : 200 ≤ s.lanes[b].sinceTake) (hseq : s.lanes[b].runSeq = some (c.seq - 1)) (hrun : 15 ≤ s.lanes[b].runCount) :
    execTakeSampleCell b s = .next ((s.withRest b rest).enterUp b c) := by
  have hcount : Config.runToUp ≤ ((s.withRest b rest).lanes[b].countRun c.seq).runCount := by
    rw [State.withRest_lane, Lane.countRun_eq]
    dsimp only
    rw [if_pos hseq]
    show 16 ≤ _
    omega
  rw [execTakeSampleCell_inRun hfifo hspace hlink, State.takeInRun, if_pos hcount]

/-- The lane once the first set is handed over: UP, with the shown modes waiting. -/
theorem State.Rereads.lane_of_indicated {s t u : State} {b : Bank} (h : s.Rereads b t) (hup : t.lanes[b].link = .up)
    (h' : (t.indicated b).Rereads b u) : u.lanes[b] = { s.lanes[b] with indicator := some u.shown[b] } := by
  have hshows : (t.indicated b).Shows b := by
    unfold State.Shows
    rw [t.indicated_lane b]
    exact ⟨hup, rfl⟩
  obtain ⟨-, hind⟩ := h'.shows hshows
  have hlane := h'.lane
  rw [hind, t.indicated_lane b, h.lane] at hlane
  exact hlane

/-- Settles O9: a run of 16 ends in entry to UP, and the cell's set begins the first window. -/
theorem sixteenthCellBringsTheLaneUp : Obligations.SixteenthCellBringsTheLaneUp := by
  intro b c rest s hlink hfifo hspace hseq hrun
  obtain ⟨hklow, hkhigh, hbyte⟩ := advance_spec s.lanes[b].counter c.seq
  generalize hk : advance s.lanes[b].counter c.seq = k at hklow hkhigh hbyte
  generalize hn : s.lanes[b].counter + BitVec.ofNat 32 k = n at hbyte
  have hstep : exec (.takeSampleCell b) s = .next (((s.seenUp b c rest n).indicated b).handSet b n c.set false) :=
    (execTakeSampleCell_toUp hlink hfifo hspace hseq hrun).trans
      (congrArg Host.Outcome.next (s.enterUp_eq b c rest (by rw [hk, hn])))
  have hseen := s.seenUp_rereads b c rest n
  have hseenRelays : ∀ o : Outlet, (s.seenUp b c rest n).relays[o] = if bankOf o = b
      then Relay.seen (c.set.closed.getLsbD (posOf o).val) false s.relays[o] else s.relays[o] :=
    fun o => State.relaySet_relays _ b _ _ _ o
  obtain ⟨hup, -⟩ := s.seenUp_lane b c rest n
  generalize ht : ((s.seenUp b c rest n).indicated b).handSet b n c.set false = t at hstep
  have ht' := ht
  generalize s.seenUp b c rest n = seen at hseen hseenRelays hup ht'
  obtain ⟨huptime, hmeters, houtlets, hinterval, hlimits, hphase, hsheds, hqueue, hturn, hsettle, htokens, hgroups,
    houtletTable, hbankTable, hcalTable, hgroupTable, hsafe⟩ := hseen.fields
  have hmeter : seen.meters[b] = { s.meters[b] with
      history := [], armed := false, window := none, crossing := none, winLen := none, lastKind := none
      freqList := [], frequency := 0 } := by
    rw [hmeters]; exact upd_get_self s.meters b _
  obtain ⟨hread, hrelays, h, a, w, hwn, hwaligned, hwfirst, hwinvalid, htmeters⟩ :=
    State.handSet_of_reset_changes (s := seen.indicated b) (by rw [show (seen.indicated b).meters = seen.meters from rfl, hmeter])
      (by rw [show (seen.indicated b).meters = seen.meters from rfl, hmeter]) ht'.symm
  obtain ⟨huptime', -, houtlets', hinterval', hlimits', hphase', hsheds', hqueue', hturn', hsettle', htokens', hgroups',
    houtletTable', hbankTable', hcalTable', hgroupTable', hsafe'⟩ := hread.fields
  have hlane : t.lanes[b] = { s.lanes[b] with
      link := .up, counter := n, lastGood := some c.set, runCount := 0, runSeq := none
      silence := some s.uptime, fifo := rest, sinceTake := 0, indicator := some t.shown[b] } := by
    refine (hseen.lane_of_indicated hup hread).trans ?_
    rw [s.begunUp_lane b c rest n]
  have hcounter : t.lanes[b].counter = n := by rw [hlane]
  have hmeter' : t.meters[b] = { s.meters[b] with
      history := h, armed := a, window := some w, crossing := none, winLen := none, lastKind := none
      freqList := [], frequency := 0 } := by
    rw [htmeters, upd_get_self, show (seen.indicated b).meters = seen.meters from rfl, hmeter]
  have hothers : ∀ b' : Bank, b' ≠ b → t.lanes[b'] = s.lanes[b'] ∧ t.meters[b'] = s.meters[b'] := by
    refine fun b' hb => ⟨(hread.otherLanes b' hb).trans ?_, ?_⟩
    · refine (upd_get_ne seen.lanes (Ne.symm hb) _).trans ((hseen.otherLanes b' hb).trans ?_)
      exact upd_get_ne s.lanes (Ne.symm hb) _
    · rw [htmeters, upd_get_ne _ (Ne.symm hb), show (seen.indicated b).meters = seen.meters from rfl, hmeters]
      exact upd_get_ne s.meters (Ne.symm hb) _
  have hrelay : ∀ o : Outlet, t.relays[o] = if bankOf o = b then
      Relay.seen (c.set.closed.getLsbD (posOf o).val) false
        (Relay.seen (c.set.closed.getLsbD (posOf o).val) false s.relays[o])
      else s.relays[o] := by
    intro o
    rw [hrelays, show (seen.indicated b).relays = seen.relays from rfl, hseenRelays]
    split <;> rfl
  have htimed : t.timedShed b = seen.timedShed b :=
    State.timedShed_congr hlimits' (by rw [hlane, hup]) huptime' hsafe'
  refine ⟨t, k, w, hstep, hklow, hkhigh, hcounter.trans hn.symm, (congrArg (·.toNat % 256) hcounter).trans hbyte, ?_, ?_⟩
  · rw [hcounter]; exact hlane
  · rw [hmeter', hcounter]
    refine ⟨rfl, hwn, hwaligned, hwfirst, hwinvalid, rfl, rfl, rfl, rfl, rfl, rfl, hothers, hphase'.trans hphase,
      fun p => ?_, fun o ho => ?_, houtlets'.trans houtlets, hqueue'.trans hqueue, hinterval'.trans hinterval,
      huptime'.trans huptime, houtletTable'.trans houtletTable, hbankTable'.trans hbankTable, hcalTable'.trans hcalTable,
      hgroupTable'.trans hgroupTable, hgroups'.trans hgroups, hsafe'.trans hsafe, htokens'.trans htokens,
      hturn'.trans hturn, hsettle'.trans hsettle, hlimits'.trans hlimits, ?_, ?_⟩
    · rw [hrelay, if_pos (bankOf_outletAt b p), posOf_outletAt, Relay.seen_seen_state]
      cases s.relays[outletAt b p].state <;> rfl
    · rw [hrelay, if_neg ho]
    · rw [htimed]
      exact hsheds'.trans (congrArg (fun v => upd v b (seen.timedShed b)) hsheds)
    · exact ht.symm

end Sys2Proof.Machine
end

