-- ==== Sys2Proof/Proofs/Reactions.lean ====
section
/-! What completions and the ends of operations set going: the group engine, the switching queue, the table store and safe
control act on each other (R87, R98, R104, R121, R183). `State.Reacts` says what all of that leaves as it was. -/

namespace Sys2Proof.Machine

/-! ## The relation -/

/-- Both timers of a shed unit are stopped. -/
def ShedUnit.Stopped (d : ShedUnit) : Prop := d.shedTimer = none ∧ d.restoreTimer = none

/-- `t` comes from `s` by reactions of the switching side in which the operation of group `own` alone may begin or end anew:
relays stay, lanes change their indicator slots and only while UP, no entry is ISSUED, the timers of a bank that is not
UP stay stopped, and the other groups that are IDLE stay so with their last records. -/
structure State.Reacts (own : Option Group) (s t : State) : Prop where
  quiet : t.quiet = s.quiet
  relays : t.relays = s.relays
  lane : ∀ b : Bank, t.lanes[b] = { s.lanes[b] with indicator := t.lanes[b].indicator }
  dark : ∀ b : Bank, s.lanes[b].link ≠ .up → t.lanes[b] = s.lanes[b]
  queue : ∀ e ∈ t.queue, e.state = .waiting ∨ e ∈ s.queue
  timers : ∀ b : Bank, s.lanes[b].link ≠ .up → s.sheds[b].Stopped → t.sheds[b].Stopped
  idle : ∀ g : Group, own ≠ some g → s.groups[g].op = .idle →
    t.groups[g].op = .idle ∧ t.groups[g].lastRecord = s.groups[g].lastRecord

theorem State.Reacts.refl (own : Option Group) (s : State) : s.Reacts own s :=
  ⟨rfl, rfl, fun _ => rfl, fun _ _ => rfl, fun _ he => .inr he, fun _ _ h => h, fun _ _ h => ⟨h, rfl⟩⟩

theorem State.Reacts.trans {own : Option Group} {s t u : State} (h : s.Reacts own t) (h' : t.Reacts own u) :
    s.Reacts own u := by
  have hdark : ∀ b : Bank, s.lanes[b].link ≠ .up → t.lanes[b].link ≠ .up := fun b hb => by rwa [h.dark b hb]
  refine ⟨h'.quiet.trans h.quiet, h'.relays.trans h.relays, fun b => ?_,
    fun b hb => (h'.dark b (hdark b hb)).trans (h.dark b hb), fun e he => ?_,
    fun b hb hs => h'.timers b (hdark b hb) (h.timers b hb hs), fun g hg hi => ?_⟩
  · rw [h'.lane b, h.lane b]
  · exact (h'.queue e he).elim .inl (h.queue e)
  · obtain ⟨hop, hrec⟩ := h.idle g hg hi
    obtain ⟨hop', hrec'⟩ := h'.idle g hg hop
    exact ⟨hop', hrec'.trans hrec⟩

/-- A group in an operation may be the one whose operation ends. -/
theorem State.Reacts.of_own {own : Option Group} {s t : State} {g : Group} (h : s.Reacts (some g) t)
    (hg : s.groups[g].op ≠ .idle) : s.Reacts own t :=
  { h with idle := fun k _ hk => h.idle k (fun e => hg (Option.some.inj e ▸ hk)) hk }

/-- Relay records play no part in what a reaction leaves. -/
theorem State.Reacts.withRelays {own : Option Group} {s t : State} (h : s.Reacts own t) (v : Vector Relay 48) :
    ({ s with relays := v } : State).Reacts own { t with relays := v } := { h with relays := rfl }

theorem State.foldl_reacts {α : Type} {own : Option Group} (f : State → α → State)
    (h : ∀ (s : State) (a : α), s.Reacts own (f s a)) (l : List α) (s : State) : s.Reacts own (l.foldl f s) :=
  List.foldlRecOn (motive := s.Reacts own) l f (.refl own s) fun _ ht a _ => ht.trans (h _ a)

/-- A change of nothing that the relation speaks of but the quiet part, which is as before. -/
theorem State.Reacts.of_same {own : Option Group} {s t : State} (hq : t.quiet = s.quiet) (hr : t.relays = s.relays)
    (hl : t.lanes = s.lanes) (hqueue : t.queue = s.queue) (hs : t.sheds = s.sheds) (hg : t.groups = s.groups) :
    s.Reacts own t := by
  refine ⟨hq, hr, fun b => ?_, fun b _ => ?_, fun e he => .inr (hqueue ▸ he), fun b _ h => ?_, fun g _ h => ?_⟩
  · rw [hl]
  · rw [hl]
  · rwa [hs]
  · rw [hg]; exact ⟨h, rfl⟩

section Reactions

variable {own : Option Group}

/-! ## Events, monitors, modes -/

theorem State.raiseEvent_reacts (s : State) (e : Event) : s.Reacts own (s.raiseEvent e) :=
  .of_same (s.raiseEvent_quiet e) rfl rfl rfl rfl rfl

theorem State.raise_reacts (s : State) (k : EventKind) (n : Nat) (d : Detail) : s.Reacts own (s.raise k n d) :=
  s.raiseEvent_reacts _

theorem State.onMonitor_reacts (s : State) (g : Group) (f : Monitor → Monitor) : s.Reacts own (s.onMonitor g f) :=
  .of_same rfl rfl rfl rfl rfl rfl

theorem State.notePower_reacts (s before : State) (g : Group) : s.Reacts own (s.notePower before g) := by
  rw [State.notePower_eq_afterPower]
  exact .of_same rfl rfl rfl rfl rfl rfl

theorem State.notePowerOf_reacts (s before : State) (o : Outlet) : s.Reacts own (s.notePowerOf before o) := by
  unfold State.notePowerOf
  split
  · exact .refl own s
  · exact s.notePower_reacts before _

theorem State.placeIndicate_reacts (s : State) (b : Bank) : s.Reacts own (s.placeIndicate b) := by
  by_cases hup : s.lanes[b].link = .up
  · rw [State.placeIndicate_eq_of_up hup]
    have hq := s.onLane_quiet b (fun l => { l with indicator := some s.shown[b] }) fun _ => rfl
    generalize s.shown[b] = x at hq ⊢
    have hget : ∀ c : Bank, (s.onLane b fun l => { l with indicator := some x }).lanes[c]
        = if b = c then { s.lanes[b] with indicator := some x } else s.lanes[c] := fun c => upd_get s.lanes b c _
    refine ⟨hq, rfl, fun c => ?_, fun c hc => ?_, fun _ he => .inr he, fun _ _ h => h, fun _ _ h => ⟨h, rfl⟩⟩
    · rw [hget]
      split
      · rename_i e; subst e; rfl
      · rfl
    · rw [hget, if_neg]
      rintro rfl
      exact hc hup
  · rw [State.placeIndicate_eq_of_not_up hup]
    exact .refl own s

theorem State.refreshModes_reacts (s : State) (b : Bank) : s.Reacts own (s.refreshModes b) := by
  have hshown : ∀ v, s.Reacts own { s with shown := v } := fun _ => .of_same rfl rfl rfl rfl rfl rfl
  unfold State.refreshModes
  split
  · exact .refl own s
  · exact (hshown _).trans (State.placeIndicate_reacts _ b)

theorem State.refreshModesOf_reacts (s : State) (os : List Outlet) : s.Reacts own (s.refreshModesOf os) := by
  refine State.foldl_reacts _ (fun s b => ?_) _ s
  split
  · exact s.refreshModes_reacts b
  · exact .refl own s

/-! ## Shed units -/

theorem State.timedShed_stopped {s : State} {b : Bank} (h : s.lanes[b].link ≠ .up) (d : ShedUnit) :
    (s.timedShed b d).Stopped :=
  ⟨if_neg fun ⟨_, hup, _⟩ => h hup, if_neg fun ⟨_, hup, _⟩ => h hup⟩

theorem State.timedShed_reacts (s : State) (b : Bank) (f : ShedUnit → ShedUnit) :
    s.Reacts own { s with sheds := upd s.sheds b fun d => s.timedShed b (f d) } := by
  refine ⟨rfl, rfl, fun _ => rfl, fun _ _ => rfl, fun _ he => .inr he, fun c hc h => ?_, fun _ _ h => ⟨h, rfl⟩⟩
  show (upd s.sheds b _)[c].Stopped
  rw [upd_get]
  split
  · rename_i e; subst e; exact State.timedShed_stopped hc _
  · exact h

theorem State.endFlights_reacts (s : State) (o : Outlet) : s.Reacts own (s.endFlights o) := by
  rw [State.endFlights_eq_landed]
  exact s.timedShed_reacts _ _

/-! ## The switching queue -/

/-- Entries that leave the queue, or join it WAITING. -/
theorem State.withQueue_reacts (s : State) (q : List QueueEntry) (h : ∀ e ∈ q, e.state = .waiting ∨ e ∈ s.queue) :
    s.Reacts own { s with queue := q } :=
  ⟨rfl, rfl, fun _ => rfl, fun _ _ => rfl, h, fun _ _ h => h, fun _ _ h => ⟨h, rfl⟩⟩

theorem State.dropEntry_reacts (s : State) (o : Outlet) : s.Reacts own (s.dropEntry o) :=
  s.withQueue_reacts _ fun _ he => .inr (List.mem_of_mem_filter he)

theorem State.joinQueue_reacts (s : State) (o : Outlet) (a : Action) (r : Origin) : s.Reacts own (s.joinQueue o a r) :=
  s.withQueue_reacts _ fun _ he => (List.mem_append.1 he).elim .inr fun h => .inl (List.mem_singleton.1 h ▸ rfl)

theorem State.request_reacts (s : State) (o : Outlet) (a : Action) (r : Origin) : s.Reacts own (s.request o a r).2 := by
  unfold State.request
  split
  · exact s.joinQueue_reacts o a r
  · split
    · exact .refl own s
    · split
      · exact .refl own s
      · split
        · exact .refl own s
        · exact ((s.dropEntry_reacts o).trans (State.endFlights_reacts _ o)).trans (State.joinQueue_reacts _ o a r)

theorem State.withdraw_reacts (s : State) (p : QueueEntry → Bool) : s.Reacts own (s.withdraw p) := by
  unfold State.withdraw
  exact (s.withQueue_reacts _ fun _ he => .inr (List.mem_of_mem_filter he)).trans
    (State.foldl_reacts _ (fun s (e : QueueEntry) => s.endFlights_reacts e.outlet) _ _)

/-! ## Group operations -/

/-- Group `own`'s operation changes in whatever way. -/
theorem State.onGroup_reacts_own (s : State) (g : Group) (f : GroupOp → GroupOp) : s.Reacts (some g) (s.onGroup g f) := by
  refine ⟨rfl, rfl, fun _ => rfl, fun _ _ => rfl, fun _ he => .inr he, fun _ _ h => h, fun k hk h => ?_⟩
  show (upd s.groups g f)[k].op = _ ∧ (upd s.groups g f)[k].lastRecord = _
  rw [upd_get_ne _ fun e : g = k => hk (congrArg some e)]
  exact ⟨h, rfl⟩

/-- A group's operation changes, but not its operation state or its last record. -/
theorem State.onGroup_reacts (s : State) (g : Group) (f : GroupOp → GroupOp)
    (hf : ∀ r, (f r).op = r.op ∧ (f r).lastRecord = r.lastRecord) : s.Reacts own (s.onGroup g f) := by
  refine ⟨rfl, rfl, fun _ => rfl, fun _ _ => rfl, fun _ he => .inr he, fun _ _ h => h, fun k _ h => ?_⟩
  show (upd s.groups g f)[k].op = _ ∧ (upd s.groups g f)[k].lastRecord = _
  rw [upd_get]
  split
  · rename_i e; subst e; exact ⟨(hf _).1.trans h, (hf _).2⟩
  · exact ⟨h, rfl⟩

theorem State.mark_reacts (s : State) (g : Group) (o : Outlet) (p : Progress) : s.Reacts own (s.mark g o p) :=
  s.onGroup_reacts g _ fun _ => ⟨rfl, rfl⟩

theorem State.await_reacts (s : State) (g : Group) (o : Outlet) : s.Reacts own (s.await g o) := by
  unfold State.await
  exact (s.onGroup_reacts g _ (by exact fun _ => ⟨rfl, rfl⟩)).trans (State.mark_reacts _ g o _)

theorem State.addFaulted_reacts (s : State) (g : Group) (o : Outlet) : s.Reacts own (s.addFaulted g o) := by
  unfold State.addFaulted
  exact (s.onGroup_reacts g _ (by exact fun _ => ⟨rfl, rfl⟩)).trans (State.mark_reacts _ g o _)

theorem State.withdrawAwaited_reacts (s : State) (g : Group) : s.Reacts own (s.withdrawAwaited g) :=
  (s.withdraw_reacts _).trans (State.onGroup_reacts _ g _ fun _ => ⟨rfl, rfl⟩)

/-! ## Group entries that apply, and the end of an operation -/

theorem State.groupApplied_reacts (before s : State) (g : Group) : s.Reacts own (State.groupApplied before s g) := by
  unfold State.groupApplied
  exact (((s.onGroup_reacts g _ (by exact fun _ => ⟨rfl, rfl⟩)).trans (State.onMonitor_reacts _ g _)).trans
    (State.refreshModesOf_reacts _ _)).trans (State.notePower_reacts _ before g)

theorem State.withGroupTable_reacts (s : State) (t : Staged GroupEntry 32 32) : s.Reacts own { s with groupTable := t } :=
  .of_same rfl rfl rfl rfl rfl rfl

theorem State.applyGroups_reacts (s : State) (gs : List Group) : s.Reacts own (s.applyGroups gs) :=
  (s.withGroupTable_reacts _).trans (State.foldl_reacts _ (fun u g => State.groupApplied_reacts s u g) gs _)

theorem State.releaseGroups_reacts (s : State) : s.Reacts own s.releaseGroups := by
  unfold State.releaseGroups
  dsimp only
  split
  · exact .refl own s
  · split
    · exact ((s.applyGroups_reacts _).trans (State.withGroupTable_reacts _ _)).trans (State.raise_reacts _ _ _ _)
    · exact (s.applyGroups_reacts _).trans (State.withGroupTable_reacts _ _)

theorem State.endOp_reacts (s : State) (g : Group) (result : OpResult) (reason : Option OpReason) (verified : Bool) :
    s.Reacts (some g) (s.endOp g result reason verified) := by
  unfold State.endOp
  exact ((((s.onGroup_reacts_own g _).trans (State.raiseEvent_reacts _ _)).trans (State.onMonitor_reacts _ g _)).trans
    (State.refreshModesOf_reacts _ _)).trans (State.releaseGroups_reacts _)

theorem State.failOp_reacts (s : State) (g : Group) (reason : OpReason) : s.Reacts (some g) (s.failOp g reason) :=
  (s.withdrawAwaited_reacts g).trans (State.endOp_reacts _ g _ _ _)

/-! ## Operations that go on -/

theorem State.enterVerifying_reacts (s : State) (g : Group) : s.Reacts (some g) (s.enterVerifying g) := by
  unfold State.enterVerifying
  dsimp only
  split
  · exact (s.onGroup_reacts_own g _).trans (State.endOp_reacts _ g _ _ _)
  · exact s.onGroup_reacts_own g _

theorem State.oningOver_reacts (s : State) (g : Group) : s.Reacts (some g) (s.oningOver g) := by
  unfold State.oningOver
  split
  · exact s.endOp_reacts g _ _ _
  · exact s.enterVerifying_reacts g

theorem State.takeTurns_reacts (k : Nat) (g : Group) (i : Nat) (s : State) :
    s.Reacts (some g) (State.takeTurns k g i s) := by
  induction k generalizing i s with
  | zero => exact .refl _ s
  | succ k ih =>
    rw [State.takeTurns_succ]
    split
    · exact s.oningOver_reacts g
    · split
      · exact (s.onGroup_reacts_own g _).trans (ih _ _)
      · rename_i m _ _ _
        have hgroups : (s.request m .close (.group g)).2.groups = s.groups := by rw [State.request_changes]
        rw [← hgroups]
        exact (s.request_reacts m .close (.group g)).trans (State.onGroup_reacts_own _ g _)

theorem State.turnsFrom_reacts (s : State) (g : Group) (i : Nat) : s.Reacts (some g) (s.turnsFrom g i) :=
  State.takeTurns_reacts _ g i s

theorem State.enterOning_reacts (s : State) (g : Group) : s.Reacts (some g) (s.enterOning g) :=
  (s.onGroup_reacts_own g _).trans (State.turnsFrom_reacts _ g 0)

theorem State.afterClose_reacts (s : State) (g : Group) : s.Reacts (some g) (s.afterClose g) := by
  unfold State.afterClose
  dsimp only
  split
  · exact s.oningOver_reacts g
  · split
    · exact s.turnsFrom_reacts g _
    · exact s.onGroup_reacts_own g _

theorem State.requestOpen_reacts (s : State) (g : Group) (o : Outlet) : s.Reacts own (s.requestOpen g o) :=
  (s.request_reacts o _ _).trans (State.await_reacts _ g o)

theorem State.offingOver_reacts (s : State) (g : Group) : s.Reacts (some g) (s.offingOver g) := by
  unfold State.offingOver
  dsimp only
  split
  · exact .refl _ s
  · split
    · exact s.endOp_reacts g _ _ _
    · split
      · split
        · exact s.endOp_reacts g _ _ _
        · exact s.endOp_reacts g _ _ _
      · split
        · exact (s.onGroup_reacts_own g _).trans (State.enterOning_reacts _ g)
        · exact s.onGroup_reacts_own g _

/-! ## Completions -/

theorem State.offingCompletion_reacts (s : State) (g : Group) (o : Outlet) (a : Action) (res : Completion) :
    s.Reacts (some g) (s.offingCompletion g o a res) := by
  unfold State.offingCompletion
  split
  · exact s.failOp_reacts g _
  · exact s.offingOver_reacts g
  · split
    · exact (s.mark_reacts g o _).trans (State.offingOver_reacts _ g)
    · split
      · exact s.offingOver_reacts g
      · split
        · exact (s.mark_reacts g o _).trans (State.offingOver_reacts _ g)
        · exact (s.requestOpen_reacts g o).trans (State.offingOver_reacts _ g)

theorem State.oningCompletion_reacts (s : State) (g : Group) (o : Outlet) (res : Completion) :
    s.Reacts (some g) (s.oningCompletion g o res) := by
  unfold State.oningCompletion
  split
  · split
    · exact (s.mark_reacts g o _).trans (State.failOp_reacts _ g _)
    · exact s.turnsFrom_reacts g _
  · split
    · exact (s.mark_reacts g o _).trans (State.afterClose_reacts _ g)
    · exact (s.addFaulted_reacts g o).trans (State.afterClose_reacts _ g)
    · exact (s.mark_reacts g o _).trans (State.failOp_reacts _ g _)
    · exact (s.mark_reacts g o _).trans (State.failOp_reacts _ g _)

theorem State.groupCompletion_reacts (s : State) (o : Outlet) (a : Action) (res : Completion) :
    s.Reacts own (s.groupCompletion o a res) := by
  unfold State.groupCompletion
  split
  · exact .refl own s
  · rename_i g _
    have hleave : ∀ own : Option Group,
        s.Reacts own (s.onGroup g fun r => { r with awaited := r.awaited.filter (· != o) }) := fun _ =>
      s.onGroup_reacts g _ fun _ => ⟨rfl, rfl⟩
    dsimp only
    generalize (s.onGroup g fun r => { r with awaited := r.awaited.filter (· != o) }) = u at *
    refine (hleave own).trans ?_
    split
    · rename_i hop
      exact (u.offingCompletion_reacts g o a res).of_own (by rw [hop]; decide)
    · rename_i hop
      exact (u.oningCompletion_reacts g o res).of_own (by rw [hop]; decide)
    all_goals exact .refl own u

theorem State.withOutletTable_reacts (s : State) (t : Staged OutletEntry 48 48) : s.Reacts own { s with outletTable := t } :=
  .of_same rfl rfl rfl rfl rfl rfl

theorem State.releaseOutlet_reacts (s : State) (o : Outlet) : s.Reacts own (s.releaseOutlet o) := by
  have happly : s.Reacts own (s.applyOutlet o) := (s.withOutletTable_reacts _).trans (State.refreshModes_reacts _ _)
  unfold State.releaseOutlet
  split
  · dsimp only
    split
    · exact ((happly.trans (State.withOutletTable_reacts _ _)).trans (State.withOutletTable_reacts _ _)).trans
        (State.raise_reacts _ _ _ _)
    · exact happly.trans (State.withOutletTable_reacts _ _)
  · exact .refl own s

theorem State.safeFollowUp_reacts (s : State) (o : Outlet) : s.Reacts own (s.safeFollowUp o) := by
  have hset : ∀ l, s.Reacts own { s with safe := { s.safe with followUp := l } } := fun l =>
    .of_same (s.setFollowUp_quiet l) rfl rfl rfl rfl rfl
  unfold State.safeFollowUp
  split
  · refine (hset (s.safe.followUp.filter (· != o))).trans ?_
    dsimp only
    split
    · split
      · exact .refl own _
      · split
        · exact .refl own _
        · exact State.request_reacts _ _ _ _
      · split
        · exact .refl own _
        · exact State.request_reacts _ _ _ _
    · exact .refl own _
  · exact .refl own s

theorem State.endTurnOn_reacts (s : State) (b : Bank) (res : Completion) : s.Reacts own (s.endTurnOn b res) :=
  .of_same rfl rfl rfl rfl rfl rfl

/-- What follows the leaving of the queue at a completion (R98). -/
theorem State.complete_reacts_of_entry {s : State} {o : Outlet} {e : QueueEntry} (he : s.entryOf o = some e)
    (res : Completion) (act : Option SetNo) : (s.dropEntry o).Reacts own (s.complete o res act) := by
  have hturn : ∀ u : State, u.Reacts own
      (if e.action = .close ∧ e.isWaiting = false then u.endTurnOn (bankOf o) res else u) := fun u => by
    split
    · exact u.endTurnOn_reacts _ _
    · exact .refl own u
  unfold State.complete
  rw [he]
  exact (((((State.releaseOutlet_reacts _ o).trans (hturn _)).trans (State.raiseEvent_reacts _ _)).trans
    (State.endFlights_reacts _ o)).trans (State.groupCompletion_reacts _ o _ res)).trans (State.safeFollowUp_reacts _ o)

theorem State.complete_reacts (s : State) (o : Outlet) (res : Completion) (act : Option SetNo) :
    s.Reacts own (s.complete o res act) := by
  cases he : s.entryOf o with
  | none => unfold State.complete; rw [he]; exact .refl own s
  | some e => exact (s.dropEntry_reacts o).trans (State.complete_reacts_of_entry he res act)

end Reactions

end Sys2Proof.Machine
end

