-- ==== Sys2Proof/Proofs/BankLost.lean ====
section
/-! Entry to LOST: the parts in which the blocks act (R13, R59, R78, R119, R150, R187). -/

namespace Sys2Proof.Machine

/-! ## The operations that need the bank fail (R119) -/

/-- An operation that the loss of bank `b` ends: OFFING, DWELL or ONING, not cancelled, with a member in the bank. -/
def State.NeedsBank (s : State) (b : Bank) (g : Group) : Prop :=
  (s.groups[g].op = .offing ∨ s.groups[g].op = .dwell ∨ s.groups[g].op = .oning) ∧ s.groups[g].cancel = false
    ∧ ∃ o ∈ s.members g, bankOf o = b

/-- One group at the loss of bank `b`. -/
def State.failNeeding (b : Bank) (s : State) (g : Group) : State :=
  if (s.groups[g].op = .offing ∨ s.groups[g].op = .dwell ∨ s.groups[g].op = .oning) ∧ s.groups[g].cancel = false
      ∧ ∃ o ∈ s.members g, bankOf o = b then
    s.failOp g .bankLost
  else s

theorem State.failNeeding_of_needs {s : State} {b : Bank} {g : Group} (h : s.NeedsBank b g) :
    s.failNeeding b g = s.failOp g .bankLost := if_pos h

theorem State.failNeeding_of_not {s : State} {b : Bank} {g : Group} (h : ¬ s.NeedsBank b g) : s.failNeeding b g = s :=
  if_neg h

theorem State.NeedsBank.op_ne {s : State} {b : Bank} {g : Group} (h : s.NeedsBank b g) : s.groups[g].op ≠ .idle := by
  obtain ⟨hop | hop | hop, -⟩ := h <;> rw [hop] <;> decide

theorem State.groupBankLost_eq (s : State) (b : Bank) : s.groupBankLost b = allGroups.foldl (State.failNeeding b) s := by
  unfold State.groupBankLost
  congr 1
  funext x g
  refine if_congr ?_ rfl rfl
  rw [List.any_eq_true]
  simp only [beq_iff_eq]

theorem State.failNeeding_reacts (s : State) (b : Bank) (g : Group) : s.Reacts none (s.failNeeding b g) := by
  by_cases h : s.NeedsBank b g
  · rw [State.failNeeding_of_needs h]
    exact (s.failOp_reacts g _).of_own h.op_ne
  · rw [State.failNeeding_of_not h]
    exact .refl none s

theorem State.groupBankLost_reacts (s : State) (b : Bank) : s.Reacts none (s.groupBankLost b) := by
  rw [State.groupBankLost_eq]
  exact State.foldl_reacts _ (fun s g => s.failNeeding_reacts b g) _ s

/-- A withdrawal changes the queue and the shed units. -/
theorem State.withdraw_groups (s : State) (p : QueueEntry → Bool) :
    (s.withdraw p).groups = s.groups ∧ (s.withdraw p).groupTable = s.groupTable ∧ (s.withdraw p).uptime = s.uptime := by
  have hkeep : ∀ (u : State) (e : QueueEntry), ((u.endFlights e.outlet).groups, (u.endFlights e.outlet).groupTable,
      (u.endFlights e.outlet).uptime) = (u.groups, u.groupTable, u.uptime) := fun _ _ => rfl
  have hfold := foldl_keeps (fun u : State => (u.groups, u.groupTable, u.uptime)) _ hkeep
    (s.queue.filter fun e => e.isWaiting && p e) { s with queue := s.queue.filter fun e => !(e.isWaiting && p e) }
  simp only [Prod.mk.injEq] at hfold
  exact hfold

/-- Before a failing group's operation ends, its awaited set alone is less. -/
theorem State.withdrawAwaited_groups (s : State) (g : Group) :
    (∀ k : Group, k ≠ g → (s.withdrawAwaited g).groups[k] = s.groups[k])
    ∧ (s.withdrawAwaited g).groupTable = s.groupTable ∧ (s.withdrawAwaited g).uptime = s.uptime := by
  obtain ⟨hgroups, htable, huptime⟩ :=
    s.withdraw_groups fun e => e.origin == .group g && decide (e.outlet ∈ s.groups[g].awaited)
  refine ⟨fun k hk => ?_, htable, huptime⟩
  unfold State.withdrawAwaited State.onGroup
  dsimp only
  rw [upd_get_ne _ (Ne.symm hk), hgroups]

/-- The operation of group `g` has failed with reason BANK_LOST at uptime `now`. -/
def State.FailedAt (s : State) (g : Group) (now : Uptime) : Prop :=
  s.groups[g].op = .idle ∧ ∃ r : OpRecord, s.groups[g].lastRecord = some r ∧ r.result = .failed
    ∧ r.reason = some .bankLost ∧ r.stop = now

theorem State.Reacts.failedAt {s t : State} {g : Group} {now : Uptime} (h : s.Reacts none t) (hf : s.FailedAt g now) :
    t.FailedAt g now := by
  obtain ⟨hop, r, hr, hspec⟩ := hf
  obtain ⟨hop', hr'⟩ := h.idle g nofun hop
  exact ⟨hop', r, hr'.trans hr, hspec⟩

theorem State.failOp_failedAt (s : State) (g : Group) : (s.failOp g .bankLost).FailedAt g s.uptime := by
  obtain ⟨-, -, huptime⟩ := s.withdrawAwaited_groups g
  obtain ⟨-, -, hlike, -⟩ := (s.withdrawAwaited g).endOp_groups g .failed (some .bankLost) false
  obtain ⟨hop, hrec, -⟩ := hlike
  exact ⟨hop, _, hrec, rfl, rfl, huptime⟩

/-- The failing of one group leaves another group's operation that goes on. -/
theorem State.failOp_other (s : State) {g k : Group} (reason : OpReason) (hk : k ≠ g) (hop : s.groups[k].op ≠ .idle) :
    (s.failOp g reason).groups[k] = s.groups[k]
    ∧ (s.failOp g reason).groupTable.active[k] = s.groupTable.active[k] := by
  obtain ⟨hgroups, htable, -⟩ := s.withdrawAwaited_groups g
  have hop' : (s.withdrawAwaited g).groups[k].op ≠ .idle := by rw [hgroups k hk]; exact hop
  obtain ⟨hg, -, ht⟩ := ((s.withdrawAwaited g).endOp_groups g .failed (some reason) false).1 k hk (.inl hop')
  unfold State.failOp
  exact ⟨hg.trans (hgroups k hk), ht.trans (congrArg (fun t : Staged GroupEntry 32 32 => t.active[k]) htable)⟩

theorem State.NeedsBank.congr {s t : State} {b : Bank} {g : Group} (h : s.NeedsBank b g)
    (hg : t.groups[g] = s.groups[g]) (ht : t.groupTable.active[g] = s.groupTable.active[g]) : t.NeedsBank b g := by
  unfold State.NeedsBank State.members
  rw [hg, ht]
  exact h

/-- Each operation that needs the bank fails at its group's turn. -/
theorem State.foldl_failNeeding_failedAt (b : Bank) (g : Group) (now : Uptime) (gs : List Group) (s : State)
    (huptime : s.uptime = now) (h : g ∈ gs ∧ s.NeedsBank b g ∨ s.FailedAt g now) :
    (gs.foldl (State.failNeeding b) s).FailedAt g now := by
  induction gs generalizing s with
  | nil => exact h.resolve_left fun ⟨hmem, _⟩ => nomatch hmem
  | cons k gs ih =>
    have hreacts := s.failNeeding_reacts b k
    refine ih _ ?_ ?_
    · obtain ⟨-, huptime', -⟩ := State.quiet_fields hreacts.quiet
      exact huptime'.trans huptime
    · obtain ⟨hmem, hneeds⟩ | hdone := h
      · by_cases hk : g = k
        · subst hk
          rw [State.failNeeding_of_needs hneeds, ← huptime]
          exact .inr (s.failOp_failedAt g)
        · refine .inl ⟨(List.mem_cons.1 hmem).resolve_left hk, ?_⟩
          by_cases hother : s.NeedsBank b k
          · rw [State.failNeeding_of_needs hother]
            obtain ⟨hg, ht⟩ := s.failOp_other .bankLost hk hneeds.op_ne
            exact hneeds.congr hg ht
          · rw [State.failNeeding_of_not hother]
            exact hneeds
      · exact .inr (hreacts.failedAt hdone)

theorem State.groupBankLost_failedAt {s : State} {b : Bank} {g : Group} (h : s.NeedsBank b g) :
    (s.groupBankLost b).FailedAt g s.uptime := by
  rw [State.groupBankLost_eq]
  exact State.foldl_failNeeding_failedAt b g s.uptime _ s rfl (.inl ⟨List.mem_finRange g, h⟩)

/-! ## The relay block (R78) -/

/-- A relay record once its bank is lost. -/
def Relay.lost (r : Relay) : Relay :=
  if r.flight = none then { r with weld := 0, dead := 0 } else .settled .unknown none

theorem State.relayLost_relays (s : State) (o : Outlet) : (s.relayLost o).relays = upd s.relays o Relay.lost := by
  cases hf : s.relays[o].flight with
  | none =>
    have hlost : Relay.lost s.relays[o] = { s.relays[o] with weld := 0, dead := 0 } := if_pos hf
    rw [State.relayLost_of_none s o hf]
    exact upd_congr (f := fun r : Relay => { r with weld := 0, dead := 0 }) hlost.symm
  | some f =>
    have hlost : Relay.lost s.relays[o] = .settled .unknown none := if_neg (by rw [hf]; exact nofun)
    rw [State.relayLost_of_flight s o f hf, (State.complete_reacts (own := none) _ o _ _).relays, State.setRelay_relays]
    exact upd_congr hlost.symm

theorem State.setRelay_reacts (s : State) (o : Outlet) (f : Relay → Relay) :
    ({ s with relays := upd s.relays o f } : State).Reacts none (s.setRelay o f) :=
  (State.refreshModes_reacts _ _).trans (State.notePowerOf_reacts _ s o)

/-- The new relay record apart, the loss of an outlet is a reaction. -/
theorem State.relayLost_reacts (s : State) (o : Outlet) :
    ({ s with relays := (s.relayLost o).relays } : State).Reacts none (s.relayLost o) := by
  cases hf : s.relays[o].flight with
  | none =>
    rw [State.relayLost_of_none s o hf]
    exact .refl none _
  | some f =>
    rw [State.relayLost_of_flight s o f hf]
    have hset := s.setRelay_reacts o fun _ => { state := .unknown, detail := none, flight := none, weld := 0, dead := 0 }
    have hcomplete := State.complete_reacts (own := none)
      (s.setRelay o fun _ => { state := .unknown, detail := none, flight := none, weld := 0, dead := 0 }) o .lost
      (some f.actuateAt)
    rw [hcomplete.relays, hset.relays]
    exact hset.trans hcomplete

theorem State.foldl_relayLost_reacts (os : List Outlet) (s : State) :
    ({ s with relays := (os.foldl State.relayLost s).relays } : State).Reacts none (os.foldl State.relayLost s) := by
  induction os generalizing s with
  | nil => exact .refl none s
  | cons o os ih => exact ((s.relayLost_reacts o).withRelays _).trans (ih (s.relayLost o))

theorem State.foldl_relayLost_relays (s : State) (b : Bank) (o : Outlet) :
    ((outletsOf b).foldl State.relayLost s).relays[o] = if bankOf o = b then Relay.lost s.relays[o] else s.relays[o] := by
  have h := foldl_outlets_relays (f := fun s p => s.relayLost (outletAt b p)) (b := b) (g := fun _ => Relay.lost)
    (fun s p => s.relayLost_relays (outletAt b p)) s o
  rw [outletsOf, List.foldl_map]
  exact h

/-- No entry of outlet `o` is ISSUED. -/
def State.NoneIssued (s : State) (o : Outlet) : Prop := ∀ e ∈ s.queue, e.outlet = o → e.state = .waiting

theorem State.Reacts.noneIssued {own : Option Group} {s t : State} {o : Outlet} (h : s.Reacts own t) (hs : s.NoneIssued o) :
    t.NoneIssued o := fun e he ho => (h.queue e he).elim id fun hm => hs e hm ho

theorem State.complete_noneIssued (s : State) (o : Outlet) (res : Completion) (act : Option SetNo) :
    (s.complete o res act).NoneIssued o := by
  cases he : s.entryOf o with
  | none =>
    unfold State.complete
    rw [he]
    intro e hmem ho
    have hno := List.find?_eq_none.1 he e hmem
    exact absurd ho (by simpa using hno)
  | some e =>
    refine (State.complete_reacts_of_entry (own := none) he res act).noneIssued fun x hx ho => ?_
    obtain ⟨-, hne⟩ := List.mem_filter.1 hx
    exact absurd ho (by simpa using hne)

theorem State.relayLost_noneIssued {s : State} {o : Outlet} (h : s.relays[o].flight ≠ none) :
    (s.relayLost o).NoneIssued o := by
  obtain ⟨f, hf⟩ := Option.ne_none_iff_exists'.1 h
  rw [State.relayLost_of_flight s o f hf]
  exact State.complete_noneIssued _ o _ _

/-- An outlet with an action in flight has no ISSUED entry once its turn has come. -/
theorem State.foldl_relayLost_noneIssued (o : Outlet) (os : List Outlet) (s : State)
    (h : o ∈ os ∧ s.relays[o].flight ≠ none ∨ s.NoneIssued o) : (os.foldl State.relayLost s).NoneIssued o := by
  induction os generalizing s with
  | nil => exact h.resolve_left fun ⟨hmem, _⟩ => nomatch hmem
  | cons k os ih =>
    refine ih _ ?_
    obtain ⟨hmem, hflight⟩ | hdone := h
    · by_cases hk : k = o
      · subst hk
        exact .inr (State.relayLost_noneIssued hflight)
      · refine .inl ⟨(List.mem_cons.1 hmem).resolve_left (Ne.symm hk), ?_⟩
        rw [State.relayLost_relays, upd_get_ne _ hk]
        exact hflight
    · exact .inr ((s.relayLost_reacts k).noneIssued (o := o) hdone)

/-! ## The capture unit (R187) -/

theorem State.captureLost_of_other {s : State} {b : Bank}
    (h : s.capture.state ≠ .armed ∧ s.capture.state ≠ .filling
      ∨ ∀ o : Outlet, s.capture.outlet = some o → bankOf o ≠ b) :
    s.captureLost b = s := by
  unfold State.captureLost
  split
  · rfl
  · rename_i o ho
    refine if_neg fun ⟨hst, hb⟩ => ?_
    obtain ⟨harmed, hfilling⟩ | hother := h
    · exact hst.elim harmed hfilling
    · exact hother o ho hb

theorem State.captureLost_of_on {s : State} {b : Bank} {o : Outlet} (ho : s.capture.outlet = some o) (hb : bankOf o = b)
    (hst : s.capture.state = .armed ∨ s.capture.state = .filling) :
    s.captureLost b = State.raiseCaptureDone { s with capture := .reset } o
      { outlet := some o, result := some .aborted, kind := none, n := s.capture.buffer.length,
        first := s.capture.first, stamp := some (s.interval.number, s.uptime) } := by
  unfold State.captureLost
  rw [ho]
  exact if_pos ⟨hst, hb⟩

/-- The abort of a capture changes the capture unit and raises an event. -/
theorem State.captureLost_changes (s : State) (b : Bank) :
    s.captureLost b = { s with capture := (s.captureLost b).capture, notifier := (s.captureLost b).notifier
                               link0 := (s.captureLost b).link0 } := by
  unfold State.captureLost
  split
  · rfl
  · split <;> rfl

/-! ## The tables committed by bank (R150) -/

theorem mem_calEntriesOf (i : Fin 54) (b : Bank) : i ∈ calEntriesOf b ↔ bankOfCal i = b := by
  revert i b
  decide

theorem Staged.copyEntries_active_mem {α : Type} {n m : Nat} (t : Staged α n m) {is : List (Fin n)} {i : Fin n}
    (h : i ∈ is) : (t.copyEntries is).active[i] = t.pending[i] := by
  have hfold : ∀ (is : List (Fin n)) (v : Vector α n), i ∈ is ∨ v[i] = t.pending[i] →
      (is.foldl (fun v i => upd v i fun _ => t.pending[i]) v)[i] = t.pending[i] := by
    intro is
    induction is with
    | nil => exact fun v h => h.resolve_left fun hm => nomatch hm
    | cons k is ih =>
      intro v h
      refine ih _ ?_
      by_cases hk : k = i
      · subst hk; exact .inr (upd_get_self v k _)
      · rw [upd_get_ne _ hk]
        exact h.imp_left fun hm => (List.mem_cons.1 hm).resolve_left (Ne.symm hk)
  exact hfold is t.active (.inl h)

theorem Staged.releaseBank_applies {α : Type} {n : Nat} (t : Staged α n 6) (b : Bank) (is : List (Fin n)) :
    b ∉ (t.releaseBank b is).waiting ∧ ∀ i ∈ is, (t.releaseBank b is).active[i] = t.pending[i] := by
  have hactive : ∀ i ∈ is, (t.copyEntries is).active[i] = t.pending[i] := fun i hi => t.copyEntries_active_mem hi
  unfold Staged.releaseBank
  dsimp only
  split
  · exact ⟨List.not_mem_nil, hactive⟩
  · exact ⟨fun hm => by simpa using (List.mem_filter.1 hm).2, hactive⟩

theorem State.boundary_calTable {s : State} {b : Bank} (h : b ∈ s.calTable.waiting) :
    (s.boundary b).calTable = s.calTable.releaseBank b (calEntriesOf b) := by
  have hrest : ∀ u : State, (u.releaseBankEntry b).calTable = u.calTable := fun u => by
    unfold State.releaseBankEntry
    split
    · exact (State.fillHeld_tables _ _).1
    · rfl
  unfold State.boundary
  rw [hrest, State.releaseCal, if_pos h, (State.fillHeld_tables _ _).1]

theorem State.boundary_bankTable {s : State} {b : Bank} (h : b ∈ s.bankTable.waiting) :
    (s.boundary b).bankTable = s.bankTable.releaseBank b [b] := by
  have hcal : (s.releaseCal b).bankTable = s.bankTable := by
    unfold State.releaseCal
    split
    · exact (State.fillHeld_tables _ _).2
    · rfl
  unfold State.boundary
  rw [State.releaseBankEntry, hcal, if_pos h, (State.fillHeld_tables _ _).2]

end Sys2Proof.Machine
end

