-- ==== Sys2Proof/Proofs/Silence.lean ====
section
/-! Silence takes an UP lane to LOST (R12, R13). -/

namespace Sys2Proof.Machine

/-! ## The stages of the entry -/

/-- The lane, meter and phase element of bank `b` at entry to LOST. -/
def State.begunLost (s : State) (b : Bank) : State :=
  { s with
    lanes := upd s.lanes b fun l => { l with
      link := .lost, silence := none, relayList := [], indicator := none, runCount := 0, runSeq := none }
    meters := upd s.meters b fun m => { m with window := none }
    phaseElements := upd s.phaseElements b fun _ => none }

/-- BANK_LOST is raised. -/
def State.toldLost (s : State) (b : Bank) : State :=
  (s.begunLost b).raise .bankLost (b.val + 1) (.bankLost s.lanes[b].counter)

/-- The bank's shed and restore timers stop. -/
def State.stoppedLost (s : State) (b : Bank) : State :=
  { s.toldLost b with sheds := upd (s.toldLost b).sheds b fun d => { d with shedTimer := none, restoreTimer := none } }

/-- The operations that need the bank have failed. -/
def State.failedLost (s : State) (b : Bank) : State := (s.stoppedLost b).groupBankLost b

/-- The bank's relays are lost. -/
def State.unknownLost (s : State) (b : Bank) : State := (outletsOf b).foldl State.relayLost (s.failedLost b)

theorem State.timedShed_of_not_up {s : State} {b : Bank} (h : s.lanes[b].link ≠ .up) (d : ShedUnit) :
    s.timedShed b d = { d with shedTimer := none, restoreTimer := none } := by
  obtain ⟨hshed, hrestore⟩ := State.timedShed_stopped h d
  have heta : s.timedShed b d =
      { d with shedTimer := (s.timedShed b d).shedTimer, restoreTimer := (s.timedShed b d).restoreTimer } := rfl
  rw [hshed, hrestore] at heta
  exact heta

theorem State.toldLost_lane (s : State) (b : Bank) : (s.toldLost b).lanes[b] = { s.lanes[b] with
    link := .lost, silence := none, relayList := [], indicator := none, runCount := 0, runSeq := none } :=
  upd_get_self s.lanes b _

theorem State.toldLost_link (s : State) (b : Bank) : (s.toldLost b).lanes[b].link ≠ .up := by
  rw [s.toldLost_lane b]
  exact nofun

theorem State.refreshSheds_toldLost (s : State) (b : Bank) : (s.toldLost b).refreshSheds b = s.stoppedLost b := by
  rw [State.refreshSheds_eq_timedShed, State.stoppedLost, funext (State.timedShed_of_not_up (s.toldLost_link b))]

theorem State.enterLost_eq (s : State) (b : Bank) : s.enterLost b = ((s.unknownLost b).captureLost b).boundary b := by
  unfold State.unknownLost State.failedLost
  rw [← s.refreshSheds_toldLost b]
  rfl

/-! ## What the stages leave -/

theorem State.unknownLost_reacts (s : State) (b : Bank) :
    ({ s.stoppedLost b with relays := (s.unknownLost b).relays } : State).Reacts none (s.unknownLost b) :=
  (((s.stoppedLost b).groupBankLost_reacts b).withRelays _).trans (State.foldl_relayLost_reacts (outletsOf b) (s.failedLost b))

theorem State.failedLost_relays (s : State) (b : Bank) : (s.failedLost b).relays = s.relays :=
  ((s.stoppedLost b).groupBankLost_reacts b).relays

theorem State.unknownLost_relays (s : State) (b : Bank) (o : Outlet) :
    (s.unknownLost b).relays[o] = if bankOf o = b then Relay.lost s.relays[o] else s.relays[o] := by
  have h := (s.failedLost b).foldl_relayLost_relays b o
  rw [s.failedLost_relays b] at h
  exact h

theorem State.unknownLost_noneIssued {s : State} {b : Bank} {o : Outlet} (ho : bankOf o = b)
    (hf : s.relays[o].flight ≠ none) : (s.unknownLost b).NoneIssued o :=
  State.foldl_relayLost_noneIssued o _ _ (.inl ⟨(mem_outletsOf o b).2 ho, by rw [s.failedLost_relays b]; exact hf⟩)

theorem State.FailedAt.withRelays {s : State} {g : Group} {now : Uptime} (h : s.FailedAt g now) (v : Vector Relay 48) :
    ({ s with relays := v } : State).FailedAt g now := h

theorem State.unknownLost_failedAt {s : State} {b : Bank} {g : Group} (h : s.NeedsBank b g) :
    (s.unknownLost b).FailedAt g s.uptime := by
  have hneeds : (s.stoppedLost b).NeedsBank b g := h.congr rfl rfl
  have hfailed : (s.failedLost b).FailedAt g s.uptime := State.groupBankLost_failedAt hneeds
  exact (State.foldl_relayLost_reacts (outletsOf b) (s.failedLost b)).failedAt (hfailed.withRelays _)

/-- The lanes once the blocks have acted: bank `b`'s is LOST, the others changed their indicator slots at most. -/
theorem State.unknownLost_lanes (s : State) (b : Bank) :
    (s.unknownLost b).lanes[b] = { s.lanes[b] with
      link := .lost, silence := none, relayList := [], indicator := none, runCount := 0, runSeq := none }
    ∧ ∀ b' : Bank, b' ≠ b → (s.unknownLost b).lanes[b'] =
      { s.lanes[b'] with indicator := (s.unknownLost b).lanes[b'].indicator } := by
  have h := s.unknownLost_reacts b
  refine ⟨(h.dark b (s.toldLost_link b)).trans (s.toldLost_lane b), fun b' hb => ?_⟩
  have hlane := h.lane b'
  rw [show ({ s.stoppedLost b with relays := (s.unknownLost b).relays } : State).lanes[b'] = s.lanes[b'] from
    upd_get_ne s.lanes (Ne.symm hb) _] at hlane
  exact hlane

theorem State.unknownLost_timers (s : State) (b : Bank) : (s.unknownLost b).sheds[b].Stopped := by
  refine (s.unknownLost_reacts b).timers b (s.toldLost_link b) ?_
  show (upd (s.toldLost b).sheds b _)[b].Stopped
  rw [upd_get_self]
  exact ⟨rfl, rfl⟩

/-- What the blocks leave of the parts of the state that the switching side does not write. -/
theorem State.unknownLost_fields (s : State) (b : Bank) :
    (s.unknownLost b).meters = upd s.meters b (fun m => { m with window := none })
    ∧ (s.unknownLost b).phaseElements = upd s.phaseElements b (fun _ => none)
    ∧ (s.unknownLost b).outlets = s.outlets ∧ (s.unknownLost b).capture = s.capture
    ∧ (s.unknownLost b).calTable = s.calTable ∧ (s.unknownLost b).bankTable = s.bankTable
    ∧ (s.unknownLost b).interval = s.interval ∧ (s.unknownLost b).uptime = s.uptime
    ∧ (s.unknownLost b).tokens = s.tokens ∧ (s.unknownLost b).safe.cause = s.safe.cause
    ∧ (s.unknownLost b).outletLimits = s.outletLimits ∧ (s.unknownLost b).bankLimits = s.bankLimits
    ∧ (s.unknownLost b).phaseLimits = s.phaseLimits := by
  obtain ⟨-, huptime, -, -, -, -, hmeters, houtlets, hinterval, houtletLimits, hbankLimits, hphaseLimits, -, hphase, -,
    htokens, -, hbankTable, -, hcalTable, -, -, -, hcapture, hcause, -⟩ := State.quiet_fields (s.unknownLost_reacts b).quiet
  exact ⟨hmeters, hphase, houtlets, hcapture, hcalTable, hbankTable, hinterval, huptime, htokens, hcause, houtletLimits,
    hbankLimits, hphaseLimits⟩

/-- The capture unit's part and the boundary leave the rest as the blocks before them left it. -/
theorem State.enterLost_changes (s : State) (b : Bank) : ∃ n l c d, s.enterLost b = { s.unknownLost b with
    capture := ((s.unknownLost b).captureLost b).capture, notifier := n, link0 := l, calTable := c, bankTable := d } := by
  have hcapture := (s.unknownLost b).captureLost_changes b
  rw [s.enterLost_eq b]
  generalize s.unknownLost b = u at *
  generalize u.captureLost b = v at *
  have hv : ∀ l c d, ({ v with link0 := l, calTable := c, bankTable := d } : State)
      = { u with capture := v.capture, notifier := v.notifier, link0 := l, calTable := c, bankTable := d } := by
    intro l c d
    rw [hcapture]
  exact ⟨_, _, _, _, (v.boundary_changes b).trans (hv _ _ _)⟩

theorem State.captureLost_tables (s : State) (b : Bank) :
    (s.captureLost b).calTable = s.calTable ∧ (s.captureLost b).bankTable = s.bankTable := by
  rw [State.captureLost_changes]
  exact ⟨rfl, rfl⟩

/-- The tables committed by bank once the bank's boundary is passed. -/
theorem State.enterLost_tables (s : State) (b : Bank) :
    (b ∈ s.calTable.waiting → (s.enterLost b).calTable = s.calTable.releaseBank b (calEntriesOf b))
    ∧ (b ∈ s.bankTable.waiting → (s.enterLost b).bankTable = s.bankTable.releaseBank b [b]) := by
  obtain ⟨-, -, -, -, hcal, hbank, -⟩ := s.unknownLost_fields b
  obtain ⟨hcal', hbank'⟩ := (s.unknownLost b).captureLost_tables b
  rw [hcal] at hcal'
  rw [hbank] at hbank'
  rw [s.enterLost_eq b]
  refine ⟨fun h => ?_, fun h => ?_⟩
  · rw [State.boundary_calTable (by rw [hcal']; exact h), hcal']
  · rw [State.boundary_bankTable (by rw [hbank']; exact h), hbank']

theorem Relay.lost_flight (r : Relay) : r.lost.flight = none := by
  unfold Relay.lost
  split
  · rename_i h; exact h
  · rfl

theorem Relay.lost_state (r : Relay) : r.lost.state = if r.flight = none then r.state else .unknown := by
  unfold Relay.lost
  split <;> rfl

theorem execSilenceTimerExpiry_of_not {b : Bank} {s : State}
    (h : s.lanes[b].link ≠ .up ∨ due s.lanes[b].silence s.uptime 20 = false) : execSilenceTimerExpiry b s = .next s := by
  refine if_neg fun ⟨hup, hdue⟩ => ?_
  obtain hlink | hwait := h
  · exact hlink hup
  · exact Bool.false_ne_true (hwait.symm.trans hdue)

theorem execSilenceTimerExpiry_of_silent {b : Bank} {s : State} {u : Uptime} (hup : s.lanes[b].link = .up)
    (hsilence : s.lanes[b].silence = some u) (h : 20 ≤ (s.uptime - u).toNat) :
    execSilenceTimerExpiry b s = .next (s.enterLost b) := by
  refine if_pos ⟨hup, ?_⟩
  rw [hsilence]
  exact decide_eq_true h

/-- Settles O11: what the entry to LOST leaves, stage by stage. -/
theorem silenceTakesTheLaneToLost : Obligations.SilenceTakesTheLaneToLost := by
  intro b s
  refine ⟨execSilenceTimerExpiry_of_not, fun u hup hsilence hdue =>
    ⟨s.enterLost b, execSilenceTimerExpiry_of_silent hup hsilence hdue, ?_⟩⟩
  obtain ⟨hlane, hlanes⟩ := s.unknownLost_lanes b
  obtain ⟨hmeters, hphase, houtlets, hcapture, -, -, hinterval, huptime, htokens, hcause, houtletLimits, hbankLimits,
    hphaseLimits⟩ := s.unknownLost_fields b
  obtain ⟨hcal, hbank⟩ := s.enterLost_tables b
  obtain ⟨n, l, c, d, hchanges⟩ := s.enterLost_changes b
  have hrelays := s.unknownLost_relays b
  have hissued : ∀ o : Outlet, bankOf o = b → s.relays[o].flight ≠ none → (s.unknownLost b).NoneIssued o :=
    fun o => State.unknownLost_noneIssued
  have hfailed : ∀ g : Group, s.NeedsBank b g → (s.unknownLost b).FailedAt g s.uptime :=
    fun g => State.unknownLost_failedAt
  obtain ⟨hshed, hrestore⟩ := s.unknownLost_timers b
  have heq := s.enterLost_eq b
  generalize hstage : s.unknownLost b = w at *
  generalize s.enterLost b = t at *
  subst hchanges
  refine ⟨hlane, fun b' hb => ⟨hlanes b' hb, ?_⟩, ?_, hphase, houtlets, fun o ho => ⟨?_, ?_⟩, fun o ho => ?_,
    fun e he ho hf => hissued e.outlet ho hf e he rfl, fun g hop hcancel hmember => hfailed g ⟨hop, hcancel, hmember⟩,
    fun hst ho => ?_, fun hwaits => ?_, fun hwaits => ?_, hinterval, huptime, htokens, hcause, houtletLimits,
    hbankLimits, hphaseLimits, hshed, hrestore, ?_⟩
  · exact (congrArg (·[b']) hmeters).trans (upd_get_ne s.meters (Ne.symm hb) _)
  · exact (congrArg (·[b]) hmeters).trans (upd_get_self s.meters b _)
  · exact (congrArg Relay.flight ((hrelays o).trans (if_pos ho))).trans (Relay.lost_flight _)
  · exact (congrArg Relay.state ((hrelays o).trans (if_pos ho))).trans (Relay.lost_state _)
  · exact (hrelays o).trans (if_neg ho)
  · obtain ⟨o, ho, hb⟩ := ho
    rw [← hcapture] at hst ho
    exact congrArg State.capture (State.captureLost_of_on ho hb hst)
  · obtain ⟨hgone, hactive⟩ := s.calTable.releaseBank_applies b (calEntriesOf b)
    rw [hcal hwaits]
    exact ⟨hgone, fun i hi => hactive i ((mem_calEntriesOf i b).2 hi)⟩
  · obtain ⟨hgone, hactive⟩ := s.bankTable.releaseBank_applies b [b]
    rw [hbank hwaits]
    exact ⟨hgone, hactive b List.mem_cons_self⟩
  · intro lost told failed unknown
    have hengine : failed = s.failedLost b := (State.groupBankLost_eq _ b).symm
    have hunknown : unknown = w := by
      rw [← hstage, State.unknownLost, outletsOf, List.foldl_map, ← hengine]
      refine List.foldl_ext _ _ _ fun x p _ => ?_
      cases hf : x.relays[outletAt b p].flight with
      | none => exact (State.relayLost_of_none x _ hf).symm
      | some f => exact (State.relayLost_of_flight x _ f hf).symm
    rw [hunknown, ← hcapture]
    refine ⟨fun hother => ?_, fun o ho hb hst => ?_⟩
    · rw [heq, State.captureLost_of_other hother]
    · rw [heq, State.captureLost_of_on ho hb hst, hinterval, huptime]
      rfl

end Sys2Proof.Machine
end

