-- ==== Sys2Proof/Proofs/WindowCloses.lean ====
section
/-! The close of a window: what it does to the meters and the outlets, and what it leaves (R26 to R28, R32 to R39,
R44). -/

namespace Sys2Proof.Machine

/-! ## The eight outlets -/

/-- Changes of outlets that do not depend on the measurements of others are changes of the one vector. -/
theorem State.foldl_onOutlet {α : Type} (at_ : α → Outlet) (f : State → α → OutletMeter → OutletMeter)
    (hf : ∀ (s : State) (v : Vector OutletMeter 48), f { s with outlets := v } = f s) (l : List α) (s : State) :
    l.foldl (fun s a => s.onOutlet (at_ a) (f s a)) s
      = { s with outlets := l.foldl (fun v a => upd v (at_ a) (f s a)) s.outlets } := by
  induction l generalizing s with
  | nil => rfl
  | cons a l ih =>
    rw [List.foldl_cons, ih, show f (s.onOutlet (at_ a) (f s a)) = f s from hf s _]
    rfl

/-- The outlets of bank `b` after a close of window `w` with kind `k`. -/
def State.outletsAtClose (s : State) (b : Bank) (w : Window) (k : WindowKind) : Vector OutletMeter 48 :=
  (outletsOf b).foldl (fun v o => upd v o fun m => m.atClose w k (posOf o) s.outletTable.active[o]) s.outlets

theorem State.outletsAtClose_get (s : State) (b : Bank) (w : Window) (k : WindowKind) (o : Outlet) :
    (s.outletsAtClose b w k)[o]
      = if bankOf o = b then s.outlets[o].atClose w k (posOf o) s.outletTable.active[o] else s.outlets[o] := by
  refine (foldl_upd_get (fun o m => OutletMeter.atClose m w k (posOf o) s.outletTable.active[o]) (outletsOf b)
    s.outlets o (outletsOf_nodup b)).trans ?_
  exact if_congr (mem_outletsOf o b) rfl rfl

/-- The metering side's own part of a close changes the bank's meter and its eight outlets. -/
theorem State.metersAtClose_eq (s : State) (b : Bank) (w : Window) (k : WindowKind) :
    s.metersAtClose b w k = { s with
      meters := upd s.meters b fun m => m.atClose w k s.uptime, outlets := s.outletsAtClose b w k } := by
  unfold State.metersAtClose State.outletsAtClose outletsOf
  rw [State.foldl_onOutlet (outletAt b) (fun u p m => m.atClose w k p u.outletTable.active[outletAt b p])
    fun _ _ => rfl, List.foldl_map]
  simp only [posOf_outletAt]
  rfl

/-! ## The limit unit -/

/-- `t` comes from `s` by acts of the limit unit: threshold machines, detectors, phase elements, shed units and reports
alone may differ. -/
def State.Limited (s t : State) : Prop :=
  t = { s with outletLimits := t.outletLimits, bankLimits := t.bankLimits, phaseLimits := t.phaseLimits
               loadLost := t.loadLost, phaseElements := t.phaseElements, sheds := t.sheds, notifier := t.notifier
               link0 := t.link0 }

theorem State.Limited.refl (s : State) : s.Limited s := rfl

theorem State.Limited.trans {s t u : State} (h : s.Limited t) (h' : t.Limited u) : s.Limited u := by
  unfold State.Limited at *
  generalize u.outletLimits = x1, u.bankLimits = x2, u.phaseLimits = x3, u.loadLost = x4, u.phaseElements = x5,
    u.sheds = x6, u.notifier = x7, u.link0 = x8 at h' ⊢
  rw [h', h]

theorem State.raiseLimit_limited (s : State) (k : EventKind) (n : Nat) (x y : Level) (i : Nat) :
    s.Limited (s.raiseLimit k n x y i) := by
  unfold State.raiseLimit
  split <;> exact rfl

theorem State.evalOutlet_limited (s : State) (o : Outlet) (i : Nat) : s.Limited (s.evalOutlet o i) := by
  have hmachine : ∀ v : Vector Threshold 48, s.Limited { s with outletLimits := v } := fun _ => rfl
  exact (hmachine _).trans (State.raiseLimit_limited _ _ _ _ _ _)

theorem State.evalLoad_limited (s : State) (o : Outlet) (i : Nat) : s.Limited (s.evalLoad o i) := by
  unfold State.evalLoad
  dsimp only
  split <;> exact rfl

theorem State.evalBank_limited (s : State) (b : Bank) (i : Nat) : s.Limited (s.evalBank b i) := by
  have hmachine : ∀ v : Vector Threshold 6, s.Limited { s with bankLimits := v } := fun _ => rfl
  have hsheds : ∀ (u : State) (f : ShedUnit → ShedUnit), u.Limited ((u.onShed b f).refreshSheds b) := fun _ _ => rfl
  exact ((hmachine _).trans (State.raiseLimit_limited _ _ _ _ _ _)).trans (hsheds _ _)

theorem State.evalPhase_limited (s : State) (b : Bank) (i : Nat) : s.Limited (s.evalPhase b i) := by
  have hmachine : ∀ (v : Vector (Option Nat) 6) (x : Vector Threshold 3),
      s.Limited { s with phaseElements := v, phaseLimits := x } := fun _ _ => rfl
  exact (hmachine _ _).trans (State.raiseLimit_limited _ _ _ _ _ _)

theorem State.limitsAtClose_limited (s : State) (b : Bank) (irms : Outlet → Nat) (i : Nat) :
    s.Limited (s.limitsAtClose b irms i) := by
  have houtlets : s.Limited ((outletsOf b).foldl (fun s o => (s.evalOutlet o (irms o)).evalLoad o (irms o)) s) :=
    List.foldlRecOn (motive := s.Limited) _ _ (.refl s) fun t ht o _ =>
      ht.trans ((t.evalOutlet_limited o _).trans (State.evalLoad_limited _ o _))
  exact (houtlets.trans (State.evalBank_limited _ b i)).trans (State.evalPhase_limited _ b i)

theorem State.limitsAt_limited (s : State) (b : Bank) (w : Window) (k : WindowKind) : s.Limited (s.limitsAt b w k) := by
  unfold State.limitsAt
  split
  · exact s.limitsAtClose_limited b _ _
  all_goals exact .refl s

/-! ## The close -/

theorem State.captureAtClose_changes (s : State) (b : Bank) (k : WindowKind) :
    s.captureAtClose b k = { s with
      capture := (s.captureAtClose b k).capture, notifier := (s.captureAtClose b k).notifier
      link0 := (s.captureAtClose b k).link0 } := by
  unfold State.captureAtClose
  split
  · rfl
  · split <;> rfl

theorem State.closeWindow_of_none {s : State} {b : Bank} (h : s.meters[b].window = none) (c : Bool) :
    s.closeWindow b c = s := by
  unfold State.closeWindow
  rw [h]

/-- What a close leaves of the parts of the state that neither the switching side nor the table store writes. -/
theorem State.closeWindow_fields {s : State} {b : Bank} {w : Window} (hw : s.meters[b].window = some w) (c : Bool) :
    (s.closeWindow b c).meters = upd s.meters b (fun m => m.atClose w (w.kind c) s.uptime)
    ∧ (s.closeWindow b c).outlets = s.outletsAtClose b w (w.kind c)
    ∧ (s.closeWindow b c).uptime = s.uptime ∧ (s.closeWindow b c).interval = s.interval
    ∧ (s.closeWindow b c).tokens = s.tokens := by
  have hclose : s.closeWindow b c = (((((s.metersAtClose b w (w.kind c)).limitsAt b w (w.kind c)).relaysAtClose b w
      (w.kind c) c).captureAtClose b (w.kind c)).boundary b) := by
    unfold State.closeWindow
    rw [hw]
  have hlimits := (s.metersAtClose b w (w.kind c)).limitsAt_limited b w (w.kind c)
  rw [s.metersAtClose_eq b w (w.kind c)] at hclose hlimits
  generalize State.limitsAt _ b w (w.kind c) = u1 at hclose hlimits
  obtain ⟨-, huptime, -, -, -, -, hmeters, houtlets, hinterval, -, -, -, -, -, -, htokens, -⟩ :=
    State.quiet_fields (u1.relaysAtClose_quiet b w (w.kind c) c)
  generalize u1.relaysAtClose b w (w.kind c) c = u2 at *
  have hcapture := u2.captureAtClose_changes b (w.kind c)
  generalize u2.captureAtClose b (w.kind c) = u3 at *
  rw [hclose, u3.boundary_changes b, hcapture]
  refine ⟨hmeters.trans ?_, houtlets.trans ?_, huptime.trans ?_, hinterval.trans ?_, htokens.trans ?_⟩
  all_goals rw [hlimits]

end Sys2Proof.Machine
end

