-- ==== Sys2Proof/Proofs/MeasuredRanges.lean ====
section
/-! The ranges of the measurements: energy and residue (R37, R38), windows, published results and frequency (R22 to R28,
R39). A handed set keeps them, and so does every command. -/

namespace Sys2Proof.Machine

/-! ## One outlet -/

/-- The residue is below one counter unit and the counter in 32 bits (R37). -/
def OutletMeter.InRange (m : OutletMeter) : Prop := m.residue < 28800000000 ∧ m.energy ≤ 4294967295

/-- What is added to a residue is carried over, whatever it is. -/
theorem OutletMeter.addEnergy_inRange (m : OutletMeter) (units : Nat) : (m.addEnergy units).InRange :=
  ⟨Nat.mod_lt _ (by decide), Nat.min_le_left _ _⟩

theorem OutletMeter.atClose_inRange {m : OutletMeter} (h : m.InRange) (w : Window) (k : WindowKind) (p : Position)
    (e : OutletEntry) : (m.atClose w k p e).InRange := by
  cases k with
  | valid =>
    unfold OutletMeter.atClose OutletMeter.validClose
    dsimp only
    split
    · exact OutletMeter.addEnergy_inRange _ _
    · exact h
  | noLine => exact h
  | invalid => exact OutletMeter.addEnergy_inRange m _

/-! ## One meter -/

/-- A meter is within its ranges, its open window left aside. -/
def BankMeter.KeptShut (m : BankMeter) : Prop := ({ m with window := none } : BankMeter).Kept

theorem BankMeter.Kept.shut {m : BankMeter} (h : m.Kept) : m.KeptShut :=
  ⟨h.1, nofun, h.2.2⟩

theorem BankMeter.KeptShut.kept {m : BankMeter} (h : m.KeptShut) (hw : ∀ w, m.window = some w → w.n ≤ 95) : m.Kept :=
  ⟨h.1, hw, h.2.2⟩

theorem BankMeter.KeptShut.withWindow {m : BankMeter} (h : m.KeptShut) (w : Option Window) :
    ({ m with window := w } : BankMeter).KeptShut := h

theorem BankMeter.KeptShut.enterVoltage {m : BankMeter} (h : m.KeptShut) (v : Int) (c : Bool) (z : Nat) :
    (m.enterVoltage v c z).KeptShut := by
  obtain ⟨-, hrest⟩ := h
  exact ⟨List.length_take_le 4 _, hrest⟩

/-- The frequency as R39 gives it from the list of valid lengths. -/
theorem frequencyOf_eq (lens : List Nat) :
    frequencyOf lens = if lens.length = 8 then (2 * 3200000 + lens.sum) / (2 * lens.sum) else 0 := rfl

/-- A close keeps a meter within its ranges when a valid one has 56 to 95 sets and a NO_LINE one 96. -/
theorem BankMeter.KeptShut.atClose {m : BankMeter} (h : m.KeptShut) {w : Window} {k : WindowKind} (now : Uptime)
    (hvalid : k = .valid → 56 ≤ w.n ∧ w.n ≤ 95) (hnoLine : k = .noLine → w.n = 96) : (m.atClose w k now).Kept := by
  obtain ⟨hhist, -, hlen, hlatest, hlist, hmem, hfreq⟩ := h
  have hshut : ∀ w', (none : Option Window) = some w' → w'.n ≤ 95 := nofun
  cases k with
  | valid =>
    have hn := hvalid rfl
    refine ⟨hhist, hshut, fun n hw => ?_, fun r hr => .inl ?_, ?_, fun n hin => ?_, frequencyOf_eq _⟩
    · cases hw; exact hn
    · cases hr; exact ⟨rfl, hn⟩
    · dsimp only [BankMeter.atClose] at hlist ⊢
      rw [List.length_drop, List.length_append, List.length_singleton]
      omega
    · obtain hold | hnew := List.mem_append.1 (List.mem_of_mem_drop hin)
      · exact hmem n hold
      · rw [List.mem_singleton.1 hnew]; exact hn
  | noLine =>
    refine ⟨hhist, hshut, hlen, fun r hr => .inr ?_, Nat.zero_le _, nofun, rfl⟩
    cases hr; exact ⟨rfl, hnoLine rfl⟩
  | invalid => exact ⟨hhist, hshut, hlen, hlatest, Nat.zero_le _, nofun, rfl⟩

theorem BankMeter.atClose_window (m : BankMeter) (w : Window) (k : WindowKind) (now : Uptime) :
    (m.atClose w k now).window = none := by
  cases k <;> rfl

/-! ## A handed set, as the bank's meter takes it -/

/-- A window opens with set `num` (R25). -/
def BankMeter.opened (m : BankMeter) (num : SetNo) (aligned : Bool) : BankMeter :=
  { m with window := some (.opened aligned num), crossing := if aligned then some num else m.crossing }

/-- The meter is brought to where the set can be added (R25, R26). -/
def BankMeter.place (m : BankMeter) (num : SetNo) (crossing : Bool) (now : Uptime) : BankMeter :=
  match m.window with
  | none => m.opened num crossing
  | some w => if crossing && w.endsAtCrossing then (m.atClose w (w.kind true) now).opened num true else m

def BankMeter.addSet (m : BankMeter) (x : CalSet) : BankMeter := { m with window := m.window.map fun w => w.add x }

/-- The close of a bank's open window, if one is open, as its meter takes it. -/
def BankMeter.close (m : BankMeter) (atCrossing : Bool) (now : Uptime) : BankMeter :=
  match m.window with
  | none => m
  | some w => m.atClose w (w.kind atCrossing) now

/-- A window of 96 sets closes after its last (R27). -/
def BankMeter.closeFull (m : BankMeter) (now : Uptime) : BankMeter := if m.isFull then m.close false now else m

theorem State.closeWindow_meters (s : State) (b : Bank) (c : Bool) :
    (s.closeWindow b c).meters = upd s.meters b (fun m => m.close c s.uptime) := by
  cases hw : s.meters[b].window with
  | none =>
    rw [State.closeWindow_of_none hw]
    refine ((upd_id s.meters b).symm.trans (upd_congr ?_))
    rw [BankMeter.close, hw]
  | some w =>
    obtain ⟨hmeters, -⟩ := State.closeWindow_fields hw c
    refine hmeters.trans (upd_congr ?_)
    rw [BankMeter.close, hw]

/-- The clock, the interval and the tokens go on as before at a close. -/
theorem State.closeWindow_clock (s : State) (b : Bank) (c : Bool) :
    (s.closeWindow b c).uptime = s.uptime ∧ (s.closeWindow b c).interval = s.interval
    ∧ (s.closeWindow b c).tokens = s.tokens := by
  cases hw : s.meters[b].window with
  | none => rw [State.closeWindow_of_none hw]; exact ⟨rfl, rfl, rfl⟩
  | some w => obtain ⟨-, -, hclock⟩ := State.closeWindow_fields hw c; exact hclock

theorem State.openWindow_meters (s : State) (b : Bank) (num : SetNo) (aligned : Bool) :
    (s.openWindow b num aligned).meters = upd s.meters b (fun m => m.opened num aligned) := rfl

theorem State.placeSet_meters (s : State) (b : Bank) (num : SetNo) (crossing : Bool) :
    (s.placeSet b num crossing).meters = upd s.meters b (fun m => m.place num crossing s.uptime) := by
  have hplace : ∀ f : BankMeter → BankMeter, s.meters[b].place num crossing s.uptime = f s.meters[b] →
      upd s.meters b f = upd s.meters b (fun m => m.place num crossing s.uptime) := fun f h => upd_congr h.symm
  unfold State.placeSet
  cases hw : s.meters[b].window with
  | none =>
    exact hplace (fun m => m.opened num crossing) (by rw [BankMeter.place, hw])
  | some w =>
    dsimp only
    by_cases hc : (crossing && w.endsAtCrossing) = true
    · rw [if_pos hc, State.openWindow_meters, State.closeWindow_meters, upd_upd]
      refine hplace (fun m => (m.close true s.uptime).opened num true) ?_
      rw [BankMeter.place, hw, BankMeter.close, hw]
      exact if_pos hc
    · rw [if_neg hc]
      refine (upd_id s.meters b).symm.trans (hplace (fun m => m) ?_)
      rw [BankMeter.place, hw]
      exact if_neg hc

theorem State.placeSet_uptime (s : State) (b : Bank) (num : SetNo) (crossing : Bool) :
    (s.placeSet b num crossing).uptime = s.uptime := by
  unfold State.placeSet
  split
  · rfl
  · split
    · exact (s.closeWindow_clock b true).1
    · rfl

theorem State.addSet_meters (s : State) (b : Bank) (x : CalSet) :
    (s.addSet b x).meters = upd s.meters b (fun m => m.addSet x) := rfl

theorem State.addSet_uptime (s : State) (b : Bank) (x : CalSet) : (s.addSet b x).uptime = s.uptime := rfl

theorem State.closeFull_meters (s : State) (b : Bank) :
    (s.closeFull b).meters = upd s.meters b (fun m => m.closeFull s.uptime) := by
  unfold State.closeFull
  by_cases h : s.meters[b].isFull = true
  · rw [if_pos h, State.closeWindow_meters]
    exact upd_congr (if_pos h).symm
  · rw [if_neg h]
    exact (upd_id s.meters b).symm.trans (upd_congr (if_neg h).symm)

/-- A handed set as the bank's meter takes it: `x` is the set as it is added, `z` the zero-cross hysteresis. -/
def BankMeter.hand (m : BankMeter) (num : SetNo) (v : Int) (crossing : Bool) (z : Nat) (x : CalSet) (now : Uptime) :
    BankMeter :=
  (((m.enterVoltage v crossing z).place num crossing now).addSet x).closeFull now

/-- The state in which a handed set is added: its voltage has entered, a window stands open, the relays have read it. -/
def State.beforeAdd (s : State) (b : Bank) (num : SetNo) (raw : RawSet) (sub : Bool) (v : Int) (crossing : Bool) :
    State :=
  ((s.onMeter b fun m => m.enterVoltage v crossing s.bankTable.active[b].zeroCross).placeSet b num crossing).relaySet b
    raw.closed sub .uncommanded

theorem State.handSet_eq (s : State) (b : Bank) (num : SetNo) (raw : RawSet) (sub : Bool) {v : Int} {crossing : Bool}
    (hv : (calibrate s.calTable.active[voltEntry b] raw.volt).1 = v) (hc : s.meters[b].crosses v sub = crossing) :
    s.handSet b num raw sub = ((s.beforeAdd b num raw sub v crossing).addSet b
      ((s.beforeAdd b num raw sub v crossing).calSet b num raw sub)).closeFull b := by
  subst hv hc
  rfl

theorem State.beforeAdd_meters (s : State) (b : Bank) (num : SetNo) (raw : RawSet) (sub : Bool) (v : Int)
    (crossing : Bool) : (s.beforeAdd b num raw sub v crossing).meters = upd s.meters b (fun m =>
      (m.enterVoltage v crossing s.bankTable.active[b].zeroCross).place num crossing s.uptime) := by
  obtain ⟨-, hmeters, -⟩ := (State.relaySet_rereads ((s.onMeter b fun m => m.enterVoltage v crossing
    s.bankTable.active[b].zeroCross).placeSet b num crossing) b raw.closed sub .uncommanded).fields
  refine hmeters.trans ?_
  rw [State.placeSet_meters, State.onMeter, upd_upd]

theorem State.beforeAdd_uptime (s : State) (b : Bank) (num : SetNo) (raw : RawSet) (sub : Bool) (v : Int)
    (crossing : Bool) : (s.beforeAdd b num raw sub v crossing).uptime = s.uptime := by
  obtain ⟨huptime, -⟩ := (State.relaySet_rereads ((s.onMeter b fun m => m.enterVoltage v crossing
    s.bankTable.active[b].zeroCross).placeSet b num crossing) b raw.closed sub .uncommanded).fields
  exact huptime.trans (State.placeSet_uptime _ b num crossing)

theorem State.handSet_meters (s : State) (b : Bank) (num : SetNo) (raw : RawSet) (sub : Bool) {v : Int}
    {crossing : Bool}
    (hv : (calibrate s.calTable.active[voltEntry b] raw.volt).1 = v) (hc : s.meters[b].crosses v sub = crossing) :
    (s.handSet b num raw sub).meters = upd s.meters b (fun m =>
      m.hand num v crossing s.bankTable.active[b].zeroCross
        ((s.beforeAdd b num raw sub v crossing).calSet b num raw sub) s.uptime) := by
  rw [State.handSet_eq s b num raw sub hv hc, State.closeFull_meters, State.addSet_meters, State.beforeAdd_meters,
    upd_upd, upd_upd, State.addSet_uptime, State.beforeAdd_uptime]
  rfl

/-! ## What a handed set keeps -/

/-- A crossing closes a window as valid only when it is aligned and has 56 sets or more (R26, R28). -/
theorem Window.minAligned_of_valid {w : Window} (hk : w.kind true = .valid) (he : w.endsAtCrossing = true) :
    56 ≤ w.n := by
  unfold Window.endsAtCrossing at he
  unfold Window.kind at hk
  cases ha : w.aligned
  · rw [ha] at hk
    simp at hk
  · rw [ha] at he
    exact of_decide_eq_true he

theorem Window.kind_true_ne_noLine (w : Window) : w.kind true ≠ .noLine := by
  unfold Window.kind
  split <;> simp

theorem Window.kind_false_ne_valid (w : Window) : w.kind false ≠ .valid := by
  unfold Window.kind
  split <;> simp

/-- Before a set is added the open window has at most 95 sets. -/
theorem BankMeter.Kept.place {m : BankMeter} (h : m.Kept) (num : SetNo) (crossing : Bool) (now : Uptime) :
    (m.place num crossing now).Kept := by
  have hopen : ∀ {m' : BankMeter} (a : Bool), m'.KeptShut → (m'.opened num a).Kept := fun a h' =>
    BankMeter.KeptShut.kept h' fun w hw => by cases hw; exact Nat.zero_le _
  unfold BankMeter.place
  cases hw : m.window with
  | none => exact hopen _ h.shut
  | some w =>
    dsimp only
    split
    · rename_i hc
      obtain ⟨-, hends⟩ := (Bool.and_eq_true _ _).mp hc
      have hshort : w.n ≤ 95 := h.2.1 w hw
      have hclosed := h.shut.atClose now (fun hk => ⟨w.minAligned_of_valid hk hends, hshort⟩)
        fun hk => absurd hk w.kind_true_ne_noLine
      exact hopen _ hclosed.shut
    · exact h

/-- With the set added the window has at most 96 sets, and at 96 it closes. -/
theorem BankMeter.Kept.addSet_closeFull {m : BankMeter} (h : m.Kept) (x : CalSet) (now : Uptime) :
    ((m.addSet x).closeFull now).Kept := by
  have hshut : (m.addSet x).KeptShut := h.shut
  unfold BankMeter.closeFull BankMeter.close BankMeter.isFull
  cases hw : m.window with
  | none =>
    have hadd : (m.addSet x).window = none := by rw [BankMeter.addSet, hw]; rfl
    rw [hadd]
    exact hshut.kept fun w' hw' => by rw [hadd] at hw'; cases hw'
  | some w =>
    have hadd : (m.addSet x).window = some (w.add x) := by rw [BankMeter.addSet, hw]; rfl
    have hn : (w.add x).n = w.n + 1 := rfl
    have hlow := h.2.1 w hw
    rw [hadd]
    dsimp only
    split
    · rename_i hfull
      have hfull' : 96 ≤ (w.add x).n := of_decide_eq_true hfull
      exact hshut.atClose now (fun hk => absurd hk (Window.kind_false_ne_valid _)) fun _ => by omega
    · rename_i hfull
      have hfull' : ¬ 96 ≤ (w.add x).n := fun hle => hfull (decide_eq_true hle)
      refine hshut.kept fun w' hw' => ?_
      rw [hadd] at hw'
      cases hw'
      omega

theorem BankMeter.Kept.hand {m : BankMeter} (h : m.Kept) (num : SetNo) (v : Int) (crossing : Bool) (z : Nat)
    (x : CalSet)
    (now : Uptime) : (m.hand num v crossing z x now).Kept := by
  have henter : (m.enterVoltage v crossing z).Kept := (h.shut.enterVoltage v crossing z).kept h.2.1
  exact (henter.place num crossing now).addSet_closeFull x now

/-- The promises on energy and windows, kept from `s` to `t`. -/
structure State.KeepsRanges (s t : State) : Prop where
  energy : s.EnergyKept → t.EnergyKept
  windows : s.WindowsKept → t.WindowsKept

theorem State.KeepsRanges.refl (s : State) : s.KeepsRanges s := ⟨id, id⟩

theorem State.KeepsRanges.trans {s t u : State} (h : s.KeepsRanges t) (h' : t.KeepsRanges u) : s.KeepsRanges u :=
  ⟨h'.energy ∘ h.energy, h'.windows ∘ h.windows⟩

theorem State.WindowsKept.of_upd {s t : State} (h : s.WindowsKept) {b : Bank} {f : BankMeter → BankMeter}
    (ht : t.meters = upd s.meters b f) (hf : s.meters[b].Kept → (f s.meters[b]).Kept) : t.WindowsKept := by
  intro b'
  rw [ht, upd_get]
  split
  · exact hf (h b)
  · exact h b'

theorem State.EnergyKept.congr {s t : State} (h : s.EnergyKept) (ht : t.outlets = s.outlets) : t.EnergyKept := by
  unfold State.EnergyKept
  rw [ht]
  exact h

theorem State.WindowsKept.congr {s t : State} (h : s.WindowsKept) (ht : t.meters = s.meters) : t.WindowsKept := by
  unfold State.WindowsKept
  rw [ht]
  exact h

theorem State.closeWindow_energy {s : State} (h : s.EnergyKept) (b : Bank) (c : Bool) :
    (s.closeWindow b c).EnergyKept := by
  cases hw : s.meters[b].window with
  | none => rw [State.closeWindow_of_none hw]; exact h
  | some w =>
    obtain ⟨-, houtlets, -⟩ := State.closeWindow_fields hw c
    intro o
    rw [houtlets, State.outletsAtClose_get]
    split
    · exact OutletMeter.atClose_inRange (h o) _ _ _ _
    · exact h o

theorem State.placeSet_energy {s : State} (h : s.EnergyKept) (b : Bank) (num : SetNo) (c : Bool) :
    (s.placeSet b num c).EnergyKept := by
  unfold State.placeSet
  split
  · exact h
  · split
    · exact State.closeWindow_energy h b true
    · exact h

theorem State.beforeAdd_energy {s : State} (h : s.EnergyKept) (b : Bank) (num : SetNo) (raw : RawSet) (sub : Bool)
    (v : Int)
    (crossing : Bool) : (s.beforeAdd b num raw sub v crossing).EnergyKept := by
  have henter : (s.onMeter b fun m => m.enterVoltage v crossing s.bankTable.active[b].zeroCross).EnergyKept := h
  have hplace := State.placeSet_energy henter b num crossing
  unfold State.beforeAdd
  generalize State.placeSet _ b num crossing = u at hplace ⊢
  obtain ⟨-, -, houtlets, -⟩ := (u.relaySet_rereads b raw.closed sub .uncommanded).fields
  exact hplace.congr houtlets

theorem State.handSet_energy {s : State} (h : s.EnergyKept) (b : Bank) (num : SetNo) (raw : RawSet) (sub : Bool) :
    (s.handSet b num raw sub).EnergyKept := by
  rw [State.handSet_eq s b num raw sub rfl rfl]
  have hbefore := State.beforeAdd_energy h b num raw sub (calibrate s.calTable.active[voltEntry b] raw.volt).1
    (s.meters[b].crosses (calibrate s.calTable.active[voltEntry b] raw.volt).1 sub)
  generalize State.beforeAdd s b num raw sub _ _ = u at hbefore ⊢
  have hadd : (u.addSet b (u.calSet b num raw sub)).EnergyKept := hbefore.congr rfl
  unfold State.closeFull
  split
  · exact State.closeWindow_energy hadd b false
  · exact hadd

theorem State.handSet_keepsRanges (s : State) (b : Bank) (num : SetNo) (raw : RawSet) (sub : Bool) :
    s.KeepsRanges (s.handSet b num raw sub) :=
  ⟨fun h => State.handSet_energy h b num raw sub,
    fun h => h.of_upd (s.handSet_meters b num raw sub rfl rfl) fun hb => hb.hand _ _ _ _ _ _⟩

end Sys2Proof.Machine
end

