-- ==== Sys2Proof/Proofs/RangesKept.lean ====
section
/-! Every step keeps the ranges of the measurements: few commands change a measurement at all. -/

namespace Sys2Proof.Machine

/-! ## What keeps the ranges -/

theorem State.KeepsRanges.of_same {s t : State} (hm : t.meters = s.meters) (ho : t.outlets = s.outlets) :
    s.KeepsRanges t := ⟨fun h => h.congr ho, fun h => h.congr hm⟩

theorem State.KeepsRanges.of_quiet {s t : State} (h : t.quiet = s.quiet) : s.KeepsRanges t := by
  obtain ⟨-, -, -, -, -, -, hmeters, houtlets, -⟩ := State.quiet_fields h
  exact .of_same hmeters houtlets

theorem State.foldl_keepsRanges {α : Type} (f : State → α → State) (h : ∀ (s : State) (a : α), s.KeepsRanges (f s a))
    (l : List α) (s : State) : s.KeepsRanges (l.foldl f s) :=
  List.foldlRecOn (motive := s.KeepsRanges) l f (.refl s) fun t ht a _ => ht.trans (h t a)

/-- A command that, when its condition holds, keeps the ranges, and else changes nothing. -/
theorem keepsRanges_of_ite {s t u : State} {c : Prop} [Decidable c]
    (h : (if c then Host.Outcome.next u else .next s : Result) = .next t) (hu : s.KeepsRanges u) : s.KeepsRanges t := by
  split at h
  · cases h; exact hu
  · cases h; exact .refl s

theorem OutletMeter.InRange.congr {m n : OutletMeter} (h : m.InRange) (henergy : n.energy = m.energy)
    (hresidue : n.residue = m.residue) : n.InRange := by
  unfold OutletMeter.InRange
  rw [henergy, hresidue]
  exact h

/-- Every outlet's measurements change in the same way. -/
theorem State.EnergyKept.of_all {s t : State} (h : s.EnergyKept) {f : OutletMeter → OutletMeter}
    (ht : t.outlets = Vector.ofFn fun o => f s.outlets[o]) (hf : ∀ m : OutletMeter, m.InRange → (f m).InRange) :
    t.EnergyKept := by
  intro o
  rw [ht, ofFn_get]
  exact hf _ (h o)

theorem State.EnergyKept.of_upd {s t : State} (h : s.EnergyKept) {o : Outlet} {f : OutletMeter → OutletMeter}
    (ht : t.outlets = upd s.outlets o f) (hf : ∀ m : OutletMeter, m.InRange → (f m).InRange) : t.EnergyKept := by
  intro o'
  rw [ht, upd_get]
  split
  · exact hf _ (h o)
  · exact h o'

@[simp] theorem State.reply_state (s : State) (st : Status) : (s.reply st).state = s := rfl

@[simp] theorem State.replyWith_state (s : State) (st : Status) (a : Answer) : (s.replyWith st a).state = s := rfl

/-- A command is taken and keeps what its owner keeps, or changes nothing. -/
theorem State.take_keepsRanges {s t : State} {kind tag : Byte} {payload : List Byte} {len : Nat} {run : State → Reply}
    (h : s.take kind tag payload len run = .next t) (hrun : ∀ u : State, u.KeepsRanges (run u).state) :
    s.KeepsRanges t := by
  have hpop : s.KeepsRanges s.popCommand := .of_same rfl rfl
  have hfill : ∀ (u : State) (x : Option (Status × Answer)), u.KeepsRanges (u.fillSlot tag kind x) := by
    intro u x
    cases x <;> exact .of_same rfl rfl
  unfold State.take at h
  split at h
  · cases h
    refine (hpop.trans ?_).trans (hfill _ _)
    unfold State.replyTo
    split
    · exact hrun _
    · exact .refl _
  · cases h; exact .refl s

/-! ## Lanes -/

theorem State.onLane_keepsRanges (s : State) (b : Bank) (f : Lane → Lane) :
    s.KeepsRanges (s.onLane b f) := .of_same rfl rfl

theorem State.raise_keepsRanges (s : State) (k : EventKind) (n : Nat) (d : Detail) : s.KeepsRanges (s.raise k n d) :=
  .of_quiet (s.raise_quiet k n d)

theorem State.laneError_keepsRanges (s : State) (b : Bank) (k : ErrorKind) (bytes : List Byte) :
    s.KeepsRanges (s.laneError b k bytes) :=
  (s.onLane_keepsRanges b _).trans (.of_quiet (State.raiseLinkError_quiet _ _ _ _ _))

theorem State.laneCell_keepsRanges (s : State) (b : Bank) (cell : List LineChar) :
    s.KeepsRanges (s.laneCell b cell) := by
  unfold State.laneCell State.offerSample
  split
  · exact s.laneError_keepsRanges b _ _
  · split
    · exact s.onLane_keepsRanges b _
    · exact s.laneError_keepsRanges b _ _

theorem execLaneCellReceived_keepsRanges (b : Bank) (chars : List LineChar) {s t : State}
    (h : execLaneCellReceived b chars s = .next t) : s.KeepsRanges t := by
  unfold execLaneCellReceived at h
  dsimp only at h
  split at h
  · cases h
    split
    · exact .refl s
    · exact s.onLane_keepsRanges b _
  · cases h
    split
    · exact s.onLane_keepsRanges b _
    · exact (s.onLane_keepsRanges b _).trans (State.laneCell_keepsRanges _ b _)

theorem execLaneBreak_keepsRanges (b : Bank) {s t : State} (h : execLaneBreak b s = .next t) : s.KeepsRanges t :=
  keepsRanges_of_ite h ((s.onLane_keepsRanges b _).trans (State.laneError_keepsRanges _ b _ _))

theorem execSignalTimerExpiry_keepsRanges (b : Bank) {s t : State} (h : execSignalTimerExpiry b s = .next t) :
    s.KeepsRanges t := by
  unfold execSignalTimerExpiry at h
  split at h
  · split at h <;> cases h
    · exact s.onLane_keepsRanges b _
    · exact (s.onLane_keepsRanges b _).trans (State.raise_keepsRanges _ _ _ _)
    · exact .refl s
    · exact .refl s
  · cases h; exact .refl s

/-! ## Sets -/

theorem State.handNext_keepsRanges (s : State) (b : Bank) (raw : RawSet) (sub : Bool) :
    s.KeepsRanges (s.handNext b raw sub) :=
  (s.onLane_keepsRanges b _).trans (State.handSet_keepsRanges _ b _ raw sub)

theorem State.handSubstitutes_keepsRanges (n : Nat) (b : Bank) (raw : RawSet) (s : State) :
    s.KeepsRanges (State.handSubstitutes n b raw s) := by
  induction n generalizing s with
  | zero => exact .refl s
  | succ n ih => exact (s.handNext_keepsRanges b raw true).trans (ih _)

theorem State.takeInUp_keepsRanges (s : State) (b : Bank) (c : SampleCell) : s.KeepsRanges (s.takeInUp b c) := by
  unfold State.takeInUp
  dsimp only
  split
  · exact ((State.handSubstitutes_keepsRanges _ b _ s).trans (State.handNext_keepsRanges _ b _ _)).trans
      (State.onLane_keepsRanges _ b _)
  · exact .refl s

/-- A window reset leaves a meter with nothing but its published results (R29). -/
theorem BankMeter.KeptShut.windowReset {m : BankMeter} (h : m.KeptShut) : m.windowReset.Kept := by
  obtain ⟨-, -, -, hlatest, -⟩ := h
  exact ⟨Nat.zero_le _, nofun, nofun, hlatest, Nat.zero_le _, nofun, rfl⟩

theorem State.enterUp_keepsRanges (s : State) (b : Bank) (c : SampleCell) : s.KeepsRanges (s.enterUp b c) := by
  have hreset : ∀ (u : State) (v : Vector (Option Nat) 6),
      u.KeepsRanges { u.onMeter b BankMeter.windowReset with phaseElements := v } := fun u v =>
    ⟨fun h => h, fun h => h.of_upd rfl fun hb => hb.shut.windowReset⟩
  have hshow : ∀ u : State, u.KeepsRanges ((u.placeIndicate b).refreshSheds b) := fun u => .of_quiet (by simp)
  unfold State.enterUp
  exact ((s.onLane_keepsRanges b _).trans (hreset _ _)).trans ((State.raise_keepsRanges _ _ _ _).trans
    ((State.KeepsRanges.of_quiet (State.relaySet_quiet _ _ _ _ _)).trans
      ((hshow _).trans (State.handSet_keepsRanges _ _ _ _ _))))

theorem State.takeInRun_keepsRanges (s : State) (b : Bank) (c : SampleCell) : s.KeepsRanges (s.takeInRun b c) := by
  unfold State.takeInRun
  split
  · exact s.enterUp_keepsRanges b c
  · exact s.onLane_keepsRanges b _

theorem execTakeSampleCell_keepsRanges (b : Bank) {s t : State} (h : execTakeSampleCell b s = .next t) :
    s.KeepsRanges t := by
  unfold execTakeSampleCell at h
  split at h
  · cases h; exact .refl s
  · split at h
    · dsimp only at h
      split at h <;> cases h
      · exact .refl s
      · exact (s.onLane_keepsRanges b _).trans (State.takeInRun_keepsRanges _ b _)
      · exact (s.onLane_keepsRanges b _).trans (State.takeInUp_keepsRanges _ b _)
      · exact (s.onLane_keepsRanges b _).trans (State.takeInRun_keepsRanges _ b _)
    · cases h; exact .refl s

theorem State.enterLost_keepsRanges (s : State) (b : Bank) : s.KeepsRanges (s.enterLost b) := by
  obtain ⟨hmeters, -, houtlets, -⟩ := s.unknownLost_fields b
  obtain ⟨n, l, c, d, hlost⟩ := s.enterLost_changes b
  generalize s.unknownLost b = u at *
  have henergy : (s.enterLost b).outlets = s.outlets := by rw [hlost]; exact houtlets
  have hwindows :
      (s.enterLost b).meters = upd s.meters b (fun m => { m with window := none }) := by rw [hlost]; exact hmeters
  exact ⟨fun h => h.congr henergy, fun h => h.of_upd hwindows fun hb => (hb.shut.withWindow none).kept nofun⟩

theorem execSilenceTimerExpiry_keepsRanges (b : Bank) {s t : State} (h : execSilenceTimerExpiry b s = .next t) :
    s.KeepsRanges t := keepsRanges_of_ite h (s.enterLost_keepsRanges b)

/-! ## Intervals and timers -/

theorem State.clearSums_keepsRanges (s : State) : s.KeepsRanges s.clearSums := by
  have hmeters : s.clearSums.meters = s.meters := by simp only [State.clearSums]
  have houtlets : s.clearSums.outlets = Vector.ofFn fun o : Outlet => { s.outlets[o] with sums := .clear } := rfl
  exact ⟨fun h => h.of_all (f := fun m => { m with sums := .clear }) houtlets fun _ hm => hm.congr rfl rfl,
    fun h => h.congr hmeters⟩

theorem State.closeInterval_keepsRanges (s : State) : s.KeepsRanges s.closeInterval := by
  have hevents :
      ∀ l : List Bank, s.KeepsRanges (l.foldl (fun t b => t.raiseEvent (s.intervalEvent b s.intervalEnd)) s) :=
    fun l => State.foldl_keepsRanges _ (fun u b => .of_quiet (u.raiseEvent_quiet _)) l s
  have hnext : ∀ (u : State) (v : IntervalClock), u.KeepsRanges { u.clearSums with interval := v } := fun u v =>
    have hclock : ∀ x : State, x.KeepsRanges { x with interval := v } := fun x => .of_same rfl rfl
    u.clearSums_keepsRanges.trans (hclock _)
  have hgroups : ∀ (u : State) (p : Outlet → Option Int) (i : Outlet → Nat),
      u.KeepsRanges ((u.appendHistories p).verifyCurrent i) := fun u p i => .of_quiet (by simp)
  unfold State.closeInterval
  exact (hevents _).trans ((hnext _ _).trans (hgroups _ _ _))

theorem execDispatchOpportunity_keepsRanges {s t : State} (h : execDispatchOpportunity s = .next t) :
    s.KeepsRanges t := by
  have hopens : s.KeepsRanges s.issueOpens := .of_quiet (by simp)
  have hmark : ∀ u : State, u.KeepsRanges { u with grantPtr := u.grantPtr + 1, opportunityTaken := true } := fun u =>
    .of_same rfl rfl
  have hgrant : ∀ u : State, u.KeepsRanges u.grantTurn := fun u => by
    have htoken :
        ∀ (p : SupplyPhase) (v : Vector (Option Outlet) 6), u.KeepsRanges { u.takeToken p with turnOn := v } :=
      fun p v => .of_same rfl rfl
    unfold State.grantTurn
    split
    · exact .refl u
    · split
      · exact .refl u
      · exact (htoken _ _).trans (.of_quiet (State.issue_quiet _ _ _))
  exact keepsRanges_of_ite h ((hopens.trans (hgrant _)).trans (hmark _))

theorem execGrantTimeout_keepsRanges (o : Outlet) {s t : State} (h : execGrantTimeout o s = .next t) :
    s.KeepsRanges t := by
  unfold execGrantTimeout at h
  split at h
  · cases h; exact .refl s
  · exact keepsRanges_of_ite h (.of_quiet (State.complete_quiet _ _ _ _))

theorem execBootWindowExpiry_keepsRanges (g : Group) {s t : State} (h : execBootWindowExpiry g s = .next t) :
    s.KeepsRanges t := by
  unfold execBootWindowExpiry at h
  split at h
  · split at h
    · obtain ⟨rfl⟩ := Host.Outcome.next.inj h
      exact .of_quiet (State.retryOp_quiet _ _)
    · obtain ⟨rfl⟩ := Host.Outcome.next.inj h
      exact .of_quiet (State.failOp_quiet _ _ _)
  · cases h; exact .refl s

theorem execDeadlineExpiry_keepsRanges (g : Group) {s t : State} (h : execDeadlineExpiry g s = .next t) :
    s.KeepsRanges t :=
  keepsRanges_of_ite h (.of_quiet (by split <;> simp))

/-! ## Link 0 -/

theorem State.linkError_keepsRanges (s : State) (k : ErrorKind) (bytes : List Byte) :
    s.KeepsRanges (s.linkError k bytes) := by
  have hrecord : ∀ f : Link0 → Link0, s.KeepsRanges (s.onLink0 f) := fun f => .of_same rfl rfl
  exact (hrecord _).trans (.of_quiet (State.raiseLinkError_quiet _ _ _ _ _))

theorem State.offerCommand_keepsRanges (s : State) (c : CommandCell) (bytes : List Byte) :
    s.KeepsRanges (s.offerCommand c bytes) := by
  unfold State.offerCommand
  split
  · exact .of_same rfl rfl
  · exact s.linkError_keepsRanges _ _

theorem execLink0CellReceived_keepsRanges (chars : List LineChar) {s t : State}
    (h : execLink0CellReceived chars s = .next t) : s.KeepsRanges t := by
  have hgap : ∀ f : Link0 → Link0, s.KeepsRanges (s.onLink0 f) := fun f => .of_same rfl rfl
  unfold execLink0CellReceived at h
  obtain ⟨rfl⟩ := Host.Outcome.next.inj h
  split
  · exact hgap _
  · split
    · exact (hgap _).trans (State.linkError_keepsRanges _ _ _)
    · exact (hgap _).trans (State.offerCommand_keepsRanges _ _ _)

theorem execLink0Break_keepsRanges (chars : List LineChar) {s t : State} (h : execLink0Break chars s = .next t) :
    s.KeepsRanges t := by
  have hflush : ∀ f : Link0 → Link0, s.KeepsRanges (s.onLink0 f) := fun f => .of_same rfl rfl
  cases h
  exact (hflush _).trans (State.linkError_keepsRanges _ _ _)

theorem execUpstreamCellStart_keepsRanges {s t : State} (h : execUpstreamCellStart s = .next t) : s.KeepsRanges t := by
  unfold execUpstreamCellStart State.startUpstream at h
  split at h <;> cases h
  · exact .refl s
  · split <;> exact .of_same rfl rfl

/-! ## Safe control and restarts -/

theorem State.enterSafe_keepsRanges (s : State) (c : SafeCause) : s.KeepsRanges (s.enterSafe c) := by
  have hset : ∀ (u : State) (v : SafeControl), u.KeepsRanges { u with safe := v } := fun u v => .of_same rfl rfl
  have hwithdraw : ∀ u : State, u.KeepsRanges (u.withdraw QueueEntry.notSafeOrShed) := fun u => .of_quiet (by simp)
  have hrequest : ∀ u : State, u.KeepsRanges u.requestSafe.2 := fun u => .of_quiet u.requestSafe_quiet
  have hends : ∀ u : State, u.KeepsRanges u.groupsSafe.monitorsOffline.refreshAllSheds := fun u => .of_quiet (by simp)
  unfold State.enterSafe
  dsimp only
  exact (hset _ _).trans ((hwithdraw _).trans ((hrequest _).trans ((hset _ _).trans
    ((State.raise_keepsRanges _ _ _ _).trans (hends _)))))

theorem State.enterSafeOnce_keepsRanges (s : State) (c : SafeCause) : s.KeepsRanges (s.enterSafeOnce c) := by
  unfold State.enterSafeOnce
  split
  · exact .refl s
  · exact s.enterSafe_keepsRanges c

theorem execSafePinChange_keepsRanges (asserted : Bool) {s t : State} (h : execSafePinChange asserted s = .next t) :
    s.KeepsRanges t := by
  have hpin : ∀ x : Bool, s.KeepsRanges { s with safePin := x } := fun x => .of_same rfl rfl
  unfold execSafePinChange at h
  split at h
  · cases h; exact .refl s
  · split at h <;> cases h
    · exact (hpin _).trans (State.enterSafeOnce_keepsRanges _ _)
    · exact hpin _

theorem State.safeByPin_keepsRanges (s : State) : s.KeepsRanges s.safeByPin := by
  unfold State.safeByPin
  split
  · exact s.enterSafe_keepsRanges _
  · exact .refl s

theorem State.showModes_keepsRanges (s : State) : s.KeepsRanges s.showModes := by
  have hshown : ∀ v : Vector (Vector Mode 8) 6, s.KeepsRanges { s with shown := v } := fun v => .of_same rfl rfl
  unfold State.showModes
  exact (hshown _).trans (State.foldl_keepsRanges _ (fun u b => .of_quiet (by simp)) _ _)

/-- A meter with nothing in it is within its ranges. -/
theorem BankMeter.reset_kept : BankMeter.reset.Kept := ⟨Nat.zero_le _, nofun, nofun, nofun, Nat.zero_le _, nofun, rfl⟩

theorem State.windowsKept_of_reset {s : State} (h : s.meters = Vector.replicate 6 BankMeter.reset) : s.WindowsKept := by
  intro b
  rw [h, Fin.getElem_fin, Vector.getElem_replicate]
  exact BankMeter.reset_kept

theorem State.energyKept_of_reset {s : State} (h : s.outlets = Vector.replicate 48 OutletMeter.reset) :
    s.EnergyKept := by
  intro o
  rw [h, Fin.getElem_fin, Vector.getElem_replicate]
  exact ⟨by decide, Nat.zero_le _⟩

theorem State.restartEngine_keepsRanges (s : State) : s.KeepsRanges s.restartEngine := by
  have hmeasured : ∀ u : State, u.outlets = (Vector.ofFn fun o => s.outlets[o].restartEngine) →
      u.meters = Vector.replicate 6 BankMeter.reset → s.KeepsRanges u := fun u houtlets hmeters =>
    ⟨fun h => h.of_all (f := OutletMeter.restartEngine) houtlets fun _ hm => hm.congr rfl rfl,
      fun _ => State.windowsKept_of_reset hmeters⟩
  unfold State.restartEngine
  dsimp only
  refine .trans (hmeasured _ ?_ ?_) (State.showModes_keepsRanges _)
  · dsimp only
  · rfl

theorem State.restartAll_keepsRanges (s : State) : s.KeepsRanges s.restartAll :=
  .trans (.trans ⟨fun _ => State.energyKept_of_reset rfl, fun _ => State.windowsKept_of_reset rfl⟩
    (State.showModes_keepsRanges _)) (State.safeByPin_keepsRanges _)

theorem execRestartTakesEffect_keepsRanges {s t : State} (h : execRestartTakesEffect s = .next t) :
    s.KeepsRanges t := by
  unfold execRestartTakesEffect at h
  split at h
  · cases h; exact .refl s
  · split at h
    · obtain ⟨rfl⟩ := Host.Outcome.next.inj h
      split
      · exact s.restartEngine_keepsRanges
      · exact s.restartAll_keepsRanges
    · cases h; exact .refl s

theorem execPowerOn_keepsRanges {s t : State} (h : execPowerOn s = .next t) : s.KeepsRanges t := by
  cases h
  exact .trans ⟨fun _ => State.energyKept_of_reset rfl, fun _ => State.windowsKept_of_reset rfl⟩
    (State.safeByPin_keepsRanges _)

/-! ## Tables -/

theorem State.writeEntry_keepsRanges (s : State) (t : TableId) (k : Nat) (area : List Byte) :
    s.KeepsRanges (s.writeEntry t k area).state := by
  cases t
  all_goals
    simp only [State.writeEntry, State.writeOutlet, State.writeBank, State.writePhase, State.writeCal, State.writeGroup,
      State.writeGrant, State.writeSystem]
    repeat' split
  all_goals exact .of_same rfl rfl

theorem State.discardTable_keepsRanges (s : State) (t : TableId) : s.KeepsRanges (s.discardTable t).state := by
  cases t <;> exact .of_same rfl rfl

theorem State.commitOutlets_keepsRanges (s : State) : s.KeepsRanges s.commitOutlets.state := by
  have happly : ∀ l : List Outlet, s.KeepsRanges (l.foldl State.applyOutlet s) := fun l =>
    State.foldl_keepsRanges _ (fun u o => .of_quiet (u.applyOutlet_quiet o)) l s
  have htable : ∀ (u : State) (t : Staged OutletEntry 48 48), u.KeepsRanges { u with outletTable := t } := fun u t =>
    .of_same rfl rfl
  unfold State.commitOutlets
  dsimp only
  split <;> exact (happly _).trans (htable _ _)

theorem State.commitGroups_keepsRanges (s : State) : s.KeepsRanges s.commitGroups.state := by
  have happly : ∀ l : List Group, s.KeepsRanges (s.applyGroups l) := fun l => .of_quiet (s.applyGroups_quiet l)
  have htable : ∀ (u : State) (t : Staged GroupEntry 32 32), u.KeepsRanges { u with groupTable := t } := fun u t =>
    .of_same rfl rfl
  unfold State.commitGroups
  dsimp only
  split
  · exact .refl s
  · split <;> exact (happly _).trans (htable _ _)

theorem State.commitPhases_keepsRanges (s : State) : s.KeepsRanges s.commitPhases.state := by
  have htable : s.KeepsRanges { s with phaseTable := s.phaseTable.applyAll } := .of_same rfl rfl
  refine htable.trans (State.foldl_keepsRanges _ (fun u p => ?_) _ _)
  unfold State.alignPhase
  dsimp only
  repeat' split
  all_goals exact .of_same rfl rfl

theorem State.replyByBank_state (s : State) (waiting : List Bank) : (s.replyByBank waiting).state = s := by
  unfold State.replyByBank
  split <;> rfl

theorem State.commitTable_keepsRanges (s : State) (t : TableId) (tag : Byte) :
    s.KeepsRanges (s.commitTable t tag).state := by
  have hbusy : ∀ st : Status, s.KeepsRanges (s.reply st).state := fun _ => .refl s
  have hcal : s.KeepsRanges (s.commitCal tag).state := by
    unfold State.commitCal
    rw [State.replyByBank_state]
    exact .of_same rfl rfl
  have hbanks : s.KeepsRanges (s.commitBanks tag).state := by
    unfold State.commitBanks
    rw [State.replyByBank_state]
    exact .of_same rfl rfl
  have hgrants : s.KeepsRanges s.commitGrants.state := by
    unfold State.commitGrants
    split <;> exact .of_same rfl rfl
  cases t
  all_goals
    simp only [State.commitTable]
    split
  case outlet.isTrue => exact s.commitOutlets_keepsRanges
  case bank.isTrue => exact hbanks
  case phase.isTrue => exact s.commitPhases_keepsRanges
  case calibration.isFalse =>
    split
    · exact hcal
    · exact hbusy _
  case group.isTrue => exact s.commitGroups_keepsRanges
  case grant.isTrue => exact hgrants
  case system.isTrue => exact .of_same rfl rfl
  all_goals exact hbusy _

theorem execWriteEntry_keepsRanges (tag : Byte) (payload : List Byte) {s t : State}
    (h : execWriteEntry tag payload s = .next t) : s.KeepsRanges t := by
  refine State.take_keepsRanges h fun u => ?_
  split
  · exact .refl u
  · exact u.writeEntry_keepsRanges _ _ _

theorem execDiscard_keepsRanges (tag : Byte) (payload : List Byte) {s t : State}
    (h : execDiscard tag payload s = .next t) : s.KeepsRanges t := by
  refine State.take_keepsRanges h fun u => ?_
  split
  · exact .refl u
  · exact u.discardTable_keepsRanges _

theorem execCommit_keepsRanges (tag : Byte) (payload : List Byte) {s t : State}
    (h : execCommit tag payload s = .next t) : s.KeepsRanges t := by
  refine State.take_keepsRanges h fun u => ?_
  split
  · exact .refl u
  · exact u.commitTable_keepsRanges _ tag

/-! ## Reads, and what belongs to link 0, notifier and capture unit -/

theorem execReadEntry_keepsRanges (tag : Byte) (payload : List Byte) {s t : State}
    (h : execReadEntry tag payload s = .next t) : s.KeepsRanges t := by
  refine State.take_keepsRanges h fun u => ?_
  repeat' split
  all_goals exact .refl u

theorem execLockCal_keepsRanges (tag : Byte) (payload : List Byte) {s t : State}
    (h : execLockCal tag payload s = .next t) : s.KeepsRanges t := by
  refine State.take_keepsRanges h fun u => ?_
  repeat' split
  all_goals exact .of_same rfl rfl

theorem execReadOutlet_keepsRanges (tag : Byte) (payload : List Byte) {s t : State}
    (h : execReadOutlet tag payload s = .next t) : s.KeepsRanges t := by
  refine State.take_keepsRanges h fun u => ?_
  split <;> exact .refl u

theorem execReadGroup_keepsRanges (tag : Byte) (payload : List Byte) {s t : State}
    (h : execReadGroup tag payload s = .next t) : s.KeepsRanges t := by
  refine State.take_keepsRanges h fun u => ?_
  split <;> exact .refl u

theorem execClearLockout_keepsRanges (tag : Byte) (payload : List Byte) {s t : State}
    (h : execClearLockout tag payload s = .next t) : s.KeepsRanges t := by
  refine State.take_keepsRanges h fun u => ?_
  split <;> exact .of_same rfl rfl

theorem execSetLevel_keepsRanges (tag : Byte) (payload : List Byte) {s t : State}
    (h : execSetLevel tag payload s = .next t) : s.KeepsRanges t := by
  refine State.take_keepsRanges h fun u => ?_
  repeat' split
  all_goals exact .of_same rfl rfl

theorem execSetMask_keepsRanges (tag : Byte) (payload : List Byte) {s t : State}
    (h : execSetMask tag payload s = .next t) : s.KeepsRanges t := by
  refine State.take_keepsRanges h fun u => ?_
  split <;> exact .of_same rfl rfl

theorem execBindStream_keepsRanges (tag : Byte) (payload : List Byte) {s t : State}
    (h : execBindStream tag payload s = .next t) : s.KeepsRanges t := by
  refine State.take_keepsRanges h fun u => ?_
  dsimp only
  repeat' split
  all_goals exact .of_same rfl rfl

theorem execUnbindStream_keepsRanges (tag : Byte) (payload : List Byte) {s t : State}
    (h : execUnbindStream tag payload s = .next t) : s.KeepsRanges t := by
  refine State.take_keepsRanges h fun u => ?_
  repeat' split
  all_goals exact .of_same rfl rfl

theorem execTriggerStream_keepsRanges (tag : Byte) (payload : List Byte) {s t : State}
    (h : execTriggerStream tag payload s = .next t) : s.KeepsRanges t := by
  refine State.take_keepsRanges h fun u => ?_
  unfold State.triggerBound
  repeat' split
  all_goals exact .of_same rfl rfl

theorem execCapture_keepsRanges (tag : Byte) (payload : List Byte) {s t : State}
    (h : execCapture tag payload s = .next t) : s.KeepsRanges t := by
  refine State.take_keepsRanges h fun u => ?_
  repeat' split
  all_goals exact .of_same rfl rfl

theorem execReadCapture_keepsRanges (tag : Byte) (payload : List Byte) {s t : State}
    (h : execReadCapture tag payload s = .next t) : s.KeepsRanges t := by
  refine State.take_keepsRanges h fun u => ?_
  dsimp only
  repeat' split
  all_goals exact .refl u

theorem execRestart_keepsRanges (tag : Byte) (payload : List Byte) {s t : State}
    (h : execRestart tag payload s = .next t) : s.KeepsRanges t := by
  refine State.take_keepsRanges h fun u => ?_
  split <;> exact .of_same rfl rfl

theorem execUnknownCommand_keepsRanges (kind tag : Byte) (payload : List Byte) {s t : State}
    (h : execUnknownCommand kind tag payload s = .next t) : s.KeepsRanges t := by
  unfold execUnknownCommand at h
  split at h
  · cases h; exact .refl s
  · exact State.take_keepsRanges h fun u => .refl u

/-! ## Switching, groups and safe control by command -/

theorem execSwitch_keepsRanges (tag : Byte) (payload : List Byte) {s t : State}
    (h : execSwitch tag payload s = .next t) : s.KeepsRanges t := by
  refine State.take_keepsRanges h fun u => ?_
  unfold State.switchOutlet
  dsimp only
  repeat' split
  all_goals exact .of_quiet (by simp)

theorem execClearFault_keepsRanges (tag : Byte) (payload : List Byte) {s t : State}
    (h : execClearFault tag payload s = .next t) : s.KeepsRanges t := by
  refine State.take_keepsRanges h fun u => ?_
  repeat' split
  all_goals exact .of_quiet (by simp)

/-- A counter and a residue of 0 are within their ranges. -/
theorem OutletMeter.clearEnergy_inRange (m : OutletMeter) : m.clearEnergy.InRange :=
  ⟨Nat.zero_lt_succ _, Nat.zero_le _⟩

theorem execClearEnergy_keepsRanges (tag : Byte) (payload : List Byte) {s t : State}
    (h : execClearEnergy tag payload s = .next t) : s.KeepsRanges t := by
  refine State.take_keepsRanges h fun u => ?_
  have houtlets : ∀ v : Vector OutletMeter 48, (u.EnergyKept → ({ u with outlets := v } : State).EnergyKept) →
      u.KeepsRanges { u with outlets := v } := fun v hv => ⟨hv, fun hu => hu.congr rfl⟩
  split
  · exact houtlets _ fun hu => hu.of_all (f := OutletMeter.clearEnergy) rfl fun m _ => m.clearEnergy_inRange
  · split
    · exact .refl u
    · rename_i o _
      exact houtlets _ fun hu => hu.of_upd (o := o) rfl fun m _ => m.clearEnergy_inRange

theorem execCycle_keepsRanges (tag : Byte) (payload : List Byte) {s t : State}
    (h : execCycle tag payload s = .next t) : s.KeepsRanges t := by
  refine State.take_keepsRanges h fun u => ?_
  unfold State.cycleGroup
  dsimp only
  repeat' split
  all_goals exact .of_quiet (by simp)

theorem execGroupOff_keepsRanges (tag : Byte) (payload : List Byte) {s t : State}
    (h : execGroupOff tag payload s = .next t) : s.KeepsRanges t := by
  refine State.take_keepsRanges h fun u => ?_
  unfold State.offGroup
  dsimp only
  repeat' split
  all_goals exact .of_quiet (by simp)

theorem execGroupOn_keepsRanges (tag : Byte) (payload : List Byte) {s t : State}
    (h : execGroupOn tag payload s = .next t) : s.KeepsRanges t := by
  refine State.take_keepsRanges h fun u => ?_
  unfold State.onGroupPower
  dsimp only
  repeat' split
  all_goals exact .of_quiet (by simp)

theorem execCancel_keepsRanges (tag : Byte) (payload : List Byte) {s t : State}
    (h : execCancel tag payload s = .next t) : s.KeepsRanges t := by
  refine State.take_keepsRanges h fun u => ?_
  unfold State.cancelGroup
  dsimp only
  repeat' split
  all_goals exact .of_quiet (by simp)

theorem execToken_keepsRanges (tag : Byte) (payload : List Byte) {s t : State}
    (h : execToken tag payload s = .next t) : s.KeepsRanges t := by
  have hpop : s.KeepsRanges s.popCommand := .of_same rfl rfl
  exact keepsRanges_of_ite h (hpop.trans (.of_quiet (State.takeTokens_quiet _ _)))

theorem execResume_keepsRanges (tag : Byte) (payload : List Byte) {s t : State}
    (h : execResume tag payload s = .next t) : s.KeepsRanges t := by
  have hleave : ∀ (u : State) (v : SafeControl) (m : Vector Monitor 32),
      u.KeepsRanges { u with safe := v, monitors := m } := fun _ _ _ => .of_same rfl rfl
  refine State.take_keepsRanges h fun u => ?_
  split
  · exact (hleave u _ _).trans (.of_quiet (State.refreshAllSheds_quiet _))
  · exact .refl u

/-! ## Every command -/

theorem exec_keepsRanges {c : Instr} {s t : State} (h : exec c s = .next t) : s.KeepsRanges t := by
  cases c with
  | powerOn => exact execPowerOn_keepsRanges h
  | laneCharacter b c => cases h; exact s.onLane_keepsRanges b _
  | laneCellReceived b chars => exact execLaneCellReceived_keepsRanges b chars h
  | laneBreak b => exact execLaneBreak_keepsRanges b h
  | takeSampleCell b => exact execTakeSampleCell_keepsRanges b h
  | silenceTimerExpiry b => exact execSilenceTimerExpiry_keepsRanges b h
  | signalTimerExpiry b => exact execSignalTimerExpiry_keepsRanges b h
  | laneCellStart b => cases h; exact s.onLane_keepsRanges b _
  | intervalClose => exact keepsRanges_of_ite h s.closeInterval_keepsRanges
  | shedTimerExpiry b => exact keepsRanges_of_ite h (.of_quiet (by simp))
  | restoreTimerExpiry b => exact keepsRanges_of_ite h (.of_quiet (by simp))
  | dispatchOpportunity => exact execDispatchOpportunity_keepsRanges h
  | settleTimerExpiry b => exact keepsRanges_of_ite h (.of_same rfl rfl)
  | refillTimerExpiry p => exact keepsRanges_of_ite h (.of_same rfl rfl)
  | grantTimeout o => exact execGrantTimeout_keepsRanges o h
  | dwellExpiry g => exact keepsRanges_of_ite h (.of_quiet (by simp))
  | staggerExpiry g => exact keepsRanges_of_ite h (.of_quiet (by simp))
  | bootWindowExpiry g => exact execBootWindowExpiry_keepsRanges g h
  | deadlineExpiry g => exact execDeadlineExpiry_keepsRanges g h
  | graceExpiry g => exact keepsRanges_of_ite h (.of_quiet (by simp))
  | budgetWindowExpiry g => exact keepsRanges_of_ite h (.of_same rfl rfl)
  | link0CellReceived chars => exact execLink0CellReceived_keepsRanges chars h
  | link0Break chars => exact execLink0Break_keepsRanges chars h
  | upstreamCellStart => exact execUpstreamCellStart_keepsRanges h
  | holdInChange asserted => cases h; exact .of_same rfl rfl
  | safePinChange asserted => exact execSafePinChange_keepsRanges asserted h
  | restartTakesEffect => exact execRestartTakesEffect_keepsRanges h
  | unknownCommand kind tag payload => exact execUnknownCommand_keepsRanges kind tag payload h
  | readEntry tag payload => exact execReadEntry_keepsRanges tag payload h
  | writeEntry tag payload => exact execWriteEntry_keepsRanges tag payload h
  | discard tag payload => exact execDiscard_keepsRanges tag payload h
  | commit tag payload => exact execCommit_keepsRanges tag payload h
  | lockCal tag payload => exact execLockCal_keepsRanges tag payload h
  | switch tag payload => exact execSwitch_keepsRanges tag payload h
  | clearFault tag payload => exact execClearFault_keepsRanges tag payload h
  | clearEnergy tag payload => exact execClearEnergy_keepsRanges tag payload h
  | readOutlet tag payload => exact execReadOutlet_keepsRanges tag payload h
  | cycle tag payload => exact execCycle_keepsRanges tag payload h
  | groupOff tag payload => exact execGroupOff_keepsRanges tag payload h
  | groupOn tag payload => exact execGroupOn_keepsRanges tag payload h
  | cancel tag payload => exact execCancel_keepsRanges tag payload h
  | readGroup tag payload => exact execReadGroup_keepsRanges tag payload h
  | clearLockout tag payload => exact execClearLockout_keepsRanges tag payload h
  | token tag payload => exact execToken_keepsRanges tag payload h
  | setLevel tag payload => exact execSetLevel_keepsRanges tag payload h
  | setMask tag payload => exact execSetMask_keepsRanges tag payload h
  | bindStream tag payload => exact execBindStream_keepsRanges tag payload h
  | unbindStream tag payload => exact execUnbindStream_keepsRanges tag payload h
  | triggerStream tag payload => exact execTriggerStream_keepsRanges tag payload h
  | capture tag payload => exact execCapture_keepsRanges tag payload h
  | readCapture tag payload => exact execReadCapture_keepsRanges tag payload h
  | forceSafe tag payload => exact State.take_keepsRanges h fun u => u.enterSafeOnce_keepsRanges _
  | resume tag payload => exact execResume_keepsRanges tag payload h
  | status tag payload => exact State.take_keepsRanges h fun u => .refl u
  | restart tag payload => exact execRestart_keepsRanges tag payload h
  | clearLinkErrors tag payload => exact State.take_keepsRanges h fun u => .of_same rfl rfl

theorem step_keepsRanges {s t : State} (h : step s = .next t) : s.KeepsRanges t := by
  unfold step at h
  split at h
  · cases h
    unfold State.tick
    dsimp only
    split <;> exact .of_same rfl rfl
  · rename_i c rest _
    have hrest : s.KeepsRanges (s.withPending rest) := .of_same rfl rfl
    exact hrest.trans (exec_keepsRanges h)

/-- Settles O54: energy moves at a close, where the carry keeps its range, and else only to 0. -/
theorem everyStepKeepsEnergyInRange : Obligations.EveryStepKeepsEnergyInRange :=
  fun _ _ hs h => (step_keepsRanges h).energy hs

/-- Settles O55: windows, published results and frequencies change with a handed set, a window reset or a restart. -/
theorem everyStepKeepsWindowsInRange : Obligations.EveryStepKeepsWindowsInRange :=
  fun _ _ hs h => (step_keepsRanges h).windows hs

end Sys2Proof.Machine
end

