-- ==== Sys2Proof/Proofs/Arithmetic.lean ====
section
/-! The arithmetic of spec/00 0.6: rounding division, the floor of a root, saturation, and calibration (R20). -/

namespace Sys2Proof.Machine

/-! ## Rounding division -/

/-- `q` is the integer nearest to `a / n`, the one further from zero when two are equally near. -/
def Nearest (a n q : Int) : Prop := 2 * |a - n * q| < n ∨ (2 * |a - n * q| = n ∧ |a| < |n * q|)

/-- A quotient rounded half up lies within half a divisor, the upper half open. -/
theorem roundDivNat_bounds (a : Nat) {n : Nat} (hn : 0 < n) :
    2 * (n * roundDivNat a n) ≤ 2 * a + n ∧ 2 * a < 2 * (n * roundDivNat a n) + n := by
  have hdiv : 2 * n * roundDivNat a n + (2 * a + n) % (2 * n) = 2 * a + n := Nat.div_add_mod _ _
  have hmod : (2 * a + n) % (2 * n) < 2 * n := Nat.mod_lt _ (by omega)
  rw [mul_assoc] at hdiv
  omega

theorem nearest_roundDivNat (a : Nat) {n : Nat} (hn : 0 < n) : Nearest a n (roundDivNat a n) := by
  obtain ⟨hlow, hhigh⟩ := roundDivNat_bounds a hn
  unfold Nearest
  rw [← Nat.cast_mul, Nat.abs_cast, Nat.abs_cast]
  generalize n * roundDivNat a n = x at *
  rcases abs_cases ((a : Int) - x) with ⟨habs, -⟩ | ⟨habs, -⟩
  · omega
  · omega

/-- Rounding mirrors at zero. -/
theorem Nearest.neg {a n q : Int} (h : Nearest a n q) : Nearest (-a) n (-q) := by
  have hdiff : -a - n * -q = -(a - n * q) := by ring
  unfold Nearest
  rw [hdiff, mul_neg, abs_neg, abs_neg, abs_neg]
  exact h

theorem roundDiv_of_nonneg {a : Int} (h : 0 ≤ a) (n : Nat) : roundDiv a n = roundDivNat a.toNat n := if_pos h

theorem roundDiv_of_neg {a : Int} (h : a < 0) (n : Nat) : roundDiv a n = -(roundDivNat (-a).toNat n : Int) :=
  if_neg (by omega)

theorem nearest_roundDiv (a : Int) {n : Nat} (hn : 0 < n) : Nearest a n (roundDiv a n) := by
  rcases lt_or_ge a 0 with ha | ha
  · have h := (nearest_roundDivNat (-a).toNat hn).neg
    rwa [Int.toNat_of_nonneg (by omega), neg_neg, ← roundDiv_of_neg ha] at h
  · have h := nearest_roundDivNat a.toNat hn
    rwa [Int.toNat_of_nonneg ha, ← roundDiv_of_nonneg ha] at h

/-! ## The integer root -/

/-- While bits remain, the root lies in the span that they can still reach. -/
theorem isqrtBits_isRoot (n k r : Nat) (hlow : r * r ≤ n) (hhigh : n < (r + 2 ^ k) * (r + 2 ^ k)) :
    isqrtBits n k r * isqrtBits n k r ≤ n ∧ n < (isqrtBits n k r + 1) * (isqrtBits n k r + 1) := by
  induction k generalizing r with
  | zero => exact ⟨hlow, hhigh⟩
  | succ k ih =>
    have hspan : r + 2 ^ (k + 1) = r + 2 ^ k + 2 ^ k := by ring
    unfold isqrtBits
    split
    · exact ih _ ‹_› (hspan ▸ hhigh)
    · exact ih _ hlow (by omega)

theorem isqrt_isRoot (n : Nat) : isqrt n * isqrt n ≤ n ∧ n < (isqrt n + 1) * (isqrt n + 1) := by
  refine isqrtBits_isRoot n _ 0 (Nat.zero_le n) ?_
  calc n < 2 ^ (n.log2 + 1) := Nat.lt_log2_self
    _ ≤ 2 ^ ((n.log2 / 2 + 1) + (n.log2 / 2 + 1)) := Nat.pow_le_pow_right (by omega) (by omega)
    _ = (0 + 2 ^ (n.log2 / 2 + 1)) * (0 + 2 ^ (n.log2 / 2 + 1)) := by rw [Nat.zero_add, pow_add]

/-! ## Saturation and calibration -/

theorem clampInt_eq {lo hi : Int} (h : lo ≤ hi) (x : Int) : clampInt lo hi x = max lo (min hi x) := by
  unfold clampInt
  split
  · omega
  · split <;> omega

theorem calibrate_fst (e : CalEntry) (raw : RawCode) :
    (calibrate e raw).1 = max (-32767) (min 32767 (roundDiv ((raw.toInt - e.offset) * (e.gain : Int)) 32768)) :=
  clampInt_eq (by decide) _

theorem calibrate_snd (e : CalEntry) (raw : RawCode) : (calibrate e raw).2 = true ↔
    roundDiv ((raw.toInt - e.offset) * (e.gain : Int)) 32768 < -32767
      ∨ 32767 < roundDiv ((raw.toInt - e.offset) * (e.gain : Int)) 32768 := decide_eq_true_iff

theorem State.calSet_v (s : State) (b : Bank) (num : SetNo) (raw : RawSet) (sub : Bool) :
    (s.calSet b num raw sub).v = (calibrate s.calTable.active[48 + b.val] raw.volt).1 := rfl

theorem State.calSet_cur (s : State) (b : Bank) (num : SetNo) (raw : RawSet) (sub : Bool) (p : Position) :
    ((s.calSet b num raw sub).cur[p]).1 = (calibrate s.calTable.active[(outletAt b p).val] raw.cur[p]).1 := by
  unfold State.calSet
  dsimp only
  rw [ofFn_get]
  rfl

/-- Settles O14, from the rounding of `roundDiv`, the root of `isqrt` and the saturation of `clampInt`. -/
theorem calibrationRounds : Obligations.CalibrationRounds :=
  ⟨fun a _ hn => nearest_roundDiv a hn, isqrt_isRoot,
    fun e raw => ⟨_, nearest_roundDiv _ (by decide), calibrate_fst e raw, calibrate_snd e raw⟩,
    fun s b num raw sub => ⟨s.calSet_v b num raw sub, s.calSet_cur b num raw sub⟩⟩

end Sys2Proof.Machine
end

