-- ==== Sys2Proof/Proofs/ResetPromises.lean ====
section
/-! The power-on state meets every promise that the steps keep; and the replies of commands, with CLEAR_ENERGY (R41). -/

namespace Sys2Proof.Machine

/-- Each phase has its default capacity of 2, and 2 tokens. -/
theorem State.reset_tokensKept : State.reset.TokensKept := fun p => by
  simp [State.reset, Staged.ofActive, PhaseEntry.default]

theorem State.reset_energyKept : State.reset.EnergyKept := State.energyKept_of_reset rfl

theorem State.reset_windowsKept : State.reset.WindowsKept := State.windowsKept_of_reset rfl

/-- An empty notifier. -/
theorem State.reset_notifierKept : State.reset.NotifierKept := by
  have hunbound : ∀ (i : Stream) (b : Binding), State.reset.notifier.streams[i] ≠ some b := fun i b => by
    simp [State.reset, Notifier.reset]
  refine ⟨Nat.zero_le _, List.nodup_nil, fun i b hb => ?_, fun i j b c hb => ?_, Nat.zero_le _, fun _ => rfl⟩
  · exact absurd hb (hunbound i _)
  · exact absurd hb (hunbound i _)

theorem State.reset_fillsKept : State.reset.FillsKept :=
  ⟨fun b => by simp [State.reset, Lane.reset], Nat.zero_le _, Nat.zero_le _, Nat.zero_le _⟩

theorem State.reset_calKept : State.reset.CalKept := ⟨nofun, fun _ => rfl, fun _ _ _ => rfl, nofun⟩

theorem State.reset_slotsKept : State.reset.SlotsKept :=
  ⟨Nat.zero_le _, .refl _, (Staged.ofActive_holds _).1, (Staged.ofActive_holds _).1⟩

theorem State.reset_isShed (o : Outlet) : State.reset.isShed o = false := by
  simp [State.isShed, State.reset, ShedUnit.reset]

theorem State.reset_groupBusy (o : Outlet) : State.reset.groupBusy o = false := by
  unfold State.groupBusy
  split
  · rfl
  · simp [State.reset, GroupOp.reset]

theorem State.reset_relays (o : Outlet) : State.reset.relays[o].state = .unknown := by simp [State.reset, Relay.reset]

/-- Every outlet's indicator is AUTO, and its relay, which is UNKNOWN, neither blinks nor is ON. -/
theorem State.reset_modesKept : State.reset.ModesKept := fun b p => by
  have hauto : State.reset.outletTable.active[outletAt b p].indicator = .auto := by
    simp [State.reset, Staged.ofActive, OutletEntry.default]
  have hshown : State.reset.shown[b][p] = .off := by simp [State.reset]
  have hblinks : State.reset.blinks (outletAt b p) = false := by
    rw [State.blinks, State.reset_relays, State.reset_isShed, State.reset_groupBusy]
    rfl
  rw [State.modeOf, hauto, hshown]
  dsimp only
  rw [hblinks, State.reset_relays]
  rfl

/-- Settles O3, promise by promise. -/
theorem powerOnMeetsEveryPromise : Obligations.PowerOnMeetsEveryPromise :=
  ⟨State.reset_tokensKept, State.reset_energyKept, State.reset_windowsKept, List.nodup_nil, State.reset_notifierKept,
    State.reset_fillsKept, fun h => absurd rfl h, State.reset_calKept, State.reset_slotsKept, State.reset_modesKept⟩

/-! ## CLEAR_ENERGY -/

theorem indexed_eq_some {n k : Nat} {i : Fin n} (h : k = i.val + 1) : indexed n k = some i := by
  subst h
  simp [indexed, i.isLt]

theorem indexed_eq_none {n k : Nat} (h : n < k) : indexed n k = none := dif_neg (by omega)

/-- A command that can be taken is answered with its owner's reply. -/
theorem State.take_answered {s u : State} {kind tag : Byte} {payload : List Byte} {len : Nat} {run : State → Reply}
    {st : Status} {a : Answer} (h : s.ready kind tag payload) (hl : payload.length = len)
    (hrun : run s.taken = { answer := some (st, a), state := u }) :
    s.take kind tag payload len run = .next (u.answered kind tag st a) := by
  rw [State.take_of_ready run h hl, hrun]
  rfl

/-- Settles O18, by the value of the payload's byte. -/
theorem clearEnergyClears : Obligations.ClearEnergyClears := by
  intro tag x s h
  refine ⟨fun hx => ?_, fun o hx => ?_, fun hx => ?_⟩
  · refine State.take_answered h rfl ?_
    rw [if_pos (show arg [x] 0 = 0 from hx)]
    rfl
  · refine State.take_answered h rfl ?_
    rw [if_neg (show ¬ arg [x] 0 = 0 by simp [arg, hx]), indexed_eq_some (show arg [x] 0 = o.val + 1 from hx)]
    rfl
  · refine State.take_answered h rfl ?_
    rw [if_neg (show ¬ arg [x] 0 = 0 by simp [arg]; omega), indexed_eq_none (show 48 < arg [x] 0 from hx)]
    rfl

end Sys2Proof.Machine
end

