-- ==== Sys2Proof/Proofs/CloseResults.lean ====
section
/-! What a close publishes and what it adds, by its kind: results (R21, R32 to R36), energy (R37, R38), frequency
(R39) and interval sums (R44). -/

namespace Sys2Proof.Machine

/-! ## Results -/

theorem OutletSums.result_isOf (w : Window) (p : Position) (e : OutletEntry) :
    (w.sums[p].result w.n w.vrms e.creepCodes (w.outletOver p)).IsOf w p e.creep := by
  have hcreep : (roundDiv w.sums[p].vi w.n).natAbs < e.creepCodes
      ↔ |roundDiv w.sums[p].vi w.n| < (e.creep : Int) * 1000 := by
    rw [Int.abs_eq_natAbs, OutletEntry.creepCodes]
    omega
  refine ⟨rfl, rfl, decide_eq_true_iff.trans hcreep, ?_, ?_, rfl⟩
  · simp only [OutletSums.result, decide_eq_true_eq, hcreep]
  · have hclamp := clampInt_eq (by decide : (-1000 : Int) ≤ 1000)
    simp only [OutletSums.result, powerFactor, hcreep, Bool.or_eq_true, decide_eq_true_eq, hclamp]
    rfl

theorem curOver_ne_zero_iff (x : BitVec 8) : (x != 0) = true ↔ ∃ p : Position, x.getLsbD p.val = true := by
  rw [bne_iff_ne]
  constructor
  · intro h
    by_contra hnone
    push Not at hnone
    refine h (BitVec.eq_of_getLsbD_eq fun i hi => ?_)
    simpa using hnone ⟨i, hi⟩
  · rintro ⟨p, hp⟩ h
    rw [h] at hp
    simp at hp

theorem Window.result_isOf (w : Window) (k : WindowKind) (now : Uptime) : (w.result k now).IsOf w k now := by
  refine ⟨rfl, rfl, rfl, rfl, rfl, rfl, ?_⟩
  rw [← curOver_ne_zero_iff, ← Bool.or_eq_true]
  rfl

theorem frequencyOf_eq_roundDiv (lens : List Nat) :
    (frequencyOf lens : Int) = if lens.length = 8 then roundDiv 3200000 lens.sum else 0 := by
  rw [frequencyOf, roundDiv_of_nonneg (by decide)]
  split <;> rfl

/-! ## Energy -/

theorem OutletMeter.addEnergy_residue (m : OutletMeter) (units : Nat) :
    (m.addEnergy units).residue = (m.residue + units) % 28800000000 := rfl

theorem OutletMeter.addEnergy_energy (m : OutletMeter) (units : Nat) :
    (m.addEnergy units).energy = min 4294967295 (m.energy + (m.residue + units) / 28800000000) := rfl

/-- Adding nothing to a residue and a counter in their ranges changes neither. -/
theorem OutletMeter.InRange.addEnergy_zero {m : OutletMeter} (h : m.InRange) : m.addEnergy 0 = m := by
  obtain ⟨hresidue, henergy⟩ := h
  have hr : (m.addEnergy 0).residue = m.residue := by rw [OutletMeter.addEnergy_residue]; omega
  have he : (m.addEnergy 0).energy = m.energy := by rw [OutletMeter.addEnergy_energy]; omega
  calc m.addEnergy 0 = { m with energy := (m.addEnergy 0).energy, residue := (m.addEnergy 0).residue } := rfl
    _ = m := by rw [hr, he]

/-- The counts of windows hold at their largest value (R44). -/
theorem satSucc_eq (max x : Nat) : satSucc max x = min max (x + 1) := by
  unfold satSucc
  split <;> omega

/-! ## One outlet, by the kind of the close -/

section
variable (m : OutletMeter) (w : Window) (p : Position) (e : OutletEntry)

/-- The results of a published close. -/
def Window.outletResult : OutletResult := w.sums[p].result w.n w.vrms e.creepCodes (w.outletOver p)

theorem OutletMeter.atClose_latest {k : WindowKind} (hk : k ≠ .invalid) :
    ∃ r : OutletResult, (m.atClose w k p e).latest = some r ∧ r.IsOf w p e.creep := by
  refine ⟨w.outletResult p e, ?_, OutletSums.result_isOf w p e⟩
  cases k with
  | valid =>
    unfold OutletMeter.atClose OutletMeter.validClose
    dsimp only
    split <;> rfl
  | noLine => rfl
  | invalid => exact absurd rfl hk

theorem OutletMeter.validClose_lastValidP : (m.atClose w .valid p e).lastValidP = some (roundDiv w.sums[p].vi w.n) := by
  unfold OutletMeter.atClose OutletMeter.validClose
  dsimp only
  split <;> rfl

theorem OutletMeter.validClose_sums : (m.atClose w .valid p e).sums =
    { n := m.sums.n + w.n, i2 := m.sums.i2 + w.sums[p].i2, vi := m.sums.vi + w.sums[p].vi
      maxIrms := max m.sums.maxIrms (isqrt ((2 * w.sums[p].i2 + w.n) / (2 * w.n)))
      valid := min 65535 (m.sums.valid + 1), estimated := m.sums.estimated
      reverse := m.sums.reverse
        || decide (roundDiv w.sums[p].vi w.n < 0 ∧ roundDiv w.sums[p].vi w.n ≤ -((e.creep : Int) * 1000))
      overRange := m.sums.overRange || w.voltOver || w.curOver.getLsbD p.val } := by
  have hsums : (m.atClose w .valid p e).sums = m.sums.addValid w.sums[p] w.n e.creepCodes (w.outletResult p e) := by
    unfold OutletMeter.atClose OutletMeter.validClose
    dsimp only
    split <;> rfl
  rw [hsums, IntervalSums.addValid, satSucc_eq, Bool.or_assoc]
  rfl

/-- Real power that is positive and no creep joins the residue. -/
theorem OutletMeter.validClose_energy (hpos : 0 < roundDiv w.sums[p].vi w.n)
    (hcreep : (e.creep : Int) * 1000 ≤ roundDiv w.sums[p].vi w.n) :
    (m.atClose w .valid p e).residue = (m.addEnergy w.sums[p].vi.toNat).residue
    ∧ (m.atClose w .valid p e).energy = (m.addEnergy w.sums[p].vi.toNat).energy := by
  unfold OutletMeter.atClose OutletMeter.validClose
  dsimp only
  rw [if_pos ⟨hpos, hcreep⟩]
  exact ⟨rfl, rfl⟩

theorem OutletMeter.validClose_noEnergy
    (h : ¬ (0 < roundDiv w.sums[p].vi w.n ∧ (e.creep : Int) * 1000 ≤ roundDiv w.sums[p].vi w.n)) :
    (m.atClose w .valid p e).residue = m.residue ∧ (m.atClose w .valid p e).energy = m.energy := by
  unfold OutletMeter.atClose OutletMeter.validClose
  dsimp only
  split
  · exact absurd ‹_› h
  · exact ⟨rfl, rfl⟩

theorem OutletMeter.invalidClose_sums : (m.atClose w .invalid p e).sums =
    { m.sums with estimated := min 65535 (m.sums.estimated + 1) } := by
  rw [← satSucc_eq]
  rfl

/-- An INVALID close adds the energy that the last valid power gives for its sets (R38). -/
theorem OutletMeter.invalidClose_energy :
    (m.atClose w .invalid p e).residue = (m.addEnergy (m.estimate w.n e.creepCodes)).residue
    ∧ (m.atClose w .invalid p e).energy = (m.addEnergy (m.estimate w.n e.creepCodes)).energy := ⟨rfl, rfl⟩

theorem OutletMeter.noLineClose_sums : (m.atClose w .noLine p e).sums =
    { m.sums with overRange := m.sums.overRange || w.voltOver || w.curOver.getLsbD p.val } := by
  rw [Bool.or_assoc]
  rfl

end

theorem OutletMeter.estimate_of_power {m : OutletMeter} {e : OutletEntry} {P : Int} (n : Nat)
    (h : m.lastValidP = some P) (hpos : 0 < P) (hcreep : (e.creep : Int) * 1000 ≤ P) :
    m.estimate n e.creepCodes = P.toNat * n := by
  rw [OutletMeter.estimate, h]
  exact if_pos ⟨hpos, hcreep⟩

theorem OutletMeter.estimate_eq_zero {m : OutletMeter} {e : OutletEntry} (n : Nat)
    (h : ∀ P : Int, m.lastValidP = some P → ¬ (0 < P ∧ (e.creep : Int) * 1000 ≤ P)) :
    m.estimate n e.creepCodes = 0 := by
  unfold OutletMeter.estimate
  split
  · rfl
  · exact if_neg (h _ ‹_›)

/-! ## The close of a bank's window -/

theorem Window.kind_valid {w : Window} (ha : w.aligned = true) (hi : w.invalid = false) : w.kind true = .valid := by
  simp [Window.kind, ha, hi]

theorem Window.kind_invalid {w : Window} {c : Bool} (h : w.invalid = true ∨ (w.aligned = false ∧ c = true)) :
    w.kind c = .invalid := by
  obtain hi | ⟨ha, hc⟩ := h
  · simp [Window.kind, hi]
  · simp [Window.kind, ha, hc]

theorem Window.kind_noLine {w : Window} (hi : w.invalid = false) : w.kind false = .noLine := by
  simp [Window.kind, hi]

section
variable {s : State} {b : Bank} {w : Window}

theorem State.closeWindow_meter (hw : s.meters[b].window = some w) (c : Bool) :
    (s.closeWindow b c).meters[b] = s.meters[b].atClose w (w.kind c) s.uptime := by
  obtain ⟨hmeters, -⟩ := State.closeWindow_fields hw c
  rw [hmeters, upd_get_self]

theorem State.closeWindow_outlet (hw : s.meters[b].window = some w) (c : Bool) (p : Position) :
    (s.closeWindow b c).outlets[outletAt b p] =
      s.outlets[outletAt b p].atClose w (w.kind c) p s.outletTable.active[outletAt b p] := by
  obtain ⟨-, houtlets, -⟩ := State.closeWindow_fields hw c
  rw [houtlets, State.outletsAtClose_get, if_pos (bankOf_outletAt b p), posOf_outletAt]

theorem State.closeWindow_others (hw : s.meters[b].window = some w) (c : Bool) :
    (∀ b' : Bank, b' ≠ b → (s.closeWindow b c).meters[b'] = s.meters[b'])
    ∧ ∀ o : Outlet, bankOf o ≠ b → (s.closeWindow b c).outlets[o] = s.outlets[o] := by
  obtain ⟨hmeters, houtlets, -⟩ := State.closeWindow_fields hw c
  refine ⟨fun b' hb => ?_, fun o ho => ?_⟩
  · rw [hmeters, upd_get_ne _ hb.symm]
  · rw [houtlets, State.outletsAtClose_get, if_neg ho]

end

/-- Settles O16: such a close is valid, and the meter's and the eight outlets' parts of it are those above. -/
theorem validCloseResultsAndEnergy : Obligations.ValidCloseResultsAndEnergy := by
  intro b w s hw ha hi _
  have hmeter := State.closeWindow_meter hw true
  have houtlet := State.closeWindow_outlet hw true
  obtain ⟨hmeters, houtlets⟩ := State.closeWindow_others hw true
  rw [Window.kind_valid ha hi] at hmeter
  simp only [Window.kind_valid ha hi] at houtlet
  refine ⟨fun p => ?_, ?_, ?_, ?_, ?_, ?_, ?_, ?_, hmeters, houtlets⟩
  · dsimp only
    rw [houtlet p]
    exact ⟨OutletMeter.atClose_latest _ w p _ nofun, OutletMeter.validClose_lastValidP _ w p _,
      OutletMeter.validClose_energy _ w p _, OutletMeter.validClose_noEnergy _ w p _,
      OutletMeter.validClose_sums _ w p _⟩
  all_goals rw [hmeter]
  · rfl
  · rfl
  · rfl
  · rfl
  · exact ⟨_, rfl, w.result_isOf _ _⟩
  · rfl
  · exact frequencyOf_eq_roundDiv _

/-- Settles O17, by the two kinds of a close that is not valid. -/
theorem unpublishedEnergyAtOtherCloses : Obligations.UnpublishedEnergyAtOtherCloses := by
  intro b w c s hw
  have hmeter := State.closeWindow_meter hw c
  have houtlet := State.closeWindow_outlet hw c
  obtain ⟨hmeters, houtlets⟩ := State.closeWindow_others hw c
  refine ⟨fun h => ?_, fun hi hc => ?_, hmeters, houtlets⟩
  · rw [Window.kind_invalid h] at hmeter
    simp only [Window.kind_invalid h] at houtlet
    refine ⟨hmeter, fun p => ?_⟩
    dsimp only
    rw [houtlet p]
    obtain ⟨hresidue, henergy⟩ := OutletMeter.invalidClose_energy s.outlets[outletAt b p] w p
      s.outletTable.active[outletAt b p]
    refine ⟨rfl, rfl, OutletMeter.invalidClose_sums _ w p _, fun P hP hpos hcreep => ?_, fun hkept hnone => ?_⟩
    · rw [hresidue, henergy, OutletMeter.estimate_of_power _ hP hpos hcreep]
      exact ⟨rfl, rfl⟩
    · have hrange : s.outlets[outletAt b p].InRange := hkept _
      rw [hresidue, henergy, OutletMeter.estimate_eq_zero _ hnone, hrange.addEnergy_zero]
      exact ⟨rfl, rfl⟩
  · subst hc
    rw [Window.kind_noLine hi] at hmeter
    simp only [Window.kind_noLine hi] at houtlet
    refine ⟨?_, ?_, fun p => ?_⟩
    · rw [hmeter]; rfl
    · rw [hmeter]; exact ⟨_, rfl, w.result_isOf _ _⟩
    · dsimp only
      rw [houtlet p]
      exact ⟨OutletMeter.atClose_latest _ w p _ nofun, rfl, rfl, rfl, OutletMeter.noLineClose_sums _ w p _⟩

end Sys2Proof.Machine
end

