-- ==== Sys2Proof/Proofs/Reads.lean ====
section
/-! READ_OUTLET, READ_GROUP, READ_ENTRY and STATUS report the state as it stands (R40, R124, R145, R165). -/

namespace Sys2Proof.Machine

/-! ## Numbers from 1 -/

theorem indexed_eq_none_iff {n k : Nat} : indexed n k = none ↔ k = 0 ∨ n < k := by
  unfold indexed
  split
  · exact iff_of_false nofun (by omega)
  · exact iff_of_true rfl (by omega)

theorem indexed_eq_some_iff {n k : Nat} {i : Fin n} : indexed n k = some i ↔ k = i.val + 1 := by
  refine ⟨fun h => ?_, indexed_eq_some⟩
  unfold indexed at h
  split at h
  · rw [← Option.some.inj h]
    dsimp only
    omega
  · exact nomatch h

/-- A group's members are the outlets that its list numbers. -/
theorem mem_memberOutlets (e : GroupEntry) (o : Outlet) : o ∈ memberOutlets e ↔ o.val + 1 ∈ e.members := by
  simp [memberOutlets, indexed_eq_some_iff]

/-! ## READ_OUTLET -/

theorem readOutlet_bad {s : State} {tag n : Byte} (h : s.ready 0x09 tag [n]) (hn : n.toNat = 0 ∨ 48 < n.toNat) :
    exec (.readOutlet tag [n]) s = .next (s.taken.answered 0x09 tag .badArg (.offending none)) := by
  refine State.take_answered h rfl ?_
  rw [indexed_eq_none_iff.2 (show arg [n] 0 = 0 ∨ 48 < arg [n] 0 from hn)]
  rfl

theorem readOutlet_report {s : State} {tag n : Byte} (h : s.ready 0x09 tag [n]) {o : Outlet}
    (hn : n.toNat = o.val + 1) :
    exec (.readOutlet tag [n]) s = .next (s.taken.answered 0x09 tag .ok (.outlet (s.outletReport o))) := by
  refine State.take_answered h rfl ?_
  rw [indexed_eq_some (show arg [n] 0 = o.val + 1 from hn)]
  rfl

/-- The results are there when both the bank and the outlet have published some. -/
theorem State.outletReport_results (s : State) (o : Outlet) : (s.outletReport o).results =
    s.meters[bankOf o].latest.bind fun bank => s.outlets[o].latest.map fun r =>
      (bank, s.meters[bankOf o].frequency, r) := by
  unfold State.outletReport
  dsimp only
  cases s.meters[bankOf o].latest with
  | none => rfl
  | some bank => cases s.outlets[o].latest <;> rfl

/-! ## READ_GROUP -/

theorem readGroup_bad {s : State} {tag n : Byte} (h : s.ready 0x0F tag [n]) (hn : n.toNat = 0 ∨ 32 < n.toNat) :
    exec (.readGroup tag [n]) s = .next (s.taken.answered 0x0F tag .badArg (.offending none)) := by
  refine State.take_answered h rfl ?_
  rw [indexed_eq_none_iff.2 (show arg [n] 0 = 0 ∨ 32 < arg [n] 0 from hn)]
  rfl

theorem readGroup_report {s : State} {tag n : Byte} (h : s.ready 0x0F tag [n]) {g : Group} (hn : n.toNat = g.val + 1) :
    exec (.readGroup tag [n]) s = .next (s.taken.answered 0x0F tag .ok (.group (s.groupReport g))) := by
  refine State.take_answered h rfl ?_
  rw [indexed_eq_some (show arg [n] 0 = g.val + 1 from hn)]
  rfl

/-- Member `i` of a group as READ_GROUP reports it. -/
def State.memberReport (s : State) (g : Group) (i : Nat) (o : Outlet) : MemberReport :=
  { outlet := o, relay := s.relays[o].state, shed := s.isShed o, progress := s.groups[g].progress.getD i .pending }

theorem State.groupReport_members (s : State) (g : Group) :
    (s.groupReport g).members = (s.members g).mapIdx (s.memberReport g) := rfl

theorem State.groupReport_outlets (s : State) (g : Group) : (s.groupReport g).members.map (·.outlet) = s.members g := by
  refine List.ext_getElem? fun i => ?_
  rw [State.groupReport_members, List.getElem?_map, List.getElem?_mapIdx, Option.map_map]
  exact Option.map_id'

theorem State.groupReport_member (s : State) (g : Group) {x : MemberReport} (hx : x ∈ (s.groupReport g).members) :
    x.relay = s.relays[x.outlet].state ∧ (x.shed = true ↔ x.outlet ∈ s.sheds[bankOf x.outlet].stack) := by
  rw [State.groupReport_members, List.mem_mapIdx] at hx
  obtain ⟨i, hi, rfl⟩ := hx
  exact ⟨rfl, s.isShed_iff _⟩

theorem State.groupReport_progress (s : State) (g : Group) {i : Nat} {x : MemberReport}
    (hx : (s.groupReport g).members[i]? = some x) : x.progress = s.groups[g].progress.getD i .pending := by
  rw [State.groupReport_members, List.getElem?_mapIdx, Option.map_eq_some_iff] at hx
  obtain ⟨o, -, rfl⟩ := hx
  rfl

theorem State.power_allOff (s : State) (g : Group) : s.power g = .allOff ↔ ∀ o ∈ s.members g,
    o ∈ s.sheds[bankOf o].stack ∨ s.relays[o].state = .off ∨ s.relays[o].state = .faultOpen
      ∨ s.relays[o].state = .faultWelded := by
  simp only [s.power_eq_allOff_iff, s.countsOff_iff]

theorem State.power_allOn (s : State) (g : Group) : s.power g = .allOn ↔ s.members g ≠ [] ∧ ∀ o ∈ s.members g,
    o ∉ s.sheds[bankOf o].stack ∧ s.relays[o].state = .on := by
  simp only [s.power_eq_allOn_iff, s.countsOn_iff]

theorem PowerState.eq_partly_iff (x : PowerState) : x = .partly ↔ x ≠ .allOff ∧ x ≠ .allOn := by
  cases x <;> simp

section
variable (s : State) (g : Group)

theorem State.opTimer_dwell {u : Uptime} (h : s.groups[g].dwell = some u) :
    s.opTimer g = some (.dwell, u + BitVec.ofNat 32 (s.groupTable.active[g].offDwell * 1000)) := by
  unfold State.opTimer
  dsimp only
  rw [h]
  rfl

theorem State.opTimer_stagger {u : Uptime} (hd : s.groups[g].dwell = none) (h : s.groups[g].stagger = some u) :
    s.opTimer g = some (.stagger, u + BitVec.ofNat 32 (s.groupTable.active[g].onStagger * 1000)) := by
  unfold State.opTimer
  dsimp only
  rw [hd, h]
  rfl

theorem State.opTimer_boot {u : Uptime} (hd : s.groups[g].dwell = none) (hs : s.groups[g].stagger = none)
    (h : s.groups[g].boot = some u) :
    s.opTimer g = some (.boot, u + BitVec.ofNat 32 (s.groupTable.active[g].bootWindow * 1000)) := by
  unfold State.opTimer
  dsimp only
  rw [hd, hs, h]
  rfl

theorem State.opTimer_none (hd : s.groups[g].dwell = none) (hs : s.groups[g].stagger = none)
    (h : s.groups[g].boot = none) : s.opTimer g = none := by
  unfold State.opTimer
  dsimp only
  rw [hd, hs, h]

theorem State.monitorTimer_deadline {u : Uptime} (h : s.monitors[g].deadline = some u) :
    s.monitorTimer g = some (u + BitVec.ofNat 32 (s.groupTable.active[g].deadline * 1000), false) := by
  unfold State.monitorTimer
  dsimp only
  rw [h]
  rfl

/-- A grace of a retry lasts an interval at least. -/
theorem State.graceMs_eq (c : Grace) : s.graceMs g c =
    (if c.retry then max s.groupTable.active[g].grace s.systemTable.active[0].intervalLength
      else s.groupTable.active[g].grace) * 1000 := by
  unfold State.graceMs
  split <;> rfl

theorem State.monitorTimer_grace {c : Grace} (hd : s.monitors[g].deadline = none) (h : s.monitors[g].grace = some c) :
    s.monitorTimer g = some (c.start + BitVec.ofNat 32 (s.graceMs g c), true) := by
  unfold State.monitorTimer
  dsimp only
  rw [hd, h]
  rfl

theorem State.monitorTimer_none (hd : s.monitors[g].deadline = none) (h : s.monitors[g].grace = none) :
    s.monitorTimer g = none := by
  unfold State.monitorTimer
  dsimp only
  rw [hd, h]

end

/-! ## READ_ENTRY -/

section
variable {s : State} {tag tb k cp : Byte}

theorem readEntry_bad (h : s.ready 0x01 tag [tb, k, cp])
    (hbad : ∀ t : TableId, TableId.ofByte tb = some t → cp.toNat ≤ 1 → s.entryAnswer t k.toNat (cp.toNat == 1) = none) :
    exec (.readEntry tag [tb, k, cp]) s = .next (s.taken.answered 0x01 tag .badArg (.offending none)) := by
  refine State.take_answered h rfl ?_
  rw [show [tb, k, cp].getD 0 0 = tb from rfl]
  cases ht : TableId.ofByte tb with
  | none => rfl
  | some t =>
    dsimp only
    split
    · rfl
    · rename_i hcp
      have hnone : s.taken.entryAnswer t (arg [tb, k, cp] 1) (arg [tb, k, cp] 2 == 1) = none :=
        hbad t ht (Nat.le_of_not_lt hcp)
      rw [hnone]
      rfl

theorem readEntry_ok (h : s.ready 0x01 tag [tb, k, cp]) {t : TableId} {a : Answer} (ht : TableId.ofByte tb = some t)
    (hcp : cp.toNat ≤ 1) (ha : s.entryAnswer t k.toNat (cp.toNat == 1) = some a) :
    exec (.readEntry tag [tb, k, cp]) s = .next (s.taken.answered 0x01 tag .ok a) := by
  refine State.take_answered h rfl ?_
  have hsome : s.taken.entryAnswer t (arg [tb, k, cp] 1) (arg [tb, k, cp] 2 == 1) = some a := ha
  rw [show [tb, k, cp].getD 0 0 = tb from rfl, ht]
  dsimp only
  rw [if_neg (show ¬ 1 < arg [tb, k, cp] 2 from Nat.not_lt.2 hcp), hsome]
  rfl

/-- A table that has no entry `k`. -/
theorem readEntry_badIndex (h : s.ready 0x01 tag [tb, k, cp]) {t : TableId} (ht : TableId.ofByte tb = some t)
    (hk : ∀ p : Bool, s.entryAnswer t k.toNat p = none) :
    exec (.readEntry tag [tb, k, cp]) s = .next (s.taken.answered 0x01 tag .badArg (.offending none)) := by
  refine readEntry_bad h fun t' ht' _ => ?_
  rw [← Option.some.inj (ht.symm.trans ht')]
  exact hk _

/-- READ_ENTRY answers with a waiting mark, an owner and an area. -/
theorem readEntry_gives (h : s.ready 0x01 tag [tb, k, cp]) {t : TableId} (ht : TableId.ofByte tb = some t)
    (hcp : cp.toNat ≤ 1) {waits : Prop} {w : Bool} {owner : Nat} {area area' : List Byte}
    (ha : s.entryAnswer t k.toNat (cp.toNat == 1) = some (.entry w owner area)) (hw : w = true ↔ waits)
    (harea : area = area') : ∃ w : Bool, (w = true ↔ waits) ∧
      exec (.readEntry tag [tb, k, cp]) s = .next (s.taken.answered 0x01 tag .ok (.entry w owner area')) :=
  ⟨w, hw, harea ▸ readEntry_ok h ht hcp ha⟩

end

theorem TableId.ofByte_eq_none {b : Byte} (h : b.toNat = 0 ∨ 7 < b.toNat) : TableId.ofByte b = none := by
  unfold TableId.ofByte
  split
  case h_8 => rfl
  all_goals omega

theorem readEntry_undefined {s : State} {tag tb k cp : Byte} (h : s.ready 0x01 tag [tb, k, cp])
    (hbad : tb.toNat = 0 ∨ 7 < tb.toNat ∨ 1 < cp.toNat) :
    exec (.readEntry tag [tb, k, cp]) s = .next (s.taken.answered 0x01 tag .badArg (.offending none)) := by
  refine readEntry_bad h fun t ht hcp => ?_
  rw [TableId.ofByte_eq_none (by omega)] at ht
  exact nomatch ht

theorem copyOf_eq {α : Type} {n m : Nat} (t : Staged α n m) {cp : Nat} (hcp : cp ≤ 1) :
    copyOf t (cp == 1) = if cp = 0 then t.active else t.pending := by
  obtain rfl | rfl : cp = 0 ∨ cp = 1 := by omega
  · rfl
  · rfl

theorem copyOf_get {α : Type} {n m : Nat} (t : Staged α n m) {cp : Nat} (hcp : cp ≤ 1) (i : Fin n) :
    (copyOf t (cp == 1))[i] = if cp = 0 then t.active[i] else t.pending[i] := by
  rw [copyOf_eq t hcp]
  split <;> rfl

/-- The owner's number is that of a group whose list numbers the outlet. -/
theorem ownerNumber_of_ne_zero {groups : Vector GroupEntry 32} {o : Outlet} (h : ownerNumber groups o ≠ 0) :
    ∃ g : Group, ownerNumber groups o = g.val + 1 ∧ o.val + 1 ∈ groups[g].members := by
  unfold ownerNumber at h ⊢
  cases hfind : allGroups.find? fun g => decide (o ∈ memberOutlets groups[g]) with
  | none => exact absurd (by rw [hfind]) h
  | some g =>
    have hg := List.find?_some hfind
    rw [decide_eq_true_iff, mem_memberOutlets] at hg
    exact ⟨g, rfl, hg⟩

theorem not_mem_of_ownerNumber_eq_zero {groups : Vector GroupEntry 32} {o : Outlet} (h : ownerNumber groups o = 0)
    (g : Group) : o.val + 1 ∉ groups[g].members := by
  unfold ownerNumber at h
  cases hfind : allGroups.find? fun g => decide (o ∈ memberOutlets groups[g]) with
  | none =>
    have hg := List.find?_eq_none.1 hfind g (List.mem_finRange g)
    rwa [decide_eq_true_iff, mem_memberOutlets] at hg
  | some g' =>
    rw [hfind] at h
    exact nomatch h

theorem grantIndex_eq_some {k : Nat} {i : Fin 32} (h : k = i.val) : grantIndex k = some i := by
  subst h
  exact dif_pos i.isLt

theorem grantIndex_eq_none {k : Nat} (h : 31 < k) : grantIndex k = none := dif_neg (by omega)

/-- A grant phase's area: the bank's number, and the rest padding. -/
theorem grantArea (x : Option Bank) : padArea (toBytes 1 (grantNumber x)) =
    (match x with | none => (0 : Byte) | some b => BitVec.ofNat 8 (b.val + 1)) :: List.replicate 25 0 := by
  cases x with
  | none => rfl
  | some b => simp [padArea, toBytes, grantNumber, numberOf]

/-! ## STATUS -/

section
variable (s : State)

theorem State.anyRelayFault_iff :
    s.anyRelayFault = true ↔ ∃ o : Outlet, s.relays[o].state = .faultOpen ∨ s.relays[o].state = .faultWelded := by
  simp only [State.anyRelayFault, allOutlets, List.any_eq_true, List.mem_finRange, true_and, RelayState.faulted_iff]

theorem State.anyNotUp_iff : s.anyNotUp = true ↔ ∃ b : Bank, s.lanes[b].link ≠ .up := by
  simp [State.anyNotUp, allBanks, State.isUp]

theorem State.anyCritical_iff : s.anyCritical = true ↔ (∃ o : Outlet, s.outletLimits[o].level = .critical)
    ∨ (∃ b : Bank, s.bankLimits[b].level = .critical) ∨ ∃ p : SupplyPhase, s.phaseLimits[p].level = .critical := by
  simp [State.anyCritical, allOutlets, allBanks, allPhases, or_assoc]

theorem State.anyLockout_iff : s.anyLockout = true ↔ ∃ g : Group, s.monitors[g].state = .lockedOut := by
  simp [State.anyLockout, allGroups]

theorem State.anyLinkError_iff :
    s.anyLinkError = true ↔ s.link0.errors.kinds ≠ [] ∨ ∃ b : Bank, s.lanes[b].errors.kinds ≠ [] := by
  simp [State.anyLinkError, allBanks]

end

theorem status_report {s : State} {tag : Byte} (h : s.ready 0x1A tag []) :
    exec (.status tag []) s = .next (s.taken.answered 0x1A tag .ok (.status s.statusReport)) :=
  State.take_answered h rfl rfl

/-! ## The four reads -/

/-- Settles O47, command by command; READ_ENTRY table by table. -/
theorem readsReportTheState : Obligations.ReadsReportTheState := by
  refine ⟨fun tag n s h => ⟨readOutlet_bad h, fun o hn => ?_⟩, fun tag n s h => ⟨readGroup_bad h, fun g hn => ?_⟩,
    fun tag tb k cp s h => ?_, fun tag s h => ?_⟩
  · rw [readOutlet_report h hn, ← s.outletReport_results o]
    rfl
  · refine ⟨s.groupReport g, readGroup_report h hn, rfl, s.groupReport_outlets g, fun x hx => s.groupReport_member g hx,
      fun i x hx => s.groupReport_progress g hx, s.power_allOff g, s.power_allOn g, PowerState.eq_partly_iff _,
      rfl, rfl, rfl, rfl, rfl, rfl, rfl, rfl, rfl, rfl, fun u hd => s.opTimer_dwell g hd,
      fun u hd hs => s.opTimer_stagger g hd hs, fun u hd hs hb => s.opTimer_boot g hd hs hb,
      fun hd hs hb => s.opTimer_none g hd hs hb, fun u hd => s.monitorTimer_deadline g hd, fun c hd hc => ?_,
      fun hd hc => s.monitorTimer_none g hd hc, rfl, rfl, rfl, rfl, rfl, rfl⟩
    dsimp only
    rw [← s.graceMs_eq g c]
    exact s.monitorTimer_grace g hd hc
  · refine ⟨?_, ?_, ?_, ?_, ?_, ?_, ?_, ?_, fun hcp => ⟨?_, ?_, ?_, ?_, ?_, ?_, ?_⟩⟩
    · exact readEntry_undefined h
    iterate 5
      rintro rfl hk
      exact readEntry_badIndex h rfl fun _ => Option.map_eq_none_iff.2 (indexed_eq_none_iff.2 hk)
    · rintro rfl hk
      exact readEntry_badIndex h rfl fun _ => Option.map_eq_none_iff.2 (grantIndex_eq_none hk)
    · rintro rfl hk
      exact readEntry_badIndex h rfl fun _ => Option.map_eq_none_iff.2 (indexed_eq_none_iff.2 (by omega))
    · rintro rfl o hk
      refine ⟨ownerNumber (copyOf s.groupTable (cp.toNat == 1)) o, ?_, ?_, ?_⟩
      · exact readEntry_gives h rfl hcp (congrArg (Option.map _) (indexed_eq_some hk)) decide_eq_true_iff
          (congrArg OutletEntry.area (copyOf_get _ hcp o))
      all_goals rw [← copyOf_eq s.groupTable hcp]
      · exact ownerNumber_of_ne_zero
      · exact not_mem_of_ownerNumber_eq_zero
    · rintro rfl b hk
      exact readEntry_gives h rfl hcp (congrArg (Option.map _) (indexed_eq_some hk)) decide_eq_true_iff
        (congrArg BankEntry.area (copyOf_get _ hcp b))
    · rintro rfl p hk
      exact readEntry_gives h rfl hcp (congrArg (Option.map _) (indexed_eq_some hk))
        (iff_of_false Bool.false_ne_true id)
        (congrArg PhaseEntry.area (copyOf_get _ hcp p))
    · rintro rfl i hk
      exact readEntry_gives h rfl hcp (congrArg (Option.map _) (indexed_eq_some hk)) decide_eq_true_iff
        (congrArg (CalEntry.area i) (copyOf_get _ hcp i))
    · rintro rfl g hk
      exact readEntry_gives h rfl hcp (congrArg (Option.map _) (indexed_eq_some hk)) decide_eq_true_iff
        (congrArg GroupEntry.area (congrArg (·[g]) (copyOf_eq _ hcp)))
    · rintro rfl i hk
      exact readEntry_gives h rfl hcp (congrArg (Option.map _) (grantIndex_eq_some hk))
        (iff_of_false Bool.false_ne_true id)
        ((congrArg (fun x => padArea (toBytes 1 (grantNumber x))) (copyOf_get _ hcp i)).trans (grantArea _))
    · rintro rfl hk
      exact readEntry_gives h rfl hcp (congrArg (Option.map _) (indexed_eq_some (i := 0) hk))
        (iff_of_false Bool.false_ne_true id)
        (congrArg SystemEntry.area (copyOf_get _ hcp 0))
  · refine ⟨s.statusReport, status_report h, rfl, fun b => ofFn_get _ b, s.anyRelayFault_iff, s.anyNotUp_iff,
      s.anyCritical_iff, s.anyLockout_iff, s.anyLinkError_iff, rfl, Option.isSome_iff_ne_none, rfl, rfl, rfl, rfl, rfl⟩

end Sys2Proof.Machine
end

