-- ==== Sys2Proof/Proofs/Blind.lean ====
section
/-! Blocks that are blind to the measurements: relays, queue, groups, safe control, limits and tables act alike whatever
the meters and the capture unit hold. So a set that only enters a bank's history leaves the rest of a close as it is. -/

namespace Sys2Proof.Machine

/-- `s` with other bank meters and another capture unit. -/
def State.remeter (s : State) (m : Vector BankMeter 6) (c : Capture) : State := { s with meters := m, capture := c }

section
variable (s : State) (m : Vector BankMeter 6) (c : Capture)

/-! ## What the blocks read -/

@[simp] theorem State.remeter_relays : (s.remeter m c).relays = s.relays := rfl
@[simp] theorem State.remeter_queue : (s.remeter m c).queue = s.queue := rfl
@[simp] theorem State.remeter_lanes : (s.remeter m c).lanes = s.lanes := rfl
@[simp] theorem State.remeter_shown : (s.remeter m c).shown = s.shown := rfl
@[simp] theorem State.remeter_sheds : (s.remeter m c).sheds = s.sheds := rfl
@[simp] theorem State.remeter_groups : (s.remeter m c).groups = s.groups := rfl
@[simp] theorem State.remeter_safe : (s.remeter m c).safe = s.safe := rfl
@[simp] theorem State.remeter_uptime : (s.remeter m c).uptime = s.uptime := rfl
@[simp] theorem State.remeter_outletTable : (s.remeter m c).outletTable = s.outletTable := rfl
@[simp] theorem State.remeter_groupTable : (s.remeter m c).groupTable = s.groupTable := rfl
@[simp] theorem State.remeter_calTable : (s.remeter m c).calTable = s.calTable := rfl
@[simp] theorem State.remeter_bankTable : (s.remeter m c).bankTable = s.bankTable := rfl
@[simp] theorem State.remeter_phaseTable : (s.remeter m c).phaseTable = s.phaseTable := rfl
@[simp] theorem State.remeter_outletLimits : (s.remeter m c).outletLimits = s.outletLimits := rfl
@[simp] theorem State.remeter_bankLimits : (s.remeter m c).bankLimits = s.bankLimits := rfl
@[simp] theorem State.remeter_phaseLimits : (s.remeter m c).phaseLimits = s.phaseLimits := rfl
@[simp] theorem State.remeter_phaseElements : (s.remeter m c).phaseElements = s.phaseElements := rfl
@[simp] theorem State.remeter_loadLost : (s.remeter m c).loadLost = s.loadLost := rfl
@[simp] theorem State.remeter_isUp (b : Bank) : (s.remeter m c).isUp b = s.isUp b := rfl
@[simp] theorem State.remeter_inSafe : (s.remeter m c).inSafe = s.inSafe := rfl
@[simp] theorem State.remeter_members (g : Group) : (s.remeter m c).members g = s.members g := rfl
@[simp] theorem State.remeter_groupOf (o : Outlet) : (s.remeter m c).groupOf o = s.groupOf o := rfl
@[simp] theorem State.remeter_isShed (o : Outlet) : (s.remeter m c).isShed o = s.isShed o := rfl
@[simp] theorem State.remeter_power (g : Group) : (s.remeter m c).power g = s.power g := rfl
@[simp] theorem State.remeter_modesOf (b : Bank) : (s.remeter m c).modesOf b = s.modesOf b := rfl
@[simp] theorem State.remeter_entryOf (o : Outlet) : (s.remeter m c).entryOf o = s.entryOf o := rfl
@[simp] theorem State.remeter_isIssued : (s.remeter m c).isIssued = s.isIssued := rfl
@[simp] theorem State.remeter_groupEntry (g : Group) : (s.remeter m c).groupEntry g = s.groupEntry g := rfl
@[simp] theorem State.remeter_anyWelded (g : Group) : (s.remeter m c).anyWelded g = s.anyWelded g := rfl
@[simp] theorem State.remeter_awaiter (o : Outlet) : (s.remeter m c).awaiter o = s.awaiter o := rfl
@[simp] theorem State.remeter_actionRecord (e : QueueEntry) (r : Completion) (a : Option SetNo) :
    (s.remeter m c).actionRecord e r a = s.actionRecord e r a := rfl

@[simp] theorem State.remeter_applicable (l : List Group) : (s.remeter m c).applicable l = s.applicable l := by
  have hprune : ∀ (n : Nat) (set : List Group), (s.remeter m c).pruneGroups l n set = s.pruneGroups l n set := by
    intro n
    induction n with
    | zero => exact fun _ => rfl
    | succ n ih => exact fun set => ih _
  exact hprune 32 _

/-! ## Moving the change outwards in: choices and folds -/

theorem State.ite_remeter (p : Prop) [Decidable p] (t : State) :
    (if p then s else t).remeter m c = if p then s.remeter m c else t.remeter m c := apply_ite (·.remeter m c) p s t

theorem State.foldl_remeter {α : Type} (f : State → α → State)
    (hf : ∀ (s : State) (a : α), (f s a).remeter m c = f (s.remeter m c) a) (l : List α) :
    (l.foldl f s).remeter m c = l.foldl f (s.remeter m c) := by
  induction l generalizing s with
  | nil => rfl
  | cons a l ih => rw [List.foldl_cons, ih, hf, List.foldl_cons]

/-! ## Reports, modes and relays -/

theorem State.onReports_remeter (f : Notifier × Link0 → Notifier × Link0) :
    (s.onReports f).remeter m c = (s.remeter m c).onReports f := rfl

theorem State.raiseEvent_remeter (e : Event) : (s.raiseEvent e).remeter m c = (s.remeter m c).raiseEvent e := rfl

theorem State.raise_remeter (k : EventKind) (n : Nat) (d : Detail) :
    (s.raise k n d).remeter m c = (s.remeter m c).raise k n d := rfl

theorem State.onRelay_remeter (o : Outlet) (f : Relay → Relay) :
    (s.onRelay o f).remeter m c = (s.remeter m c).onRelay o f := rfl

theorem State.onGroup_remeter (g : Group) (f : GroupOp → GroupOp) :
    (s.onGroup g f).remeter m c = (s.remeter m c).onGroup g f := rfl

theorem State.onMonitor_remeter (g : Group) (f : Monitor → Monitor) :
    (s.onMonitor g f).remeter m c = (s.remeter m c).onMonitor g f := rfl

theorem State.placeIndicate_remeter (b : Bank) : (s.placeIndicate b).remeter m c = (s.remeter m c).placeIndicate b := by
  unfold State.placeIndicate
  rw [State.ite_remeter]
  rfl

theorem State.refreshModes_remeter (b : Bank) : (s.refreshModes b).remeter m c = (s.remeter m c).refreshModes b := by
  unfold State.refreshModes
  rw [State.ite_remeter, State.placeIndicate_remeter]
  rfl

theorem State.refreshModesOf_remeter (l : List Outlet) :
    (s.refreshModesOf l).remeter m c = (s.remeter m c).refreshModesOf l :=
  s.foldl_remeter m c _ (fun s b => by rw [State.ite_remeter, State.refreshModes_remeter]) _

theorem State.notePower_remeter (t : State) (g : Group) :
    (s.notePower t g).remeter m c = (s.remeter m c).notePower (t.remeter m c) g := by
  unfold State.notePower
  rw [State.ite_remeter]
  rfl

theorem State.notePowerOf_remeter (t : State) (o : Outlet) :
    (s.notePowerOf t o).remeter m c = (s.remeter m c).notePowerOf (t.remeter m c) o := by
  unfold State.notePowerOf
  rw [State.remeter_groupOf]
  cases s.groupOf o with
  | none => rfl
  | some g => exact s.notePower_remeter m c t g

theorem State.setRelay_remeter (o : Outlet) (f : Relay → Relay) :
    (s.setRelay o f).remeter m c = (s.remeter m c).setRelay o f := by
  unfold State.setRelay
  rw [State.notePowerOf_remeter, State.refreshModes_remeter, State.onRelay_remeter]

theorem State.reconcile_remeter (o : Outlet) (x y : RelayState) (r : ReconcileCause) :
    (s.reconcile o x y r).remeter m c = (s.remeter m c).reconcile o x y r := by
  unfold State.reconcile
  rw [State.raise_remeter, State.setRelay_remeter]

theorem State.relaySees_remeter (o : Outlet) (x y : Bool) (r : ReconcileCause) :
    (s.relaySees o x y r).remeter m c = (s.remeter m c).relaySees o x y r := by
  unfold State.relaySees
  rw [State.remeter_relays]
  cases s.relays[o].state
  case unknown => exact s.setRelay_remeter m c o _
  case off => dsimp only; rw [State.ite_remeter, State.reconcile_remeter]
  case on => dsimp only; rw [State.ite_remeter, State.reconcile_remeter]
  all_goals rfl

theorem State.relaysSee_remeter (b : Bank) (closed : BitVec 8) (sub : Bool) :
    (s.relaysSee b closed sub).remeter m c = (s.remeter m c).relaysSee b closed sub := by
  unfold State.relaysSee
  refine s.foldl_remeter m c _ (fun t p => ?_) _
  exact t.relaySees_remeter m c (outletAt b p) (closed.getLsbD p.val) sub .uncommanded

/-! ## Queue and shed units -/

theorem State.onShed_remeter (b : Bank) (f : ShedUnit → ShedUnit) :
    (s.onShed b f).remeter m c = (s.remeter m c).onShed b f := rfl

theorem State.refreshSheds_remeter (b : Bank) : (s.refreshSheds b).remeter m c = (s.remeter m c).refreshSheds b := rfl

theorem State.endFlights_remeter (o : Outlet) : (s.endFlights o).remeter m c = (s.remeter m c).endFlights o := rfl

theorem State.dropEntry_remeter (o : Outlet) : (s.dropEntry o).remeter m c = (s.remeter m c).dropEntry o := rfl

theorem State.joinQueue_remeter (o : Outlet) (a : Action) (r : Origin) :
    (s.joinQueue o a r).remeter m c = (s.remeter m c).joinQueue o a r := rfl

/-- The queue answers alike, and leaves alike. -/
theorem State.request_remeter (o : Outlet) (a : Action) (r : Origin) :
    (s.remeter m c).request o a r = ((s.request o a r).1, (s.request o a r).2.remeter m c) := by
  unfold State.request
  rw [State.remeter_entryOf]
  cases s.entryOf o with
  | none => rfl
  | some e =>
    dsimp only
    cases e.state with
    | issued t => rfl
    | waiting =>
      dsimp only
      by_cases hmerged : e.action = a
      · simp only [if_pos hmerged]
      · by_cases hrank : e.origin.rank < r.rank
        · simp only [if_neg hmerged, if_pos hrank]
        · simp only [if_neg hmerged, if_neg hrank]
          rfl

theorem State.withdraw_remeter (p : QueueEntry → Bool) : (s.withdraw p).remeter m c = (s.remeter m c).withdraw p := by
  unfold State.withdraw
  rw [State.foldl_remeter _ m c _ fun t e => t.endFlights_remeter m c e.outlet]
  rfl

/-! ## Tables -/

theorem State.applyOutlet_remeter (o : Outlet) : (s.applyOutlet o).remeter m c = (s.remeter m c).applyOutlet o :=
  State.refreshModes_remeter _ m c _

theorem State.raiseApplied_remeter (t : TableId) (n : Nat) :
    (s.raiseApplied t n).remeter m c = (s.remeter m c).raiseApplied t n := rfl

theorem State.releaseOutlet_remeter (o : Outlet) :
    (s.releaseOutlet o).remeter m c = (s.remeter m c).releaseOutlet o := by
  unfold State.releaseOutlet
  dsimp only
  rw [← State.applyOutlet_remeter, State.ite_remeter, State.ite_remeter]
  rfl

theorem State.groupApplied_remeter (t : State) (g : Group) :
    (State.groupApplied t s g).remeter m c = State.groupApplied (t.remeter m c) (s.remeter m c) g := by
  unfold State.groupApplied
  dsimp only
  rw [State.notePower_remeter, State.refreshModesOf_remeter]
  rfl

theorem State.applyGroups_remeter (gs : List Group) : (s.applyGroups gs).remeter m c = (s.remeter m c).applyGroups gs :=
  State.foldl_remeter _ m c _ (fun t g => t.groupApplied_remeter m c s g) _

theorem State.releaseGroups_remeter : s.releaseGroups.remeter m c = (s.remeter m c).releaseGroups := by
  unfold State.releaseGroups
  dsimp only
  rw [State.remeter_groupTable, State.remeter_applicable, ← State.applyGroups_remeter, State.ite_remeter,
    State.ite_remeter, State.raiseApplied_remeter]
  generalize s.applyGroups _ = u
  rfl

end
end Sys2Proof.Machine
end

