-- ==== Sys2Proof/Proofs/BlindCloses.lean ====
section
/-! The group engine, completions, the relay block's and the limit unit's part of a close, and the table boundary are
blind to the meters. -/

namespace Sys2Proof.Machine

section
variable (s : State) (m : Vector BankMeter 6) (c : Capture)

/-! ## Operations of groups -/

theorem State.mark_remeter (g : Group) (o : Outlet) (p : Progress) :
    (s.mark g o p).remeter m c = (s.remeter m c).mark g o p := rfl

theorem State.await_remeter (g : Group) (o : Outlet) : (s.await g o).remeter m c = (s.remeter m c).await g o := rfl

theorem State.addFaulted_remeter (g : Group) (o : Outlet) :
    (s.addFaulted g o).remeter m c = (s.remeter m c).addFaulted g o := rfl

theorem State.endOp_remeter (g : Group) (r : OpResult) (w : Option OpReason) (v : Bool) :
    (s.endOp g r w v).remeter m c = (s.remeter m c).endOp g r w v := by
  unfold State.endOp
  dsimp only
  rw [State.releaseGroups_remeter, State.refreshModesOf_remeter]
  rfl

theorem State.withdrawAwaited_remeter (g : Group) :
    (s.withdrawAwaited g).remeter m c = (s.remeter m c).withdrawAwaited g := by
  unfold State.withdrawAwaited
  dsimp only
  rw [State.remeter_groups, ← State.withdraw_remeter]
  rfl

theorem State.failOp_remeter (g : Group) (r : OpReason) : (s.failOp g r).remeter m c = (s.remeter m c).failOp g r := by
  unfold State.failOp
  rw [State.endOp_remeter, State.withdrawAwaited_remeter]

theorem State.enterVerifying_remeter (g : Group) :
    (s.enterVerifying g).remeter m c = (s.remeter m c).enterVerifying g := by
  unfold State.enterVerifying
  dsimp only
  rw [State.ite_remeter, State.endOp_remeter]
  rfl

theorem State.oningOver_remeter (g : Group) : (s.oningOver g).remeter m c = (s.remeter m c).oningOver g := by
  unfold State.oningOver
  rw [State.ite_remeter, State.endOp_remeter, State.enterVerifying_remeter]
  rfl

theorem State.takeTurns_remeter (fuel : Nat) (g : Group) (i : Nat) (s : State) :
    (State.takeTurns fuel g i s).remeter m c = State.takeTurns fuel g i (s.remeter m c) := by
  induction fuel generalizing i s with
  | zero => rfl
  | succ n ih =>
    unfold State.takeTurns
    rw [State.remeter_members]
    cases (s.members g)[i]? with
    | none => exact s.oningOver_remeter m c g
    | some o =>
      dsimp only
      rw [← State.onGroup_remeter]
      generalize s.onGroup g _ = u
      rw [State.request_remeter, State.ite_remeter, State.ite_remeter, State.ite_remeter, ih, ih, ih]
      cases (u.request o .close (.group g)).1
      case refusedRank => dsimp only; rw [ih]; rfl
      all_goals rfl

theorem State.turnsFrom_remeter (g : Group) (i : Nat) : (s.turnsFrom g i).remeter m c = (s.remeter m c).turnsFrom g i :=
  State.takeTurns_remeter m c _ g i s

theorem State.enterOning_remeter (g : Group) : (s.enterOning g).remeter m c = (s.remeter m c).enterOning g :=
  State.turnsFrom_remeter _ m c g 0

theorem State.afterClose_remeter (g : Group) : (s.afterClose g).remeter m c = (s.remeter m c).afterClose g := by
  unfold State.afterClose
  dsimp only
  rw [State.ite_remeter, State.ite_remeter, State.oningOver_remeter, State.turnsFrom_remeter]
  rfl

theorem State.requestOpen_remeter (g : Group) (o : Outlet) :
    (s.requestOpen g o).remeter m c = (s.remeter m c).requestOpen g o := by
  unfold State.requestOpen
  rw [State.request_remeter]
  rfl

theorem State.offingOver_remeter (g : Group) : (s.offingOver g).remeter m c = (s.remeter m c).offingOver g := by
  unfold State.offingOver
  dsimp only
  simp only [State.ite_remeter, State.endOp_remeter, State.enterOning_remeter]
  rfl

theorem State.offingCompletion_remeter (g : Group) (o : Outlet) (a : Action) (r : Completion) :
    (s.offingCompletion g o a r).remeter m c = (s.remeter m c).offingCompletion g o a r := by
  have hopens : ((s.mark g o .opened).offingOver g).remeter m c = ((s.remeter m c).mark g o .opened).offingOver g :=
    State.offingOver_remeter _ m c g
  have hopen : ((s.requestOpen g o).offingOver g).remeter m c = ((s.remeter m c).requestOpen g o).offingOver g := by
    rw [State.offingOver_remeter, State.requestOpen_remeter]
  have hover := s.offingOver_remeter m c g
  have hfail := s.failOp_remeter m c g .bankLost
  unfold State.offingCompletion
  rw [State.remeter_groups, State.remeter_relays]
  cases r
  case lost =>
    cases s.groups[g].cancel
    · exact hfail
    · exact hover
  all_goals
    cases a
    case opens => exact hopens
    case close =>
      dsimp only
      rw [State.ite_remeter, State.ite_remeter, hover, hopens, hopen]

theorem State.oningCompletion_remeter (g : Group) (o : Outlet) (r : Completion) :
    (s.oningCompletion g o r).remeter m c = (s.remeter m c).oningCompletion g o r := by
  unfold State.oningCompletion
  rw [State.remeter_groups, State.ite_remeter, State.ite_remeter, State.failOp_remeter, State.turnsFrom_remeter]
  cases r
  case done => dsimp only; rw [State.afterClose_remeter]; rfl
  case fault => dsimp only; rw [State.afterClose_remeter]; rfl
  case expired => dsimp only; rw [State.failOp_remeter]; rfl
  case lost => dsimp only; rw [State.failOp_remeter]; rfl

theorem State.groupCompletion_remeter (o : Outlet) (a : Action) (r : Completion) :
    (s.groupCompletion o a r).remeter m c = (s.remeter m c).groupCompletion o a r := by
  unfold State.groupCompletion
  rw [State.remeter_awaiter]
  cases s.awaiter o with
  | none => rfl
  | some g =>
    dsimp only
    rw [← State.onGroup_remeter]
    generalize s.onGroup g _ = u
    rw [State.remeter_groups]
    cases u.groups[g].op
    case offing => exact u.offingCompletion_remeter m c g o a r
    case oning => exact u.oningCompletion_remeter m c g o r
    all_goals rfl

/-! ## Completions -/

theorem State.safeFollowUp_remeter (o : Outlet) : (s.safeFollowUp o).remeter m c = (s.remeter m c).safeFollowUp o := by
  unfold State.safeFollowUp
  dsimp only
  have hrequest : ∀ (v : SafeControl) (a : Action), ({ s with safe := v }.request o a .safe).2.remeter m c
      = ({ s.remeter m c with safe := v }.request o a .safe).2 := fun v a => by
    rw [show ({ s.remeter m c with safe := v } : State) = State.remeter { s with safe := v } m c from rfl,
      State.request_remeter]
  rw [State.ite_remeter, State.ite_remeter, State.remeter_outletTable]
  cases s.outletTable.active[o].safeAction
  case hold => rfl
  all_goals dsimp only; rw [State.ite_remeter, hrequest]; rfl

theorem State.endTurnOn_remeter (b : Bank) (r : Completion) :
    (s.endTurnOn b r).remeter m c = (s.remeter m c).endTurnOn b r := rfl

theorem State.raiseSwitchDone_remeter (r : ActionRecord) :
    (s.raiseSwitchDone r).remeter m c = (s.remeter m c).raiseSwitchDone r := rfl

theorem State.complete_remeter (o : Outlet) (r : Completion) (a : Option SetNo) :
    (s.complete o r a).remeter m c = (s.remeter m c).complete o r a := by
  unfold State.complete
  rw [State.remeter_entryOf]
  cases s.entryOf o with
  | none => rfl
  | some e =>
    dsimp only
    rw [← State.dropEntry_remeter, ← State.releaseOutlet_remeter, ← State.endTurnOn_remeter, ← State.ite_remeter]
    generalize (if e.action = .close ∧ e.isWaiting = false then _ else _ : State) = u
    rw [State.remeter_actionRecord, State.safeFollowUp_remeter, State.groupCompletion_remeter, State.endFlights_remeter,
      State.raiseSwitchDone_remeter]

/-! ## The relay block at a close -/

theorem State.verified_remeter (o : Outlet) (f : Flight) (closed load : Bool) (irms : Option Nat)
    (r : RelayState × Option FaultDetail) :
    (s.verified o f closed load irms r).remeter m c = (s.remeter m c).verified o f closed load irms r := by
  unfold State.verified
  dsimp only
  rw [State.ite_remeter, State.raise_remeter, State.complete_remeter, State.complete_remeter, State.setRelay_remeter]

theorem State.watchFault_remeter (o : Outlet) (st : RelayState) (d : FaultDetail) (load : Bool) (irms : Option Nat) :
    (s.watchFault o st d load irms).remeter m c = (s.remeter m c).watchFault o st d load irms := by
  unfold State.watchFault
  rw [State.raise_remeter, State.setRelay_remeter]

theorem State.weldWatch_remeter (o : Outlet) (load : Bool) (x : Nat) :
    (s.weldWatch o load x).remeter m c = (s.remeter m c).weldWatch o load x := by
  unfold State.weldWatch
  dsimp only
  rw [State.ite_remeter, State.ite_remeter, State.watchFault_remeter]
  rfl

theorem State.openWatch_remeter (o : Outlet) (k : WindowKind) (load : Bool) (x : Option Nat) :
    (s.openWatch o k load x).remeter m c = (s.remeter m c).openWatch o k load x := by
  unfold State.openWatch
  dsimp only
  rw [State.ite_remeter, State.ite_remeter, State.watchFault_remeter]
  rfl

theorem State.relayAtClose_remeter (o : Outlet) (w : Window) (k : WindowKind) (x : Bool) (irms : Option Nat) :
    (s.relayAtClose o w k x irms).remeter m c = (s.remeter m c).relayAtClose o w k x irms := by
  unfold State.relayAtClose
  dsimp only
  rw [State.remeter_relays, State.remeter_outletTable]
  cases s.relays[o].flight with
  | some f =>
    dsimp only
    cases f.verifiedBy w with
    | none => rfl
    | some r => exact s.verified_remeter m c o f _ _ _ _
  | none =>
    dsimp only
    cases irms with
    | none => cases s.relays[o].state <;> rfl
    | some i =>
      cases s.relays[o].state
      case off => exact s.weldWatch_remeter m c o _ i
      case on => exact s.openWatch_remeter m c o k _ (some i)
      all_goals rfl

theorem State.relaysAtClose_remeter (b : Bank) (w : Window) (k : WindowKind) (x : Bool) :
    (s.relaysAtClose b w k x).remeter m c = (s.remeter m c).relaysAtClose b w k x := by
  unfold State.relaysAtClose
  refine s.foldl_remeter m c _ (fun t p => ?_) _
  exact t.relayAtClose_remeter m c (outletAt b p) w k x _

/-! ## The limit unit at a close -/

theorem State.raiseLimit_remeter (k : EventKind) (n : Nat) (x y : Level) (i : Nat) :
    (s.raiseLimit k n x y i).remeter m c = (s.remeter m c).raiseLimit k n x y i := by
  unfold State.raiseLimit
  rw [State.ite_remeter]
  rfl

theorem State.evalOutlet_remeter (o : Outlet) (i : Nat) :
    (s.evalOutlet o i).remeter m c = (s.remeter m c).evalOutlet o i :=
  State.raiseLimit_remeter _ m c _ _ _ _ _

theorem State.evalLoad_remeter (o : Outlet) (i : Nat) :
    (s.evalLoad o i).remeter m c = (s.remeter m c).evalLoad o i := by
  unfold State.evalLoad
  dsimp only
  rw [State.ite_remeter]
  rfl

theorem State.evalBank_remeter (b : Bank) (i : Nat) : (s.evalBank b i).remeter m c = (s.remeter m c).evalBank b i := by
  unfold State.evalBank
  dsimp only
  rw [State.refreshSheds_remeter, State.onShed_remeter, State.raiseLimit_remeter]
  rfl

theorem State.evalPhase_remeter (b : Bank) (i : Nat) :
    (s.evalPhase b i).remeter m c = (s.remeter m c).evalPhase b i := by
  simp only [State.evalPhase, State.phaseSum, State.raiseLimit_remeter, State.remeter_bankTable,
    State.remeter_phaseTable, State.remeter_phaseLimits, State.remeter_phaseElements]
  rfl

theorem State.limitsAtClose_remeter (b : Bank) (irms : Outlet → Nat) (i : Nat) :
    (s.limitsAtClose b irms i).remeter m c = (s.remeter m c).limitsAtClose b irms i := by
  have houtlets : ∀ (t : State) (o : Outlet), ((t.evalOutlet o (irms o)).evalLoad o (irms o)).remeter m c
      = ((t.remeter m c).evalOutlet o (irms o)).evalLoad o (irms o) := fun t o => by
    rw [State.evalLoad_remeter, State.evalOutlet_remeter]
  unfold State.limitsAtClose
  dsimp only
  rw [State.evalPhase_remeter, State.evalBank_remeter, State.foldl_remeter _ m c _ houtlets]

theorem State.limitsAt_remeter (b : Bank) (w : Window) (k : WindowKind) :
    (s.limitsAt b w k).remeter m c = (s.remeter m c).limitsAt b w k := by
  unfold State.limitsAt
  cases k with
  | valid => exact s.limitsAtClose_remeter m c b (fun o => w.irms (posOf o)) w.bankIrms
  | noLine => rfl
  | invalid => rfl

/-! ## The table boundary -/

theorem State.fillHeld_remeter (tag : Option Byte) : (s.fillHeld tag).remeter m c = (s.remeter m c).fillHeld tag := by
  cases tag <;> rfl

theorem State.releaseCal_remeter (b : Bank) : (s.releaseCal b).remeter m c = (s.remeter m c).releaseCal b := by
  unfold State.releaseCal
  rw [State.ite_remeter, State.fillHeld_remeter]
  rfl

theorem State.releaseBankEntry_remeter (b : Bank) :
    (s.releaseBankEntry b).remeter m c = (s.remeter m c).releaseBankEntry b := by
  unfold State.releaseBankEntry
  rw [State.ite_remeter, State.fillHeld_remeter]
  rfl

theorem State.boundary_remeter (b : Bank) : (s.boundary b).remeter m c = (s.remeter m c).boundary b := by
  unfold State.boundary
  rw [State.releaseBankEntry_remeter, State.releaseCal_remeter]

/-- The capture unit takes a close alike, whatever the meters hold. -/
theorem State.captureAtClose_remeter (b : Bank) (k : WindowKind) :
    (s.captureAtClose b k).remeter m (s.captureAtClose b k).capture = (s.remeter m s.capture).captureAtClose b k := by
  unfold State.captureAtClose
  have hcapture : (s.remeter m s.capture).capture = s.capture := rfl
  rw [hcapture]
  cases s.capture.outlet with
  | none => rfl
  | some o =>
    dsimp only
    by_cases h : s.capture.state = .filling ∧ bankOf o = b
    · rw [if_pos h, if_pos h]
      rfl
    · rw [if_neg h, if_neg h]

end

end Sys2Proof.Machine
end

