-- ==== Sys2Proof/Proofs/HandedSets.lean ====
section
/-! A handed set: the window takes it, and the rest of the part is as the relays left it, before or after a close
(R20 to R31, R64, R65). -/

namespace Sys2Proof.Machine

/-! ## The set that a window takes -/

theorem overRange_iff (e : CalEntry) (x : RawCode) : overRange e x = true ↔ OverRange e x := by
  simp [overRange, OverRange, or_assoc]

theorem positionMask_getLsbD (f : Position → Bool) (p : Position) : (positionMask f).getLsbD p.val = f p := by
  have hbits : (allPositions.map f).getD p.val false = f p := by simp [allPositions, List.getD_eq_getElem?_getD]
  rw [positionMask, BitVec.getLsbD_ofNat, isMask_maskOf, hbits, decide_eq_true p.isLt, Bool.true_and]

/-- The square of a code as the window sums it. -/
theorem natAbs_mul_natAbs (i : Int) : ((i.natAbs * i.natAbs : Nat) : Int) = i * i := by
  rw [Nat.cast_mul, ← Int.natCast_mul, Int.natAbs_mul_self]

/-- The eight currents, summed over the positions. -/
theorem sum_toList_eight (v : Vector (Int × Bool) 8) : (v.toList.map (·.1)).sum = ∑ p : Position, v[p].1 := by
  rw [Vector.toList_eight, Fin.sum_univ_eight]
  simp [add_assoc]

section
variable {y : State} (b : Bank) (num : SetNo) (raw : RawSet) (sub : Bool) {h : List Int}

theorem State.calSet_current (y : State) (p : Position) : (y.calSet b num raw sub).cur[p] =
    ((calibrate y.calTable.active[(outletAt b p).val] raw.cur[p]).1,
      overRange y.calTable.active[(outletAt b p).val] raw.cur[p]) := ofFn_get _ p

theorem State.calSet_aligned (hh : y.meters[b].history = h) (p : Position) : (y.calSet b num raw sub).aligned[p] =
    h.getD (min y.calTable.active[(outletAt b p).val].delay (h.length - 1)) 0 := by
  subst hh
  exact ofFn_get _ p

/-- A window with a calibrated set added has taken it. -/
theorem Window.add_takes (hh : y.meters[b].history = h) (w : Window) :
    w.Takes (w.add (y.calSet b num raw sub)) y.calTable.active b num raw sub h := by
  have hcur := y.calSet_current b num raw sub
  have hsums : ∀ p : Position, (w.add (y.calSet b num raw sub)).sums[p] =
      { i2 := w.sums[p].i2 + (y.calSet b num raw sub).cur[p].1.natAbs * (y.calSet b num raw sub).cur[p].1.natAbs
        vi := w.sums[p].vi + (y.calSet b num raw sub).aligned[p] * (y.calSet b num raw sub).cur[p].1 } :=
    fun p => ofFn_get _ p
  refine ⟨rfl, rfl, rfl, ?_, ?_, fun p => ⟨?_, ?_⟩, ?_, fun p => ?_, rfl, rfl, ?_, rfl, rfl, rfl⟩
  · rw [Window.add, Nat.cast_add, natAbs_mul_natAbs]
    rfl
  · rw [Window.add, Nat.cast_add, natAbs_mul_natAbs, sum_toList_eight]
    simp only [hcur]
  · rw [hsums, Nat.cast_add, natAbs_mul_natAbs, hcur]
  · rw [hsums, hcur, State.calSet_aligned b num raw sub hh]
  · rw [Window.add, Bool.or_eq_true, ← overRange_iff]
    rfl
  · rw [Window.add, BitVec.getLsbD_or, Bool.or_eq_true, positionMask_getLsbD, hcur, overRange_iff]
  · rw [Window.add, Bool.or_eq_true, decide_eq_true_iff]
    rfl

end

/-! ## A close is blind to history and arming -/

theorem State.outletsAtClose_congr {s t : State} (houtlets : t.outlets = s.outlets)
    (htable : t.outletTable = s.outletTable) (b : Bank) (w : Window) (k : WindowKind) :
    t.outletsAtClose b w k = s.outletsAtClose b w k := by
  unfold State.outletsAtClose
  rw [houtlets, htable]

theorem State.boundary_capture (s : State) (b : Bank) : (s.boundary b).capture = s.capture := by
  rw [s.boundary_changes b]

theorem State.metersAtClose_remeter (s : State) (m : Vector BankMeter 6) (b : Bank) (w : Window) (k : WindowKind) :
    (s.remeter m s.capture).metersAtClose b w k =
      (s.metersAtClose b w k).remeter (upd m b fun x => x.atClose w k s.uptime) s.capture := by
  rw [State.metersAtClose_eq, State.metersAtClose_eq]
  rfl

/-- What a close leaves of the state beside the meters is the same for all meters with the same open window. -/
theorem State.closeWindow_remeter {s : State} {b : Bank} {m : Vector BankMeter 6}
    (hm : m[b].window = s.meters[b].window) (c : Bool) : (s.remeter m s.capture).closeWindow b c =
      (s.closeWindow b c).remeter (upd m b fun x => x.close c s.uptime) (s.closeWindow b c).capture := by
  have hm' : (s.remeter m s.capture).meters[b].window = s.meters[b].window := hm
  cases hw : s.meters[b].window with
  | none =>
    rw [State.closeWindow_of_none (hm'.trans hw), State.closeWindow_of_none hw]
    have hsame : upd m b (fun x => x.close c s.uptime) = m := by
      refine (upd_congr ?_).trans (upd_id m b)
      rw [BankMeter.close, hm.trans hw]
    rw [hsame]
  | some w =>
    have hclose : ∀ {u : State}, u.meters[b].window = some w → u.closeWindow b c =
        (((((u.metersAtClose b w (w.kind c)).limitsAt b w (w.kind c)).relaysAtClose b w (w.kind c) c).captureAtClose b
          (w.kind c)).boundary b) := fun {u} hu => by
      unfold State.closeWindow
      rw [hu]
    have hmeter : upd m b (fun x => x.close c s.uptime) = upd m b (fun x => x.atClose w (w.kind c) s.uptime) :=
      upd_congr (by rw [BankMeter.close, hm.trans hw])
    rw [hclose (hm'.trans hw), hclose hw, hmeter, State.metersAtClose_remeter, ← State.limitsAt_remeter,
      ← State.relaysAtClose_remeter]
    have hcapture : (((s.metersAtClose b w (w.kind c)).limitsAt b w (w.kind c)).relaysAtClose b w (w.kind c) c).capture
        = s.capture := by
      have hlimits := (s.metersAtClose b w (w.kind c)).limitsAt_limited b w (w.kind c)
      rw [s.metersAtClose_eq b w (w.kind c)] at hlimits ⊢
      generalize State.limitsAt _ b w (w.kind c) = u at hlimits ⊢
      obtain ⟨-, -, -, -, -, -, -, -, -, -, -, -, -, -, -, -, -, -, -, -, -, -, -, hcapture, -⟩ :=
        State.quiet_fields (u.relaysAtClose_quiet b w (w.kind c) c)
      rw [hcapture, hlimits]
    generalize State.relaysAtClose _ b w (w.kind c) c = u at hcapture ⊢
    rw [← hcapture, ← State.captureAtClose_remeter, State.boundary_capture, State.boundary_remeter]

end Sys2Proof.Machine
end

