-- ==== Sys2Proof/Proofs/SetEnters.lean ====
section
/-! The cases of a handed set: it joins the open window, is its 96th, closes it at a crossing, or opens one (R23 to
R27). -/

namespace Sys2Proof.Machine

/-! ## The meter that takes the set -/

theorem BankMeter.crosses_iff (m : BankMeter) (v : Int) (sub : Bool) : m.crosses v sub = true ↔
    m.armed = true ∧ sub = false ∧ 0 ≤ v ∧ ∃ u ∈ m.history.head?, u < 0 := by
  unfold BankMeter.crosses
  cases m.history with
  | nil => simp
  | cons u rest =>
    simp only [Bool.and_eq_true, decide_eq_true_eq, Bool.not_eq_true', List.head?_cons, Option.mem_some_iff,
      exists_eq_left']
    tauto

section
variable {m : BankMeter} {w : Window} (num : SetNo) (now : Uptime) (k : WindowKind)

theorem BankMeter.place_of_none (hw : m.window = none) (x : Bool) : m.place num x now = m.opened num x := by
  rw [BankMeter.place, hw]

theorem BankMeter.place_of_open (hw : m.window = some w) {x : Bool} (hx : (x && w.endsAtCrossing) = false) :
    m.place num x now = m := by
  rw [BankMeter.place, hw]
  exact if_neg (by rw [hx]; exact Bool.false_ne_true)

theorem BankMeter.place_of_crossing (hw : m.window = some w) {x : Bool} (hx : (x && w.endsAtCrossing) = true) :
    m.place num x now = (m.atClose w (w.kind true) now).opened num true := by
  rw [BankMeter.place, hw]
  exact if_pos hx

theorem BankMeter.addSet_of_open (hw : m.window = some w) (y : CalSet) :
    m.addSet y = { m with window := some (w.add y) } := by
  rw [BankMeter.addSet, hw]
  rfl

theorem BankMeter.isFull_of_open (hw : m.window = some w) : m.isFull = decide (96 ≤ w.n) := by
  rw [BankMeter.isFull, hw]
  rfl

theorem BankMeter.closeFull_of_lt (hw : m.window = some w) (hn : w.n < 96) : m.closeFull now = m := by
  rw [BankMeter.closeFull, BankMeter.isFull_of_open hw]
  exact if_neg (by rw [decide_eq_true_iff]; omega)

theorem BankMeter.closeFull_of_full (hw : m.window = some w) (hn : 96 ≤ w.n) :
    m.closeFull now = m.atClose w (w.kind false) now := by
  rw [BankMeter.closeFull, BankMeter.isFull_of_open hw, if_pos (decide_eq_true hn), BankMeter.close, hw]

/-- A close leaves history and arming. -/
theorem BankMeter.atClose_tracker (m : BankMeter) (w : Window) :
    (m.atClose w k now).history = m.history ∧ (m.atClose w k now).armed = m.armed := by
  cases k <;> exact ⟨rfl, rfl⟩

/-- A close is the same whatever history, arming and open window the meter has. -/
theorem BankMeter.atClose_with (m : BankMeter) (w : Window) (h : List Int) (a : Bool) (x y : Option Window) :
    ({ m with history := h, armed := a, window := x } : BankMeter).atClose w k now =
      { ({ m with window := y } : BankMeter).atClose w k now with history := h, armed := a } := by
  cases k <;> rfl

theorem BankMeter.place_tracker (m : BankMeter) (x : Bool) :
    (m.place num x now).history = m.history ∧ (m.place num x now).armed = m.armed := by
  unfold BankMeter.place
  split
  · exact ⟨rfl, rfl⟩
  · split
    · exact m.atClose_tracker now _ _
    · exact ⟨rfl, rfl⟩

theorem BankMeter.closeFull_tracker (m : BankMeter) :
    (m.closeFull now).history = m.history ∧ (m.closeFull now).armed = m.armed := by
  unfold BankMeter.closeFull BankMeter.close
  split
  · split
    · exact ⟨rfl, rfl⟩
    · exact m.atClose_tracker now _ _
  · exact ⟨rfl, rfl⟩

/-- The set's voltage joins the history, and a crossing clears arming (R22, R23). -/
theorem BankMeter.hand_tracker (m : BankMeter) (v : Int) (x : Bool) (z : Nat) (y : CalSet) :
    (m.hand num v x z y now).history = (v :: m.history).take 4
    ∧ (m.hand num v x z y now).armed = (if x then false else m.armed || decide (v < -(z : Int))) := by
  have hplace := (m.enterVoltage v x z).place_tracker num now x
  have hfull := (((m.enterVoltage v x z).place num x now).addSet y).closeFull_tracker now
  exact ⟨hfull.1.trans hplace.1, hfull.2.trans hplace.2⟩

end

/-! ## The state beside the meters -/

section
variable {s : State} {b : Bank} {w : Window} (num : SetNo)

theorem State.placeSet_of_open (hw : s.meters[b].window = some w) {x : Bool} (hx : (x && w.endsAtCrossing) = false) :
    s.placeSet b num x = s := by
  unfold State.placeSet
  rw [hw]
  exact if_neg (by rw [hx]; exact Bool.false_ne_true)

theorem State.placeSet_of_crossing (hw : s.meters[b].window = some w) {x : Bool} (hx : (x && w.endsAtCrossing) = true) :
    s.placeSet b num x = (s.closeWindow b true).openWindow b num true := by
  unfold State.placeSet
  rw [hw]
  exact if_pos hx

theorem State.placeSet_of_none (hw : s.meters[b].window = none) (x : Bool) :
    s.placeSet b num x = s.openWindow b num x := by
  unfold State.placeSet
  rw [hw]

end

/-- Beside meters and capture unit, a state is one in which the relays have read a set, from `y` on. -/
def State.SeenFrom (t y : State) (b : Bank) (closed : BitVec 8) (sub : Bool) : Prop :=
  t = { y.relaysSee b closed sub with meters := t.meters, capture := t.capture }

section
variable {s t y : State} {b : Bank} {w : Window} (num : SetNo) (raw : RawSet) (sub : Bool) (v : Int)

theorem State.seenFrom_relaysSee_remeter (closed : BitVec 8) (m : Vector BankMeter 6) (c : Capture) :
    ((y.remeter m c).relaysSee b closed sub).SeenFrom y b closed sub := by
  rw [← State.relaysSee_remeter]
  rfl

theorem State.openWindow_seenFrom (m : Vector BankMeter 6) (c : Capture) (a : Bool) :
    (((y.remeter m c).openWindow b num a).relaysSee b raw.closed sub).SeenFrom y b raw.closed sub := by
  have hopen : ∃ (m' : Vector BankMeter 6) (c' : Capture), (y.remeter m c).openWindow b num a = y.remeter m' c' :=
    ⟨_, _, rfl⟩
  obtain ⟨m', c', hopen⟩ := hopen
  rw [hopen]
  exact State.seenFrom_relaysSee_remeter sub raw.closed m' c'

/-- What a reading of relays leaves stays as it was. -/
theorem State.SeenFrom.fields {closed : BitVec 8} (h : t.SeenFrom y b closed sub) :
    t.outlets = y.outlets ∧ t.calTable = y.calTable ∧ t.bankTable = y.bankTable ∧ t.outletTable = y.outletTable
    ∧ t.outletLimits = y.outletLimits ∧ t.bankLimits = y.bankLimits ∧ t.loadLost = y.loadLost
    ∧ t.phaseLimits = y.phaseLimits ∧ t.phaseElements = y.phaseElements ∧ t.sheds = y.sheds ∧ t.queue = y.queue := by
  have hrereads := State.relaySet_rereads y b closed sub .uncommanded
  have hquiet := State.relaySet_quiet y b closed sub .uncommanded
  unfold State.SeenFrom at h
  rw [State.relaySet_eq_relaysSee] at hrereads hquiet
  generalize y.relaysSee b closed sub = z at h hrereads hquiet
  obtain ⟨-, -, houtlets, -, hbankLimits, helements, hsheds, hqueue, -, -, -, -, houtletTable, hbankTable, hcalTable,
    -⟩ := hrereads.fields
  obtain ⟨-, -, -, -, -, -, -, -, -, houtletLimits, -, hphaseLimits, hloadLost, -⟩ := State.quiet_fields hquiet
  rw [h]
  exact ⟨houtlets, hcalTable, hbankTable, houtletTable, houtletLimits, hbankLimits, hloadLost, hphaseLimits, helements,
    hsheds, hqueue⟩

/-- Each relay of the bank has read its bit of the set, and no other has. -/
theorem State.SeenFrom.relays {closed : BitVec 8} (h : t.SeenFrom y b closed sub) :
    (∀ p : Position, t.relays[outletAt b p] =
      (y.relaySees (outletAt b p) (closed.getLsbD p.val) sub .uncommanded).relays[outletAt b p])
    ∧ ∀ o : Outlet, bankOf o ≠ b → t.relays[o] = y.relays[o] := by
  have hrelays := State.relaySet_relays y b closed sub .uncommanded
  unfold State.SeenFrom at h
  rw [State.relaySet_eq_relaysSee] at hrelays
  have hsame : t.relays = (y.relaysSee b closed sub).relays := by
    generalize y.relaysSee b closed sub = z at h
    rw [h]
  rw [← hsame] at hrelays
  refine ⟨fun p => ?_, fun o ho => ?_⟩
  · rw [hrelays, if_pos (bankOf_outletAt b p), posOf_outletAt, State.relaySees_relays, upd_get_self]
  · rw [hrelays, if_neg ho]

theorem State.SeenFrom.addSet {closed : BitVec 8} (h : t.SeenFrom y b closed sub) (x : CalSet) :
    (t.addSet b x).SeenFrom y b closed sub := by
  unfold State.SeenFrom at *
  generalize y.relaysSee b closed sub = z at h ⊢
  rw [h]
  rfl

theorem State.beforeAdd_of_open (hw : s.meters[b].window = some w) {x : Bool} (hx : (x && w.endsAtCrossing) = false) :
    s.beforeAdd b num raw sub v x = (s.relaysSee b raw.closed sub).remeter
      (upd s.meters b fun m => m.enterVoltage v x s.bankTable.active[b].zeroCross) s.capture := by
  have henter :
      (s.onMeter b fun m => m.enterVoltage v x s.bankTable.active[b].zeroCross).meters[b].window = some w := by
    rw [State.onMeter, upd_get_self]
    exact hw
  unfold State.beforeAdd
  rw [State.placeSet_of_open num henter hx, State.relaySet_eq_relaysSee, State.relaysSee_remeter]
  rfl

theorem State.beforeAdd_of_crossing (hw : s.meters[b].window = some w) {x : Bool}
    (hx : (x && w.endsAtCrossing) = true) :
    (s.beforeAdd b num raw sub v x).SeenFrom (s.closeWindow b true) b raw.closed sub := by
  have henter : (upd s.meters b fun m => m.enterVoltage v x s.bankTable.active[b].zeroCross)[b].window =
      s.meters[b].window := by
    rw [upd_get_self]
    rfl
  have hclose : ∃ (m : Vector BankMeter 6) (c : Capture), (s.onMeter b fun m => m.enterVoltage v x
      s.bankTable.active[b].zeroCross).closeWindow b true = (s.closeWindow b true).remeter m c :=
    ⟨_, _, State.closeWindow_remeter henter true⟩
  obtain ⟨m, c, hclose⟩ := hclose
  unfold State.beforeAdd
  rw [State.placeSet_of_crossing num (henter.trans hw) hx, hclose, State.relaySet_eq_relaysSee]
  generalize s.closeWindow b true = u
  exact State.openWindow_seenFrom num raw sub m c true

theorem State.beforeAdd_of_none (hw : s.meters[b].window = none) (x : Bool) :
    (s.beforeAdd b num raw sub v x).SeenFrom s b raw.closed sub := by
  have henter : (s.onMeter b fun m => m.enterVoltage v x s.bankTable.active[b].zeroCross).meters[b].window = none := by
    rw [State.onMeter, upd_get_self]
    exact hw
  unfold State.beforeAdd
  rw [State.placeSet_of_none num henter, State.relaySet_eq_relaysSee]
  exact State.openWindow_seenFrom num raw sub _ s.capture x

end

end Sys2Proof.Machine
end

