-- ==== Sys2Proof/Proofs/SetJoins.lean ====
section
/-! Settles O15: what a handed set does, case by case. -/

namespace Sys2Proof.Machine

theorem Window.endsAtCrossing_iff (w : Window) : w.endsAtCrossing = true ↔ w.aligned = false ∨ 56 ≤ w.n := by
  rw [Window.endsAtCrossing, Bool.or_eq_true, Bool.not_eq_true', decide_eq_true_iff]
  rfl

theorem Window.kind_false (w : Window) : w.kind false = if w.invalid then .invalid else .noLine := by
  simp [Window.kind]

theorem BankMeter.atClose_lastKind (m : BankMeter) (w : Window) (k : WindowKind) (now : Uptime) :
    (m.atClose w k now).lastKind = some k := by
  cases k <;> rfl

/-- A set added to a capture changes its pairs alone. -/
theorem Capture.setAdded_eq (c : Capture) (b : Bank) (pair : Position → Pair) :
    ∃ pairs : List Pair, c.setAdded b pair = { c with buffer := pairs } := by
  unfold Capture.setAdded
  split
  · exact ⟨c.buffer, rfl⟩
  · split
    · exact ⟨_, rfl⟩
    · exact ⟨c.buffer, rfl⟩

section
variable {s : State} {b : Bank} (num : SetNo) (raw : RawSet) (sub : Bool) {v : Int} {x : Bool} {w : Window}

/-! ## What every handed set leaves -/

theorem State.placeSet_clock (s : State) (b : Bank) (x : Bool) :
    (s.placeSet b num x).interval = s.interval ∧ (s.placeSet b num x).tokens = s.tokens := by
  unfold State.placeSet
  split
  · exact ⟨rfl, rfl⟩
  · split
    · obtain ⟨-, hclock⟩ := s.closeWindow_clock b true
      exact hclock
    · exact ⟨rfl, rfl⟩

theorem State.closeFull_clock (s : State) (b : Bank) :
    (s.closeFull b).interval = s.interval ∧ (s.closeFull b).tokens = s.tokens := by
  unfold State.closeFull
  split
  · obtain ⟨-, hclock⟩ := s.closeWindow_clock b false
    exact hclock
  · exact ⟨rfl, rfl⟩

theorem State.handSet_clock (s : State) (b : Bank) :
    (s.handSet b num raw sub).interval = s.interval ∧ (s.handSet b num raw sub).tokens = s.tokens := by
  rw [State.handSet_eq s b num raw sub rfl rfl]
  unfold State.beforeAdd
  generalize hu : s.onMeter b _ = u
  have henter : u.interval = s.interval ∧ u.tokens = s.tokens := by rw [← hu]; exact ⟨rfl, rfl⟩
  have hplace := u.placeSet_clock num b (s.meters[b].crosses (calibrate s.calTable.active[voltEntry b] raw.volt).1 sub)
  generalize u.placeSet b num _ = p at hplace ⊢
  have hrelays := (State.relaySet_rereads p b raw.closed sub .uncommanded).fields
  generalize p.relaySet b raw.closed sub .uncommanded = q at hrelays ⊢
  obtain ⟨-, -, -, hinterval, -, -, -, -, -, -, htokens, -⟩ := hrelays
  obtain ⟨hfullInterval, hfullTokens⟩ := (q.addSet b (q.calSet b num raw sub)).closeFull_clock b
  exact ⟨hfullInterval.trans (hinterval.trans (hplace.1.trans henter.1)),
    hfullTokens.trans (htokens.trans (hplace.2.trans henter.2))⟩

/-! ## Below 96 sets, and at 96 -/

theorem State.beforeAdd_meter (s : State) (b : Bank) (v : Int) (x : Bool) : (s.beforeAdd b num raw sub v x).meters[b] =
    (s.meters[b].enterVoltage v x s.bankTable.active[b].zeroCross).place num x s.uptime := by
  rw [State.beforeAdd_meters, upd_get_self]

theorem State.beforeAdd_history (s : State) (b : Bank) (v : Int) (x : Bool) :
    (s.beforeAdd b num raw sub v x).meters[b].history = (v :: s.meters[b].history).take 4 := by
  obtain ⟨hhistory, -⟩ := (s.meters[b].enterVoltage v x s.bankTable.active[b].zeroCross).place_tracker num s.uptime x
  rw [State.beforeAdd_meter, hhistory]
  rfl

/-- The window to which the set is added takes it under the entries active then. -/
theorem State.beforeAdd_takes {y : State} (h : (s.beforeAdd b num raw sub v x).SeenFrom y b raw.closed sub)
    (w : Window) :
    w.Takes (w.add ((s.beforeAdd b num raw sub v x).calSet b num raw sub)) y.calTable.active b num raw sub
      ((v :: s.meters[b].history).take 4) := by
  obtain ⟨-, hcal, -⟩ := h.fields
  rw [← hcal]
  exact Window.add_takes b num raw sub (s.beforeAdd_history num raw sub b v x) w

variable (hv : (calibrate s.calTable.active[voltEntry b] raw.volt).1 = v) (hx : s.meters[b].crosses v sub = x)
  (hu : (s.beforeAdd b num raw sub v x).meters[b].window = some w)

include hu in
theorem State.addSet_meter (y : CalSet) : ((s.beforeAdd b num raw sub v x).addSet b y).meters[b] =
    { (s.beforeAdd b num raw sub v x).meters[b] with window := some (w.add y) } := by
  rw [State.addSet_meters, upd_get_self]
  exact BankMeter.addSet_of_open hu y

include hv hx hu in
theorem State.handSet_of_lt (hn : w.n < 95) : s.handSet b num raw sub =
    (s.beforeAdd b num raw sub v x).addSet b ((s.beforeAdd b num raw sub v x).calSet b num raw sub) := by
  rw [State.handSet_eq s b num raw sub hv hx, State.closeFull, State.addSet_meter num raw sub hu,
    BankMeter.isFull_of_open rfl]
  exact if_neg (by rw [decide_eq_true_iff]; exact Nat.not_le.2 (Nat.succ_lt_succ hn))

include hv hx hu in
theorem State.handSet_of_full (hn : 95 ≤ w.n) : s.handSet b num raw sub =
    ((s.beforeAdd b num raw sub v x).addSet b ((s.beforeAdd b num raw sub v x).calSet b num raw sub)).closeWindow b
      false := by
  rw [State.handSet_eq s b num raw sub hv hx, State.closeFull, State.addSet_meter num raw sub hu,
    BankMeter.isFull_of_open rfl]
  exact if_pos (decide_eq_true (Nat.succ_le_succ hn))

include hv hx hu in
/-- Below 96 sets the window takes the set, and beside meters and capture unit only the relays have read it. -/
theorem State.handSet_lt {y : State} (h : (s.beforeAdd b num raw sub v x).SeenFrom y b raw.closed sub) (hn : w.n < 95) :
    (s.handSet b num raw sub).SeenFrom y b raw.closed sub ∧ (s.handSet b num raw sub).meters[b] =
      { (s.beforeAdd b num raw sub v x).meters[b] with
        window := some (w.add ((s.beforeAdd b num raw sub v x).calSet b num raw sub)) } := by
  rw [State.handSet_of_lt num raw sub hv hx hu hn]
  exact ⟨h.addSet sub _, State.addSet_meter num raw sub hu _⟩

end

/-! ## The open window -/

section
variable {s : State} {b : Bank} (num : SetNo) (raw : RawSet) (sub : Bool) (v : Int) {x : Bool} {w : Window}
  (hw : s.meters[b].window = some w) (hends : (x && w.endsAtCrossing) = false)

include hw hends in
theorem State.beforeAdd_open_meter : (s.beforeAdd b num raw sub v x).meters[b] =
    s.meters[b].enterVoltage v x s.bankTable.active[b].zeroCross := by
  have hentered : (s.meters[b].enterVoltage v x s.bankTable.active[b].zeroCross).window = some w := hw
  rw [State.beforeAdd_meter]
  exact BankMeter.place_of_open num s.uptime hentered hends

include hw hends in
theorem State.beforeAdd_open_seen : (s.beforeAdd b num raw sub v x).SeenFrom s b raw.closed sub := by
  unfold State.SeenFrom
  rw [State.beforeAdd_of_open num raw sub v hw hends]
  generalize s.relaysSee b raw.closed sub = z
  rfl

include hw hends in
/-- With the set in the open window, the relays have read it and the pairs of a capture may have grown. -/
theorem State.addSet_of_open (y : CalSet) : ∃ pairs : List Pair, (s.beforeAdd b num raw sub v x).addSet b y =
    { s.relaysSee b raw.closed sub with
      meters := upd s.meters b fun m =>
        { m with
          history := (v :: s.meters[b].history).take 4
          armed := (s.meters[b].enterVoltage v x s.bankTable.active[b].zeroCross).armed, window := some (w.add y) }
      capture := { s.capture with buffer := pairs } } := by
  obtain ⟨pairs, hpairs⟩ := s.capture.setAdded_eq b y.pair
  refine ⟨pairs, ?_⟩
  rw [State.beforeAdd_of_open num raw sub v hw hends, ← hpairs]
  generalize s.relaysSee b raw.closed sub = z
  have hmeters :
      upd (upd s.meters b fun m => m.enterVoltage v x s.bankTable.active[b].zeroCross) b (fun m => m.addSet y)
      = upd s.meters b fun m =>
        { m with
          history := (v :: s.meters[b].history).take 4
          armed := (s.meters[b].enterVoltage v x s.bankTable.active[b].zeroCross).armed, window := some (w.add y) }
      := by
    have hentered : (s.meters[b].enterVoltage v x s.bankTable.active[b].zeroCross).window = some w := hw
    rw [upd_upd]
    exact upd_congr (BankMeter.addSet_of_open hentered y)
  rw [← hmeters]
  rfl

end

/-- The close of a 96th set, in the state in which the set is in the window. -/
theorem State.closeWindow_full {s y : State} {b : Bank} {w : Window} {h : List Int} {a : Bool}
    (hmeters : y.meters = upd s.meters b fun m => { m with history := h, armed := a, window := some w })
    (houtlets : y.outlets = s.outlets) (htable : y.outletTable = s.outletTable) (huptime : y.uptime = s.uptime) :
    let u := State.closeWindow { s with meters := upd s.meters b fun m => { m with window := some w } } b false
    (y.closeWindow b false).meters[b] = { u.meters[b] with history := h, armed := a }
    ∧ (y.closeWindow b false).meters[b].window = none
    ∧ (y.closeWindow b false).meters[b].lastKind = some (if w.invalid then .invalid else .noLine)
    ∧ (y.closeWindow b false).outlets = u.outlets := by
  have hy : y.meters[b] = { s.meters[b] with history := h, armed := a, window := some w } := by
    rw [hmeters, upd_get_self]
  have hu : ({ s with meters := upd s.meters b fun m => { m with window := some w } } : State).meters[b] =
      { s.meters[b] with window := some w } := upd_get_self _ _ _
  have hyw : y.meters[b].window = some w := by rw [hy]
  have huw : ({ s with meters := upd s.meters b fun m => { m with window := some w } } : State).meters[b].window =
      some w := by rw [hu]
  obtain ⟨-, hyo, -⟩ := State.closeWindow_fields hyw false
  obtain ⟨-, huo, -⟩ := State.closeWindow_fields huw false
  dsimp only
  rw [State.closeWindow_meter hyw false, State.closeWindow_meter huw false, hyo, huo, hy, hu, huptime]
  refine ⟨?_, BankMeter.atClose_window _ _ _ _, ?_, State.outletsAtClose_congr houtlets htable b w _⟩
  · exact BankMeter.atClose_with _ _ s.meters[b] w h a (some w) (some w)
  · rw [BankMeter.atClose_lastKind, Window.kind_false]

/-- The 96th set closes the window, in the state in which the relays have read the set and it is in the window. -/
theorem State.handSet_full {s : State} {b : Bank} (num : SetNo) (raw : RawSet) (sub : Bool) {v : Int} {x : Bool}
    {w : Window} (hv : (calibrate s.calTable.active[voltEntry b] raw.volt).1 = v) (hx : s.meters[b].crosses v sub = x)
    (hw : s.meters[b].window = some w) (hends : (x && w.endsAtCrossing) = false) (hn : 95 ≤ w.n) :
    let h := (v :: s.meters[b].history).take 4
    let t := s.handSet b num raw sub
    let w' := w.add ((s.beforeAdd b num raw sub v x).calSet b num raw sub)
    let u := State.closeWindow { s with meters := upd s.meters b fun m => { m with window := some w' } } b false
    t.meters[b] = { u.meters[b] with history := h, armed := t.meters[b].armed }
    ∧ t.meters[b].window = none
    ∧ t.meters[b].lastKind = some (if w'.invalid then .invalid else .noLine)
    ∧ t.outlets = u.outlets
    ∧ ∃ pairs : List Pair, t = State.closeWindow
      { s.relaysSee b raw.closed sub with
        meters := upd s.meters b fun m => { m with history := h, armed := t.meters[b].armed, window := some w' }
        capture := { s.capture with buffer := pairs } } b false := by
  have hopen : (s.beforeAdd b num raw sub v x).meters[b].window = some w := by
    rw [State.beforeAdd_open_meter num raw sub v hw hends]; exact hw
  have hfull := State.handSet_of_full num raw sub hv hx hopen hn
  dsimp only
  rw [hfull]
  generalize (s.beforeAdd b num raw sub v x).calSet b num raw sub = y
  have hseen := (State.beforeAdd_open_seen num raw sub v hw hends).addSet sub y
  have huptime : ((s.beforeAdd b num raw sub v x).addSet b y).uptime = s.uptime := by
    rw [State.addSet_uptime, State.beforeAdd_uptime]
  obtain ⟨houtlets, -, -, htable, -⟩ := hseen.fields
  obtain ⟨pairs, hadd⟩ := State.addSet_of_open num raw sub v hw hends y
  clear hseen
  generalize s.relaysSee b raw.closed sub = q at hadd ⊢
  have hmeters : ((s.beforeAdd b num raw sub v x).addSet b y).meters = upd s.meters b fun m =>
      { m with
        history := (v :: s.meters[b].history).take 4
        armed := (s.meters[b].enterVoltage v x s.bankTable.active[b].zeroCross).armed, window := some (w.add y) } := by
    rw [hadd]
  generalize (s.beforeAdd b num raw sub v x).addSet b y = z at *
  obtain ⟨hclosed, hwindow, hkind, hresults⟩ := State.closeWindow_full hmeters houtlets htable huptime
  have harmed : (z.closeWindow b false).meters[b].armed =
      (s.meters[b].enterVoltage v x s.bankTable.active[b].zeroCross).armed := by rw [hclosed]
  refine ⟨by rw [harmed]; exact hclosed, hwindow, hkind, hresults, pairs, ?_⟩
  rw [harmed, ← hmeters, hadd]

/-! ## A window that the set opens -/

section
variable {s : State} {b : Bank} (num : SetNo) (raw : RawSet) (sub : Bool) (v : Int) {w : Window}

/-- A crossing that closes the open window opens an aligned one, which moves c to the set. -/
theorem State.beforeAdd_crossing_meter (hw : s.meters[b].window = some w) (hends : w.endsAtCrossing = true) :
    (s.beforeAdd b num raw sub v true).meters[b] =
      { (s.closeWindow b true).meters[b] with
        history := (v :: s.meters[b].history).take 4, armed := false, window := some (.opened true num)
        crossing := some num } := by
  have hentered : (s.meters[b].enterVoltage v true s.bankTable.active[b].zeroCross).window = some w := hw
  rw [State.beforeAdd_meter, BankMeter.place_of_crossing num s.uptime hentered ((Bool.true_and _).trans hends),
    State.closeWindow_meter hw]
  have hclose := BankMeter.atClose_with s.uptime (w.kind true) s.meters[b] w ((v :: s.meters[b].history).take 4) false
    s.meters[b].window s.meters[b].window
  exact congrArg (fun m : BankMeter => m.opened num true) hclose

theorem State.beforeAdd_none_meter (hw : s.meters[b].window = none) (x : Bool) :
    (s.beforeAdd b num raw sub v x).meters[b] =
      (s.meters[b].enterVoltage v x s.bankTable.active[b].zeroCross).opened num x := by
  have hentered : (s.meters[b].enterVoltage v x s.bankTable.active[b].zeroCross).window = none := hw
  rw [State.beforeAdd_meter, BankMeter.place_of_none num s.uptime hentered]

end

/-- Settles O15, by the open window: one that goes on, one that the crossing closes, or none. -/
theorem setEntersTheOpenWindow : Obligations.SetEntersTheOpenWindow := by
  intro b num raw sub s
  dsimp only
  generalize hv : (calibrate s.calTable.active[48 + b.val] raw.volt).1 = v
  generalize hx : s.meters[b].crosses v sub = x
  have hcross :
      (s.meters[b].armed = true ∧ sub = false ∧ 0 ≤ v ∧ ∃ u ∈ s.meters[b].history.head?, u < 0) ↔ x = true := by
    rw [← hx, BankMeter.crosses_iff]
  have hmeters := s.handSet_meters b num raw sub hv hx
  obtain ⟨hhistory, harmed⟩ := s.meters[b].hand_tracker num s.uptime v x s.bankTable.active[b].zeroCross
    ((s.beforeAdd b num raw sub v x).calSet b num raw sub)
  have hcarries := s.handSet_carries b num raw sub
  obtain ⟨hinterval, htokens⟩ := s.handSet_clock num raw sub b
  simp only [hcross]
  refine ⟨?_, ?_, fun b' hb => ?_, fun c => ⟨hcarries.counter c, hcarries.stays.link c⟩, hinterval, htokens,
    fun w hw hno => ?_, fun w hw hyes hlong => ?_, fun hw => ?_⟩
  · rw [hmeters, upd_get_self, hhistory]
  · rw [hmeters, upd_get_self, harmed]
    cases x <;> simp
  · rw [hmeters, upd_get_ne _ hb.symm]
  · have hends : (x && w.endsAtCrossing) = false := by
      rw [Bool.eq_false_iff, ne_eq, Bool.and_eq_true, w.endsAtCrossing_iff]
      rintro ⟨hx, hends⟩
      obtain hno | ⟨halign, hshort⟩ := hno
      · exact hno hx
      · obtain hfree | hlong := hends
        · exact absurd (halign.symm.trans hfree) (by decide)
        · omega
    have hseen := State.beforeAdd_open_seen num raw sub v hw hends
    have hmeter := State.beforeAdd_open_meter num raw sub v hw hends
    have hopen : (s.beforeAdd b num raw sub v x).meters[b].window = some w := by rw [hmeter]; exact hw
    refine ⟨_, State.beforeAdd_takes num raw sub hseen w, fun hn => ?_, fun hn => ?_⟩
    · obtain ⟨hstate, hadded⟩ := State.handSet_lt num raw sub hv hx hopen hseen hn
      obtain ⟨houtlets, hcal, -, -, -, -, -, -, -, -, hqueue⟩ := hstate.fields
      obtain ⟨hrelays, -⟩ := hstate.relays
      refine ⟨?_, houtlets, hqueue, hcal, hrelays, hstate⟩
      rw [hadded, hmeter]
      rfl
    · exact State.handSet_full num raw sub hv hx hw hends hn
  · have hends : w.endsAtCrossing = true := w.endsAtCrossing_iff.2 hlong
    subst hyes
    have hseen := State.beforeAdd_of_crossing num raw sub v hw ((Bool.true_and _).trans hends)
    have hmeter := State.beforeAdd_crossing_meter num raw sub v hw hends
    have hopen : (s.beforeAdd b num raw sub v true).meters[b].window = some (.opened true num) := by rw [hmeter]
    obtain ⟨hstate, hadded⟩ := State.handSet_lt num raw sub hv hx hopen hseen (Nat.zero_lt_succ 94)
    obtain ⟨houtlets, hcal, hbank, -, houtletLimits, hbankLimits, hloadLost, hphaseLimits, helements, hsheds, hqueue⟩ :=
      hstate.fields
    obtain ⟨hrelays, hothers⟩ := hstate.relays
    refine ⟨_, State.beforeAdd_takes num raw sub hseen _, ?_, houtlets, hcal, hbank, houtletLimits, hbankLimits,
      hloadLost, hphaseLimits, helements, hsheds, hqueue, hrelays, hothers, hstate⟩
    rw [hadded, hmeter]
  · have hseen := State.beforeAdd_of_none num raw sub v hw x
    have hmeter := State.beforeAdd_none_meter num raw sub v hw x
    have hopen : (s.beforeAdd b num raw sub v x).meters[b].window = some (.opened x num) := by rw [hmeter]; rfl
    obtain ⟨hstate, hadded⟩ := State.handSet_lt num raw sub hv hx hopen hseen (Nat.zero_lt_succ 94)
    obtain ⟨houtlets, -, -, -, -, -, -, -, -, -, hqueue⟩ := hstate.fields
    refine ⟨x, _, Iff.rfl, State.beforeAdd_takes num raw sub hseen _, ?_, houtlets, hqueue, hstate⟩
    rw [hadded, hmeter]
    rfl

end Sys2Proof.Machine
end

