-- ==== Sys2Proof/Proofs/LimitTargets.lean ====
section
/-! The target of a threshold machine: the higher of the reached and the held level (R49). -/

namespace Sys2Proof.Machine

theorem Level.max_eq_critical_iff (a b : Level) : a.max b = .critical ↔ a = .critical ∨ b = .critical := by
  cases a <;> cases b <;> decide

theorem Level.max_eq_normal_iff (a b : Level) : a.max b = .normal ↔ a = .normal ∧ b = .normal := by
  cases a <;> cases b <;> decide

theorem Level.eq_warn_of_between {a : Level} (hcrit : a ≠ .critical) (hnormal : a ≠ .normal) : a = .warn := by
  cases a
  · exact absurd rfl hnormal
  · rfl
  · exact absurd rfl hcrit

section
variable (p : LimitParams) (now : Level) (x : Nat)

/-- The critical level is reached, or held. -/
def LimitParams.Critical : Prop := p.crit ≠ 0 ∧ (p.crit ≤ x ∨ (now = .critical ∧ p.release p.crit ≤ x))

/-- The warn level is reached, or held. -/
def LimitParams.Warns : Prop := p.warn ≠ 0 ∧ (p.warn ≤ x ∨ (now ≠ .normal ∧ p.release p.warn ≤ x))

theorem LimitParams.reached_eq_critical_iff : p.reached x = .critical ↔ p.crit ≠ 0 ∧ p.crit ≤ x := by
  unfold LimitParams.reached
  split
  · simp_all
  · split <;> simp_all

theorem LimitParams.held_eq_critical_iff :
    p.held now x = .critical ↔ now = .critical ∧ p.crit ≠ 0 ∧ p.release p.crit ≤ x := by
  unfold LimitParams.held
  split
  · simp_all
  · split <;> simp_all

theorem LimitParams.target_eq_critical_iff : p.target now x = .critical ↔ p.Critical now x := by
  rw [LimitParams.target, Level.max_eq_critical_iff, p.reached_eq_critical_iff, p.held_eq_critical_iff,
    LimitParams.Critical]
  tauto

theorem LimitParams.reached_eq_normal_iff (h : ¬ p.Critical now x) :
    p.reached x = .normal ↔ ¬ (p.warn ≠ 0 ∧ p.warn ≤ x) := by
  have hcrit : ¬ (p.crit ≠ 0 ∧ p.crit ≤ x) := fun hc => h ⟨hc.1, .inl hc.2⟩
  rw [LimitParams.reached, if_neg hcrit]
  split <;> simp_all

theorem LimitParams.held_eq_normal_iff (h : ¬ p.Critical now x) :
    p.held now x = .normal ↔ ¬ (now ≠ .normal ∧ p.warn ≠ 0 ∧ p.release p.warn ≤ x) := by
  have hcrit : ¬ (now = .critical ∧ p.crit ≠ 0 ∧ p.release p.crit ≤ x) := fun hc => h ⟨hc.2.1, .inr ⟨hc.1, hc.2.2⟩⟩
  rw [LimitParams.held, if_neg hcrit]
  split <;> simp_all

theorem LimitParams.target_eq_normal_iff (h : ¬ p.Critical now x) : p.target now x = .normal ↔ ¬ p.Warns now x := by
  rw [LimitParams.target, Level.max_eq_normal_iff, p.reached_eq_normal_iff now x h, p.held_eq_normal_iff now x h,
    LimitParams.Warns]
  tauto

end

/-- Settles O20: CRITICAL just when that level is reached or held, and without it NORMAL just when WARN is neither. -/
theorem limitTargetLevel : Obligations.LimitTargetLevel := by
  intro p now x
  refine ⟨(p.target_eq_critical_iff now x).2, fun hcrit hwarn => ?_, fun hcrit => (p.target_eq_normal_iff now x hcrit).2⟩
  exact Level.eq_warn_of_between (mt (p.target_eq_critical_iff now x).1 hcrit)
    (mt (p.target_eq_normal_iff now x hcrit).1 (not_not_intro hwarn))

end Sys2Proof.Machine
end

