-- ==== Sys2Proof/Proofs/IntervalCloses.lean ====
section
/-! The interval close: interval results and records (R45, R46, R191), and what the close leaves (R43, R47, R113,
R121). -/

namespace Sys2Proof.Machine

/-! ## Interval results and histories -/

theorem IntervalSums.power_eq (x : IntervalSums) (e : OutletEntry) : x.power e.creepCodes =
    if x.n = 0 then none
    else some (if |roundDiv x.vi x.n| < (e.creep : Int) * 1000 then 0 else roundDiv (roundDiv x.vi x.n) 2000) := by
  have hcreep : (roundDiv x.vi x.n).natAbs < e.creepCodes ↔ |roundDiv x.vi x.n| < (e.creep : Int) * 1000 := by
    rw [Int.abs_eq_natAbs, OutletEntry.creepCodes]
    omega
  simp only [IntervalSums.power, hcreep, ← apply_ite some]

theorem IntervalSums.irms_eq (x : IntervalSums) :
    x.irms = if x.n = 0 then none else some (isqrt ((2 * x.i2 + x.n) / (2 * x.n))) := rfl

theorem State.appended_eq (s : State) (g : Group) : s.appended s.intervalPower g s.groups[g] =
    if s.groupTable.active[g].enabled = true ∧ s.members g ≠ [] then
      { s.groups[g] with
        history := (s.groups[g].history ++
          [if ∀ o ∈ s.members g, (s.intervalPower o).isSome = true then
            some (((s.members g).map fun o => (s.intervalPower o).getD 0).sum) else none]).drop
          (s.groups[g].history.length + 1 - 16) }
    else s.groups[g] := by
  rw [State.appended, memberSum_eq]
  rfl

/-- An append to the history changes no more of the operation. -/
theorem State.appended_changes (s : State) (power : Outlet → Option Int) (g : Group) (r : GroupOp) :
    s.appended power g r = { r with history := (s.appended power g r).history } := by
  unfold State.appended
  split <;> rfl

/-! ## What the end of an operation leaves -/

/-- `t` comes from `s` by acts of the group engine and the group table that put nothing to the switching queue: group
operations, monitors, group entries, shown modes with their indicator slots, and reports alone may differ. -/
def State.Regroups (s t : State) : Prop :=
  t = { s with lanes := t.lanes, shown := t.shown, groups := t.groups, monitors := t.monitors
               groupTable := t.groupTable, notifier := t.notifier, link0 := t.link0 }

theorem State.Regroups.refl (s : State) : s.Regroups s := rfl

theorem State.Regroups.trans {s t u : State} (h : s.Regroups t) (h' : t.Regroups u) : s.Regroups u := by
  unfold State.Regroups at *
  generalize u.lanes = x1, u.shown = x2, u.groups = x3, u.monitors = x4, u.groupTable = x5, u.notifier = x6,
    u.link0 = x7 at h' ⊢
  rw [h', h]

theorem State.Regroups.fields {s t : State} (h : s.Regroups t) :
    t.interval = s.interval ∧ t.outlets = s.outlets ∧ t.meters = s.meters ∧ t.relays = s.relays ∧ t.queue = s.queue
    ∧ t.sheds = s.sheds ∧ t.uptime = s.uptime ∧ t.tokens = s.tokens ∧ t.calTable = s.calTable ∧ t.safe = s.safe
    ∧ t.capture = s.capture := by
  rw [h]
  exact ⟨rfl, rfl, rfl, rfl, rfl, rfl, rfl, rfl, rfl, rfl, rfl⟩

theorem State.foldl_regroups {α : Type} (f : State → α → State) (h : ∀ (s : State) (a : α), s.Regroups (f s a))
    (l : List α) (s : State) : s.Regroups (l.foldl f s) :=
  List.foldlRecOn (motive := s.Regroups) l f (.refl s) fun t ht a _ => ht.trans (h t a)

theorem State.refreshModesOf_regroups (s : State) (os : List Outlet) : s.Regroups (s.refreshModesOf os) := by
  rw [State.refreshModesOf_changes]
  exact rfl

theorem State.notePower_regroups (s before : State) (g : Group) : s.Regroups (s.notePower before g) := by
  rw [State.notePower_eq_afterPower]
  exact rfl

theorem State.groupApplied_regroups (before s : State) (g : Group) : s.Regroups (State.groupApplied before s g) := by
  have hengine : ∀ (f : GroupOp → GroupOp) (m : Monitor → Monitor),
      s.Regroups ((s.onGroup g f).onMonitor g m) := fun _ _ => rfl
  exact ((hengine _ _).trans (State.refreshModesOf_regroups _ _)).trans (State.notePower_regroups _ before g)

theorem State.applyGroups_regroups (s : State) (gs : List Group) : s.Regroups (s.applyGroups gs) := by
  have htable : ∀ t : Staged GroupEntry 32 32, s.Regroups { s with groupTable := t } := fun _ => rfl
  exact (htable _).trans (State.foldl_regroups _ (fun u g => State.groupApplied_regroups s u g) gs _)

theorem State.releaseGroups_regroups (s : State) : s.Regroups s.releaseGroups := by
  have htable : ∀ (u : State) (t : Staged GroupEntry 32 32), u.Regroups { u with groupTable := t } := fun _ _ => rfl
  have hraise : ∀ (u : State) (n : Nat), u.Regroups (u.raiseApplied .group n) := fun _ _ => rfl
  unfold State.releaseGroups
  dsimp only
  split
  · exact .refl s
  · split
    · exact ((s.applyGroups_regroups _).trans (htable _ _)).trans (hraise _ _)
    · exact (s.applyGroups_regroups _).trans (htable _ _)

theorem State.endOp_regroups (s : State) (g : Group) (result : OpResult) (reason : Option OpReason) (verified : Bool) :
    s.Regroups (s.endOp g result reason verified) := by
  obtain ⟨x, hend, hx⟩ := s.endOp_eq g result reason verified
  have hengine : s.Regroups x := by
    unfold State.Regroups
    rw [hx]
    exact rfl
  rw [hend]
  exact hengine.trans x.releaseGroups_regroups

/-! ## The close -/

/-- The notifier and the link unit after the six INTERVAL_CLOSED (R46). -/
def State.intervalTold (s : State) : Notifier × Link0 :=
  (List.finRange 6).foldl (fun x b => notify s.uptime (s.intervalEvent b s.intervalEnd) x) (s.notifier, s.link0)

/-- The state after an interval close, before its CURRENT verification (R43 to R47). -/
def State.intervalClosed (s : State) : State :=
  { s with
    notifier := s.intervalTold.1, link0 := s.intervalTold.2
    groups := Vector.ofFn fun g => s.appended s.intervalPower g s.groups[g]
    outlets := Vector.ofFn fun o => { s.outlets[o] with sums := IntervalSums.clear }
    interval := { start := s.intervalEnd, length := s.systemTable.active[0].intervalLength
                  number := s.interval.number + 1 } }

theorem State.intervalClosed_told (s : State) :
    (s.intervalClosed.notifier, s.intervalClosed.link0) = s.intervalTold := by
  simp only [State.intervalClosed]

theorem State.intervalClosed_group (s : State) (g : Group) :
    s.intervalClosed.groups[g] = s.appended s.intervalPower g s.groups[g] := ofFn_get _ g

theorem State.intervalClosed_op (s : State) (g : Group) : s.intervalClosed.groups[g].op = s.groups[g].op := by
  rw [State.intervalClosed_group, State.appended_changes]

theorem State.intervalClosed_fields (s : State) :
    s.intervalClosed.meters = s.meters ∧ s.intervalClosed.relays = s.relays ∧ s.intervalClosed.queue = s.queue
    ∧ s.intervalClosed.sheds = s.sheds ∧ s.intervalClosed.uptime = s.uptime ∧ s.intervalClosed.tokens = s.tokens
    ∧ s.intervalClosed.calTable = s.calTable ∧ s.intervalClosed.safe = s.safe ∧ s.intervalClosed.capture = s.capture
    ∧ s.intervalClosed.monitors = s.monitors := by
  simp only [State.intervalClosed, true_and]

theorem State.intervalClosed_outlet (s : State) (o : Outlet) :
    s.intervalClosed.outlets[o] = { s.outlets[o] with sums := IntervalSums.clear } := ofFn_get _ o

theorem State.intervalClosed_groupTable (s : State) : s.intervalClosed.groupTable = s.groupTable := by
  simp only [State.intervalClosed]

theorem State.intervalClosed_members (s : State) (g : Group) : s.intervalClosed.members g = s.members g := by
  simp only [State.members, State.intervalClosed_groupTable]

/-- The events of an interval close touch notices and records alone. -/
theorem State.intervalClosed_link0 (s : State) : s.intervalClosed.link0.quiet = s.link0.quiet := by
  have htold := foldl_keeps quietPair (fun x b => notify s.uptime (s.intervalEvent b s.intervalEnd) x)
    (fun x b => notify_quiet _ _ x) (List.finRange 6) (s.notifier, s.link0)
  simp only [quietPair, Prod.mk.injEq] at htold
  simp only [State.intervalClosed, State.intervalTold, htold.2]

/-- The groups that an interval close verifies. -/
def State.verifiedGroups (s : State) : List Group := allGroups.filter (s.bootVerified s.intervalIrms)

theorem State.mem_verifiedGroups (s : State) (g : Group) :
    g ∈ s.verifiedGroups ↔ s.bootVerified s.intervalIrms g = true := by
  simp [State.verifiedGroups, allGroups]

theorem State.verifiedGroups_nodup (s : State) : s.verifiedGroups.Nodup := (List.nodup_finRange 32).filter _

theorem State.op_of_bootVerified {s : State} {irms : Outlet → Nat} {g : Group} (h : s.bootVerified irms g = true) :
    s.groups[g].op = .verifying := (of_decide_eq_true h).1

/-- The histories play no part in the verification. -/
theorem State.intervalClosed_bootVerified (s : State) (irms : Outlet → Nat) :
    s.intervalClosed.bootVerified irms = s.bootVerified irms := by
  funext g
  simp only [State.bootVerified, State.intervalClosed_op, State.intervalClosed_groupTable, State.intervalClosed_members]

theorem State.closeInterval_eq_ends (s : State) :
    s.closeInterval = s.verifiedGroups.foldl (fun u g => u.endOp g .done none false) s.intervalClosed := by
  obtain ⟨x, hclose, hx⟩ := s.closeInterval_eq
  have hclosed : x = s.intervalClosed := hx
  rw [hclose, hclosed, State.verifyCurrent_eq, State.intervalClosed_bootVerified]
  rfl

theorem State.closeInterval_regroups (s : State) : s.intervalClosed.Regroups s.closeInterval := by
  rw [State.closeInterval_eq_ends]
  exact State.foldl_regroups _ (fun u g => u.endOp_regroups g _ _ _) _ _

theorem State.closeInterval_fifo (s : State) :
    s.closeInterval.link0.fifo = s.link0.fifo ∧ s.closeInterval.link0.filled = s.link0.filled := by
  have hends : s.closeInterval.quiet = s.intervalClosed.quiet := by
    rw [State.closeInterval_eq_ends]
    exact foldl_quiet _ (fun u g => u.endOp_quiet g _ _ _) _ _
  obtain ⟨-, -, -, -, -, -, -, -, -, -, -, -, -, -, -, -, -, -, -, -, -, -, -, -, -, -, hlink⟩ := State.quiet_fields hends
  obtain ⟨-, -, hfifo, -, hfilled, -⟩ := Link0.quiet_fields (hlink.trans s.intervalClosed_link0)
  exact ⟨hfifo, hfilled⟩

/-- The record of a group that an interval close verifies (R121). -/
def State.verifiedRecord (s : State) (g : Group) : OpRecord := s.intervalClosed.groups[g].record g .done none s.uptime

theorem State.verifiedRecord_fields (s : State) (g : Group) :
    let r := s.verifiedRecord g
    r.group = g ∧ r.result = .done ∧ r.reason = none ∧ r.stop = s.uptime ∧ r.start = s.groups[g].start
    ∧ r.retries = s.groups[g].retry ∧ r.faulted = s.groups[g].faulted
    ∧ (∀ k : OpKind, s.groups[g].kind = some k → r.kind = k)
    ∧ (∀ c : OpCause, s.groups[g].cause = some c → r.cause = c) := by
  unfold State.verifiedRecord
  rw [State.intervalClosed_group, State.appended_changes]
  exact ⟨rfl, rfl, rfl, rfl, rfl, rfl, rfl, fun k hk => congrArg (·.getD .cycle) hk,
    fun c hc => congrArg (·.getD .manual) hc⟩

/-- What an interval close leaves of the groups: the verified ones are IDLE with their records; the others and their
monitors stay, unless a group is IDLE and its entry waits; with no entry waiting GROUP_DONE alone is raised. -/
theorem State.closeInterval_groups (s : State) :
    (∀ g : Group, s.bootVerified s.intervalIrms g = true →
      (s.intervalClosed.groups[g].toIdle (s.verifiedRecord g)).LikeBefore s.closeInterval.groups[g])
    ∧ (∀ g : Group, s.bootVerified s.intervalIrms g = false → s.groups[g].op ≠ .idle ∨ g ∉ s.groupTable.waiting →
      s.closeInterval.groups[g] = s.intervalClosed.groups[g] ∧ s.closeInterval.monitors[g] = s.monitors[g])
    ∧ (s.groupTable.waiting = [] → (s.closeInterval.notifier, s.closeInterval.link0) = s.verifiedGroups.foldl
        (fun x g => notify s.uptime (groupDone g (s.verifiedRecord g)) x) s.intervalTold) := by
  have hrunning : ∀ g ∈ s.verifiedGroups, s.intervalClosed.groups[g].op ≠ .idle := fun g hg => by
    rw [State.intervalClosed_op, State.op_of_bootVerified ((s.mem_verifiedGroups g).1 hg)]
    decide
  obtain ⟨hother, -, hended, htold⟩ := State.foldl_endOp s.verifiedGroups s.verifiedGroups_nodup s.intervalClosed hrunning
  obtain ⟨-, -, -, -, huptime, -, -, -, -, hmonitors⟩ := s.intervalClosed_fields
  rw [← State.closeInterval_eq_ends, huptime] at hended htold
  rw [State.intervalClosed_told, State.intervalClosed_groupTable] at htold
  rw [← State.closeInterval_eq_ends, hmonitors] at hother
  refine ⟨fun g hg => hended g ((s.mem_verifiedGroups g).2 hg), fun g hg hstays => hother g ?_ ?_, htold⟩
  · rw [s.mem_verifiedGroups g, hg]
    decide
  · rwa [State.intervalClosed_op, State.intervalClosed_groupTable]

/-- Settles O19: the results and records by their formulas; the close as the six INTERVAL_CLOSED, the next interval and
the histories, and then the ends of the verified groups one after the other. -/
theorem intervalClosesOnTime : Obligations.IntervalClosesOnTime := by
  refine ⟨fun s o => ⟨fun hn => ?_, fun hn => ?_⟩, fun s b stop => rfl, fun s => ⟨fun h => if_neg h, fun h => ?_⟩⟩
  · exact ⟨if_pos hn, if_pos hn⟩
  · rw [State.intervalPower, IntervalSums.power_eq, IntervalSums.irms_eq]
    exact ⟨if_neg hn.ne', if_neg hn.ne'⟩
  · have hexec : exec .intervalClose s = .next s.closeInterval := if_pos h
    have hends := s.closeInterval_eq_ends
    obtain ⟨hinterval, houtlets, hmeters, hrelays, hqueue, hsheds, huptime, htokens, hcal, hsafe, hcapture⟩ :=
      s.closeInterval_regroups.fields
    obtain ⟨hverified, hother, htold⟩ := s.closeInterval_groups
    obtain ⟨hmeters', hrelays', hqueue', hsheds', huptime', htokens', hcal', hsafe', hcapture', -⟩ :=
      s.intervalClosed_fields
    obtain ⟨hfifo, hfilled⟩ := s.closeInterval_fifo
    have hgroup := fun g => (s.intervalClosed_group g).trans (s.appended_eq g)
    have hrecord : ∀ g, s.bootVerified s.intervalIrms g = true →
        s.closeInterval.groups[g].lastRecord = some (s.verifiedRecord g) := fun g hg => (hverified g hg).2.1
    have happended := congrArg Vector.ofFn (funext s.appended_eq)
    unfold State.intervalClosed at hends
    rw [happended] at hends
    refine ⟨s.closeInterval, hexec, hends, fun hnone => ?_, hinterval, fun o => ?_, hmeters.trans hmeters',
      hrelays.trans hrelays', hqueue.trans hqueue', hsheds.trans hsheds', huptime.trans huptime',
      htokens.trans htokens', hcal.trans hcal', hsafe.trans hsafe', hcapture.trans hcapture', hfifo, hfilled,
      fun g hg => ?_, fun g hg hstays => ?_, fun hwaiting => ⟨s.verifiedRecord, hrecord, htold hwaiting⟩⟩
    · have hnobody : s.verifiedGroups = [] :=
        List.filter_eq_nil_iff.2 fun g _ => by rw [show s.bootVerified s.intervalIrms g = false from hnone g]; decide
      rw [hnobody] at hends
      exact hends
    · rw [houtlets, State.intervalClosed_outlet]
    · obtain ⟨hidle, -, hhistory⟩ := hverified g hg
      exact ⟨hidle, hhistory rfl, s.verifiedRecord g, hrecord g hg, s.verifiedRecord_fields g⟩
    · obtain ⟨hsame, hmonitor⟩ := hother g hg hstays
      exact ⟨hsame.trans (hgroup g), hmonitor⟩

end Sys2Proof.Machine
end

