-- ==== Sys2Proof/Proofs/LimitEvaluations.lean ====
section
/-! One evaluation of a threshold machine (R50) and of a load-lost detector (R55), and what the limit unit does with it
for an outlet, a bank and a phase (R51 to R53, R56, R59). -/

namespace Sys2Proof.Machine

/-! ## Machines and detectors -/

section
variable {t : Threshold} {p : LimitParams} {x : Nat}

theorem Threshold.evaluate_of_same (h : p.target t.level x = t.level) :
    t.evaluate p x = { level := t.level, candidate := none, run := 0 } := by
  simp [Threshold.evaluate, Threshold.count, h]

/-- A target that differs from the state is counted as the candidate, or becomes it. -/
theorem Threshold.count_of_other {target : Level} (h : target ≠ t.level) : t.count target =
    { level := t.level, candidate := some target, run := if t.candidate = some target then t.run + 1 else 1 } := by
  unfold Threshold.count
  rw [if_neg h]
  split
  · rename_i hc
    rw [← hc]
  · rfl

/-- The run of a target that differs from the state reaches the persistence: the state moves. -/
theorem Threshold.evaluate_of_reached (h : p.target t.level x ≠ t.level)
    (hrun : p.persistence ≤ if t.candidate = some (p.target t.level x) then t.run + 1 else 1) :
    t.evaluate p x = { level := p.target t.level x, candidate := none, run := 0 } := by
  rw [Threshold.evaluate, Threshold.count_of_other h]
  exact if_pos ⟨h, hrun⟩

theorem Threshold.evaluate_of_below (h : p.target t.level x ≠ t.level)
    (hrun : (if t.candidate = some (p.target t.level x) then t.run + 1 else 1) < p.persistence) :
    t.evaluate p x = { level := t.level, candidate := some (p.target t.level x)
                       run := if t.candidate = some (p.target t.level x) then t.run + 1 else 1 } := by
  rw [Threshold.evaluate, Threshold.count_of_other h]
  exact if_neg fun hreached => Nat.not_le.2 hrun hreached.2

end

/-- A detector of an outlet that is not ON, or has no low threshold, is clear (R55). -/
theorem LoadLost.step_of_unwatched (d : LoadLost) {e : OutletEntry} {relay : RelayState} (x : Nat)
    (h : ¬ (relay = .on ∧ e.low ≠ 0)) : d.step e relay x = ({ lost := false, run := 0 }, false) :=
  if_pos (by tauto)

theorem LoadLost.step_of_clear {d : LoadLost} {e : OutletEntry} {relay : RelayState} (x : Nat)
    (h : relay = .on ∧ e.low ≠ 0) (hd : d.lost = false) : d.step e relay x =
      if e.low ≤ x then ({ lost := false, run := 0 }, false)
      else if e.persistence ≤ d.run + 1 then ({ lost := true, run := d.run + 1 }, true)
      else ({ lost := false, run := d.run + 1 }, false) := by
  unfold LoadLost.step
  rw [if_neg (by tauto), hd, if_neg (by decide)]
  by_cases hx : x < e.low
  · rw [if_pos hx, if_neg (show ¬ e.low ≤ x by omega)]
  · rw [if_neg hx, if_pos (show e.low ≤ x by omega)]

theorem LoadLost.step_of_lost {d : LoadLost} {e : OutletEntry} {relay : RelayState} (x : Nat)
    (h : relay = .on ∧ e.low ≠ 0) (hd : d.lost = true) : d.step e relay x =
      if e.low + e.hysteresis ≤ x then ({ lost := false, run := 0 }, false) else (d, false) := by
  unfold LoadLost.step
  rw [if_neg (by tauto), if_pos hd]

/-! ## The limit unit's evaluations -/

theorem State.evalOutlet_eq (s : State) (o : Outlet) (x : Nat) :
    let e := s.outletTable.active[o]
    let old := s.outletLimits[o]
    let new := old.evaluate { warn := e.warn, crit := e.crit, hysteresis := e.hysteresis
                              persistence := e.persistence } x
    let t : State := { s with outletLimits := upd s.outletLimits o fun _ => new }
    s.evalOutlet o x = if old.level = new.level then t
      else t.raise .outletLimit (o.val + 1) (.limit old.level new.level (x * 2)) := rfl

theorem State.evalLoad_eq (s : State) (o : Outlet) (x : Nat) :
    let e := s.outletTable.active[o]
    let r := s.loadLost[o].step e s.relays[o].state x
    let t : State := { s with loadLost := upd s.loadLost o fun _ => r.1 }
    s.evalLoad o x = if r.2 = true then t.raise .loadLost (o.val + 1) (.loadLost (x * 2) (e.low * 2)) else t := rfl

section
variable {s : State} {o : Outlet} {x : Nat}

theorem State.evalLoad_of_unraised {d : LoadLost}
    (h : s.loadLost[o].step s.outletTable.active[o] s.relays[o].state x = (d, false)) :
    s.evalLoad o x = { s with loadLost := upd s.loadLost o fun _ => d } := by
  rw [s.evalLoad_eq o x, h]
  rfl

theorem State.evalLoad_of_unwatched (h : ¬ (s.relays[o].state = .on ∧ s.outletTable.active[o].low ≠ 0)) :
    s.evalLoad o x = { s with loadLost := upd s.loadLost o fun _ => { lost := false, run := 0 } } :=
  State.evalLoad_of_unraised (LoadLost.step_of_unwatched _ x h)

variable (h : s.relays[o].state = .on ∧ s.outletTable.active[o].low ≠ 0)
include h

theorem State.evalLoad_of_enough (hd : s.loadLost[o].lost = false) (hx : s.outletTable.active[o].low ≤ x) :
    s.evalLoad o x = { s with loadLost := upd s.loadLost o fun _ => { lost := false, run := 0 } } :=
  State.evalLoad_of_unraised ((LoadLost.step_of_clear x h hd).trans (if_pos hx))

theorem State.evalLoad_of_counted (hd : s.loadLost[o].lost = false) (hx : x < s.outletTable.active[o].low)
    (hrun : s.loadLost[o].run + 1 < s.outletTable.active[o].persistence) : s.evalLoad o x =
      { s with loadLost := upd s.loadLost o fun _ => { lost := false, run := s.loadLost[o].run + 1 } } := by
  refine State.evalLoad_of_unraised ((LoadLost.step_of_clear x h hd).trans ?_)
  rw [if_neg (Nat.not_le.2 hx), if_neg (Nat.not_le.2 hrun)]

theorem State.evalLoad_of_lost (hd : s.loadLost[o].lost = false) (hx : x < s.outletTable.active[o].low)
    (hrun : s.outletTable.active[o].persistence ≤ s.loadLost[o].run + 1) : s.evalLoad o x =
      ({ s with loadLost := upd s.loadLost o fun _ => { lost := true, run := s.loadLost[o].run + 1 } } : State).raise
        .loadLost (o.val + 1) (.loadLost (x * 2) (s.outletTable.active[o].low * 2)) := by
  rw [s.evalLoad_eq o x, LoadLost.step_of_clear x h hd, if_neg (Nat.not_le.2 hx), if_pos hrun]
  rfl

theorem State.evalLoad_of_released (hd : s.loadLost[o].lost = true)
    (hx : s.outletTable.active[o].low + s.outletTable.active[o].hysteresis ≤ x) :
    s.evalLoad o x = { s with loadLost := upd s.loadLost o fun _ => { lost := false, run := 0 } } :=
  State.evalLoad_of_unraised ((LoadLost.step_of_lost x h hd).trans (if_pos hx))

theorem State.evalLoad_of_held (hd : s.loadLost[o].lost = true)
    (hx : x < s.outletTable.active[o].low + s.outletTable.active[o].hysteresis) : s.evalLoad o x = s := by
  rw [State.evalLoad_of_unraised ((LoadLost.step_of_lost x h hd).trans (if_neg (Nat.not_le.2 hx)))]
  have hsame : upd s.loadLost o (fun _ => s.loadLost[o]) = s.loadLost := (upd_congr rfl).trans (upd_id s.loadLost o)
  rw [hsame]

end

/-- The machine of bank `b` after an evaluation. -/
def State.bankMachine (s : State) (b : Bank) (x : Nat) : Threshold :=
  s.bankLimits[b].evaluate s.bankTable.active[b].limits x

/-- The state with the bank's machine evaluated and a change of its state reported (R51). -/
def State.bankEvaluated (s : State) (b : Bank) (x : Nat) : State :=
  State.raiseLimit { s with bankLimits := upd s.bankLimits b fun _ => s.bankMachine b x } .branchLimit (numberOf b)
    s.bankLimits[b].level (s.bankMachine b x).level x

theorem State.bankEvaluated_changes (s : State) (b : Bank) (x : Nat) :
    s.bankEvaluated b x = { s with
      bankLimits := upd s.bankLimits b fun _ => s.bankMachine b x
      notifier := (s.bankEvaluated b x).notifier, link0 := (s.bankEvaluated b x).link0 } := by
  unfold State.bankEvaluated State.raiseLimit
  split <;> rfl

theorem State.bankEvaluated_timedShed (s : State) (b : Bank) (x : Nat) (d : ShedUnit) :
    (s.bankEvaluated b x).timedShed b d = { d with
      shedTimer := if (s.bankMachine b x).level = .critical ∧ s.lanes[b].link = .up ∧ d.shedFlight = none then
          some (d.shedTimer.getD s.uptime) else none
      restoreTimer := if (s.bankMachine b x).level = .normal ∧ s.lanes[b].link = .up ∧ d.stack ≠ []
          ∧ d.restoreFlight = none ∧ s.safe.cause = none then some (d.restoreTimer.getD s.uptime) else none } := by
  rw [State.bankEvaluated_changes]
  simp only [State.timedShed, upd_get_self]

/-- With the bank's evaluation the exhausted mark and the timers of its shed unit follow (R56, R59). -/
theorem State.evalBank_eq (s : State) (b : Bank) (x : Nat) :
    s.evalBank b x = { s.bankEvaluated b x with sheds := upd s.sheds b fun d =>
      { d with
        exhausted := d.exhausted && decide ((s.bankMachine b x).level = .critical)
        shedTimer := if (s.bankMachine b x).level = .critical ∧ s.lanes[b].link = .up ∧ d.shedFlight = none then
            some (d.shedTimer.getD s.uptime) else none
        restoreTimer := if (s.bankMachine b x).level = .normal ∧ s.lanes[b].link = .up ∧ d.stack ≠ []
            ∧ d.restoreFlight = none ∧ s.safe.cause = none then some (d.restoreTimer.getD s.uptime) else none } } := by
  have htimed : s.evalBank b x = { s.bankEvaluated b x with
      sheds := upd (s.bankEvaluated b x).sheds b fun d => (s.bankEvaluated b x).timedShed b
        { d with exhausted := d.exhausted && decide ((s.bankMachine b x).level = .critical) } } := by
    refine (State.refreshSheds_eq_timedShed _ b).trans ?_
    simp only [State.onShed, upd_upd]
    rfl
  have hsheds : (s.bankEvaluated b x).sheds = s.sheds := by rw [State.bankEvaluated_changes]
  rw [htimed, hsheds]
  simp only [State.bankEvaluated_timedShed]

/-- A phase's sum takes the elements of the banks that name it (R52). -/
theorem State.phaseSum_eq_sum (s : State) (p : SupplyPhase) :
    s.phaseSum p = ∑ c : Bank, if s.bankTable.active[c].phase = p then (s.phaseElements[c]).getD 0 else 0 := by
  have hzero : ∀ l : List Bank, (l.map fun _ => 0).sum = 0 := fun l => by simp
  rw [Fin.sum_univ_def, List.sum_map_ite, hzero, Nat.add_zero]
  rfl

/-- The machine of the phase that bank `b` names, on the sum with the bank's new element (R52, R53). -/
def State.phaseSumWith (s : State) (b : Bank) (x : Nat) : Nat :=
  State.phaseSum { s with phaseElements := upd s.phaseElements b fun _ => some x } s.bankTable.active[b].phase

theorem State.phaseSumWith_eq_sum (s : State) (b : Bank) (x : Nat) : s.phaseSumWith b x =
    ∑ c : Bank, if s.bankTable.active[c].phase = s.bankTable.active[b].phase
      then (if c = b then x else (s.phaseElements[c]).getD 0) else 0 := by
  have helem : ∀ c : Bank, ((upd s.phaseElements b fun _ => some x)[c]).getD 0
      = if c = b then x else (s.phaseElements[c]).getD 0 := fun c => by
    by_cases h : c = b
    · subst h; rw [upd_get_self, if_pos rfl]; rfl
    · rw [upd_get_ne _ (Ne.symm h), if_neg h]
  rw [State.phaseSumWith, State.phaseSum_eq_sum]
  simp only [helem]

theorem State.evalPhase_eq (s : State) (b : Bank) (x : Nat) :
    let p := s.bankTable.active[b].phase
    let new := s.phaseLimits[p].evaluate s.phaseTable.active[p].limits (s.phaseSumWith b x)
    let t : State := { s with phaseElements := upd s.phaseElements b (fun _ => some x)
                              phaseLimits := upd s.phaseLimits p fun _ => new }
    s.evalPhase b x = if s.phaseLimits[p].level = new.level then t
      else t.raise .phaseLimit (p.val + 1) (.limit s.phaseLimits[p].level new.level (s.phaseSumWith b x * 2)) := rfl

end Sys2Proof.Machine
end

