-- ==== Sys2Proof/Proofs/ShedStacks.lean ====
section
/-! Shed stacks and exhausted marks: completions, the ends of operations and the relay block's part of a close end flights
of shed units and set their timers, and leave both as they were (R57, R58). Without an action in flight the relay block
leaves shed units alone. -/

namespace Sys2Proof.Machine

/-- Every bank's shed stack and exhausted mark. -/
def State.stacks (s : State) : Vector (List Outlet × Bool) 6 := s.sheds.map fun d => (d.stack, d.exhausted)

theorem State.stacks_get {s t : State} (h : t.stacks = s.stacks) (b : Bank) :
    t.sheds[b].stack = s.sheds[b].stack ∧ t.sheds[b].exhausted = s.sheds[b].exhausted := by
  have hb := congrArg (fun v : Vector (List Outlet × Bool) 6 => v[b]) h
  simpa [State.stacks] using hb

theorem State.stacks_of_sheds {s t : State} (h : t.sheds = s.sheds) : t.stacks = s.stacks := congrArg (Vector.map _) h

theorem foldl_stacks {α : Type} (f : State → α → State) (h : ∀ s a, (f s a).stacks = s.stacks) (l : List α) (s : State) :
    (l.foldl f s).stacks = s.stacks := foldl_keeps State.stacks f h l s

/-! ## Events, modes, relays, queue -/

theorem State.Rereads.stacks {b : Bank} {s t : State} (h : s.Rereads b t) : t.stacks = s.stacks :=
  State.stacks_of_sheds (by rw [h.changes])

@[simp] theorem State.raiseEvent_stacks (s : State) (e : Event) : (s.raiseEvent e).stacks = s.stacks := rfl
@[simp] theorem State.raise_stacks (s : State) (k : EventKind) (n : Nat) (d : Detail) :
    (s.raise k n d).stacks = s.stacks := rfl
@[simp] theorem State.onRelay_stacks (s : State) (o : Outlet) (f : Relay → Relay) :
    (s.onRelay o f).stacks = s.stacks := rfl
@[simp] theorem State.onGroup_stacks (s : State) (g : Group) (f : GroupOp → GroupOp) :
    (s.onGroup g f).stacks = s.stacks := rfl
@[simp] theorem State.dropEntry_stacks (s : State) (o : Outlet) : (s.dropEntry o).stacks = s.stacks := rfl
@[simp] theorem State.joinQueue_stacks (s : State) (o : Outlet) (a : Action) (r : Origin) :
    (s.joinQueue o a r).stacks = s.stacks := rfl
@[simp] theorem State.endTurnOn_stacks (s : State) (b : Bank) (r : Completion) :
    (s.endTurnOn b r).stacks = s.stacks := rfl
@[simp] theorem State.raiseSwitchDone_stacks (s : State) (r : ActionRecord) :
    (s.raiseSwitchDone r).stacks = s.stacks := rfl

@[simp] theorem State.setRelay_stacks (s : State) (o : Outlet) (f : Relay → Relay) :
    (s.setRelay o f).stacks = s.stacks := (s.setRelay_rereads (bankOf o) o rfl f).stacks

/-- A flight that ends leaves stack and mark. -/
@[simp] theorem State.endFlights_stacks (s : State) (o : Outlet) : (s.endFlights o).stacks = s.stacks := by
  rw [State.endFlights_eq_landed]
  ext1 i hi
  simp only [State.stacks, Vector.getElem_map, upd_getElem]
  split
  · rename_i h
    subst h
    rfl
  · rfl

@[simp] theorem State.request_stacks (s : State) (o : Outlet) (a : Action) (r : Origin) :
    (s.request o a r).2.stacks = s.stacks := by
  unfold State.request
  split
  · simp
  · split
    · rfl
    · split
      · rfl
      · split <;> simp

@[simp] theorem State.withdraw_stacks (s : State) (p : QueueEntry → Bool) : (s.withdraw p).stacks = s.stacks := by
  unfold State.withdraw
  rw [foldl_stacks _ fun s (e : QueueEntry) => s.endFlights_stacks e.outlet]
  rfl

/-! ## Group operations -/

@[simp] theorem State.mark_stacks (s : State) (g : Group) (o : Outlet) (p : Progress) :
    (s.mark g o p).stacks = s.stacks := rfl
@[simp] theorem State.await_stacks (s : State) (g : Group) (o : Outlet) : (s.await g o).stacks = s.stacks := rfl
@[simp] theorem State.addFaulted_stacks (s : State) (g : Group) (o : Outlet) : (s.addFaulted g o).stacks = s.stacks := rfl

@[simp] theorem State.endOp_stacks (s : State) (g : Group) (r : OpResult) (w : Option OpReason) (v : Bool) :
    (s.endOp g r w v).stacks = s.stacks := by
  obtain ⟨-, -, -, -, -, hsheds, -⟩ := (s.endOp_regroups g r w v).fields
  exact State.stacks_of_sheds hsheds

@[simp] theorem State.withdrawAwaited_stacks (s : State) (g : Group) : (s.withdrawAwaited g).stacks = s.stacks := by
  simp [State.withdrawAwaited]

@[simp] theorem State.failOp_stacks (s : State) (g : Group) (r : OpReason) : (s.failOp g r).stacks = s.stacks := by
  simp [State.failOp]

@[simp] theorem State.enterVerifying_stacks (s : State) (g : Group) : (s.enterVerifying g).stacks = s.stacks := by
  unfold State.enterVerifying
  dsimp only
  split <;> simp

@[simp] theorem State.oningOver_stacks (s : State) (g : Group) : (s.oningOver g).stacks = s.stacks := by
  unfold State.oningOver
  split <;> simp

@[simp] theorem State.takeTurns_stacks (k : Nat) (g : Group) (i : Nat) (s : State) :
    (State.takeTurns k g i s).stacks = s.stacks := by
  induction k generalizing i s with
  | zero => rfl
  | succ k ih =>
    rw [State.takeTurns_succ]
    split
    · simp
    · split
      · simp [ih]
      · exact State.request_stacks s _ _ _

@[simp] theorem State.turnsFrom_stacks (s : State) (g : Group) (i : Nat) : (s.turnsFrom g i).stacks = s.stacks :=
  State.takeTurns_stacks _ g i s

@[simp] theorem State.enterOning_stacks (s : State) (g : Group) : (s.enterOning g).stacks = s.stacks := by
  simp [State.enterOning]

@[simp] theorem State.afterClose_stacks (s : State) (g : Group) : (s.afterClose g).stacks = s.stacks := by
  unfold State.afterClose
  dsimp only
  split
  · simp
  · split <;> simp

@[simp] theorem State.requestOpen_stacks (s : State) (g : Group) (o : Outlet) :
    (s.requestOpen g o).stacks = s.stacks := by simp [State.requestOpen]

@[simp] theorem State.offingOver_stacks (s : State) (g : Group) : (s.offingOver g).stacks = s.stacks := by
  unfold State.offingOver
  dsimp only
  split
  · rfl
  · split
    · simp
    · split
      · split <;> simp
      · split <;> simp

@[simp] theorem State.offingCompletion_stacks (s : State) (g : Group) (o : Outlet) (a : Action) (r : Completion) :
    (s.offingCompletion g o a r).stacks = s.stacks := by
  unfold State.offingCompletion
  split
  · simp
  · simp
  · split
    · simp
    · split
      · simp
      · split <;> simp

@[simp] theorem State.oningCompletion_stacks (s : State) (g : Group) (o : Outlet) (r : Completion) :
    (s.oningCompletion g o r).stacks = s.stacks := by
  unfold State.oningCompletion
  split
  · split <;> simp
  · split <;> simp

@[simp] theorem State.groupCompletion_stacks (s : State) (o : Outlet) (a : Action) (r : Completion) :
    (s.groupCompletion o a r).stacks = s.stacks := by
  unfold State.groupCompletion
  split
  · rfl
  · dsimp only
    split <;> simp

/-! ## Completions -/

theorem State.applyOutlet_stacks (s : State) (o : Outlet) : (s.applyOutlet o).stacks = s.stacks :=
  (State.refreshModes_rereads _ (bankOf o)).stacks

@[simp] theorem State.releaseOutlet_stacks (s : State) (o : Outlet) : (s.releaseOutlet o).stacks = s.stacks := by
  have htable : ∀ (u : State) (v : Staged OutletEntry 48 48), ({ u with outletTable := v } : State).stacks = u.stacks :=
    fun _ _ => rfl
  have hraise : ∀ (u : State) (n : Nat), (u.raiseApplied .outlet n).stacks = u.stacks := fun _ _ => rfl
  unfold State.releaseOutlet
  split
  · dsimp only
    split
    · rw [hraise, htable, htable, State.applyOutlet_stacks]
    · rw [htable, State.applyOutlet_stacks]
  · rfl

@[simp] theorem State.safeFollowUp_stacks (s : State) (o : Outlet) : (s.safeFollowUp o).stacks = s.stacks := by
  unfold State.safeFollowUp
  split
  · dsimp only
    split
    · split
      · rfl
      · split
        · rfl
        · exact State.request_stacks _ _ _ _
      · split
        · rfl
        · exact State.request_stacks _ _ _ _
    · rfl
  · rfl

@[simp] theorem State.complete_stacks (s : State) (o : Outlet) (r : Completion) (a : Option SetNo) :
    (s.complete o r a).stacks = s.stacks := by
  unfold State.complete
  split
  · rfl
  · dsimp only
    rw [State.safeFollowUp_stacks, State.groupCompletion_stacks, State.endFlights_stacks, State.raiseSwitchDone_stacks]
    split <;> simp

/-! ## The relay block at a close -/

@[simp] theorem State.verified_stacks (s : State) (o : Outlet) (f : Flight) (c l : Bool) (x : Option Nat)
    (r : RelayState × Option FaultDetail) : (s.verified o f c l x r).stacks = s.stacks := by
  unfold State.verified
  dsimp only
  split <;> simp

theorem State.watchFault_rereads (s : State) (o : Outlet) (st : RelayState) (d : FaultDetail) (l : Bool)
    (x : Option Nat) : s.Rereads (bankOf o) (s.watchFault o st d l x) :=
  (s.setRelay_rereads (bankOf o) o rfl _).raiseEvent _

theorem State.watchFault_relays (s : State) (o : Outlet) (st : RelayState) (d : FaultDetail) (l : Bool)
    (x : Option Nat) : (s.watchFault o st d l x).relays = upd s.relays o fun _ => .settled st (some d) := by
  unfold State.watchFault
  rw [State.raise_relays, State.setRelay_relays]

/-- `t` comes from `s` by the watch of outlet `o`, which ends no flight and begins none (R74, R75). -/
def State.Watches (o : Outlet) (s t : State) : Prop :=
  s.Rereads (bankOf o) t ∧ ∃ f : Relay → Relay, t.relays = upd s.relays o f ∧ ∀ r, r.flight = none → (f r).flight = none

theorem State.Watches.refl (o : Outlet) (s : State) : s.Watches o s :=
  ⟨.refl _ s, _, (upd_id s.relays o).symm, fun _ h => h⟩

theorem State.onRelay_watches (s : State) (o : Outlet) (f : Relay → Relay) (hf : ∀ r, r.flight = none → (f r).flight = none) :
    s.Watches o (s.onRelay o f) := ⟨⟨rfl, rfl, fun _ _ => rfl, id⟩, f, rfl, hf⟩

theorem State.watchFault_watches (s : State) (o : Outlet) (st : RelayState) (d : FaultDetail) (l : Bool)
    (x : Option Nat) : s.Watches o (s.watchFault o st d l x) :=
  ⟨s.watchFault_rereads o st d l x, _, s.watchFault_relays o st d l x, fun _ _ => rfl⟩

theorem State.weldWatch_watches (s : State) (o : Outlet) (l : Bool) (x : Nat) : s.Watches o (s.weldWatch o l x) := by
  unfold State.weldWatch
  dsimp only
  split
  · split
    · exact s.watchFault_watches o _ _ l _
    · exact s.onRelay_watches o _ fun _ h => h
  · exact s.onRelay_watches o _ fun _ h => h

theorem State.openWatch_watches (s : State) (o : Outlet) (k : WindowKind) (l : Bool) (x : Option Nat) :
    s.Watches o (s.openWatch o k l x) := by
  unfold State.openWatch
  dsimp only
  split
  · split
    · exact s.watchFault_watches o _ _ l _
    · exact s.onRelay_watches o _ fun _ h => h
  · exact s.onRelay_watches o _ fun _ h => h

theorem State.relayAtClose_watches {s : State} {o : Outlet} (h : s.relays[o].flight = none) (w : Window) (k : WindowKind)
    (c : Bool) (x : Option Nat) : s.Watches o (s.relayAtClose o w k c x) := by
  unfold State.relayAtClose
  dsimp only
  rw [h]
  dsimp only
  split
  · exact s.weldWatch_watches o _ _
  · exact s.openWatch_watches o k _ _
  · exact .refl o s

@[simp] theorem State.relayAtClose_stacks (s : State) (o : Outlet) (w : Window) (k : WindowKind) (c : Bool)
    (x : Option Nat) : (s.relayAtClose o w k c x).stacks = s.stacks := by
  cases hf : s.relays[o].flight with
  | none => exact (State.relayAtClose_watches hf w k c x).1.stacks
  | some f =>
    unfold State.relayAtClose
    dsimp only
    rw [hf]
    dsimp only
    split <;> simp

theorem State.relaysAtClose_stacks (s : State) (b : Bank) (w : Window) (k : WindowKind) (c : Bool) :
    (s.relaysAtClose b w k c).stacks = s.stacks := foldl_stacks _ (fun s p => by simp) _ s

/-- No outlet of bank `b` has an action in flight. -/
def State.Still (s : State) (b : Bank) : Prop := ∀ o : Outlet, bankOf o = b → s.relays[o].flight = none

theorem State.Watches.sheds {o : Outlet} {s t : State} (h : s.Watches o t) : t.sheds = s.sheds := by
  rw [h.1.changes]

theorem State.Watches.still {o : Outlet} {b : Bank} {s t : State} (h : s.Watches o t) (hs : s.Still b) : t.Still b := by
  obtain ⟨-, f, hrelays, hf⟩ := h
  intro k hk
  rw [hrelays, upd_get]
  split
  · rename_i e
    subst e
    exact hf _ (hs _ hk)
  · exact hs k hk

theorem State.relaysAtClose_sheds {s : State} {b : Bank} (hs : s.Still b) (w : Window) (k : WindowKind) (c : Bool) :
    (s.relaysAtClose b w k c).sheds = s.sheds := by
  have hfold : (s.relaysAtClose b w k c).sheds = s.sheds ∧ (s.relaysAtClose b w k c).Still b :=
    List.foldlRecOn (motive := fun t : State => t.sheds = s.sheds ∧ t.Still b) _ _ ⟨rfl, hs⟩ fun t ht p _ => by
      obtain ⟨hsheds, hstill⟩ := ht
      have hwatch := fun x => State.relayAtClose_watches (hstill (outletAt b p) (bankOf_outletAt b p)) w k c x
      exact ⟨(hwatch _).sheds.trans hsheds, (hwatch _).still hstill⟩
  exact hfold.1

end Sys2Proof.Machine
end

