-- ==== Sys2Proof/Proofs/LimitCloses.lean ====
section
/-! A window close as the limit unit takes it (R51, R53, R55, R56): the eight outlets, then the bank with its shed unit,
then the phase, and what the blocks after it leave of their work. -/

namespace Sys2Proof.Machine

/-! ## What one evaluation changes -/

theorem State.raiseLimit_changes (s : State) (k : EventKind) (n : Nat) (x y : Level) (i : Nat) :
    s.raiseLimit k n x y i = { s with
      notifier := (s.raiseLimit k n x y i).notifier, link0 := (s.raiseLimit k n x y i).link0 } := by
  unfold State.raiseLimit
  split <;> rfl

/-- An outlet's machine and detector evaluate its code at a close (R51, R55). -/
def State.outletEvaluated (s : State) (o : Outlet) (x : Nat) : State := (s.evalOutlet o x).evalLoad o x

theorem State.outletEvaluated_changes (s : State) (o : Outlet) (x : Nat) :
    s.outletEvaluated o x = { s with
      outletLimits := upd s.outletLimits o fun t => t.evaluate s.outletTable.active[o].limits x
      loadLost := upd s.loadLost o fun d => (d.step s.outletTable.active[o] s.relays[o].state x).1
      notifier := (s.outletEvaluated o x).notifier, link0 := (s.outletEvaluated o x).link0 } := by
  have hload : ∀ u : State, u.evalLoad o x = { u with
      loadLost := upd u.loadLost o fun d => (d.step u.outletTable.active[o] u.relays[o].state x).1
      notifier := (u.evalLoad o x).notifier, link0 := (u.evalLoad o x).link0 } := fun u => by
    unfold State.evalLoad
    dsimp only
    split <;> rfl
  have houtlet : s.evalOutlet o x = { s with
      outletLimits := upd s.outletLimits o fun t => t.evaluate s.outletTable.active[o].limits x
      notifier := (s.evalOutlet o x).notifier, link0 := (s.evalOutlet o x).link0 } :=
    State.raiseLimit_changes _ _ _ _ _ _
  have hboth := hload (s.evalOutlet o x)
  unfold State.outletEvaluated
  generalize (s.evalOutlet o x).evalLoad o x = t at hboth ⊢
  generalize t.notifier = n, t.link0 = l at hboth ⊢
  rw [hboth, houtlet]

/-- The outlets of a list evaluate their codes, one after the other. -/
def State.outletsEvaluated (s : State) (os : List Outlet) (code : Outlet → Nat) : State :=
  os.foldl (fun u o => u.outletEvaluated o (code o)) s

theorem State.outletsEvaluated_changes (s : State) (os : List Outlet) (code : Outlet → Nat) :
    s.outletsEvaluated os code = { s with
      outletLimits := os.foldl
        (fun v o => upd v o fun t => t.evaluate s.outletTable.active[o].limits (code o)) s.outletLimits
      loadLost := os.foldl
        (fun v o => upd v o fun d => (d.step s.outletTable.active[o] s.relays[o].state (code o)).1) s.loadLost
      notifier := (s.outletsEvaluated os code).notifier, link0 := (s.outletsEvaluated os code).link0 } := by
  induction os generalizing s with
  | nil => rfl
  | cons o os ih =>
    have hrest := ih (s.outletEvaluated o (code o))
    have hstep : s.outletsEvaluated (o :: os) code = (s.outletEvaluated o (code o)).outletsEvaluated os code := rfl
    rw [← hstep] at hrest
    generalize s.outletsEvaluated (o :: os) code = t at hrest ⊢
    generalize t.notifier = n, t.link0 = l at hrest ⊢
    rw [hrest, State.outletEvaluated_changes]
    rfl

theorem State.evalBank_changes (s : State) (b : Bank) (x : Nat) :
    s.evalBank b x = { s with
      bankLimits := upd s.bankLimits b fun _ => s.bankMachine b x, sheds := (s.evalBank b x).sheds
      notifier := (s.evalBank b x).notifier, link0 := (s.evalBank b x).link0 } := by
  rw [State.evalBank_eq, State.bankEvaluated_changes]

theorem State.evalBank_sheds (s : State) (b : Bank) (x : Nat) :
    (s.evalBank b x).sheds = upd s.sheds b fun d =>
      { d with
        exhausted := d.exhausted && decide ((s.bankMachine b x).level = .critical)
        shedTimer := if (s.bankMachine b x).level = .critical ∧ s.lanes[b].link = .up ∧ d.shedFlight = none then
            some (d.shedTimer.getD s.uptime) else none
        restoreTimer := if (s.bankMachine b x).level = .normal ∧ s.lanes[b].link = .up ∧ d.stack ≠ []
            ∧ d.restoreFlight = none ∧ s.safe.cause = none then some (d.restoreTimer.getD s.uptime) else none } := by
  rw [State.evalBank_eq]

theorem State.evalBank_stack (s : State) (b c : Bank) (x : Nat) : (s.evalBank b x).sheds[c].stack = s.sheds[c].stack := by
  rw [State.evalBank_sheds, upd_get]
  split
  · rename_i h
    subst h
    rfl
  · rfl

/-- The machine of the phase that bank `b` names after an evaluation. -/
def State.phaseMachine (s : State) (b : Bank) (x : Nat) : Threshold :=
  s.phaseLimits[s.bankTable.active[b].phase].evaluate s.phaseTable.active[s.bankTable.active[b].phase].limits
    (s.phaseSumWith b x)

theorem State.evalPhase_changes (s : State) (b : Bank) (x : Nat) :
    s.evalPhase b x = { s with
      phaseElements := upd s.phaseElements b fun _ => some x
      phaseLimits := upd s.phaseLimits s.bankTable.active[b].phase fun _ => s.phaseMachine b x
      notifier := (s.evalPhase b x).notifier, link0 := (s.evalPhase b x).link0 } :=
  State.raiseLimit_changes _ _ _ _ _ _

/-! ## The limit unit's part of a close -/

/-- Changes of a bank's outlets, each on its own. -/
theorem foldl_outletsOf_get {α : Type} (f : Outlet → α → α) (v : Vector α 48) (b : Bank) (o : Outlet) :
    ((outletsOf b).foldl (fun v o => upd v o (f o)) v)[o] = if bankOf o = b then f o v[o] else v[o] :=
  (foldl_upd_get f (outletsOf b) v o (outletsOf_nodup b)).trans (if_congr (mem_outletsOf o b) rfl rfl)

section
variable (s : State) (b : Bank) (code : Outlet → Nat) (x : Nat)

theorem State.limitsAtClose_eq : s.limitsAtClose b code x =
    ((s.outletsEvaluated (outletsOf b) code).evalBank b x).evalPhase b x := rfl

/-- No evaluation before the bank's and the phase's reads what theirs read. -/
theorem State.limitsAtClose_fields :
    (s.limitsAtClose b code x).outletLimits = (s.outletsEvaluated (outletsOf b) code).outletLimits
    ∧ (s.limitsAtClose b code x).loadLost = (s.outletsEvaluated (outletsOf b) code).loadLost
    ∧ (s.limitsAtClose b code x).bankLimits = (s.evalBank b x).bankLimits
    ∧ (s.limitsAtClose b code x).phaseElements = (s.evalPhase b x).phaseElements
    ∧ (s.limitsAtClose b code x).phaseLimits = (s.evalPhase b x).phaseLimits
    ∧ (s.limitsAtClose b code x).sheds = (s.evalBank b x).sheds := by
  have houtlets := s.outletsEvaluated_changes (outletsOf b) code
  have hlimits := s.limitsAtClose_eq b code x
  rw [State.evalPhase_changes, State.evalBank_changes, State.evalBank_sheds] at hlimits
  generalize s.limitsAtClose b code x = t at hlimits ⊢
  rw [State.evalPhase_changes s, State.evalBank_changes s, State.evalBank_sheds s, hlimits]
  rw [houtlets]
  exact ⟨rfl, rfl, rfl, rfl, rfl, rfl⟩

/-- Each outlet of the bank is evaluated once, on its own. -/
theorem State.outletsEvaluated_get (o : Outlet) :
    (s.outletsEvaluated (outletsOf b) code).outletLimits[o] = (if bankOf o = b
      then s.outletLimits[o].evaluate s.outletTable.active[o].limits (code o) else s.outletLimits[o])
    ∧ (s.outletsEvaluated (outletsOf b) code).loadLost[o] = (if bankOf o = b
      then (s.loadLost[o].step s.outletTable.active[o] s.relays[o].state (code o)).1 else s.loadLost[o]) := by
  rw [State.outletsEvaluated_changes]
  exact ⟨foldl_outletsOf_get (fun o (t : Threshold) => t.evaluate s.outletTable.active[o].limits (code o)) _ b o,
    foldl_outletsOf_get (fun o (d : LoadLost) => (d.step s.outletTable.active[o] s.relays[o].state (code o)).1) _ b o⟩

end

theorem State.evalLoad_loadLost (s : State) (o : Outlet) (x : Nat) :
    (s.evalLoad o x).loadLost[o] = (s.loadLost[o].step s.outletTable.active[o] s.relays[o].state x).1 := by
  unfold State.evalLoad
  dsimp only
  split <;> exact upd_get_self _ o _

/-! ## The whole close -/

section
variable {s : State} {b : Bank} {w : Window}

/-- The state as the limit unit finds it at a close: the meters and the outlets' results and energies are those of the
close. -/
def State.meteredBy (s t : State) : State := { s with meters := t.meters, outlets := t.outlets }

/-- The state as the limit unit leaves it at a close of window `w`. -/
def State.limitedAt (s : State) (b : Bank) (w : Window) (c : Bool) : State :=
  (s.meteredBy (s.closeWindow b c)).limitsAt b w (w.kind c)

/-- After the metering and the limit unit a close is taken by the relay block, the capture unit and the table store
(entry 7). -/
theorem State.closeWindow_eq_stages (hw : s.meters[b].window = some w) (c : Bool) : s.closeWindow b c =
    (((s.limitedAt b w c).relaysAtClose b w (w.kind c) c).captureAtClose b (w.kind c)).boundary b := by
  have hmetered : s.metersAtClose b w (w.kind c) = s.meteredBy (s.closeWindow b c) := by
    obtain ⟨hmeters, houtlets, -⟩ := State.closeWindow_fields hw c
    rw [State.metersAtClose_eq, State.meteredBy, hmeters, houtlets]
  rw [State.limitedAt, ← hmetered, State.closeWindow, hw]

/-- The blocks after the limit unit leave machines, detectors, phase elements, stacks and exhausted marks; with no action
in flight in the bank they leave its shed units. -/
theorem State.closeWindow_limits (hw : s.meters[b].window = some w) (c : Bool) :
    (s.closeWindow b c).outletLimits = (s.limitedAt b w c).outletLimits
    ∧ (s.closeWindow b c).loadLost = (s.limitedAt b w c).loadLost
    ∧ (s.closeWindow b c).bankLimits = (s.limitedAt b w c).bankLimits
    ∧ (s.closeWindow b c).phaseElements = (s.limitedAt b w c).phaseElements
    ∧ (s.closeWindow b c).phaseLimits = (s.limitedAt b w c).phaseLimits
    ∧ (s.closeWindow b c).stacks = (s.limitedAt b w c).stacks
    ∧ (s.Still b → (s.closeWindow b c).sheds = (s.limitedAt b w c).sheds) := by
  have hclose := State.closeWindow_eq_stages hw c
  have hrelays : (s.limitedAt b w c).relays = s.relays := by
    have hlimited := (s.meteredBy (s.closeWindow b c)).limitsAt_limited b w (w.kind c)
    have hmetered : (s.meteredBy (s.closeWindow b c)).relays = s.relays := rfl
    rw [State.limitedAt, hlimited]
    exact hmetered
  generalize s.limitedAt b w c = u at *
  obtain ⟨-, -, -, -, -, -, -, -, -, houtletLimits, hbankLimits, hphaseLimits, hloadLost, helements, -⟩ :=
    State.quiet_fields (u.relaysAtClose_quiet b w (w.kind c) c)
  have hstacks := u.relaysAtClose_stacks b w (w.kind c) c
  have hsheds : s.Still b → (u.relaysAtClose b w (w.kind c) c).sheds = u.sheds := fun hs =>
    State.relaysAtClose_sheds (fun o ho => by rw [hrelays]; exact hs o ho) w (w.kind c) c
  generalize u.relaysAtClose b w (w.kind c) c = v at *
  rw [hclose, (v.captureAtClose b (w.kind c)).boundary_changes b, v.captureAtClose_changes b (w.kind c)]
  exact ⟨houtletLimits, hloadLost, hbankLimits, helements, hphaseLimits, hstacks, hsheds⟩

theorem State.limitedAt_valid (hk : w.kind true = .valid) : s.limitedAt b w true =
    (s.meteredBy (s.closeWindow b true)).limitsAtClose b (fun o => w.irms (posOf o)) w.bankIrms := by
  rw [State.limitedAt, hk]
  rfl

theorem State.limitedAt_other {c : Bool} (hk : w.kind c ≠ .valid) :
    s.limitedAt b w c = s.meteredBy (s.closeWindow b c) := by
  unfold State.limitedAt State.limitsAt
  split
  · exact absurd ‹_› hk
  · rfl
  · rfl

end

/-- Machines, detectors and shed units are blind to the measurements. -/
theorem State.meteredBy_limits (s t : State) (b : Bank) (x : Nat) :
    ((s.meteredBy t).evalBank b x).bankLimits = (s.evalBank b x).bankLimits
    ∧ ((s.meteredBy t).evalBank b x).sheds = (s.evalBank b x).sheds
    ∧ ((s.meteredBy t).evalPhase b x).phaseElements = (s.evalPhase b x).phaseElements
    ∧ ((s.meteredBy t).evalPhase b x).phaseLimits = (s.evalPhase b x).phaseLimits := by
  rw [State.evalBank_sheds, State.evalBank_sheds, State.evalBank_changes, State.evalPhase_changes,
    State.evalBank_changes s, State.evalPhase_changes s]
  exact ⟨rfl, rfl, rfl, rfl⟩

theorem Window.kind_eq_valid_iff (w : Window) (c : Bool) :
    w.kind c = .valid ↔ w.invalid = false ∧ w.aligned = true ∧ c = true := by
  unfold Window.kind
  cases w.invalid <;> cases w.aligned <;> cases c <;> decide

section
variable {s : State} {b : Bank} {w : Window}

/-- The machines, the detectors and the shed units after a valid close are those of the evaluations of its codes. -/
theorem State.closeWindow_valid (hw : s.meters[b].window = some w) (hk : w.kind true = .valid) :
    (∀ o : Outlet, (s.closeWindow b true).outletLimits[o] = if bankOf o = b
        then s.outletLimits[o].evaluate s.outletTable.active[o].limits (w.irms (posOf o)) else s.outletLimits[o])
    ∧ (∀ o : Outlet, (s.closeWindow b true).loadLost[o] = if bankOf o = b
        then (s.evalLoad o (w.irms (posOf o))).loadLost[o] else s.loadLost[o])
    ∧ (s.closeWindow b true).bankLimits = (s.evalBank b w.bankIrms).bankLimits
    ∧ (s.closeWindow b true).phaseElements = (s.evalPhase b w.bankIrms).phaseElements
    ∧ (s.closeWindow b true).phaseLimits = (s.evalPhase b w.bankIrms).phaseLimits
    ∧ (∀ c : Bank, (s.closeWindow b true).sheds[c].exhausted = (s.evalBank b w.bankIrms).sheds[c].exhausted
        ∧ (s.closeWindow b true).sheds[c].stack = s.sheds[c].stack)
    ∧ (s.Still b → (s.closeWindow b true).sheds = (s.evalBank b w.bankIrms).sheds) := by
  have hclose := State.closeWindow_limits hw true
  rw [State.limitedAt_valid hk] at hclose
  generalize s.closeWindow b true = t at hclose ⊢
  obtain ⟨houtletLimits, hloadLost, hbankLimits, helements, hphaseLimits, hstacks, hsheds⟩ := hclose
  obtain ⟨houtlets, hdetectors, hbank, helement, hphase, hunits⟩ :=
    (s.meteredBy t).limitsAtClose_fields b (fun o => w.irms (posOf o)) w.bankIrms
  obtain ⟨hbank', hunits', helement', hphase'⟩ := s.meteredBy_limits t b w.bankIrms
  have hget := (s.meteredBy t).outletsEvaluated_get b fun o => w.irms (posOf o)
  have hunit : ∀ c : Bank, t.sheds[c].stack = (s.evalBank b w.bankIrms).sheds[c].stack
      ∧ t.sheds[c].exhausted = (s.evalBank b w.bankIrms).sheds[c].exhausted :=
    State.stacks_get (hstacks.trans (State.stacks_of_sheds (hunits.trans hunits')))
  refine ⟨fun o => ?_, fun o => ?_, (hbankLimits.trans hbank).trans hbank', (helements.trans helement).trans helement',
    (hphaseLimits.trans hphase).trans hphase',
    fun c => ⟨(hunit c).2, (hunit c).1.trans (s.evalBank_stack b c w.bankIrms)⟩,
    fun hs => (hsheds hs).trans (hunits.trans hunits')⟩
  · rw [houtletLimits, houtlets]
    exact (hget o).1
  · rw [hloadLost, hdetectors, State.evalLoad_loadLost]
    exact (hget o).2

/-- A valid close, stage by stage, in the order of the positions (entry 7). -/
theorem State.closeWindow_valid_eq (hw : s.meters[b].window = some w) (hk : w.kind true = .valid) :
    s.closeWindow b true =
      ((((((List.finRange 8).foldl
        (fun x p => (x.evalOutlet (outletAt b p) (w.irms p)).evalLoad (outletAt b p) (w.irms p))
        (s.meteredBy (s.closeWindow b true))).evalBank b w.bankIrms).evalPhase b w.bankIrms).relaysTake b w true
        ).captureAtClose b .valid).boundary b := by
  have hstages := State.closeWindow_eq_stages hw true
  rw [State.limitedAt_valid hk, State.relaysAtClose_eq_relaysTake, hk, State.limitsAtClose, outletsOf, List.foldl_map]
    at hstages
  simp only [posOf_outletAt] at hstages
  exact hstages

end

/-- Settles O21: the evaluations by their formulas; a close as its stages, of which the limit unit's alone moves machines
and detectors, and at a valid close alone. -/
theorem thresholdMachinesEvaluate : Obligations.ThresholdMachinesEvaluate := by
  refine ⟨fun t p x => ⟨Threshold.evaluate_of_same, Threshold.evaluate_of_reached, Threshold.evaluate_of_below⟩,
    State.evalOutlet_eq, State.evalBank_eq, fun s b x => ?_,
    fun s o x => ⟨State.evalLoad_of_unwatched,
      fun h hd => ⟨State.evalLoad_of_enough h hd, State.evalLoad_of_counted h hd, State.evalLoad_of_lost h hd⟩,
      fun h hd => ⟨State.evalLoad_of_released h hd, State.evalLoad_of_held h hd⟩⟩,
    fun b w c s hw => ⟨fun hi ha hc => ?_, fun hother => ?_⟩⟩
  · dsimp only
    rw [← s.phaseSumWith_eq_sum b x]
    exact s.evalPhase_eq b x
  · subst hc
    have hk := Window.kind_valid ha hi
    obtain ⟨houtlets, hdetectors, hbank, helements, hphase, hunits, hsheds⟩ := State.closeWindow_valid hw hk
    refine ⟨fun p => ⟨?_, ?_⟩, fun o ho => ⟨?_, ?_⟩, hbank, helements, hphase, hunits, hsheds,
      State.closeWindow_valid_eq hw hk⟩
    · rw [houtlets, if_pos (bankOf_outletAt b p), posOf_outletAt]
      rfl
    · rw [hdetectors, if_pos (bankOf_outletAt b p), posOf_outletAt]
      rfl
    · rw [houtlets, if_neg ho]
    · rw [hdetectors, if_neg ho]
  · have hk : w.kind c ≠ .valid := by
      rw [Ne, w.kind_eq_valid_iff]
      rintro ⟨hi, ha, hc⟩
      simp [hi, ha, hc] at hother
    have hclose := State.closeWindow_limits hw c
    rw [State.limitedAt_other hk] at hclose
    obtain ⟨houtletLimits, hloadLost, hbankLimits, helements, hphaseLimits, hstacks, hsheds⟩ := hclose
    exact ⟨houtletLimits, hloadLost, hbankLimits, helements, hphaseLimits, fun b' => (State.stacks_get hstacks b').symm,
      hsheds⟩

end Sys2Proof.Machine
end

