-- ==== Sys2Proof/Proofs/ShedUnits.lean ====
section
/-! The shed unit's operations (R57 to R61): requests to the queue, stacks with the shown modes, monitors and timers that
follow them, and the order of choice. -/

namespace Sys2Proof.Machine

/-! ## Requests to the queue (R85) -/

theorem QueueAnswer.accepted_iff (q : QueueAnswer) : q.accepted = true ↔ q ≠ .refusedRank ∧ q ≠ .refusedBusy := by
  cases q <;> decide

theorem QueueAnswer.not_accepted_iff (q : QueueAnswer) : q.accepted = false ↔ q = .refusedRank ∨ q = .refusedBusy := by
  cases q <;> decide

/-- An accepted request leaves an entry of the outlet with its action. -/
theorem State.request_entry {s : State} {o : Outlet} {a : Action} {r : Origin}
    (h : (s.request o a r).1.accepted = true) : ∃ e ∈ (s.request o a r).2.queue, e.outlet = o ∧ e.action = a := by
  have hjoin : ∀ u : State, ∃ e ∈ (u.joinQueue o a r).queue, e.outlet = o ∧ e.action = a := fun u =>
    ⟨_, List.mem_append_right _ (List.mem_singleton_self _), rfl, rfl⟩
  cases he : s.entryOf o with
  | none =>
    rw [State.request_of_noEntry a r he]
    exact hjoin s
  | some e =>
    have hmem : e ∈ s.queue := List.mem_of_find?_eq_some he
    have houtlet : e.outlet = o := by simpa using List.find?_some he
    cases hst : e.state with
    | issued t =>
      rw [State.request_of_issued a r he hst] at h
      exact absurd h Bool.false_ne_true
    | waiting =>
      by_cases ha : e.action = a
      · rw [State.request_of_sameAction r he hst ha]
        exact ⟨e, hmem, houtlet, ha⟩
      · by_cases hr : e.origin.rank < r.rank
        · rw [State.request_of_higherRank he hst ha hr] at h
          exact absurd h Bool.false_ne_true
        · rw [State.request_of_replaced he hst ha (Nat.not_lt.1 hr)]
          exact hjoin _

/-- The queue does not read the shed units. -/
theorem State.request_onShed (s : State) (b : Bank) (f : ShedUnit → ShedUnit) (o : Outlet) (a : Action) (r : Origin) :
    ((s.onShed b f).request o a r).1 = (s.request o a r).1
    ∧ ((s.onShed b f).request o a r).2.queue = (s.request o a r).2.queue := by
  have hentry : (s.onShed b f).entryOf o = s.entryOf o := rfl
  unfold State.request
  rw [hentry]
  cases s.entryOf o with
  | none => exact ⟨rfl, rfl⟩
  | some e =>
    dsimp only
    cases e.state with
    | issued t => exact ⟨rfl, rfl⟩
    | waiting =>
      dsimp only
      split
      · exact ⟨rfl, rfl⟩
      · split
        · exact ⟨rfl, rfl⟩
        · exact ⟨rfl, rfl⟩

/-! ## The frame -/

/-- `t` comes from `s` by acts of bank `b`'s shed unit: that unit, the queue, shown modes with their indicator slots,
monitors and reports alone may differ. -/
structure State.Restacks (b : Bank) (s t : State) : Prop where
  changes : t = { s with sheds := t.sheds, queue := t.queue, lanes := t.lanes, shown := t.shown, monitors := t.monitors
                         notifier := t.notifier, link0 := t.link0 }
  others : ∀ c : Bank, c ≠ b → t.sheds[c] = s.sheds[c]

theorem State.Restacks.refl (b : Bank) (s : State) : s.Restacks b s := ⟨rfl, fun _ _ => rfl⟩

theorem State.Restacks.trans {b : Bank} {s t u : State} (h : s.Restacks b t) (h' : t.Restacks b u) : s.Restacks b u := by
  refine ⟨?_, fun c hc => (h'.others c hc).trans (h.others c hc)⟩
  have ht := h.changes
  have hu := h'.changes
  generalize u.sheds = x1, u.queue = x2, u.lanes = x3, u.shown = x4, u.monitors = x5, u.notifier = x6, u.link0 = x7
    at hu ⊢
  rw [hu, ht]

theorem State.Restacks.fields {b : Bank} {s t : State} (h : s.Restacks b t) :
    t.meters = s.meters ∧ t.outlets = s.outlets ∧ t.relays = s.relays ∧ t.bankLimits = s.bankLimits
    ∧ t.tokens = s.tokens ∧ t.groups = s.groups ∧ t.interval = s.interval := by
  rw [h.changes]
  exact ⟨rfl, rfl, rfl, rfl, rfl, rfl, rfl⟩

theorem State.withSheds_restacks (s : State) (b : Bank) (f : ShedUnit → ShedUnit) :
    s.Restacks b { s with sheds := upd s.sheds b f } := ⟨rfl, fun _ hc => upd_get_ne _ (Ne.symm hc) _⟩

theorem State.onShed_restacks (s : State) (b : Bank) (f : ShedUnit → ShedUnit) : s.Restacks b (s.onShed b f) :=
  s.withSheds_restacks b f

theorem State.raise_restacks (s : State) (b : Bank) (k : EventKind) (n : Nat) (d : Detail) :
    s.Restacks b (s.raise k n d) := ⟨rfl, fun _ _ => rfl⟩

theorem State.refreshSheds_restacks (s : State) (b : Bank) : s.Restacks b (s.refreshSheds b) := s.onShed_restacks b _

theorem State.request_restacks (s : State) {b : Bank} {o : Outlet} (hb : bankOf o = b) (a : Action) (r : Origin) :
    s.Restacks b (s.request o a r).2 := by
  have hqueue : ∀ (u : State) (q : List QueueEntry), u.Restacks b { u with queue := q } := fun _ _ => ⟨rfl, fun _ _ => rfl⟩
  have hflights : ∀ u : State, u.Restacks b (u.endFlights o) := fun u => by
    rw [State.endFlights_eq_landed, hb]
    exact u.withSheds_restacks b _
  unfold State.request
  split
  · exact hqueue _ _
  · split
    · exact .refl b s
    · split
      · exact .refl b s
      · split
        · exact .refl b s
        · exact ((hqueue s _).trans (hflights _)).trans (hqueue _ _)

/-! ## Stacks -/

theorem State.onShed_stacks (s : State) (b : Bank) {f : ShedUnit → ShedUnit}
    (hf : ∀ d, (f d).stack = d.stack ∧ (f d).exhausted = d.exhausted) : (s.onShed b f).stacks = s.stacks := by
  ext1 i hi
  simp only [State.stacks, State.onShed, Vector.getElem_map, upd_getElem]
  split
  · rename_i h
    subst h
    exact Prod.ext (hf _).1 (hf _).2
  · rfl

@[simp] theorem State.refreshSheds_stacks (s : State) (b : Bank) : (s.refreshSheds b).stacks = s.stacks :=
  s.onShed_stacks b fun _ => ⟨rfl, rfl⟩

theorem State.isShed_of_stacks {s t : State} (h : t.stacks = s.stacks) : t.isShed = s.isShed := by
  funext o
  rw [State.isShed, (State.stacks_get h (bankOf o)).1]
  rfl

/-- A group's derived power state is that of relay states, shed marks and member lists (R103). -/
theorem State.power_congr {s t : State} (hrelays : t.relays = s.relays) (htable : t.groupTable = s.groupTable)
    (hstacks : t.stacks = s.stacks) : t.power = s.power := by
  have hshed := State.isShed_of_stacks hstacks
  funext g
  unfold State.power State.members
  rw [htable]
  unfold State.countsOff State.countsOn
  rw [hrelays, hshed]

/-- The monitor of the outlet's group follows, and no other. -/
theorem State.notePowerOf_eq (s before : State) (o : Outlet) :
    s.notePowerOf before o = { s with monitors := (s.notePowerOf before o).monitors }
    ∧ ∀ g : Group, (s.notePowerOf before o).monitors[g] = if s.groupOf o = some g
        then s.monitors[g].afterPower (before.power g) (s.power g) else s.monitors[g] := by
  unfold State.notePowerOf
  cases s.groupOf o with
  | none => exact ⟨rfl, fun g => (if_neg nofun).symm⟩
  | some k =>
    dsimp only
    rw [State.notePower_eq_afterPower]
    refine ⟨rfl, fun g => ?_⟩
    dsimp only
    rw [upd_get]
    by_cases h : k = g
    · subst h
      rw [if_pos rfl, if_pos rfl]
    · rw [if_neg h, if_neg (fun e => h (Option.some.inj e))]

/-- A stack changes with the timers of its unit; shown modes and the monitor of the outlet's group follow. -/
theorem State.setStack_eq (s : State) (o : Outlet) (f : List Outlet → List Outlet) :
    s.setStack o f = { s with
      sheds := upd s.sheds (bankOf o) fun d => s.timedShed (bankOf o) { d with stack := f d.stack }
      lanes := (s.setStack o f).lanes, shown := (s.setStack o f).shown, monitors := (s.setStack o f).monitors }
    ∧ ∀ g : Group, (s.setStack o f).monitors[g] = if s.groupOf o = some g
        then s.monitors[g].afterPower (s.power g) ((s.setStack o f).power g) else s.monitors[g] := by
  generalize hu : (s.onShed (bankOf o) fun d => { d with stack := f d.stack }) = u
  have hset : s.setStack o f = ((u.refreshModes (bankOf o)).notePowerOf s o).refreshSheds (bankOf o) := by
    rw [← hu]
    rfl
  have hmodes := u.refreshModes_changes (bankOf o)
  have hlane : (u.refreshModes (bankOf o)).lanes[bankOf o].link = u.lanes[bankOf o].link := by
    rw [(u.refreshModes_rereads (bankOf o)).lane]
  generalize u.refreshModes (bankOf o) = v at hset hmodes hlane
  obtain ⟨hnote, hmonitors⟩ := v.notePowerOf_eq s o
  generalize v.notePowerOf s o = x at hset hnote hmonitors
  have hx : x = { s with sheds := upd s.sheds (bankOf o) fun d => { d with stack := f d.stack }
                         lanes := x.lanes, shown := x.shown, monitors := x.monitors } := by
    generalize x.monitors = m at hnote ⊢
    rw [hnote, hmodes, ← hu]
    rfl
  have hlink : x.lanes[bankOf o].link = s.lanes[bankOf o].link := by
    rw [hnote]
    exact hlane.trans (by rw [← hu]; rfl)
  have htimed : x.timedShed (bankOf o) = s.timedShed (bankOf o) :=
    State.timedShed_congr (by rw [hx]) hlink (by rw [hx]) (by rw [hx])
  have hpower : (x.refreshSheds (bankOf o)).power = v.power := by
    refine State.power_congr ?_ ?_ ?_
    · rw [State.refreshSheds_eq_timedShed, hnote]
    · rw [State.refreshSheds_eq_timedShed, hnote]
    · refine (x.refreshSheds_stacks (bankOf o)).trans (State.stacks_of_sheds ?_)
      rw [hnote]
  have hv : v.monitors = s.monitors ∧ v.groupOf o = s.groupOf o := by
    rw [hmodes, ← hu]
    exact ⟨rfl, rfl⟩
  rw [hv.1, hv.2, ← hpower] at hmonitors
  rw [hset]
  refine ⟨?_, hmonitors⟩
  rw [State.refreshSheds_eq_timedShed, htimed]
  generalize x.lanes = x1, x.shown = x2, x.monitors = x3 at hx ⊢
  rw [hx, upd_upd]

theorem State.setStack_unit (s : State) (o : Outlet) (f : List Outlet → List Outlet) :
    (s.setStack o f).sheds[bankOf o]
      = s.timedShed (bankOf o) { s.sheds[bankOf o] with stack := f s.sheds[bankOf o].stack } := by
  rw [(s.setStack_eq o f).1]
  exact upd_get_self s.sheds (bankOf o) _

theorem State.refreshSheds_unit (s : State) (b : Bank) : (s.refreshSheds b).sheds[b] = s.timedShed b s.sheds[b] := by
  rw [State.refreshSheds_eq_timedShed]
  exact upd_get_self s.sheds b _

/-- With a shed in flight the shed timer stands. -/
theorem State.timedShed_of_shedFlight (s : State) (b : Bank) {d : ShedUnit} {o : Outlet} (h : d.shedFlight = some o) :
    (s.timedShed b d).shedTimer = none := if_neg fun hruns => by simp [h] at hruns

/-- With a restore in flight the restore timer stands. -/
theorem State.timedShed_of_restoreFlight (s : State) (b : Bank) {d : ShedUnit} {o : Outlet}
    (h : d.restoreFlight = some o) : (s.timedShed b d).restoreTimer = none := if_neg fun hruns => by simp [h] at hruns

theorem State.setStack_restacks (s : State) {b : Bank} {o : Outlet} (hb : bankOf o = b)
    (f : List Outlet → List Outlet) : s.Restacks b (s.setStack o f) := by
  obtain ⟨hset, -⟩ := s.setStack_eq o f
  generalize s.setStack o f = t at hset ⊢
  subst hb
  refine ⟨?_, fun c hc => ?_⟩
  · generalize t.lanes = x1, t.shown = x2, t.monitors = x3 at hset ⊢
    rw [hset]
  · rw [hset]
    exact upd_get_ne _ (Ne.symm hc) _

theorem State.unshed_restacks (s : State) {b : Bank} {o : Outlet} (hb : bankOf o = b) : s.Restacks b (s.unshed o) := by
  unfold State.unshed
  split
  · exact s.setStack_restacks hb _
  · exact .refl b s

/-- An outlet that leaves its stack leaves the restore in flight as it is. -/
theorem State.unshed_restoreFlight (s : State) (o : Outlet) (c : Bank) :
    (s.unshed o).sheds[c].restoreFlight = s.sheds[c].restoreFlight := by
  unfold State.unshed
  split
  · rw [(s.setStack_eq o _).1]
    dsimp only
    rw [upd_get]
    split
    · rename_i h
      subst h
      rfl
    · rfl
  · rfl

/-! ## The order of choice (R57) -/

theorem State.groupBusy_eq_false_iff (s : State) (o : Outlet) :
    s.groupBusy o = false ↔ ∀ g : Group, s.groupOf o = some g → s.groups[g].op = .idle := by
  unfold State.groupBusy
  cases s.groupOf o with
  | none => simp
  | some g => simp

theorem State.mem_shedOrder (s : State) (b : Bank) (o : Outlet) : o ∈ s.shedOrder b ↔
    bankOf o = b ∧ s.relays[o].state = .on ∧ 1 ≤ s.outletTable.active[o].shedPriority
    ∧ s.outletTable.active[o].shedPriority ≤ 15 ∧ o ∉ s.sheds[b].stack
    ∧ ∀ g : Group, s.groupOf o = some g → s.groups[g].op = .idle := by
  have hcandidate : s.isCandidate o = true ↔ s.relays[o].state = .on ∧ 1 ≤ s.outletTable.active[o].shedPriority
      ∧ o ∉ s.sheds[bankOf o].stack ∧ ∀ g : Group, s.groupOf o = some g → s.groups[g].op = .idle := by
    rw [← s.groupBusy_eq_false_iff o]
    simp [State.isCandidate, State.isShed, and_assoc]
  simp only [State.shedOrder, List.mem_flatMap, List.mem_range, List.mem_filter, List.mem_reverse, mem_outletsOf,
    Bool.and_eq_true, beq_iff_eq, hcandidate]
  constructor
  · rintro ⟨p, hp, rfl, ⟨hon, hlow, hstack, hidle⟩, rfl⟩
    exact ⟨rfl, hon, hlow, by omega, hstack, hidle⟩
  · rintro ⟨rfl, hon, hlow, hhigh, hstack, hidle⟩
    exact ⟨_, by omega, rfl, ⟨hon, hlow, hstack, hidle⟩, rfl⟩

/-- `a` is chosen before `o`: lower priority, or equal priority and higher number. -/
def State.ChosenBefore (s : State) (a o : Outlet) : Prop :=
  s.outletTable.active[a].shedPriority < s.outletTable.active[o].shedPriority
    ∨ (s.outletTable.active[a].shedPriority = s.outletTable.active[o].shedPriority ∧ o < a)

theorem State.ChosenBefore.asymm {s : State} {a o : Outlet} (h : s.ChosenBefore a o) : ¬ s.ChosenBefore o a := by
  rintro (h' | ⟨he', h'⟩) <;> rcases h with h | ⟨he, h⟩
  · exact Nat.lt_asymm h h'
  · exact Nat.ne_of_lt h' he.symm
  · exact Nat.ne_of_lt h he'.symm
  · exact lt_asymm h h'

theorem outletsOf_pairwise (b : Bank) : (outletsOf b).Pairwise (· < ·) := by
  refine List.pairwise_map.2 ((List.pairwise_lt_finRange 8).imp fun {p q} h => ?_)
  show b.val * 8 + p.val < b.val * 8 + q.val
  have hlt : p.val < q.val := h
  omega

theorem State.shedOrder_pairwise (s : State) (b : Bank) : (s.shedOrder b).Pairwise s.ChosenBefore := by
  have hpriority : ∀ (p : Nat) (o : Outlet), o ∈ (outletsOf b).reverse.filter (fun o =>
      s.isCandidate o && s.outletTable.active[o].shedPriority == p) → s.outletTable.active[o].shedPriority = p :=
    fun p o ho => by
      have := (List.mem_filter.1 ho).2
      simp only [Bool.and_eq_true, beq_iff_eq] at this
      exact this.2
  refine List.pairwise_flatMap.2 ⟨fun p _ => ?_, (List.pairwise_lt_range).imp fun {p q} hpq a ha o ho => .inl ?_⟩
  · refine List.Pairwise.imp_of_mem (fun {a o} ha ho hlt => .inr ⟨?_, hlt⟩)
      ((List.pairwise_reverse.2 (outletsOf_pairwise b)).filter _)
    rw [hpriority p a ha, hpriority p o ho]
  · rw [hpriority p a ha, hpriority q o ho]
    exact hpq

end Sys2Proof.Machine
end

