-- ==== Sys2Proof/Proofs/Shedding.lean ====
section
/-! The expiry of the shed timer (R56 to R58). -/

namespace Sys2Proof.Machine

/-! ## The choice of the outlet to shed -/

/-- The queue takes the OPEN of outlet `o` for a shed. -/
def State.takesShed (s : State) (o : Outlet) : Bool := (s.request o .opens .shed).1.accepted

/-- Outlet `o` of bank `b` is shed (R58). -/
def State.shedOutlet (s : State) (b : Bank) (o : Outlet) : State :=
  (((s.request o .opens .shed).2.onShed b fun u => { u with shedFlight := some o }).pushShed o).raise .shed (numberOf b)
    (.shed (.shedOutlet o))

/-- No outlet of bank `b` can be shed (R57). -/
def State.exhaust (s : State) (b : Bank) : State :=
  if s.sheds[b].exhausted then s
  else (s.onShed b fun u => { u with exhausted := true }).raise .shed (numberOf b) (.shed .exhausted)

theorem State.shedFirst_eq (b : Bank) (l : List Outlet) (s : State) : State.shedFirst b l s =
    (l.find? s.takesShed).elim (s.exhaust b) (s.shedOutlet b) := by
  induction l with
  | nil => rfl
  | cons o l ih =>
    rw [State.shedFirst]
    by_cases h : s.takesShed o = true
    · rw [List.find?_cons_of_pos h]
      exact if_pos h
    · rw [List.find?_cons_of_neg h, ← ih]
      exact if_neg h

/-- The first outlet of the order of choice whose OPEN is taken. -/
theorem State.find_shedOrder {s : State} {b : Bank} {o : Outlet} (ho : o ∈ s.shedOrder b) (htaken : s.takesShed o = true)
    (hfirst : ∀ a ∈ s.shedOrder b, s.takesShed a = true → a ≠ o → s.ChosenBefore o a) :
    (s.shedOrder b).find? s.takesShed = some o := by
  cases hfind : (s.shedOrder b).find? s.takesShed with
  | none => exact absurd htaken (List.find?_eq_none.1 hfind o ho)
  | some a =>
    obtain ⟨hta, before, after, hsplit, hrefused⟩ := List.find?_eq_some_iff_append.1 hfind
    by_contra hne
    have hao : a ≠ o := fun e => hne (congrArg some e)
    have hafter : o ∈ after := by
      rw [hsplit] at ho
      refine (List.mem_cons.1 ((List.mem_append.1 ho).resolve_left fun hmem => ?_)).resolve_left (Ne.symm hao)
      simpa [htaken] using hrefused o hmem
    have hpair := s.shedOrder_pairwise b
    rw [hsplit] at hpair
    have hbefore : s.ChosenBefore a o := (List.pairwise_cons.1 (List.pairwise_append.1 hpair).2.1).1 o hafter
    exact hbefore.asymm (hfirst a (List.mem_of_find?_eq_some hfind) hta hao)

/-! ## An outlet is shed -/

theorem State.shedOutlet_restacks (s : State) {b : Bank} {o : Outlet} (hb : bankOf o = b) :
    s.Restacks b (s.shedOutlet b o) :=
  (((s.request_restacks hb _ _).trans (State.onShed_restacks _ b _)).trans (State.setStack_restacks _ hb _)).trans
    (State.raise_restacks _ b _ _ _)

theorem State.exhaust_restacks (s : State) (b : Bank) : s.Restacks b (s.exhaust b) := by
  unfold State.exhaust
  split
  · exact .refl b s
  · exact (s.onShed_restacks b _).trans (State.raise_restacks _ b _ _ _)

/-- The shed unit of an outlet that is shed, its timers followed in any state of the same units. -/
theorem State.pushShed_unit (s : State) (o : Outlet) :
    let d := ((s.onShed (bankOf o) fun u => { u with shedFlight := some o }).pushShed o).sheds[bankOf o]
    d.stack = o :: s.sheds[bankOf o].stack ∧ d.shedFlight = some o ∧ d.exhausted = s.sheds[bankOf o].exhausted := by
  dsimp only
  rw [State.pushShed, State.setStack_unit, State.onShed, upd_get_self]
  exact ⟨rfl, rfl, rfl⟩

/-- The shed unit once outlet `o` has been shed and its timers have followed. -/
theorem State.shedOutlet_unit (s : State) {b : Bank} {o : Outlet} (hb : bankOf o = b) :
    let d := ((s.shedOutlet b o).refreshSheds b).sheds[b]
    d.stack = o :: s.sheds[b].stack ∧ d.shedFlight = some o ∧ d.shedTimer = none
    ∧ d.exhausted = s.sheds[b].exhausted := by
  subst hb
  dsimp only
  obtain ⟨hstack, hexhausted⟩ := State.stacks_get (s.request_stacks o .opens .shed) (bankOf o)
  obtain ⟨hpush, hflight, hkept⟩ := (s.request o .opens .shed).2.pushShed_unit o
  rw [State.refreshSheds_unit]
  unfold State.shedOutlet
  generalize ((s.request o .opens .shed).2.onShed (bankOf o) fun u => { u with shedFlight := some o }).pushShed o = x
    at hpush hflight hkept ⊢
  exact ⟨hpush.trans (congrArg (o :: ·) hstack), hflight, State.timedShed_of_shedFlight _ _ hflight,
    hkept.trans hexhausted⟩

/-- The queue, the monitors and the reports of an outlet that is shed. -/
theorem State.shedOutlet_reports (s : State) (b : Bank) (o : Outlet) :
    let t := (s.shedOutlet b o).refreshSheds b
    t.queue = (s.request o .opens .shed).2.queue
    ∧ (∀ g : Group, t.monitors[g] =
        if s.groupOf o = some g then s.monitors[g].afterPower (s.power g) (t.power g) else s.monitors[g])
    ∧ (t.notifier, t.link0) = notify s.uptime
        { kind := .shed, source := b.val + 1, detail := .shed (.shedOutlet o), records := [] } (s.notifier, s.link0) := by
  dsimp only
  have hrequest := s.request_changes o .opens .shed
  have hstacks := s.request_stacks o .opens .shed
  unfold State.shedOutlet State.pushShed
  generalize (s.request o .opens .shed).2 = q at hrequest hstacks ⊢
  generalize hp : (q.onShed b fun u => { u with shedFlight := some o }) = p
  have hframe : p = { s with queue := q.queue, sheds := p.sheds } := by
    rw [← hp]
    generalize q.queue = x1, q.sheds = x2 at hrequest
    rw [hrequest]
    rfl
  have hkept : p.stacks = s.stacks := by
    rw [← hp]
    exact (q.onShed_stacks b (f := fun u => { u with shedFlight := some o }) fun _ => ⟨rfl, rfl⟩).trans hstacks
  obtain ⟨hset, hmonitors⟩ := p.setStack_eq o (o :: ·)
  generalize p.setStack o (o :: ·) = x at hset hmonitors ⊢
  have hpower : p.power = s.power :=
    State.power_congr (by rw [hframe]) (by rw [hframe]) hkept
  have hlast : ((x.raise .shed (numberOf b) (.shed (.shedOutlet o))).refreshSheds b).power = x.power :=
    State.power_congr rfl rfl (by simp)
  have hgroup : p.groupOf o = s.groupOf o ∧ p.monitors = s.monitors := by
    rw [hframe]
    exact ⟨rfl, rfl⟩
  refine ⟨?_, fun g => ?_, ?_⟩
  · show x.queue = q.queue
    rw [hset, hframe]
  · rw [hlast, ← hpower, ← hgroup.1, ← hgroup.2]
    exact hmonitors g
  · have hsame : x.uptime = s.uptime ∧ x.notifier = s.notifier ∧ x.link0 = s.link0 := by
      rw [hset, hframe]
      exact ⟨rfl, rfl, rfl⟩
    show notify x.uptime _ (x.notifier, x.link0) = _
    rw [hsame.1, hsame.2.1, hsame.2.2]
    rfl

/-! ## The shed timer expires -/

/-- A shed timer that has expired. -/
def State.stopShedTimer (s : State) (b : Bank) : State := s.onShed b fun u => { u with shedTimer := none }

theorem State.stopShedTimer_unit (s : State) (b : Bank) :
    (s.stopShedTimer b).sheds[b] = { s.sheds[b] with shedTimer := none } := upd_get_self s.sheds b _

theorem State.stopShedTimer_stacks (s : State) (b : Bank) : (s.stopShedTimer b).stacks = s.stacks :=
  s.onShed_stacks b (f := fun u => { u with shedTimer := none }) fun _ => ⟨rfl, rfl⟩

theorem State.stopShedTimer_power (s : State) (b : Bank) : (s.stopShedTimer b).power = s.power :=
  State.power_congr rfl rfl (s.stopShedTimer_stacks b)

theorem State.stopShedTimer_shedOrder (s : State) (b : Bank) : (s.stopShedTimer b).shedOrder b = s.shedOrder b := by
  unfold State.shedOrder State.isCandidate
  rw [State.isShed_of_stacks (s.stopShedTimer_stacks b)]
  rfl

theorem State.stopShedTimer_takesShed (s : State) (b : Bank) : (s.stopShedTimer b).takesShed = s.takesShed :=
  funext fun o => congrArg QueueAnswer.accepted (s.request_onShed b _ o .opens .shed).1

/-- What an expired shed timer of bank `b` leads to: the outlet shed, or none. -/
def State.shedNext (s : State) (b : Bank) : State :=
  (((s.shedOrder b).find? s.takesShed).elim ((s.stopShedTimer b).exhaust b) ((s.stopShedTimer b).shedOutlet b)).refreshSheds b

theorem exec_shedTimerExpiry_of_due {b : Bank} {s : State}
    (h : due s.sheds[b].shedTimer s.uptime s.bankTable.active[b].shedDelay = true) :
    exec (.shedTimerExpiry b) s = .next (s.shedNext b) := by
  have hfirst := State.shedFirst_eq b ((s.stopShedTimer b).shedOrder b) (s.stopShedTimer b)
  rw [s.stopShedTimer_shedOrder b, s.stopShedTimer_takesShed b] at hfirst
  unfold State.shedNext
  rw [← hfirst, ← s.stopShedTimer_shedOrder b]
  exact if_pos h

theorem exec_shedTimerExpiry_of_not_due {b : Bank} {s : State}
    (h : due s.sheds[b].shedTimer s.uptime s.bankTable.active[b].shedDelay = false) :
    exec (.shedTimerExpiry b) s = .next s := if_neg (ne_true_of_eq_false h)

theorem State.shedNext_restacks (s : State) (b : Bank) : s.Restacks b (s.shedNext b) := by
  refine ((s.onShed_restacks b fun u => { u with shedTimer := none }).trans ?_).trans (State.refreshSheds_restacks _ b)
  show (s.stopShedTimer b).Restacks b _
  cases hfind : (s.shedOrder b).find? s.takesShed with
  | none => exact State.exhaust_restacks _ b
  | some o => exact State.shedOutlet_restacks _ ((s.mem_shedOrder b o).1 (List.mem_of_find?_eq_some hfind)).1

/-- An outlet is shed (R58). -/
theorem State.shedNext_some {s : State} {b : Bank} {o : Outlet}
    (hfind : (s.shedOrder b).find? s.takesShed = some o) :
    (s.shedNext b).sheds[b].stack = o :: s.sheds[b].stack ∧ (s.shedNext b).sheds[b].shedFlight = some o
    ∧ (s.shedNext b).sheds[b].shedTimer = none ∧ (s.shedNext b).sheds[b].exhausted = s.sheds[b].exhausted
    ∧ (s.shedNext b).queue = (s.request o .opens .shed).2.queue
    ∧ (∃ e ∈ (s.shedNext b).queue, e.outlet = o ∧ e.action = .opens)
    ∧ (∀ g : Group, (s.shedNext b).monitors[g] = if s.groupOf o = some g
        then s.monitors[g].afterPower (s.power g) ((s.shedNext b).power g) else s.monitors[g])
    ∧ ((s.shedNext b).notifier, (s.shedNext b).link0) = notify s.uptime
        { kind := .shed, source := b.val + 1, detail := .shed (.shedOutlet o), records := [] }
        (s.notifier, s.link0) := by
  have hnext : s.shedNext b = ((s.stopShedTimer b).shedOutlet b o).refreshSheds b := by
    rw [State.shedNext, hfind]
    rfl
  have hb : bankOf o = b := ((s.mem_shedOrder b o).1 (List.mem_of_find?_eq_some hfind)).1
  obtain ⟨hstack, hflight, htimer, hexhausted⟩ := (s.stopShedTimer b).shedOutlet_unit hb
  obtain ⟨hqueue, hmonitors, hreport⟩ := (s.stopShedTimer b).shedOutlet_reports b o
  have hsame : ((s.stopShedTimer b).request o .opens .shed).2.queue = (s.request o .opens .shed).2.queue :=
    (s.request_onShed b _ o .opens .shed).2
  rw [hsame] at hqueue
  rw [s.stopShedTimer_unit b] at hstack hexhausted
  rw [s.stopShedTimer_power b] at hmonitors
  have htaken : s.takesShed o = true := List.find?_some hfind
  obtain ⟨e, he⟩ := State.request_entry htaken
  rw [hnext]
  exact ⟨hstack, hflight, htimer, hexhausted, hqueue, ⟨e, hqueue ▸ he⟩, hmonitors, hreport⟩

/-- No outlet can be shed (R57). -/
theorem State.shedNext_none {s : State} {b : Bank} (hfind : (s.shedOrder b).find? s.takesShed = none) :
    s.shedNext b = { s with
      sheds := (s.shedNext b).sheds, notifier := (s.shedNext b).notifier, link0 := (s.shedNext b).link0 }
    ∧ (s.shedNext b).sheds[b] = { s.sheds[b] with
        exhausted := true, restoreTimer := (s.shedNext b).sheds[b].restoreTimer
        shedTimer := if s.bankLimits[b].level = .critical ∧ s.lanes[b].link = .up ∧ s.sheds[b].shedFlight = none
          then some s.uptime else none }
    ∧ ((s.shedNext b).notifier, (s.shedNext b).link0) = if s.sheds[b].exhausted = true then (s.notifier, s.link0)
        else notify s.uptime { kind := .shed, source := b.val + 1, detail := .shed .exhausted, records := [] }
          (s.notifier, s.link0) := by
  have hnext : s.shedNext b = ((s.stopShedTimer b).exhaust b).refreshSheds b := by
    rw [State.shedNext, hfind]
    rfl
  have hexhausted : (s.stopShedTimer b).sheds[b].exhausted = s.sheds[b].exhausted := by rw [s.stopShedTimer_unit b]
  rw [hnext]
  unfold State.exhaust
  by_cases hlast : s.sheds[b].exhausted = true
  · rw [if_pos (hexhausted.trans hlast), if_pos hlast]
    refine ⟨rfl, ?_, rfl⟩
    rw [State.refreshSheds_unit, s.stopShedTimer_unit b, ← hlast]
    rfl
  · rw [if_neg (hexhausted ▸ hlast), if_neg hlast]
    refine ⟨rfl, ?_, rfl⟩
    have hunit : (((s.stopShedTimer b).onShed b fun u => { u with exhausted := true }).raise .shed (numberOf b)
        (.shed .exhausted)).sheds[b] = { s.sheds[b] with exhausted := true, shedTimer := none } := by
      refine (upd_get_self (s.stopShedTimer b).sheds b _).trans ?_
      rw [s.stopShedTimer_unit b]
    rw [State.refreshSheds_unit, hunit]
    rfl

end Sys2Proof.Machine
end

