-- ==== Sys2Proof/Proofs/ShedTimers.lean ====
section
/-! The expiry of the restore timer (R59, R60), and the obligation about both timers. -/

namespace Sys2Proof.Machine

/-! ## The restore timer expires -/

/-- A restore timer that has expired. -/
def State.stopRestoreTimer (s : State) (b : Bank) : State := s.onShed b fun u => { u with restoreTimer := none }

theorem State.stopRestoreTimer_unit (s : State) (b : Bank) :
    (s.stopRestoreTimer b).sheds[b] = { s.sheds[b] with restoreTimer := none } := upd_get_self s.sheds b _

/-- What an expired restore timer of bank `b` leads to. -/
def State.restoreNext (s : State) (b : Bank) : State := ((s.stopRestoreTimer b).restoreTop b).refreshSheds b

theorem exec_restoreTimerExpiry_of_due {b : Bank} {s : State}
    (h : due s.sheds[b].restoreTimer s.uptime (s.bankTable.active[b].restoreDelay * 1000) = true) :
    exec (.restoreTimerExpiry b) s = .next (s.restoreNext b) := if_pos h

theorem exec_restoreTimerExpiry_of_not_due {b : Bank} {s : State}
    (h : due s.sheds[b].restoreTimer s.uptime (s.bankTable.active[b].restoreDelay * 1000) = false) :
    exec (.restoreTimerExpiry b) s = .next s := if_neg (ne_true_of_eq_false h)

/-- Nothing is restored: the timers of the unit follow their conditions again. -/
theorem State.restoreNext_of_unchanged {s : State} {b : Bank}
    (h : (s.stopRestoreTimer b).restoreTop b = s.stopRestoreTimer b) :
    s.restoreNext b = { s with sheds := upd s.sheds b fun u => { u with
      shedTimer := (s.restoreNext b).sheds[b].shedTimer
      restoreTimer := if s.bankLimits[b].level = .normal ∧ s.lanes[b].link = .up ∧ u.stack ≠ [] ∧ u.restoreFlight = none
        ∧ s.safe.cause = none then some s.uptime else none } } := by
  have hnext : s.restoreNext b
      = { s with sheds := upd s.sheds b fun u => s.timedShed b { u with restoreTimer := none } } := by
    rw [State.restoreNext, h, State.refreshSheds_eq_timedShed]
    exact congrArg (fun x => { s with sheds := x }) (upd_upd s.sheds b _ _)
  have hunit : (s.restoreNext b).sheds[b] = s.timedShed b { s.sheds[b] with restoreTimer := none } := by
    rw [hnext]
    exact upd_get_self s.sheds b _
  rw [hunit, hnext]
  exact congrArg (fun x => { s with sheds := x }) (upd_congr rfl)

/-- Outlet `o` of bank `b`'s stack is restored (R60). -/
def State.restoreOutlet (s : State) (b : Bank) (o : Outlet) : State :=
  (((s.request o .close .restore).2.onShed b fun u => { u with restoreFlight := some o }).unshed o).raise .shed
    (numberOf b) (.shed (.restored o))

theorem State.restoreTop_of_nil {s : State} {b : Bank} (h : s.sheds[b].stack = []) : s.restoreTop b = s := by
  unfold State.restoreTop
  rw [h]

theorem State.restoreTop_of_busy {s : State} {b : Bank} {o : Outlet} {rest : List Outlet}
    (h : s.sheds[b].stack = o :: rest) (hbusy : s.groupBusy o = true) : s.restoreTop b = s := by
  unfold State.restoreTop
  rw [h]
  exact if_pos hbusy

theorem State.restoreTop_of_free {s : State} {b : Bank} {o : Outlet} {rest : List Outlet}
    (h : s.sheds[b].stack = o :: rest) (hfree : s.groupBusy o = false) : s.restoreTop b =
      if (s.request o .close .restore).1.accepted = true then s.restoreOutlet b o else s := by
  unfold State.restoreTop
  rw [h]
  exact if_neg (ne_true_of_eq_false hfree)

theorem State.restoreOutlet_restacks (s : State) {b : Bank} {o : Outlet} (hb : bankOf o = b) :
    s.Restacks b (s.restoreOutlet b o) :=
  (((s.request_restacks hb _ _).trans (State.onShed_restacks _ b _)).trans (State.unshed_restacks _ hb)).trans
    (State.raise_restacks _ b _ _ _)

/-- An outlet that is restored leaves its stack and is in flight; the restore timer stands, no monitor changes, and the
report says so. -/
theorem State.restoreOutlet_effects (s : State) {b : Bank} {o : Outlet} (hb : bankOf o = b) :
    let t := (s.restoreOutlet b o).refreshSheds b
    t.sheds[b].stack = s.sheds[b].stack.filter (· ≠ o) ∧ t.sheds[b].restoreFlight = some o
    ∧ t.sheds[b].restoreTimer = none ∧ t.monitors = s.monitors
    ∧ t.queue = (s.request o .close .restore).2.queue
    ∧ (t.notifier, t.link0) = notify s.uptime
        { kind := .shed, source := b.val + 1, detail := .shed (.restored o), records := [] } (s.notifier, s.link0) := by
  dsimp only
  have hrequest := s.request_changes o .close .restore
  obtain ⟨hstacks, -⟩ := State.stacks_get (s.request_stacks o .close .restore) b
  unfold State.restoreOutlet
  generalize (s.request o .close .restore).2 = q at hrequest hstacks ⊢
  generalize hp : (q.onShed b fun u => { u with restoreFlight := some o }) = p
  have hunit : p.sheds[b] = { q.sheds[b] with restoreFlight := some o } := by
    rw [← hp]
    exact upd_get_self q.sheds b _
  have hframe : p = { s with queue := q.queue, sheds := p.sheds } := by
    rw [← hp]
    generalize q.queue = x1, q.sheds = x2 at hrequest
    rw [hrequest]
    rfl
  obtain ⟨hchanges, hunshed⟩ := p.unshed_changes o
  obtain ⟨-, hstack⟩ := hunshed b
  have hflight := p.unshed_restoreFlight o b
  generalize p.unshed o = x at hchanges hstack hflight ⊢
  rw [hunit] at hstack hflight
  have hfilter : x.sheds[b].stack = s.sheds[b].stack.filter (· ≠ o) := by
    rw [hstack, ← hstacks]
    exact List.filter_congr fun m _ => by simp [hb]
  have hsame : x.uptime = s.uptime ∧ x.notifier = s.notifier ∧ x.link0 = s.link0 ∧ x.monitors = s.monitors
      ∧ x.queue = q.queue := by
    rw [hchanges, hframe]
    exact ⟨rfl, rfl, rfl, rfl, rfl⟩
  obtain ⟨huptime, hnotifier, hlink, hmonitors, hqueue⟩ := hsame
  rw [State.refreshSheds_unit]
  refine ⟨hfilter, hflight, State.timedShed_of_restoreFlight _ _ hflight, hmonitors, hqueue, ?_⟩
  show notify x.uptime _ (x.notifier, x.link0) = _
  rw [huptime, hnotifier, hlink]
  rfl

/-- With outlet `o` on top of the stack nothing is restored while its group is busy or its CLOSE is refused. -/
theorem State.restoreTop_of_refused {s : State} {b : Bank} {o : Outlet} {rest : List Outlet}
    (h : s.sheds[b].stack = o :: rest)
    (hrefused : s.groupBusy o = true ∨ (s.request o .close .restore).1.accepted = false) :
    (s.stopRestoreTimer b).restoreTop b = s.stopRestoreTimer b := by
  have htop : (s.stopRestoreTimer b).sheds[b].stack = o :: rest := by rw [s.stopRestoreTimer_unit b, ← h]
  cases hbusy : s.groupBusy o with
  | true => exact State.restoreTop_of_busy htop hbusy
  | false =>
    have hanswer := hrefused.resolve_left (ne_true_of_eq_false hbusy)
    rw [State.restoreTop_of_free htop hbusy]
    refine if_neg ?_
    rw [State.stopRestoreTimer, (s.request_onShed b _ o .close .restore).1, hanswer]
    exact Bool.false_ne_true

theorem State.restoreTop_of_taken {s : State} {b : Bank} {o : Outlet} {rest : List Outlet}
    (h : s.sheds[b].stack = o :: rest) (hfree : s.groupBusy o = false)
    (htaken : (s.request o .close .restore).1.accepted = true) :
    (s.stopRestoreTimer b).restoreTop b = (s.stopRestoreTimer b).restoreOutlet b o := by
  have htop : (s.stopRestoreTimer b).sheds[b].stack = o :: rest := by rw [s.stopRestoreTimer_unit b, ← h]
  rw [State.restoreTop_of_free htop hfree]
  refine if_pos ?_
  rw [State.stopRestoreTimer, (s.request_onShed b _ o .close .restore).1, htaken]

/-- With a stack that is not empty the restore timer starts again when nothing is restored (R60). -/
theorem State.restoreNext_of_refused {s : State} {b : Bank} {o : Outlet} {rest : List Outlet}
    (h : s.sheds[b].stack = o :: rest)
    (hrefused : s.groupBusy o = true ∨ (s.request o .close .restore).1.accepted = false) :
    s.restoreNext b = { s with sheds := upd s.sheds b fun u => { u with
      shedTimer := (s.restoreNext b).sheds[b].shedTimer
      restoreTimer := if s.bankLimits[b].level = .normal ∧ s.lanes[b].link = .up ∧ u.restoreFlight = none
        ∧ s.safe.cause = none then some s.uptime else none } } := by
  refine (State.restoreNext_of_unchanged (State.restoreTop_of_refused h hrefused)).trans ?_
  refine congrArg (fun x => { s with sheds := x }) (upd_congr ?_)
  have hstack : s.sheds[b].stack ≠ [] := h ▸ List.cons_ne_nil o rest
  simp only [ne_eq, hstack, not_false_eq_true, true_and]

/-- The top of the stack is restored (R60). -/
theorem State.restoreNext_of_taken {s : State} {b : Bank} {o : Outlet} {rest : List Outlet}
    (h : s.sheds[b].stack = o :: rest) (hb : bankOf o = b) (hfree : s.groupBusy o = false)
    (htaken : (s.request o .close .restore).1.accepted = true) :
    (s.restoreNext b).sheds[b].stack = rest.filter (· ≠ o) ∧ (s.restoreNext b).sheds[b].restoreFlight = some o
    ∧ (s.restoreNext b).sheds[b].restoreTimer = none ∧ (s.restoreNext b).monitors = s.monitors
    ∧ (s.restoreNext b).queue = (s.request o .close .restore).2.queue
    ∧ (∃ e ∈ (s.restoreNext b).queue, e.outlet = o ∧ e.action = .close)
    ∧ ((s.restoreNext b).notifier, (s.restoreNext b).link0) = notify s.uptime
        { kind := .shed, source := b.val + 1, detail := .shed (.restored o), records := [] } (s.notifier, s.link0) := by
  have hnext : s.restoreNext b = ((s.stopRestoreTimer b).restoreOutlet b o).refreshSheds b :=
    congrArg (State.refreshSheds · b) (State.restoreTop_of_taken h hfree htaken)
  obtain ⟨hstack, hflight, htimer, hmonitors, hqueue, hreport⟩ := (s.stopRestoreTimer b).restoreOutlet_effects hb
  have hsame : ((s.stopRestoreTimer b).request o .close .restore).2.queue = (s.request o .close .restore).2.queue :=
    (s.request_onShed b _ o .close .restore).2
  have hrest : (s.stopRestoreTimer b).sheds[b].stack.filter (· ≠ o) = rest.filter (· ≠ o) := by
    rw [s.stopRestoreTimer_unit b, h]
    simp
  rw [hsame] at hqueue
  rw [hrest] at hstack
  obtain ⟨e, he⟩ := State.request_entry htaken
  rw [hnext]
  exact ⟨hstack, hflight, htimer, hmonitors, hqueue, ⟨e, hqueue ▸ he⟩, hreport⟩

/-- The frame of an expired restore timer: no other unit but the bank's, and no monitor, changes. -/
theorem State.restoreNext_restacks {s : State} {b : Bank} {o : Outlet} {rest : List Outlet}
    (h : s.sheds[b].stack = o :: rest) (hb : bankOf o = b) :
    s.Restacks b (s.restoreNext b) ∧ (s.restoreNext b).monitors = s.monitors := by
  have hstop : s.Restacks b (s.stopRestoreTimer b) := s.onShed_restacks b _
  by_cases htaken : s.groupBusy o = false ∧ (s.request o .close .restore).1.accepted = true
  · obtain ⟨hfree, haccepted⟩ := htaken
    obtain ⟨-, -, -, hmonitors, -⟩ := State.restoreNext_of_taken h hb hfree haccepted
    refine ⟨?_, hmonitors⟩
    rw [State.restoreNext, State.restoreTop_of_taken h hfree haccepted]
    exact (hstop.trans (State.restoreOutlet_restacks _ hb)).trans (State.refreshSheds_restacks _ b)
  · rw [not_and_or, Bool.not_eq_false, Bool.not_eq_true] at htaken
    rw [State.restoreNext, State.restoreTop_of_refused h htaken]
    exact ⟨hstop.trans (State.refreshSheds_restacks _ b), rfl⟩

/-! ## Both timers -/

/-- Settles O22: an outlet is shed when it is the first of the order of choice whose OPEN the queue takes, and none is
when no OPEN is taken; the top of the stack is restored unless its group is busy or its CLOSE is refused. -/
theorem shedAndRestoreTimersExpire : Obligations.ShedAndRestoreTimersExpire := by
  unfold Obligations.ShedAndRestoreTimersExpire
  refine ⟨fun b s => ⟨exec_shedTimerExpiry_of_not_due, fun hdue => ?_⟩,
    fun b s => ⟨exec_restoreTimerExpiry_of_not_due, fun hdue hempty => ?_, fun o rest hdue hstack hb => ?_⟩⟩
  · obtain ⟨hmeters, houtlets, hrelays, hlimits, htokens, hgroups, hinterval⟩ := (s.shedNext_restacks b).fields
    refine ⟨s.shedNext b, exec_shedTimerExpiry_of_due hdue, hmeters, houtlets, hrelays, hlimits, htokens, hgroups,
      hinterval, (s.shedNext_restacks b).others, fun o hcandidate haccepted hfirst => ?_, fun hnone => ?_⟩
    · refine State.shedNext_some (State.find_shedOrder ((s.mem_shedOrder b o).2 hcandidate)
        ((QueueAnswer.accepted_iff _).2 haccepted) fun a ha htaken hne => ?_)
      exact hfirst a ((s.mem_shedOrder b a).1 ha) ((QueueAnswer.accepted_iff _).1 htaken) hne
    · refine State.shedNext_none (List.find?_eq_none.2 fun a ha htaken => hnone a ⟨?_, ?_⟩)
      · exact (s.mem_shedOrder b a).1 ha
      · exact (QueueAnswer.accepted_iff _).1 htaken
  · have hunchanged := State.restoreNext_of_unchanged (s := s) (b := b)
      (State.restoreTop_of_nil (by rw [s.stopRestoreTimer_unit b, ← hempty]))
    refine ⟨s.restoreNext b, exec_restoreTimerExpiry_of_due hdue, hunchanged.trans ?_⟩
    refine congrArg (fun x => { s with sheds := x }) (upd_congr ?_)
    simp only [hempty, ne_eq, not_true_eq_false, false_and, and_false, if_false]
  · obtain ⟨hframe, hmonitors⟩ := State.restoreNext_restacks hstack hb
    obtain ⟨hmeters, houtlets, hrelays, hlimits, htokens, hgroups, -⟩ := hframe.fields
    refine ⟨s.restoreNext b, exec_restoreTimerExpiry_of_due hdue, hmeters, houtlets, hrelays, hlimits, htokens, hgroups,
      hframe.others, hmonitors, fun hrefused => State.restoreNext_of_refused hstack ?_, fun hidle hrank hbusy => ?_⟩
    · refine hrefused.imp (fun hgroup => ?_) (QueueAnswer.not_accepted_iff _).2
      by_contra hfree
      obtain ⟨g, hg, hop⟩ := hgroup
      exact hop ((s.groupBusy_eq_false_iff o).1 (eq_false_of_ne_true hfree) g hg)
    · obtain ⟨hrest, hflight, htimer, -, hqueue, hentry, hreport⟩ := State.restoreNext_of_taken hstack hb
        ((s.groupBusy_eq_false_iff o).2 hidle) ((QueueAnswer.accepted_iff _).2 ⟨hrank, hbusy⟩)
      exact ⟨hrest, hflight, htimer, hqueue, hentry, hreport⟩

end Sys2Proof.Machine
end

