-- ==== Sys2Proof/Proofs/ShownModes.lean ====
section
/-! What the shown modes are read from (R80), and what computing them again leaves and brings about (R81). -/

namespace Sys2Proof.Machine

/-! ## What a mode is read from -/

/-- The mode of an outlet is read from its relay state, its shed mark, its forced indicator mode and whether its group has
an operation. -/
theorem State.modeOf_congr {s t : State} {o : Outlet} (hrelay : t.relays[o].state = s.relays[o].state)
    (hshed : t.isShed o = s.isShed o)
    (hentry : t.outletTable.active[o].indicator = s.outletTable.active[o].indicator)
    (hbusy : t.groupBusy o = s.groupBusy o) : t.modeOf o = s.modeOf o := by
  unfold State.modeOf State.blinks
  rw [hrelay, hshed, hentry, hbusy]

/-- `t` shows the same face as `s`: all that the modes are read from is as it was. -/
structure State.SameFace (s t : State) : Prop where
  relay : ∀ o : Outlet, t.relays[o].state = s.relays[o].state
  stack : ∀ b : Bank, t.sheds[b].stack = s.sheds[b].stack
  entries : t.outletTable.active = s.outletTable.active
  lists : t.groupTable.active = s.groupTable.active
  idle : ∀ g : Group, t.groups[g].op = .idle ↔ s.groups[g].op = .idle

theorem State.SameFace.refl (s : State) : s.SameFace s := ⟨fun _ => rfl, fun _ => rfl, rfl, rfl, fun _ => Iff.rfl⟩

theorem State.SameFace.trans {s t u : State} (h : s.SameFace t) (h' : t.SameFace u) : s.SameFace u :=
  ⟨fun o => (h'.relay o).trans (h.relay o), fun b => (h'.stack b).trans (h.stack b), h'.entries.trans h.entries,
    h'.lists.trans h.lists, fun g => (h'.idle g).trans (h.idle g)⟩

theorem State.SameFace.of_same {s t : State} (hr : t.relays = s.relays) (hs : t.sheds = s.sheds)
    (ho : t.outletTable = s.outletTable) (hg : t.groupTable = s.groupTable) (hp : t.groups = s.groups) :
    s.SameFace t := by
  refine ⟨fun o => ?_, fun b => ?_, ?_, ?_, fun g => ?_⟩
  · rw [hr]
  · rw [hs]
  · rw [ho]
  · rw [hg]
  · rw [hp]

theorem State.groupOf_congr {s t : State} (h : t.groupTable.active = s.groupTable.active) : t.groupOf = s.groupOf := by
  funext o
  unfold State.groupOf State.members
  rw [h]

theorem State.groupBusy_iff (s : State) (o : Outlet) :
    s.groupBusy o = true ↔ ∃ g : Group, s.groupOf o = some g ∧ s.groups[g].op ≠ .idle := by
  unfold State.groupBusy
  cases s.groupOf o with
  | none => simp
  | some g => simp

/-- Whether an outlet's group has an operation is read from the active lists and from the group's own operation. -/
theorem State.groupBusy_congr {s t : State} {o : Outlet} (hlists : t.groupOf o = s.groupOf o)
    (hidle : ∀ g : Group, s.groupOf o = some g → (t.groups[g].op = .idle ↔ s.groups[g].op = .idle)) :
    t.groupBusy o = s.groupBusy o := by
  rw [Bool.eq_iff_iff, State.groupBusy_iff, State.groupBusy_iff, hlists]
  exact exists_congr fun g => and_congr_right fun hg => not_congr (hidle g hg)

theorem State.SameFace.modeOf {s t : State} (h : s.SameFace t) : t.modeOf = s.modeOf := by
  funext o
  refine State.modeOf_congr (h.relay o) ?_ ?_ ?_
  · unfold State.isShed
    rw [h.stack]
  · rw [h.entries]
  · exact State.groupBusy_congr (congrFun (State.groupOf_congr h.lists) o) fun g _ => h.idle g

theorem State.SameFace.modesOf {s t : State} (h : s.SameFace t) : t.modesOf = s.modesOf := by
  funext b
  unfold State.modesOf
  rw [h.modeOf]

/-! ## Modes computed again -/

theorem State.modesOf_get (s : State) (b : Bank) (p : Position) : (s.modesOf b)[p] = s.modeOf (outletAt b p) :=
  ofFn_get (fun p => s.modeOf (outletAt b p)) p

theorem State.refreshModes_of_shown {s : State} {b : Bank} (h : s.modesOf b = s.shown[b]) : s.refreshModes b = s :=
  if_pos h

/-- A change is shown, and sent on an UP lane. -/
theorem State.refreshModes_of_changed {s : State} {b : Bank} (h : s.modesOf b ≠ s.shown[b]) : s.refreshModes b = { s with
    shown := upd s.shown b fun _ => s.modesOf b
    lanes := upd s.lanes b fun l => { l with indicator := if l.link = .up then some (s.modesOf b) else l.indicator } } := by
  unfold State.refreshModes
  rw [if_neg h]
  have hshown : (upd s.shown b fun _ => s.modesOf b)[b] = s.modesOf b := upd_get_self s.shown b _
  by_cases hup : s.lanes[b].link = .up
  · rw [State.placeIndicate_eq_of_up (by exact hup)]
    refine congrArg (fun v => { s with shown := upd s.shown b fun _ => s.modesOf b, lanes := v }) (upd_congr ?_)
    rw [if_pos hup, hshown]
  · rw [State.placeIndicate_eq_of_not_up (by exact hup)]
    have hsame : upd s.lanes b (fun l =>
        { l with indicator := if l.link = .up then some (s.modesOf b) else l.indicator }) = s.lanes :=
      (upd_congr (by rw [if_neg hup])).trans (upd_id s.lanes b)
    rw [hsame]

/-- Computing modes again changes nothing that they are read from. -/
theorem State.refreshModes_sameFace (s : State) (b : Bank) : s.SameFace (s.refreshModes b) := by
  rw [State.refreshModes_changes]
  exact .of_same rfl rfl rfl rfl rfl

theorem State.refreshModes_shown (s : State) (b c : Bank) :
    (s.refreshModes b).shown[c] = if c = b then s.modesOf b else s.shown[c] := by
  by_cases h : s.modesOf b = s.shown[b]
  · rw [State.refreshModes_of_shown h]
    split
    · rename_i hc; rw [hc, h]
    · rfl
  · rw [State.refreshModes_of_changed h]
    dsimp only
    rw [upd_get]
    exact if_congr eq_comm rfl rfl

/-! ## Banks that show their modes -/

/-- Bank `b` shows the modes that its outlets are to show. -/
def State.ShowsModes (s : State) (b : Bank) : Prop := s.shown[b] = s.modesOf b

theorem State.showsModes_iff (s : State) (b : Bank) :
    s.ShowsModes b ↔ ∀ p : Position, s.shown[b][p] = s.modeOf (outletAt b p) := by
  refine ⟨fun h p => ?_, fun h => Vector.ext fun i hi => ?_⟩
  · rw [h, State.modesOf_get]
  · exact (h ⟨i, hi⟩).trans (s.modesOf_get b ⟨i, hi⟩).symm

theorem State.modesKept_iff (s : State) : s.ModesKept ↔ ∀ b : Bank, s.ShowsModes b :=
  forall_congr' fun b => (s.showsModes_iff b).symm

theorem State.ShowsModes.congr {s t : State} {b : Bank} (h : s.ShowsModes b) (hs : t.shown[b] = s.shown[b])
    (hm : ∀ o : Outlet, bankOf o = b → t.modeOf o = s.modeOf o) : t.ShowsModes b := by
  rw [State.showsModes_iff] at h ⊢
  intro p
  rw [hs, h p, hm _ (bankOf_outletAt b p)]

theorem State.SameFace.showsModes {s t : State} (h : s.SameFace t) (hs : t.shown = s.shown) {b : Bank}
    (hb : s.ShowsModes b) : t.ShowsModes b :=
  hb.congr (by rw [hs]) fun o _ => by rw [h.modeOf]

theorem State.SameFace.modesKept {s t : State} (h : s.SameFace t) (hs : t.shown = s.shown) (hk : s.ModesKept) :
    t.ModesKept := by
  rw [State.modesKept_iff] at hk ⊢
  exact fun b => h.showsModes hs (hk b)

/-- A bank whose modes have been computed again shows them, and the others show theirs if they did before. -/
theorem State.refreshModes_showsModes (s : State) (b c : Bank) :
    (s.refreshModes b).ShowsModes c ↔ c = b ∨ s.ShowsModes c := by
  unfold State.ShowsModes
  rw [State.refreshModes_shown, (s.refreshModes_sameFace b).modesOf]
  by_cases h : c = b
  · subst h; simp
  · simp [h]

theorem State.refreshModesOf_sameFace (s : State) (os : List Outlet) : s.SameFace (s.refreshModesOf os) := by
  rw [State.refreshModesOf_changes]
  exact .of_same rfl rfl rfl rfl rfl

theorem State.refreshModesOf_showsModes (s : State) (os : List Outlet) (c : Bank) :
    (s.refreshModesOf os).ShowsModes c ↔ (∃ o ∈ os, bankOf o = c) ∨ s.ShowsModes c := by
  have hfold : ∀ (bs : List Bank) (s : State),
      (bs.foldl (fun s b => if os.any (fun o => bankOf o == b) then s.refreshModes b else s) s).ShowsModes c
        ↔ (c ∈ bs ∧ ∃ o ∈ os, bankOf o = c) ∨ s.ShowsModes c := by
    intro bs
    induction bs with
    | nil => simp
    | cons b bs ih =>
      intro s
      rw [List.foldl_cons, ih]
      by_cases hany : os.any (fun o => bankOf o == b) = true
      · rw [if_pos hany, State.refreshModes_showsModes]
        have hex : ∃ o ∈ os, bankOf o = b := by simpa using hany
        rw [List.mem_cons]
        constructor
        · rintro (⟨hc, h⟩ | rfl | h)
          · exact .inl ⟨.inr hc, h⟩
          · exact .inl ⟨.inl rfl, hex⟩
          · exact .inr h
        · rintro (⟨rfl | hc, h⟩ | h)
          · exact .inr (.inl rfl)
          · exact .inl ⟨hc, h⟩
          · exact .inr (.inr h)
      · rw [if_neg hany]
        have hno : ¬ ∃ o ∈ os, bankOf o = b := by simpa using hany
        rw [List.mem_cons]
        refine or_congr_left (and_congr_left fun h => ⟨.inr, ?_⟩)
        rintro (rfl | hc)
        · exact absurd h hno
        · exact hc
  exact (hfold allBanks s).trans (or_congr_left (and_iff_right (List.mem_finRange c)))

/-- Once the modes of every bank that does not show them have been computed again, all do. -/
theorem State.refreshModesOf_modesKept {s : State} {os : List Outlet}
    (h : ∀ b : Bank, (∀ o ∈ os, bankOf o ≠ b) → s.ShowsModes b) : (s.refreshModesOf os).ModesKept := by
  rw [State.modesKept_iff]
  intro b
  rw [State.refreshModesOf_showsModes]
  by_cases hb : ∃ o ∈ os, bankOf o = b
  · exact .inl hb
  · exact .inr (h b fun o ho he => hb ⟨o, ho, he⟩)

theorem State.refreshModes_modesKept {s : State} {b : Bank} (h : ∀ c : Bank, c ≠ b → s.ShowsModes c) :
    (s.refreshModes b).ModesKept := by
  rw [State.modesKept_iff]
  intro c
  rw [State.refreshModes_showsModes]
  exact (em (c = b)).imp_right (h c)

/-! ## Measures -/

/-- What the switching side leaves alone is all that a claim calls the measures. -/
theorem State.sameMeasures_of_quiet {s t : State} (h : t.quiet = s.quiet) : s.sameMeasures t := by
  obtain ⟨hpending, huptime, hsub, -, hpin, hhold, hmeters, houtlets, hinterval, houtletLimits, hbankLimits,
    hphaseLimits, hlost, helements, -, -, -, hbank, hphase, hcal, hgrant, hsystem, hlock, hcapture, -⟩ :=
    State.quiet_fields h
  refine ⟨hpending, huptime, hsub, hpin, hhold, hmeters, houtlets, hinterval, houtletLimits, hbankLimits, hphaseLimits,
    hlost, helements, hcapture, hbank, hphase, hcal, hgrant, hsystem, hlock, fun b => ?_⟩
  have hlane := State.quiet_lane h b
  simp only [Lane.quiet, Lane.mk.injEq] at hlane
  simp_all

end Sys2Proof.Machine
end

