-- ==== Sys2Proof/Proofs/Switch.lean ====
section
/-! SWITCH (R82): the tests, the request to the queue, and the shed mark that an accepted ON takes off (R61, R86). -/

namespace Sys2Proof.Machine

/-! ## The request -/

/-- A request changes the queue, and with REPLACED the shed unit of the outlet's bank (R86). -/
theorem State.request_eq (s : State) (o : Outlet) (a : Action) (r : Origin) :
    (s.request o a r).2 = { s with
      queue := (s.request o a r).2.queue
      sheds := if (s.request o a r).1 = .replaced then
          upd s.sheds (bankOf o) fun d => s.timedShed (bankOf o) (d.landed o) else s.sheds } := by
  cases he : s.entryOf o with
  | none => rw [State.request_of_noEntry a r he]; rfl
  | some e =>
    cases hst : e.state with
    | issued t => rw [State.request_of_issued a r he hst]; rfl
    | waiting =>
      by_cases ha : e.action = a
      · rw [State.request_of_sameAction r he hst ha]; rfl
      · by_cases hr : e.origin.rank < r.rank
        · rw [State.request_of_higherRank he hst ha hr]; rfl
        · rw [State.request_of_replaced he hst ha (Nat.not_lt.1 hr), State.endFlights_eq_landed]; rfl

/-- The taking of a command's cell does not concern the queue. -/
theorem State.request_taken (s : State) (o : Outlet) (a : Action) (r : Origin) :
    s.taken.request o a r = ((s.request o a r).1, (s.request o a r).2.taken) := by
  have hentry : s.taken.entryOf o = s.entryOf o := rfl
  cases he : s.entryOf o with
  | none => rw [State.request_of_noEntry a r he, State.request_of_noEntry a r (hentry.trans he)]; rfl
  | some e =>
    cases hst : e.state with
    | issued t => rw [State.request_of_issued a r he hst, State.request_of_issued a r (hentry.trans he) hst]
    | waiting =>
      by_cases ha : e.action = a
      · rw [State.request_of_sameAction r he hst ha, State.request_of_sameAction r (hentry.trans he) hst ha]
      · by_cases hr : e.origin.rank < r.rank
        · rw [State.request_of_higherRank he hst ha hr, State.request_of_higherRank (hentry.trans he) hst ha hr]
        · rw [State.request_of_replaced he hst ha (Nat.not_lt.1 hr),
            State.request_of_replaced (hentry.trans he) hst ha (Nat.not_lt.1 hr)]
          rfl

/-! ## The shed mark -/

/-- Modes are read from stacks, not from the timers and flights of the shed units. -/
theorem State.refreshModes_withSheds {s : State} {v : Vector ShedUnit 6}
    (h : ∀ b : Bank, v[b].stack = s.sheds[b].stack) (b : Bank) :
    ({ s with sheds := v } : State).refreshModes b = { s.refreshModes b with sheds := v } := by
  have hmodes : ({ s with sheds := v } : State).modesOf = s.modesOf :=
    State.SameFace.modesOf ⟨fun _ => rfl, h, rfl, rfl, fun _ => Iff.rfl⟩
  have hb := congrFun hmodes b
  by_cases hsame : s.modesOf b = s.shown[b]
  · rw [State.refreshModes_of_shown hsame, State.refreshModes_of_shown (hb.trans hsame)]
  · rw [State.refreshModes_of_changed hsame, State.refreshModes_of_changed (by rw [hb]; exact hsame), hb]

/-- An outlet that leaves its stack has the unit's timers follow, and the shown modes; no monitor is told (R59, R61). -/
theorem State.unshed_of_shed {s : State} {o : Outlet} (h : o ∈ s.sheds[bankOf o].stack) :
    s.unshed o = State.refreshModes { s with
      sheds := upd s.sheds (bankOf o) fun d =>
        s.timedShed (bankOf o) { d with stack := d.stack.filter (· ≠ o) } } (bankOf o) := by
  have hunshed : s.unshed o = s.setStack o fun st => st.filter (· != o) := if_pos ((s.isShed_iff o).2 h)
  have hfilter : (fun st : List Outlet => st.filter (· != o)) = fun st => st.filter (· ≠ o) :=
    funext fun st => List.filter_congr fun x _ => by by_cases e : x = o <;> simp [e]
  have hmonitors : (s.unshed o).monitors = s.monitors := by rw [(s.unshed_changes o).1]
  obtain ⟨hset, -⟩ := s.setStack_eq o fun st => st.filter (· != o)
  generalize hx : (s.onShed (bankOf o) fun d => { d with stack := d.stack.filter (· ≠ o) }) = x
  generalize hv : (upd s.sheds (bankOf o) fun d =>
    s.timedShed (bankOf o) { d with stack := d.stack.filter (· ≠ o) }) = v
  have hvx : ∀ b : Bank, v[b].stack = x.sheds[b].stack := fun b => by
    rw [← hv, ← hx]
    show _ = (upd s.sheds _ _)[b].stack
    rw [upd_get, upd_get]
    split <;> rfl
  have hbase : ({ s with sheds := v } : State) = { x with sheds := v } := by rw [← hx]; rfl
  rw [hbase, State.refreshModes_withSheds hvx]
  have hparts : (s.setStack o fun st => st.filter (· != o)).lanes = (x.refreshModes (bankOf o)).lanes
      ∧ (s.setStack o fun st => st.filter (· != o)).shown = (x.refreshModes (bankOf o)).shown := by
    have hdef : (s.setStack o fun st => st.filter (· != o))
        = ((x.refreshModes (bankOf o)).notePowerOf s o).refreshSheds (bankOf o) := by rw [hfilter, ← hx]; rfl
    rw [hdef, ((x.refreshModes (bankOf o)).notePowerOf_eq s o).1]
    exact ⟨rfl, rfl⟩
  rw [hunshed] at hmonitors ⊢
  rw [hset, hmonitors, hparts.1, hparts.2, State.refreshModes_changes x (bankOf o), ← hv, ← hx]
  simp only [← hfilter]
  rfl

theorem State.unshed_of_unshed {s : State} {o : Outlet} (h : o ∉ s.sheds[bankOf o].stack) : s.unshed o = s :=
  if_neg fun hshed => h ((s.isShed_iff o).1 hshed)

/-! ## SWITCH once its tests are passed -/

/-- What SWITCH makes of the state: the queue takes the request, and an accepted ON takes the outlet off its stack. -/
def State.switched (s : State) (o : Outlet) (a : Action) : State :=
  if (s.request o a .manual).1.accepted && a == .close then (s.request o a .manual).2.unshed o
  else (s.request o a .manual).2

section
variable {s : State} {o : Outlet} {a : Action}

theorem State.switched_of_refused
    (h : (s.request o a .manual).1 = .refusedRank ∨ (s.request o a .manual).1 = .refusedBusy) : s.switched o a = s := by
  have hrefused := (QueueAnswer.not_accepted_iff _).2 h
  unfold State.switched
  rw [hrefused, Bool.false_and, if_neg Bool.false_ne_true]
  exact State.request_of_not_accepted hrefused

theorem State.switched_of_unshed (h : a = .opens ∨ o ∉ s.sheds[bankOf o].stack) :
    s.switched o a = (s.request o a .manual).2 := by
  have hstack := (State.stacks_get (s.request_stacks o a .manual) (bankOf o)).1
  unfold State.switched
  split
  · rename_i htaken
    rw [Bool.and_eq_true, beq_iff_eq] at htaken
    refine State.unshed_of_unshed ?_
    rw [hstack]
    exact h.resolve_left fun hopens => by rw [htaken.2] at hopens; cases hopens
  · rfl

theorem State.switched_of_shed (ha : a = .close) (h : o ∈ s.sheds[bankOf o].stack)
    (htaken : (s.request o a .manual).1.accepted = true) :
    s.switched o a = State.refreshModes { s with
      queue := (s.request o a .manual).2.queue
      sheds := upd (s.request o a .manual).2.sheds (bankOf o) fun d =>
        s.timedShed (bankOf o) { d with stack := d.stack.filter (· ≠ o) } } (bankOf o) := by
  have hstack := (State.stacks_get (s.request_stacks o a .manual) (bankOf o)).1
  have hchanges := s.request_changes o a .manual
  unfold State.switched
  rw [htaken, ha, beq_self_eq_true, Bool.and_true, if_pos rfl, ← ha]
  generalize (s.request o a .manual).2 = u at *
  rw [State.unshed_of_shed (hstack ▸ h)]
  generalize u.queue = q, u.sheds = v at *
  rw [hchanges]
  rfl

end

/-- SWITCH changes the queue, shed units, shown modes and indicator slots. -/
theorem State.switched_changes (s : State) (o : Outlet) (a : Action) :
    s.switched o a = { s with
      queue := (s.request o a .manual).2.queue, sheds := (s.switched o a).sheds
      lanes := (s.switched o a).lanes, shown := (s.switched o a).shown } := by
  have hrequest := s.request_changes o a .manual
  obtain ⟨hunshed, -⟩ := (s.request o a .manual).2.unshed_changes o
  unfold State.switched
  split
  · generalize (s.request o a .manual).2.unshed o = t at hunshed ⊢
    generalize (s.request o a .manual).2 = u at *
    generalize t.sheds = x1, t.lanes = x2, t.shown = x3 at hunshed ⊢
    rw [hunshed]
    generalize u.queue = x4, u.sheds = x5 at hrequest ⊢
    rw [hrequest]
  · generalize (s.request o a .manual).2 = u at *
    generalize u.queue = x4, u.sheds = x5 at hrequest ⊢
    rw [hrequest]

theorem State.switched_fields (s : State) (o : Outlet) (a : Action) :
    (s.switched o a).link0 = s.link0 ∧ (s.switched o a).queue = (s.request o a .manual).2.queue
    ∧ (s.switched o a).relays = s.relays ∧ (s.switched o a).groups = s.groups ∧ (s.switched o a).tokens = s.tokens
    ∧ (s.switched o a).refill = s.refill ∧ (s.switched o a).turnOn = s.turnOn ∧ (s.switched o a).settle = s.settle
    ∧ (s.switched o a).safe = s.safe ∧ (s.switched o a).outletTable = s.outletTable
    ∧ (s.switched o a).groupTable = s.groupTable := by
  have hchanges := s.switched_changes o a
  generalize s.switched o a = t at hchanges ⊢
  rw [hchanges]
  exact ⟨rfl, rfl, rfl, rfl, rfl, rfl, rfl, rfl, rfl, rfl, rfl⟩

@[simp] theorem State.switched_quiet (s : State) (o : Outlet) (a : Action) : (s.switched o a).quiet = s.quiet := by
  unfold State.switched
  split <;> simp

/-- Whatever the queue answers, an OPEN leaves the stacks, and so does a refused request. -/
theorem State.switched_stack_of_kept {s : State} {o : Outlet} {a : Action}
    (h : a = .opens ∨ (s.request o a .manual).1.accepted = false) (b : Bank) :
    (s.switched o a).sheds[b].stack = s.sheds[b].stack := by
  have hsame : s.switched o a = (s.request o a .manual).2 := by
    refine h.elim (fun ha => State.switched_of_unshed (.inl ha)) fun hrefused => ?_
    rw [State.switched_of_refused ((QueueAnswer.not_accepted_iff _).1 hrefused)]
    exact (State.request_of_not_accepted hrefused).symm
  rw [hsame]
  exact (State.stacks_get (s.request_stacks o a .manual) b).1

/-- An accepted ON leaves the outlet on no stack. -/
theorem State.switched_not_shed {s : State} {o : Outlet} {a : Action} (ha : a = .close)
    (htaken : (s.request o a .manual).1.accepted = true) : o ∉ (s.switched o a).sheds[bankOf o].stack := by
  obtain ⟨-, hunshed⟩ := (s.request o a .manual).2.unshed_changes o
  unfold State.switched
  rw [htaken, ha, beq_self_eq_true, Bool.and_true, if_pos rfl, ← ha, (hunshed (bankOf o)).2]
  simp

/-! ## The tests of SWITCH -/

theorem directionOf_eq_none {n : Nat} (h : 1 < n) : directionOf n = none := by
  match n, h with
  | n + 2, _ => rfl

theorem directionOf_of_le {n : Nat} (h : n ≤ 1) : directionOf n = some (if n = 1 then .close else .opens) := by
  match n, h with
  | 0, _ => rfl
  | 1, _ => rfl

/-- The status of a queue answer is never BAD_ARG, so that SWITCH answers with no fields. -/
theorem State.reply_status (s : State) (q : QueueAnswer) :
    s.reply q.status = { answer := some (q.status, .empty), state := s } := by
  cases q <;> rfl

section
variable {s : State} {o : Outlet} {a : Action}

theorem State.switchOutlet_of_safe (h : s.safe.cause ≠ none) : s.switchOutlet o a = s.reply .safe :=
  if_pos (Option.isSome_iff_ne_none.2 h)

theorem State.switchOutlet_of_down (hsafe : s.safe.cause = none) (h : s.lanes[bankOf o].link ≠ .up) :
    s.switchOutlet o a = s.reply .bankDown := by
  have hlink : (s.lanes[bankOf o].link == .up) = false := beq_eq_false_iff_ne.2 h
  unfold State.switchOutlet State.inSafe State.isUp
  rw [hsafe, hlink]
  rfl

theorem State.switchOutlet_of_busy (hsafe : s.safe.cause = none) (hup : s.lanes[bankOf o].link = .up)
    (h : ∃ g : Group, s.groupOf o = some g ∧ s.groups[g].op ≠ .idle) : s.switchOutlet o a = s.reply .busy := by
  unfold State.switchOutlet State.inSafe State.isUp
  rw [hsafe, hup, (s.groupBusy_iff o).2 h]
  rfl

theorem State.switchOutlet_of_free (hsafe : s.safe.cause = none) (hup : s.lanes[bankOf o].link = .up)
    (h : ¬ ∃ g : Group, s.groupOf o = some g ∧ s.groups[g].op ≠ .idle) : s.switchOutlet o a =
      { answer := some ((s.request o a .manual).1.status, .empty), state := s.switched o a } := by
  rw [← State.reply_status]
  unfold State.switchOutlet State.inSafe State.isUp
  rw [hsafe, hup, eq_false_of_ne_true fun hb => h ((s.groupBusy_iff o).1 hb)]
  rfl

end

/-- SWITCH with an outlet number and a direction runs the outlet's SWITCH. -/
theorem exec_switch_of_args {tag n d : Byte} {s u : State} {o : Outlet} {st : Status}
    (h : s.ready 0x06 tag [n, d]) (hn : n.toNat = o.val + 1) (hd : d.toNat ≤ 1)
    (hrun : s.taken.switchOutlet o (if d.toNat = 1 then .close else .opens) = { answer := some (st, .empty), state := u }) :
    exec (.switch tag [n, d]) s = .next (u.answered 0x06 tag st .empty) := by
  refine State.take_answered h rfl ?_
  rw [indexed_eq_some (show arg [n, d] 0 = o.val + 1 from hn),
    show directionOf (arg [n, d] 1) = _ from directionOf_of_le hd]
  exact hrun

theorem exec_switch_of_badArgs {tag n d : Byte} {s : State} (h : s.ready 0x06 tag [n, d])
    (hbad : n.toNat = 0 ∨ 48 < n.toNat ∨ 1 < d.toNat) :
    exec (.switch tag [n, d]) s = .next (s.taken.answered 0x06 tag .badArg (.offending none)) := by
  refine State.take_answered h rfl ?_
  cases hi : indexed 48 (arg [n, d] 0) with
  | none => rfl
  | some o =>
    have hn : n.toNat = o.val + 1 := indexed_eq_some_iff.1 hi
    have ho := o.isLt
    have hd : 1 < d.toNat := by omega
    rw [show directionOf (arg [n, d] 1) = _ from directionOf_eq_none hd]
    rfl

theorem QueueAnswer.status_eq (q : QueueAnswer) :
    q.status = match q with | .queued => .ok | .replaced => .ok | .merged => .merged | _ => .busy := by
  cases q <;> rfl

theorem QueueAnswer.accepted_of_status {q : QueueAnswer} (h : q.status = .ok ∨ q.status = .merged) :
    q.accepted = true := by
  cases q <;> simp_all [QueueAnswer.status, QueueAnswer.accepted]

theorem QueueAnswer.not_accepted_of_status {q : QueueAnswer} (h : q.status = .busy) : q.accepted = false := by
  cases q <;> simp_all [QueueAnswer.status, QueueAnswer.accepted]

/-- Settles O25: the tests in their order, and then the queue's answer; an accepted ON of a shed outlet alone does more
than the queue. -/
theorem switchIsTestedAndQueued : Obligations.SwitchIsTestedAndQueued := by
  intro tag n d s hready
  refine ⟨exec_switch_of_badArgs hready, fun o hn hd => ?_⟩
  generalize ha : (if d.toNat = 1 then Action.close else Action.opens) = a
  have hexec := fun {u : State} {st : Status} => exec_switch_of_args (u := u) (st := st) hready hn hd
  rw [ha] at hexec
  refine ⟨fun hsafe => hexec (State.switchOutlet_of_safe hsafe),
    fun hsafe hdown => hexec (State.switchOutlet_of_down hsafe hdown),
    fun hsafe hup hbusy => hexec (State.switchOutlet_of_busy hsafe hup hbusy), fun hsafe hup hfree => ?_⟩
  have hrun := hexec (State.switchOutlet_of_free (s := s.taken) (a := a) hsafe hup hfree)
  have hanswer : (s.taken.request o a .manual).1 = (s.request o a .manual).1 := by rw [s.request_taken]
  have hafter : (s.taken.request o a .manual).2 = (s.request o a .manual).2.taken := by rw [s.request_taken]
  have hmeasures : s.taken.sameMeasures (s.taken.switched o a) := State.sameMeasures_of_quiet (by simp)
  have hsheds : (s.request o a .manual).2.sheds = if (s.request o a .manual).1 = .replaced then
      upd s.sheds (bankOf o) fun d => s.timedShed (bankOf o) (d.landed o) else s.sheds :=
    congrArg State.sheds (s.request_eq o a .manual)
  have hfields := s.taken.switched_fields o a
  have hkept := fun h b => State.switched_stack_of_kept (s := s.taken) (o := o) (a := a) h b
  have hoff := fun hclose h => State.switched_not_shed (s := s.taken) (o := o) (a := a) hclose h
  have hrefused := State.switched_of_refused (s := s.taken) (o := o) (a := a)
  have hplain := State.switched_of_unshed (s := s.taken) (o := o) (a := a)
  have hshed := State.switched_of_shed (s := s.taken) (o := o) (a := a)
  rw [hanswer] at hrun hkept hoff hrefused hshed
  rw [hafter] at hfields hplain hshed
  generalize s.taken.switched o a = t at *
  obtain ⟨hlink0, hqueue, hrelays, hgroups, htokens, hrefill, hturnOn, hsettle, hsafe', houtlets, hgroupTable⟩ := hfields
  refine ⟨_, _, hrun, ⟨?_, ?_⟩, QueueAnswer.status_eq _, hqueue, hmeasures, hrelays, hgroups, htokens, hrefill, hturnOn,
    hsettle, hsafe', houtlets, hgroupTable, fun hclose hst => hoff hclose (QueueAnswer.accepted_of_status hst),
    fun hst => hkept (hst.imp_right QueueAnswer.not_accepted_of_status), fun hno => ?_,
    fun hrank hbusy => ⟨fun hun => ?_, fun hclose hstack => ?_⟩⟩
  · exact congrArg Link0.fifo hlink0
  · exact congrArg (·.filled ++ _) hlink0
  · rw [hrefused hno]
    obtain hno | hno := hno <;> rw [hno] <;> rfl
  · rw [hplain hun, ← hsheds, s.request_changes o a .manual]
    rfl
  · rw [hshed hclose hstack ((QueueAnswer.accepted_iff _).2 ⟨hrank, hbusy⟩), ← hsheds]
    rfl

end Sys2Proof.Machine
end

