-- ==== Sys2Proof/Proofs/ModesFollow.lean ====
section
/-! The shown modes follow what the queue, the group engine and completions do (R80, R81): an operation that begins or ends,
or a group entry that applies, has the modes of its members' banks computed again. -/

namespace Sys2Proof.Machine

/-! ## The relation -/

/-- `t` comes from `s` by acts after which the shown modes are again those to be shown, and which leave the outlet
table. -/
structure State.Follows (s t : State) : Prop where
  entries : t.outletTable = s.outletTable
  modes : s.ModesKept → t.ModesKept

theorem State.Follows.refl (s : State) : s.Follows s := ⟨rfl, id⟩

theorem State.Follows.trans {s t u : State} (h : s.Follows t) (h' : t.Follows u) : s.Follows u :=
  ⟨h'.entries.trans h.entries, h'.modes ∘ h.modes⟩

theorem State.foldl_follows {α : Type} (f : State → α → State) (h : ∀ (s : State) (a : α), s.Follows (f s a))
    (l : List α) (s : State) : s.Follows (l.foldl f s) :=
  List.foldlRecOn (motive := s.Follows) l f (.refl s) fun _ ht a _ => ht.trans (h _ a)

theorem State.Follows.of_face {s t : State} (h : s.SameFace t) (hs : t.shown = s.shown)
    (he : t.outletTable = s.outletTable) : s.Follows t := ⟨he, h.modesKept hs⟩

/-- A change of nothing that modes are read from. -/
theorem State.Follows.of_same {s t : State} (hr : t.relays = s.relays) (hv : t.shown = s.shown) (hs : t.sheds = s.sheds)
    (ho : t.outletTable = s.outletTable) (hg : t.groupTable = s.groupTable) (hp : t.groups = s.groups) :
    s.Follows t := .of_face (.of_same hr hs ho hg hp) hv ho

/-! ## Events, monitors, modes -/

theorem State.raiseEvent_follows (s : State) (e : Event) : s.Follows (s.raiseEvent e) := .of_same rfl rfl rfl rfl rfl rfl

theorem State.raise_follows (s : State) (k : EventKind) (n : Nat) (d : Detail) : s.Follows (s.raise k n d) :=
  s.raiseEvent_follows _

theorem State.raiseApplied_follows (s : State) (t : TableId) (n : Nat) : s.Follows (s.raiseApplied t n) :=
  s.raise_follows _ _ _

theorem State.notePowerOf_follows (s before : State) (o : Outlet) : s.Follows (s.notePowerOf before o) := by
  rw [(s.notePowerOf_eq before o).1]
  exact .of_same rfl rfl rfl rfl rfl rfl

/-! ## Shed units and the switching queue -/

theorem State.Follows.of_stacks {s t : State} (hs : t.stacks = s.stacks) (hr : t.relays = s.relays)
    (hv : t.shown = s.shown) (ho : t.outletTable = s.outletTable) (hg : t.groupTable = s.groupTable)
    (hp : t.groups = s.groups) : s.Follows t := by
  refine .of_face ⟨fun o => ?_, fun b => (State.stacks_get hs b).1, ?_, ?_, fun g => ?_⟩ hv ho
  · rw [hr]
  · rw [ho]
  · rw [hg]
  · rw [hp]

theorem State.endFlights_follows (s : State) (o : Outlet) : s.Follows (s.endFlights o) :=
  .of_stacks (s.endFlights_stacks o) rfl rfl rfl rfl rfl

theorem State.refreshSheds_follows (s : State) (b : Bank) : s.Follows (s.refreshSheds b) :=
  .of_stacks (s.refreshSheds_stacks b) rfl rfl rfl rfl rfl

theorem State.request_follows (s : State) (o : Outlet) (a : Action) (r : Origin) : s.Follows (s.request o a r).2 := by
  have hchanges := s.request_changes o a r
  have hstacks := s.request_stacks o a r
  generalize (s.request o a r).2 = t at *
  generalize t.queue = q, t.sheds = v at hchanges
  subst hchanges
  exact .of_stacks hstacks rfl rfl rfl rfl rfl

theorem State.withdraw_follows (s : State) (p : QueueEntry → Bool) : s.Follows (s.withdraw p) := by
  have hqueue : ∀ q : List QueueEntry, s.Follows { s with queue := q } := fun _ => .of_same rfl rfl rfl rfl rfl rfl
  exact (hqueue _).trans (State.foldl_follows _ (fun s (e : QueueEntry) => s.endFlights_follows e.outlet) _ _)

/-! ## Group operations that go on -/

/-- A group's operation changes, but neither begins nor ends. -/
theorem State.onGroup_follows {s : State} {g : Group} {f : GroupOp → GroupOp}
    (hf : (f s.groups[g]).op = .idle ↔ s.groups[g].op = .idle) : s.Follows (s.onGroup g f) := by
  refine .of_face ⟨fun _ => rfl, fun _ => rfl, rfl, rfl, fun k => ?_⟩ rfl rfl
  show (upd s.groups g f)[k].op = .idle ↔ _
  rw [upd_get]
  split
  · rename_i e
    subst e
    exact hf
  · exact Iff.rfl

/-- An operation in progress goes on in another operation state. -/
theorem State.onGroup_follows_of_busy {s : State} {g : Group} {f : GroupOp → GroupOp} (hg : s.groups[g].op ≠ .idle)
    (hf : (f s.groups[g]).op ≠ .idle) : s.Follows (s.onGroup g f) :=
  State.onGroup_follows (iff_of_false hf hg)

theorem State.onGroup_get_self (s : State) (g : Group) (f : GroupOp → GroupOp) :
    (s.onGroup g f).groups[g] = f s.groups[g] := upd_get_self s.groups g f

theorem State.onGroup_get_ne (s : State) {g k : Group} (h : k ≠ g) (f : GroupOp → GroupOp) :
    (s.onGroup g f).groups[k] = s.groups[k] := upd_get_ne s.groups (Ne.symm h) f

theorem State.mark_follows (s : State) (g : Group) (o : Outlet) (p : Progress) : s.Follows (s.mark g o p) :=
  State.onGroup_follows Iff.rfl

theorem State.await_follows (s : State) (g : Group) (o : Outlet) : s.Follows (s.await g o) := by
  unfold State.await
  exact (State.onGroup_follows (by exact Iff.rfl)).trans (State.mark_follows _ g o _)

theorem State.addFaulted_follows (s : State) (g : Group) (o : Outlet) : s.Follows (s.addFaulted g o) := by
  unfold State.addFaulted
  exact (State.onGroup_follows (by exact Iff.rfl)).trans (State.mark_follows _ g o _)

theorem State.withdrawAwaited_follows (s : State) (g : Group) : s.Follows (s.withdrawAwaited g) :=
  (s.withdraw_follows _).trans (State.onGroup_follows Iff.rfl)

theorem State.requestOpen_follows (s : State) (g : Group) (o : Outlet) : s.Follows (s.requestOpen g o) :=
  (s.request_follows o _ _).trans (State.await_follows _ g o)

/-- These leave the operation state of a group. -/
theorem State.request_groups (s : State) (o : Outlet) (a : Action) (r : Origin) :
    (s.request o a r).2.groups = s.groups := by rw [State.request_changes]

theorem State.mark_op (s : State) (g k : Group) (o : Outlet) (p : Progress) :
    (s.mark g o p).groups[k].op = s.groups[k].op := by
  show (upd s.groups g _)[k].op = _
  rw [upd_get]
  split
  · rename_i e; subst e; rfl
  · rfl

theorem State.requestOpen_op (s : State) (g k : Group) (o : Outlet) :
    (s.requestOpen g o).groups[k].op = s.groups[k].op := by
  unfold State.requestOpen State.await
  rw [State.mark_op]
  show (upd (s.request o .opens (.group g)).2.groups g _)[k].op = _
  rw [State.request_groups, upd_get]
  split
  · rename_i e; subst e; rfl
  · rfl

theorem State.addFaulted_op (s : State) (g k : Group) (o : Outlet) :
    (s.addFaulted g o).groups[k].op = s.groups[k].op := by
  unfold State.addFaulted
  rw [State.mark_op]
  show (upd s.groups g _)[k].op = _
  rw [upd_get]
  split
  · rename_i e; subst e; rfl
  · rfl

/-! ## The start and the end of an operation -/

theorem State.mem_members_of_groupOf {s : State} {o : Outlet} {g : Group} (h : s.groupOf o = some g) : o ∈ s.members g := by
  simpa using List.find?_some h

/-- When the operation of `g` alone begins or ends, computing again the modes of its members' banks is enough. -/
theorem State.regrouped_modesKept {s t : State} {g : Group} (h : s.ModesKept) (hr : t.relays = s.relays)
    (hv : t.shown = s.shown) (hs : t.sheds = s.sheds) (ho : t.outletTable = s.outletTable)
    (hg : t.groupTable = s.groupTable) (hp : ∀ k : Group, k ≠ g → t.groups[k] = s.groups[k]) :
    (t.refreshModesOf (s.members g)).ModesKept := by
  have hgroupOf : t.groupOf = s.groupOf := State.groupOf_congr (by rw [hg])
  refine State.refreshModesOf_modesKept fun b hb => (s.modesKept_iff.1 h b).congr (by rw [hv]) fun o hob => ?_
  refine State.modeOf_congr (by rw [hr]) (by unfold State.isShed; rw [hs]) (by rw [ho])
    (State.groupBusy_congr (congrFun hgroupOf o) fun k hk => ?_)
  rw [hp k fun e => hb o (State.mem_members_of_groupOf (e ▸ hk)) hob]

theorem State.startOp_follows (s : State) (g : Group) (x : OpState) (k : OpKind) (c : OpCause) :
    s.Follows (s.startOp g x k c) := by
  refine ⟨by rw [State.startOp_changes], fun h => ?_⟩
  unfold State.startOp
  refine State.regrouped_modesKept h rfl rfl rfl rfl rfl fun j hj => ?_
  exact s.onGroup_get_ne hj _

/-! ## Group entries that apply (R152) -/

/-- A group that is told of its entry keeps its operation; the modes of the old and the new members' banks are computed
again. -/
theorem State.groupApplied_eq (before s : State) (g : Group) :
    ∃ u : State, s.SameFace u ∧ u.shown = s.shown ∧ u.outletTable = s.outletTable
      ∧ State.groupApplied before s g = (u.refreshModesOf (before.members g ++ s.members g)).notePower before g := by
  refine ⟨(s.onGroup g fun r => r.entryApplied before.groupTable.active[g] s.groupTable.active[g]).onMonitor g
    fun m => m.entryApplied before.groupTable.active[g] s.groupTable.active[g] s.inSafe,
    ⟨fun _ => rfl, fun _ => rfl, rfl, rfl, fun k => ?_⟩, rfl, rfl, rfl⟩
  show (upd s.groups g _)[k].op = .idle ↔ _
  rw [upd_get]
  split
  · rename_i e; subst e; exact Iff.rfl
  · exact Iff.rfl

theorem State.notePower_face (s before : State) (g : Group) : s.SameFace (s.notePower before g) := by
  rw [State.notePower_eq_afterPower]
  exact .of_same rfl rfl rfl rfl rfl

theorem State.notePower_shown (s before : State) (g : Group) :
    (s.notePower before g).shown = s.shown ∧ (s.notePower before g).outletTable = s.outletTable := by
  rw [State.notePower_eq_afterPower]
  exact ⟨rfl, rfl⟩

theorem State.groupApplied_face (before s : State) (g : Group) :
    s.SameFace (State.groupApplied before s g)
    ∧ (State.groupApplied before s g).outletTable = s.outletTable := by
  obtain ⟨u, hface, -, hentries, happlied⟩ := State.groupApplied_eq before s g
  rw [happlied]
  refine ⟨(hface.trans (u.refreshModesOf_sameFace _)).trans (State.notePower_face _ before g), ?_⟩
  rw [(State.notePower_shown _ before g).2, State.refreshModesOf_changes]
  exact hentries

theorem State.groupApplied_showsModes (before s : State) (g : Group) (b : Bank) :
    (State.groupApplied before s g).ShowsModes b
      ↔ (∃ o ∈ before.members g ++ s.members g, bankOf o = b) ∨ s.ShowsModes b := by
  obtain ⟨u, hface, hshown, -, happlied⟩ := State.groupApplied_eq before s g
  have h := u.refreshModesOf_showsModes (before.members g ++ s.members g) b
  rw [happlied]
  unfold State.ShowsModes at h ⊢
  rw [(State.notePower_shown _ before g).1, (State.notePower_face _ before g).modesOf, h, hface.modesOf, hshown]

/-- Once the groups of a list have been told, the banks of their old and new members show their modes. -/
theorem State.foldl_groupApplied_showsModes (before : State) (gs : List Group) (s : State) :
    let t := gs.foldl (fun x g => State.groupApplied before x g) s
    s.SameFace t ∧ t.outletTable = s.outletTable
      ∧ ∀ b : Bank, ((∃ g ∈ gs, ∃ o ∈ before.members g ++ s.members g, bankOf o = b) ∨ s.ShowsModes b) →
          t.ShowsModes b := by
  induction gs generalizing s with
  | nil => exact ⟨.refl s, rfl, fun b h => h.resolve_left fun ⟨g, hg, _⟩ => nomatch hg⟩
  | cons g gs ih =>
    obtain ⟨hface, hentries⟩ := State.groupApplied_face before s g
    have hshows := State.groupApplied_showsModes before s g
    obtain ⟨hface', hentries', hshows'⟩ := ih (State.groupApplied before s g)
    refine ⟨hface.trans hface', hentries'.trans hentries, fun b h => hshows' b ?_⟩
    rw [hshows b]
    obtain ⟨k, hk, o, ho, hb⟩ | h := h
    · obtain rfl | hk := List.mem_cons.1 hk
      · exact .inr (.inl ⟨o, ho, hb⟩)
      · refine .inl ⟨k, hk, o, ?_, hb⟩
        unfold State.members
        rw [hface.lists]
        exact ho
    · exact .inr (.inr h)

theorem State.applyGroups_follows (s : State) (gs : List Group) : s.Follows (s.applyGroups gs) := by
  generalize hu : ({ s with groupTable := s.groupTable.copyEntries gs } : State) = u
  obtain ⟨-, hentries, hshows⟩ := State.foldl_groupApplied_showsModes s gs u
  have happly : s.applyGroups gs = gs.foldl (fun x g => State.groupApplied s x g) u := by rw [← hu]; rfl
  rw [happly]
  refine ⟨hentries.trans (by rw [← hu]), fun h => (State.modesKept_iff _).2 fun b => hshows b ?_⟩
  refine or_iff_not_imp_left.2 fun hb => (s.modesKept_iff.1 h b).congr (by rw [← hu]) fun o hob => ?_
  have hmembers : ∀ g : Group, o ∈ u.members g ↔ o ∈ s.members g := fun g => by
    by_cases hg : g ∈ gs
    · exact iff_of_false (fun ho => hb ⟨g, hg, o, List.mem_append_right _ ho, hob⟩)
        fun ho => hb ⟨g, hg, o, List.mem_append_left _ ho, hob⟩
    · unfold State.members
      rw [← hu]
      exact Iff.of_eq (congrArg (fun e => o ∈ memberOutlets e) (s.groupTable.copyEntries_active gs g hg))
  have hgroupOf : u.groupOf o = s.groupOf o := by
    unfold State.groupOf
    exact congrArg (fun f => allGroups.find? f) (funext fun g => decide_eq_decide.2 (hmembers g))
  rw [← hu] at hgroupOf ⊢
  exact State.modeOf_congr rfl rfl rfl (State.groupBusy_congr hgroupOf fun _ _ => Iff.rfl)

/-- The states and marks of the group table are not what modes are read from. -/
theorem State.withGroupTable_follows {s : State} {v : Staged GroupEntry 32 32} (h : v.active = s.groupTable.active) :
    s.Follows { s with groupTable := v } :=
  .of_face ⟨fun _ => rfl, fun _ => rfl, rfl, h, fun _ => Iff.rfl⟩ rfl rfl

theorem State.releaseGroups_follows (s : State) : s.Follows s.releaseGroups := by
  unfold State.releaseGroups
  dsimp only
  split
  · exact .refl s
  · have happly := s.applyGroups_follows (s.applicable s.groupTable.waiting)
    generalize s.applyGroups (s.applicable s.groupTable.waiting) = u at happly ⊢
    split
    · exact (happly.trans (State.withGroupTable_follows (by rfl))).trans (State.raiseApplied_follows _ _ _)
    · exact happly.trans (State.withGroupTable_follows (by rfl))

/-- The end of an operation has the members' modes computed again, and may let group entries apply (R121). -/
theorem State.endOp_follows (s : State) (g : Group) (r : OpResult) (w : Option OpReason) (v : Bool) :
    s.Follows (s.endOp g r w v) := by
  unfold State.endOp
  dsimp only
  refine .trans ⟨?_, fun h => ?_⟩ (State.releaseGroups_follows _)
  · rw [State.refreshModesOf_changes]
    rfl
  · refine State.regrouped_modesKept h rfl rfl rfl rfl rfl fun j hj => ?_
    exact s.onGroup_get_ne hj _

theorem State.failOp_follows (s : State) (g : Group) (r : OpReason) : s.Follows (s.failOp g r) :=
  (s.withdrawAwaited_follows g).trans (State.endOp_follows _ g _ _ _)

/-! ## Operations in progress -/

section
variable {s : State} {g : Group}

/-- An operation in progress may move to another operation state but IDLE. -/
theorem State.onGroup_busy {f : GroupOp → GroupOp} (hf : (f s.groups[g]).op ≠ .idle) :
    (s.onGroup g f).groups[g].op ≠ .idle := by
  rw [State.onGroup_get_self]
  exact hf

theorem State.enterVerifying_follows (hg : s.groups[g].op ≠ .idle) : s.Follows (s.enterVerifying g) := by
  have hverify : s.Follows (s.onGroup g fun r => { r with op := .verifying, boot := some s.uptime }) :=
    State.onGroup_follows_of_busy hg nofun
  unfold State.enterVerifying
  dsimp only
  split
  · exact hverify.trans (State.endOp_follows _ g _ _ _)
  · exact hverify

theorem State.oningOver_follows (hg : s.groups[g].op ≠ .idle) : s.Follows (s.oningOver g) := by
  unfold State.oningOver
  split
  · exact s.endOp_follows g _ _ _
  · exact State.enterVerifying_follows hg

theorem State.takeTurns_follows (k : Nat) (i : Nat) (hg : s.groups[g].op ≠ .idle) :
    s.Follows (State.takeTurns k g i s) := by
  induction k generalizing i s with
  | zero => exact .refl s
  | succ k ih =>
    rw [State.takeTurns_succ]
    split
    · exact State.oningOver_follows hg
    · split
      · exact (State.onGroup_follows Iff.rfl).trans (ih _ (State.onGroup_busy hg))
      · rename_i m _ _ _
        have hgroups := s.request_groups m .close (.group g)
        rw [← hgroups]
        refine (s.request_follows m .close (.group g)).trans (State.onGroup_follows ?_)
        rw [hgroups]

theorem State.turnsFrom_follows (i : Nat) (hg : s.groups[g].op ≠ .idle) : s.Follows (s.turnsFrom g i) :=
  State.takeTurns_follows _ i hg

theorem State.enterOning_follows (hg : s.groups[g].op ≠ .idle) : s.Follows (s.enterOning g) := by
  unfold State.enterOning
  exact (State.onGroup_follows_of_busy hg (by exact nofun)).trans
    (State.turnsFrom_follows 0 (State.onGroup_busy (by exact nofun)))

theorem State.afterClose_follows (hg : s.groups[g].op ≠ .idle) : s.Follows (s.afterClose g) := by
  unfold State.afterClose
  dsimp only
  split
  · exact State.oningOver_follows hg
  · split
    · exact State.turnsFrom_follows _ hg
    · exact State.onGroup_follows Iff.rfl

theorem State.offingOver_follows (hg : s.groups[g].op ≠ .idle) : s.Follows (s.offingOver g) := by
  unfold State.offingOver
  dsimp only
  split
  · exact .refl s
  · split
    · exact s.endOp_follows g _ _ _
    · split
      · split <;> exact s.endOp_follows g _ _ _
      · split
        · exact (State.onGroup_follows Iff.rfl).trans (State.enterOning_follows (State.onGroup_busy hg))
        · exact State.onGroup_follows_of_busy hg nofun

theorem State.enterOffing_follows (hg : s.groups[g].op ≠ .idle) : s.Follows (s.enterOffing g) := by
  unfold State.enterOffing
  generalize hu : (s.onGroup g fun r => { r with op := .offing, busyWait := false }) = u
  have hbegin : s.Follows u ∧ u.groups[g].op ≠ .idle := by
    rw [← hu]
    exact ⟨State.onGroup_follows_of_busy hg nofun, State.onGroup_busy nofun⟩
  have hfold := List.foldlRecOn (motive := fun t : State => u.Follows t ∧ t.groups[g].op ≠ .idle) (s.members g)
    (fun s o => if s.relays[o].state = .off then s.mark g o .opened else s.requestOpen g o)
    ⟨.refl u, hbegin.2⟩ fun x ⟨hx, hbusy⟩ o _ => by
      split
      · exact ⟨hx.trans (x.mark_follows g o _), by rw [State.mark_op]; exact hbusy⟩
      · exact ⟨hx.trans (x.requestOpen_follows g o), by rw [State.requestOpen_op]; exact hbusy⟩
  exact (hbegin.1.trans hfold.1).trans (State.offingOver_follows hfold.2)

/-! ## Completions -/

theorem State.offingCompletion_follows (o : Outlet) (a : Action) (r : Completion) (hg : s.groups[g].op ≠ .idle) :
    s.Follows (s.offingCompletion g o a r) := by
  have hmark : s.Follows ((s.mark g o .opened).offingOver g) :=
    (s.mark_follows g o _).trans (State.offingOver_follows (by rw [State.mark_op]; exact hg))
  have hopen : s.Follows ((s.requestOpen g o).offingOver g) :=
    (s.requestOpen_follows g o).trans (State.offingOver_follows (by rw [State.requestOpen_op]; exact hg))
  unfold State.offingCompletion
  split
  · exact s.failOp_follows g _
  · exact State.offingOver_follows hg
  · split
    · exact hmark
    · split
      · exact State.offingOver_follows hg
      · split
        · exact hmark
        · exact hopen

theorem State.oningCompletion_follows (o : Outlet) (r : Completion) (hg : s.groups[g].op ≠ .idle) :
    s.Follows (s.oningCompletion g o r) := by
  unfold State.oningCompletion
  split
  · split
    · exact (s.mark_follows g o _).trans (State.failOp_follows _ g _)
    · exact State.turnsFrom_follows _ hg
  · split
    · exact (s.mark_follows g o _).trans (State.afterClose_follows (by rw [State.mark_op]; exact hg))
    · exact (s.addFaulted_follows g o).trans (State.afterClose_follows (by rw [State.addFaulted_op]; exact hg))
    · exact (s.mark_follows g o _).trans (State.failOp_follows _ g _)
    · exact (s.mark_follows g o _).trans (State.failOp_follows _ g _)

end

theorem State.groupCompletion_follows (s : State) (o : Outlet) (a : Action) (r : Completion) :
    s.Follows (s.groupCompletion o a r) := by
  unfold State.groupCompletion
  split
  · exact .refl s
  · rename_i g _
    have hleave : s.Follows (s.onGroup g fun r => { r with awaited := r.awaited.filter (· != o) }) :=
      State.onGroup_follows Iff.rfl
    dsimp only
    generalize (s.onGroup g fun r => { r with awaited := r.awaited.filter (· != o) }) = u at *
    refine hleave.trans ?_
    split
    · rename_i hop
      exact State.offingCompletion_follows o a r (by rw [hop]; exact nofun)
    · rename_i hop
      exact State.oningCompletion_follows o r (by rw [hop]; exact nofun)
    all_goals exact .refl u

theorem State.safeFollowUp_follows (s : State) (o : Outlet) : s.Follows (s.safeFollowUp o) := by
  have hset : ∀ l, s.Follows { s with safe := { s.safe with followUp := l } } := fun _ =>
    .of_same rfl rfl rfl rfl rfl rfl
  unfold State.safeFollowUp
  split
  · refine (hset (s.safe.followUp.filter (· != o))).trans ?_
    dsimp only
    split
    · split
      · exact .refl _
      · split
        · exact .refl _
        · exact State.request_follows _ _ _ _
      · split
        · exact .refl _
        · exact State.request_follows _ _ _ _
    · exact .refl _
  · exact .refl s

/-! ## Outlet entries that apply (R151) -/

/-- One outlet's entry applies: its bank's modes are computed again. -/
theorem State.applyOutlet_modesKept {s : State} (o : Outlet) (h : s.ModesKept) : (s.applyOutlet o).ModesKept := by
  unfold State.applyOutlet
  refine State.refreshModes_modesKept fun c hc => (s.modesKept_iff.1 h c).congr rfl fun x hx => ?_
  refine State.modeOf_congr rfl rfl ?_ rfl
  show (upd s.outletTable.active o _)[x].indicator = _
  rw [upd_get_ne _ fun e => hc (by rw [← hx, ← e])]

theorem State.applyOutlet_active (s : State) {o x : Outlet} (hx : x ≠ o) :
    (s.applyOutlet o).outletTable.active[x] = s.outletTable.active[x] := by
  unfold State.applyOutlet
  rw [State.refreshModes_changes]
  exact upd_get_ne _ (Ne.symm hx) _

theorem State.withOutletTable_modesKept {s : State} {v : Staged OutletEntry 48 48} (hv : v.active = s.outletTable.active)
    (h : s.ModesKept) : ({ s with outletTable := v } : State).ModesKept :=
  State.SameFace.modesKept (s := s) ⟨fun _ => rfl, fun _ => rfl, hv, rfl, fun _ => Iff.rfl⟩ rfl h

theorem State.releaseOutlet_modesKept {s : State} (o : Outlet) (h : s.ModesKept) : (s.releaseOutlet o).ModesKept := by
  have happly := State.applyOutlet_modesKept o h
  unfold State.releaseOutlet
  split
  · generalize s.applyOutlet o = u at *
    dsimp only
    split
    · exact (State.raiseApplied_follows _ _ _).modes
        (State.withOutletTable_modesKept (by rfl) (State.withOutletTable_modesKept (by rfl) happly))
    · exact State.withOutletTable_modesKept (by rfl) happly
  · exact h

theorem State.releaseOutlet_active (s : State) {o x : Outlet} (hx : x ≠ o) :
    (s.releaseOutlet o).outletTable.active[x] = s.outletTable.active[x] := by
  have happly := s.applyOutlet_active hx
  unfold State.releaseOutlet
  split
  · dsimp only
    split <;> exact happly
  · rfl

/-! ## A completion -/

theorem State.endTurnOn_follows (s : State) (b : Bank) (r : Completion) : s.Follows (s.endTurnOn b r) :=
  .of_same rfl rfl rfl rfl rfl rfl

/-- What follows the release of the outlet's entry at a completion (R98). -/
theorem State.complete_follows_of_entry {s : State} {o : Outlet} {e : QueueEntry} (he : s.entryOf o = some e)
    (res : Completion) (act : Option SetNo) : ((s.dropEntry o).releaseOutlet o).Follows (s.complete o res act) := by
  have hturn : ∀ u : State, u.Follows
      (if e.action = .close ∧ e.isWaiting = false then u.endTurnOn (bankOf o) res else u) := fun u => by
    split
    · exact u.endTurnOn_follows _ _
    · exact .refl u
  unfold State.complete
  rw [he]
  exact ((((hturn _).trans (State.raiseEvent_follows _ _)).trans (State.endFlights_follows _ o)).trans
    (State.groupCompletion_follows _ o _ res)).trans (State.safeFollowUp_follows _ o)

theorem State.complete_of_noEntry {s : State} {o : Outlet} (he : s.entryOf o = none) (res : Completion)
    (act : Option SetNo) : s.complete o res act = s := by
  unfold State.complete
  rw [he]

theorem State.complete_modesKept {s : State} (o : Outlet) (res : Completion) (act : Option SetNo) (h : s.ModesKept) :
    (s.complete o res act).ModesKept := by
  cases he : s.entryOf o with
  | none => rw [State.complete_of_noEntry he]; exact h
  | some e =>
    have hdrop : s.Follows (s.dropEntry o) := .of_same rfl rfl rfl rfl rfl rfl
    exact (State.complete_follows_of_entry he res act).modes (State.releaseOutlet_modesKept o (hdrop.modes h))

/-- A completion lets no other outlet's entry apply. -/
theorem State.complete_active (s : State) {o x : Outlet} (hx : x ≠ o) (res : Completion) (act : Option SetNo) :
    (s.complete o res act).outletTable.active[x] = s.outletTable.active[x] := by
  cases he : s.entryOf o with
  | none => rw [State.complete_of_noEntry he]
  | some e =>
    rw [(State.complete_follows_of_entry he res act).entries]
    exact (s.dropEntry o).releaseOutlet_active hx

end Sys2Proof.Machine
end

