-- ==== Sys2Proof/Proofs/RelayVerdicts.lean ====
section
/-! A close as the relay block takes it for one outlet: verification of an action in flight (R70 to R73), and the watch of
an outlet at rest (R74, R75); and what a set tells of an outlet (R64 to R66). -/

namespace Sys2Proof.Machine

/-! ## Verification -/

section
variable {f : Flight} {w : Window}

theorem Flight.verifiedBy_of_reached {x : ReceivedSet} (hx : w.lastReceived = some x)
    (hlast : 0 ≤ (w.last - f.verifyAt).toInt) (hnum : 0 ≤ (x.num - f.verifyAt).toInt) : f.verifiedBy w = some x := by
  unfold Flight.verifiedBy
  rw [hx]
  exact if_pos ⟨hlast, hnum⟩

theorem Flight.verifiedBy_of_before (h : w.lastReceived = none ∨ (w.last - f.verifyAt).toInt < 0
    ∨ ∃ x : ReceivedSet, w.lastReceived = some x ∧ (x.num - f.verifyAt).toInt < 0) : f.verifiedBy w = none := by
  unfold Flight.verifiedBy
  cases hx : w.lastReceived with
  | none => rfl
  | some x =>
    refine if_neg fun ⟨hlast, hnum⟩ => ?_
    obtain h | h | ⟨y, hy, h⟩ := h
    · rw [hx] at h; cases h
    · exact Int.not_lt.2 hlast h
    · rw [hx] at hy
      cases hy
      exact Int.not_lt.2 hnum h

end

/-- What an action is found to have done (R71, R72): the relay state, with the fault's detail. -/
def Flight.verdict (f : Flight) (closed load line : Bool) (irms : Option Nat) (weld : Nat) :
    RelayState × Option FaultDetail :=
  match f.action with
  | .close => verifyClose closed line load
  | .opens => verifyOpen closed load irms weld

/-- Below the weld threshold, or at an INVALID close. -/
theorem verifyOpen_eq (closed load : Bool) (irms : Option Nat) (weld : Nat) :
    verifyOpen closed load irms weld =
      (if closed = false ∧ load = false ∧ (∀ i ∈ irms, i < weld) then .off else .faultWelded,
       if closed = true then some .contactClosed
       else if load = false ∧ (∀ i ∈ irms, i < weld) then none else some .outputLive) := by
  unfold verifyOpen
  cases closed
  case true => simp
  case false =>
    cases load
    case true => simp
    case false =>
      cases irms with
      | none => simp
      | some i => by_cases h : i < weld <;> simp [h]

theorem verifyClose_eq (closed line load : Bool) :
    verifyClose closed line load =
      (if closed = true ∧ (line = false ∨ load = true) then .on else .faultOpen,
       if closed = false then some .noOperate else if line = true ∧ load = false then some .noOutput else none) := by
  cases closed <;> cases line <;> cases load <;> rfl

/-- A verdict names a fault just when it has a detail. -/
theorem Flight.verdict_faulted (f : Flight) (closed load line : Bool) (irms : Option Nat) (weld : Nat) :
    (f.verdict closed load line irms weld).1.faulted = true ↔ (f.verdict closed load line irms weld).2 ≠ none := by
  have hclose : (verifyClose closed line load).1.faulted = true ↔ (verifyClose closed line load).2 ≠ none := by
    unfold verifyClose
    repeat' split
    all_goals decide
  have hopen : (verifyOpen closed load irms weld).1.faulted = true ↔ (verifyOpen closed load irms weld).2 ≠ none := by
    unfold verifyOpen
    repeat' split
    all_goals decide
  unfold Flight.verdict
  cases f.action with
  | close => exact hclose
  | opens => exact hopen

section
variable {s : State} {o : Outlet} {f : Flight} {w : Window} (k : WindowKind) (line : Bool) (irms : Option Nat)

theorem State.relayAtClose_of_before (hf : s.relays[o].flight = some f) (hv : f.verifiedBy w = none) :
    s.relayAtClose o w k line irms = s := by
  unfold State.relayAtClose
  dsimp only
  rw [hf]
  dsimp only
  rw [hv]

theorem State.relayAtClose_of_verified {x : ReceivedSet} (hf : s.relays[o].flight = some f)
    (hv : f.verifiedBy w = some x) : s.relayAtClose o w k line irms =
      s.verified o f (x.closed.getLsbD (posOf o).val) (x.load.getLsbD (posOf o).val) irms
        (f.verdict (x.closed.getLsbD (posOf o).val) (x.load.getLsbD (posOf o).val) line irms
          s.outletTable.active[o].weld) := by
  unfold State.relayAtClose
  dsimp only
  rw [hf]
  dsimp only
  rw [hv]
  rfl

end

/-- The verified outlet settles, its entry completes, and a fault is reported (R73). -/
theorem State.verified_eq (s : State) (o : Outlet) (f : Flight) (closed load line : Bool) (irms : Option Nat)
    (weld : Nat) :
    let v := f.verdict closed load line irms weld
    let t := s.setRelay o fun _ => .settled v.1 v.2
    s.verified o f closed load irms v =
      if v.2 = none then t.complete o .done (some f.actuateAt)
      else (t.complete o .fault (some f.actuateAt)).raise .relayFault (o.val + 1)
        (.relayFault v.1 v.2 (match f.action with | .close => .verifyClose | .opens => .verifyOpen)
          (some closed) load (irms.map (· * 2))) := by
  intro v t
  have hfault := f.verdict_faulted closed load line irms weld
  unfold State.verified
  dsimp only
  by_cases hv : v.2 = none
  · rw [if_neg fun h => (hfault.1 h) hv, if_pos hv]
  · rw [if_pos (hfault.2 hv), if_neg hv]
    rfl

theorem State.complete_relays (s : State) (o : Outlet) (res : Completion) (act : Option SetNo) :
    (s.complete o res act).relays = s.relays := (State.complete_reacts (own := none) s o res act).relays

theorem State.verified_relays (s : State) (o : Outlet) (f : Flight) (closed load : Bool) (irms : Option Nat)
    (v : RelayState × Option FaultDetail) :
    (s.verified o f closed load irms v).relays = upd s.relays o fun _ => .settled v.1 v.2 := by
  unfold State.verified
  dsimp only
  split
  · rw [State.raise_relays, State.complete_relays, State.setRelay_relays]
  · rw [State.complete_relays, State.setRelay_relays]

theorem State.raise_noneIssued {s : State} {o : Outlet} (h : s.NoneIssued o) (k : EventKind) (n : Nat) (d : Detail) :
    (s.raise k n d).NoneIssued o := h

theorem State.verified_noneIssued (s : State) (o : Outlet) (f : Flight) (closed load : Bool) (irms : Option Nat)
    (v : RelayState × Option FaultDetail) : (s.verified o f closed load irms v).NoneIssued o := by
  unfold State.verified
  dsimp only
  split
  · exact State.raise_noneIssued (State.complete_noneIssued _ o _ _) _ _ _
  · exact State.complete_noneIssued _ o _ _

/-! ## The watch -/

section
variable {s : State} {o : Outlet} (w : Window) (k : WindowKind) (line : Bool)

theorem State.relayAtClose_of_off {x : Nat} (hf : s.relays[o].flight = none) (hst : s.relays[o].state = .off) :
    s.relayAtClose o w k line (some x) = s.weldWatch o (w.load.getLsbD (posOf o).val) x := by
  unfold State.relayAtClose
  dsimp only
  rw [hf, hst]

theorem State.relayAtClose_of_on {x : Nat} (hf : s.relays[o].flight = none) (hst : s.relays[o].state = .on) :
    s.relayAtClose o w k line (some x) = s.openWatch o k (w.load.getLsbD (posOf o).val) (some x) := by
  unfold State.relayAtClose
  dsimp only
  rw [hf, hst]

theorem State.relayAtClose_of_unwatched {irms : Option Nat} (hf : s.relays[o].flight = none)
    (h : irms = none ∨ (s.relays[o].state ≠ .off ∧ s.relays[o].state ≠ .on)) : s.relayAtClose o w k line irms = s := by
  unfold State.relayAtClose
  dsimp only
  rw [hf]
  dsimp only
  split
  · rename_i hst
    exact absurd hst (h.resolve_left nofun).1
  · rename_i hst
    exact absurd hst (h.resolve_left nofun).2
  · rfl

end

/-- The weld watch by its three cases (R74). -/
theorem State.weldWatch_cases (s : State) (o : Outlet) (load : Bool) (x : Nat) :
    let live : Prop := load = true ∨ s.outletTable.active[o].weld ≤ x
    (¬ live → s.weldWatch o load x = s.onRelay o fun r => { r with weld := 0 })
    ∧ (live → s.relays[o].weld + 1 < 3 → s.weldWatch o load x = s.onRelay o fun r => { r with weld := r.weld + 1 })
    ∧ (live → 3 ≤ s.relays[o].weld + 1 →
        s.weldWatch o load x = s.watchFault o .faultWelded .outputLive load (some x)) := by
  intro live
  have hlive : (load || decide (s.outletTable.active[o].weld ≤ x)) = true ↔ live := by simp [live]
  unfold State.weldWatch Config.watchCount
  dsimp only
  refine ⟨fun h => ?_, fun h hcount => ?_, fun h hcount => ?_⟩
  · rw [if_neg (hlive.not.2 h)]
  · rw [if_pos (hlive.2 h), if_neg (Nat.not_le.2 hcount)]
  · rw [if_pos (hlive.2 h), if_pos hcount]

/-- The open watch by its three cases (R75). -/
theorem State.openWatch_cases (s : State) (o : Outlet) (k : WindowKind) (load : Bool) (x : Option Nat) :
    (k ≠ .valid ∨ load = true → s.openWatch o k load x = s.onRelay o fun r => { r with dead := 0 })
    ∧ (k = .valid → load = false → s.relays[o].dead + 1 < 3 →
        s.openWatch o k load x = s.onRelay o fun r => { r with dead := r.dead + 1 })
    ∧ (k = .valid → load = false → 3 ≤ s.relays[o].dead + 1 →
        s.openWatch o k load x = s.watchFault o .faultOpen .noOutput load x) := by
  unfold State.openWatch Config.watchCount
  dsimp only
  refine ⟨fun h => ?_, fun hk hl hcount => ?_, fun hk hl hcount => ?_⟩
  · refine if_neg fun ⟨hk, hl⟩ => ?_
    rw [hl] at h
    exact h.elim (absurd hk) (absurd · Bool.false_ne_true)
  · rw [if_pos ⟨hk, hl⟩, if_neg (Nat.not_le.2 hcount)]
  · rw [if_pos ⟨hk, hl⟩, if_pos hcount]

/-! ## The relay record after a close -/

/-- The relay record of an outlet with weld threshold `weld`, at position `p`, after a close of window `w` (R70 to R75). -/
def Relay.closed (weld p : Nat) (w : Window) (k : WindowKind) (line : Bool) (irms : Option Nat) (r : Relay) : Relay :=
  match r.flight with
  | some f =>
    match f.verifiedBy w with
    | none => r
    | some x =>
      let v := f.verdict (x.closed.getLsbD p) (x.load.getLsbD p) line irms weld
      .settled v.1 v.2
  | none =>
    match r.state, irms with
    | .off, some x =>
      if w.load.getLsbD p = true ∨ weld ≤ x then
        if 3 ≤ r.weld + 1 then .settled .faultWelded (some .outputLive) else { r with weld := r.weld + 1 }
      else { r with weld := 0 }
    | .on, some _ =>
      if k = .valid ∧ w.load.getLsbD p = false then
        if 3 ≤ r.dead + 1 then .settled .faultOpen (some .noOutput) else { r with dead := r.dead + 1 }
      else { r with dead := 0 }
    | _, _ => r

theorem State.onRelay_relays (s : State) (o : Outlet) (f : Relay → Relay) :
    (s.onRelay o f).relays = upd s.relays o f := rfl

theorem State.weldWatch_relays (s : State) (o : Outlet) (load : Bool) (x : Nat) : (s.weldWatch o load x).relays =
    upd s.relays o fun r => if load = true ∨ s.outletTable.active[o].weld ≤ x then
      if 3 ≤ r.weld + 1 then .settled .faultWelded (some .outputLive) else { r with weld := r.weld + 1 }
    else { r with weld := 0 } := by
  obtain ⟨hdark, hcounted, hfault⟩ := s.weldWatch_cases o load x
  by_cases hlive : load = true ∨ s.outletTable.active[o].weld ≤ x
  · by_cases hcount : 3 ≤ s.relays[o].weld + 1
    · rw [hfault hlive hcount, State.watchFault_relays]
      exact upd_congr (by rw [if_pos hlive, if_pos hcount])
    · rw [hcounted hlive (Nat.not_le.1 hcount), State.onRelay_relays]
      exact upd_congr (by rw [if_pos hlive, if_neg hcount])
  · rw [hdark hlive, State.onRelay_relays]
    exact upd_congr (by rw [if_neg hlive])

theorem State.openWatch_relays (s : State) (o : Outlet) (k : WindowKind) (load : Bool) (x : Option Nat) :
    (s.openWatch o k load x).relays = upd s.relays o fun r => if k = .valid ∧ load = false then
      if 3 ≤ r.dead + 1 then .settled .faultOpen (some .noOutput) else { r with dead := r.dead + 1 }
    else { r with dead := 0 } := by
  obtain ⟨hlive, hcounted, hfault⟩ := s.openWatch_cases o k load x
  by_cases hdead : k = .valid ∧ load = false
  · by_cases hcount : 3 ≤ s.relays[o].dead + 1
    · rw [hfault hdead.1 hdead.2 hcount, State.watchFault_relays]
      exact upd_congr (by rw [if_pos hdead, if_pos hcount])
    · rw [hcounted hdead.1 hdead.2 (Nat.not_le.1 hcount), State.onRelay_relays]
      exact upd_congr (by rw [if_pos hdead, if_neg hcount])
  · rw [hlive ((not_and_or.1 hdead).imp_right eq_true_of_ne_false), State.onRelay_relays]
    exact upd_congr (by rw [if_neg hdead])

/-- A close changes the relay record of its outlet alone, by the record, the entry's weld threshold and the window. -/
theorem State.relayAtClose_relays (s : State) (o : Outlet) (w : Window) (k : WindowKind) (line : Bool)
    (irms : Option Nat) : (s.relayAtClose o w k line irms).relays =
      upd s.relays o (Relay.closed s.outletTable.active[o].weld (posOf o).val w k line irms) := by
  have hsame : Relay.closed s.outletTable.active[o].weld (posOf o).val w k line irms s.relays[o] = s.relays[o] →
      s.relays = upd s.relays o (Relay.closed s.outletTable.active[o].weld (posOf o).val w k line irms) := fun h =>
    (upd_id s.relays o).symm.trans (upd_congr h.symm)
  cases hf : s.relays[o].flight with
  | some f =>
    cases hv : f.verifiedBy w with
    | none =>
      rw [State.relayAtClose_of_before k line irms hf hv]
      refine hsame ?_
      simp only [Relay.closed, hf, hv]
    | some x =>
      rw [State.relayAtClose_of_verified k line irms hf hv, State.verified_relays]
      refine upd_congr ?_
      simp only [Relay.closed, hf, hv]
  | none =>
    by_cases hun : irms = none ∨ (s.relays[o].state ≠ .off ∧ s.relays[o].state ≠ .on)
    · rw [State.relayAtClose_of_unwatched w k line hf hun]
      refine hsame ?_
      unfold Relay.closed
      rw [hf]
      dsimp only
      split
      · rename_i hst
        exact absurd hst (hun.resolve_left nofun).1
      · rename_i hst
        exact absurd hst (hun.resolve_left nofun).2
      · rfl
    · rw [not_or, not_and_or, not_not, not_not] at hun
      obtain ⟨hx, hst⟩ := hun
      obtain ⟨x, rfl⟩ := Option.ne_none_iff_exists'.1 hx
      obtain hst | hst := hst
      · rw [State.relayAtClose_of_off w k line hf hst, State.weldWatch_relays]
        refine upd_congr ?_
        simp only [Relay.closed, hf, hst]
      · rw [State.relayAtClose_of_on w k line hf hst, State.openWatch_relays]
        refine upd_congr ?_
        simp only [Relay.closed, hf, hst]

theorem Relay.closed_flight {weld p : Nat} {w : Window} {k : WindowKind} {line : Bool} {irms : Option Nat} {r : Relay}
    {f : Flight} {x : ReceivedSet} (hf : r.flight = some f) (hv : f.verifiedBy w = some x) :
    (r.closed weld p w k line irms).flight = none := by
  simp only [Relay.closed, hf, hv]
  rfl

end Sys2Proof.Machine
end

