-- ==== Sys2Proof/Proofs/RelayCloses.lean ====
section
/-! A close as the relay block takes it for a bank's eight outlets: none of them concerns another (R70 to R75). -/

namespace Sys2Proof.Machine

/-! ## What the close of one outlet leaves of the others -/

section
variable (s : State) {o x : Outlet} (w : Window) (k : WindowKind) (line : Bool) (irms : Option Nat)

theorem State.setRelay_changes (s : State) (o : Outlet) (f : Relay → Relay) :
    s.setRelay o f = { s with
      relays := upd s.relays o f, lanes := (s.setRelay o f).lanes, shown := (s.setRelay o f).shown
      monitors := (s.setRelay o f).monitors } := by
  unfold State.setRelay
  rw [(State.notePowerOf_eq _ s o).1, State.refreshModes_changes]
  rfl

theorem State.verified_active (hx : x ≠ o) (f : Flight) (closed load : Bool) (irms : Option Nat)
    (v : RelayState × Option FaultDetail) :
    (s.verified o f closed load irms v).outletTable.active[x] = s.outletTable.active[x] := by
  have hcomplete : ∀ (g : Relay → Relay) (res : Completion) (act : Option SetNo),
      ((s.setRelay o g).complete o res act).outletTable.active[x] = s.outletTable.active[x] := fun g res act => by
    rw [State.complete_active _ hx, State.setRelay_changes]
  have hraise : ∀ (u : State) (k : EventKind) (n : Nat) (d : Detail),
      (u.raise k n d).outletTable.active[x] = u.outletTable.active[x] := fun _ _ _ _ => rfl
  unfold State.verified
  dsimp only
  split
  · exact (hraise _ _ _ _).trans (hcomplete _ _ _)
  · exact hcomplete _ _ _

/-- The other outlets' entries of the outlet table stay in force. -/
theorem State.relayAtClose_active (hx : x ≠ o) :
    (s.relayAtClose o w k line irms).outletTable.active[x] = s.outletTable.active[x] := by
  cases hf : s.relays[o].flight with
  | none => rw [(State.relayAtClose_watches hf w k line irms).1.changes]
  | some f =>
    cases hv : f.verifiedBy w with
    | none => rw [State.relayAtClose_of_before k line irms hf hv]
    | some y =>
      rw [State.relayAtClose_of_verified k line irms hf hv]
      exact s.verified_active hx _ _ _ _ _

/-- No entry becomes ISSUED. -/
theorem State.relayAtClose_noneIssued (h : s.NoneIssued x) : (s.relayAtClose o w k line irms).NoneIssued x := by
  have hset : ∀ f, (s.setRelay o f).NoneIssued x := fun f => by
    unfold State.NoneIssued
    rw [State.setRelay_changes]
    exact h
  cases hf : s.relays[o].flight with
  | none =>
    unfold State.NoneIssued
    rw [(State.relayAtClose_watches hf w k line irms).1.changes]
    exact h
  | some f =>
    cases hv : f.verifiedBy w with
    | none => rw [State.relayAtClose_of_before k line irms hf hv]; exact h
    | some y =>
      have hcomplete := fun (u : State) (res : Completion) (act : Option SetNo) (hu : u.NoneIssued x) =>
        (State.complete_reacts (own := none) u o res act).noneIssued hu
      rw [State.relayAtClose_of_verified k line irms hf hv]
      unfold State.verified
      dsimp only
      split
      · exact State.raise_noneIssued (hcomplete _ _ _ (hset _)) _ _ _
      · exact hcomplete _ _ _ (hset _)

end

/-! ## Positions 1 to 8 -/

/-- The relay block takes a close for the positions of a list, each with its Irms_code. -/
def State.relaysClosed (s : State) (b : Bank) (w : Window) (k : WindowKind) (line : Bool) (irms : Position → Option Nat)
    (ps : List Position) : State :=
  ps.foldl (fun x p => x.relayAtClose (outletAt b p) w k line (irms p)) s

section
variable (b : Bank) (w : Window) (k : WindowKind) (line : Bool) (irms : Position → Option Nat)

theorem outletAt_injective (b : Bank) {p q : Position} (h : outletAt b p = outletAt b q) : p = q := by
  rw [← posOf_outletAt b p, h, posOf_outletAt]

/-- An outlet of no position of the list keeps its relay record. -/
theorem State.relaysClosed_relays_of_not (s : State) (ps : List Position) (o : Outlet) (h : ∀ p ∈ ps, outletAt b p ≠ o) :
    (s.relaysClosed b w k line irms ps).relays[o] = s.relays[o] := by
  induction ps generalizing s with
  | nil => rfl
  | cons p ps ih =>
    refine (ih _ fun q hq => h q (List.mem_cons_of_mem _ hq)).trans ?_
    rw [State.relayAtClose_relays, upd_get_ne _ (h p List.mem_cons_self)]

/-- Each outlet's record is that of its own close. -/
theorem State.relaysClosed_relays (s : State) (ps : List Position) (hps : ps.Nodup) (p : Position) (hp : p ∈ ps) :
    (s.relaysClosed b w k line irms ps).relays[outletAt b p] =
      (s.relayAtClose (outletAt b p) w k line (irms p)).relays[outletAt b p] := by
  induction ps generalizing s with
  | nil => nomatch hp
  | cons q ps ih =>
    obtain ⟨hq, hnodup⟩ := List.nodup_cons.1 hps
    by_cases hpq : p = q
    · subst hpq
      refine State.relaysClosed_relays_of_not b w k line irms _ ps _ fun r hr he => hq ?_
      rw [← outletAt_injective b he]
      exact hr
    · have hne : outletAt b p ≠ outletAt b q := fun he => hpq (outletAt_injective b he)
      refine (ih _ hnodup ((List.mem_cons.1 hp).resolve_left hpq)).trans ?_
      have hrecord : (s.relayAtClose (outletAt b q) w k line (irms q)).relays[outletAt b p] = s.relays[outletAt b p] := by
        rw [State.relayAtClose_relays, upd_get_ne _ hne.symm]
      rw [State.relayAtClose_relays, upd_get_self, State.relayAtClose_active s w k line _ hne, hrecord,
        State.relayAtClose_relays s, upd_get_self]

/-- An outlet whose action the close verifies has no ISSUED entry after it. -/
theorem State.relaysClosed_noneIssued (s : State) (ps : List Position) (p : Position) {f : Flight} {x : ReceivedSet}
    (hf : s.relays[outletAt b p].flight = some f) (hv : f.verifiedBy w = some x) (hp : p ∈ ps) :
    (s.relaysClosed b w k line irms ps).NoneIssued (outletAt b p) := by
  have hkeeps : ∀ (u : State) (ps : List Position), u.NoneIssued (outletAt b p) →
      (u.relaysClosed b w k line irms ps).NoneIssued (outletAt b p) := fun u ps hu =>
    List.foldlRecOn (motive := fun t : State => t.NoneIssued (outletAt b p)) _ _ hu fun t ht q _ =>
      t.relayAtClose_noneIssued w k line (irms q) ht
  induction ps generalizing s with
  | nil => nomatch hp
  | cons q ps ih =>
    by_cases hpq : p = q
    · subst hpq
      refine hkeeps _ ps ?_
      show (s.relayAtClose (outletAt b p) w k line (irms p)).NoneIssued _
      rw [State.relayAtClose_of_verified k line _ hf hv]
      exact State.verified_noneIssued _ _ _ _ _ _ _
    · refine ih _ ?_ ((List.mem_cons.1 hp).resolve_left hpq)
      rw [State.relayAtClose_relays, upd_get_ne _ fun he => hpq (outletAt_injective b he).symm]
      exact hf

end

/-! ## The close -/

/-- An outlet's Irms_code at a close of kind `k`: none at an INVALID close (R28). -/
def Window.irmsAt (w : Window) (k : WindowKind) (p : Position) : Option Nat :=
  if k = .invalid then none else some (w.irms p)

theorem State.relaysAtClose_eq_relaysClosed (s : State) (b : Bank) (w : Window) (k : WindowKind) (line : Bool) :
    s.relaysAtClose b w k line = s.relaysClosed b w k line (w.irmsAt k) (List.finRange 8) := by
  unfold State.relaysAtClose State.relaysClosed Window.irmsAt allPositions
  cases k <;> rfl

/-- The kind of a close as the statements give it (R28). -/
theorem Window.kind_eq (w : Window) (c : Bool) : (if w.invalid = true ∨ (w.aligned = false ∧ c = true) then
    WindowKind.invalid else if c = true then .valid else .noLine) = w.kind c := by
  simp [Window.kind]

section
variable {s : State} {b : Bank} {w : Window}

/-- The limit unit after a metering changes its own part and the metering's. -/
theorem State.Limited.changes {s t : State} (m : Vector BankMeter 6) (v : Vector OutletMeter 48)
    (h : State.Limited { s with meters := m, outlets := v } t) :
    t = { s with
      meters := t.meters, outlets := t.outlets, outletLimits := t.outletLimits, loadLost := t.loadLost
      bankLimits := t.bankLimits, phaseElements := t.phaseElements, phaseLimits := t.phaseLimits, sheds := t.sheds
      notifier := t.notifier, link0 := t.link0 } := by
  have hmeters : t.meters = m := by rw [h]
  have houtlets : t.outlets = v := by rw [h]
  rw [hmeters, houtlets]
  exact h

theorem State.limitedAt_changes (s : State) (b : Bank) (w : Window) (c : Bool) :
    s.limitedAt b w c = { s with
      meters := (s.limitedAt b w c).meters, outlets := (s.limitedAt b w c).outlets
      outletLimits := (s.limitedAt b w c).outletLimits, loadLost := (s.limitedAt b w c).loadLost
      bankLimits := (s.limitedAt b w c).bankLimits, phaseElements := (s.limitedAt b w c).phaseElements
      phaseLimits := (s.limitedAt b w c).phaseLimits, sheds := (s.limitedAt b w c).sheds
      notifier := (s.limitedAt b w c).notifier, link0 := (s.limitedAt b w c).link0 } := by
  have hlimited : State.Limited (s.meteredBy (s.closeWindow b c)) (s.limitedAt b w c) :=
    State.limitsAt_limited _ b w (w.kind c)
  exact State.Limited.changes _ _ hlimited

/-- The relay block takes the close in the state that the limit unit leaves; capture unit and table store leave relays
and queue. -/
theorem State.closeWindow_relays (hw : s.meters[b].window = some w) (c : Bool) :
    (s.closeWindow b c).relays =
      ((s.limitedAt b w c).relaysClosed b w (w.kind c) c (w.irmsAt (w.kind c)) (List.finRange 8)).relays
    ∧ (s.closeWindow b c).queue =
      ((s.limitedAt b w c).relaysClosed b w (w.kind c) c (w.irmsAt (w.kind c)) (List.finRange 8)).queue := by
  rw [State.closeWindow_eq_stages hw c, State.relaysAtClose_eq_relaysClosed]
  generalize State.relaysClosed _ b w (w.kind c) c _ _ = u
  rw [State.boundary_changes, State.captureAtClose_changes]
  exact ⟨rfl, rfl⟩

theorem State.closeWindow_relay (hw : s.meters[b].window = some w) (c : Bool) (p : Position) :
    (s.closeWindow b c).relays[outletAt b p] =
      (s.relayAtClose (outletAt b p) w (w.kind c) c (w.irmsAt (w.kind c) p)).relays[outletAt b p] := by
  rw [(State.closeWindow_relays hw c).1,
    State.relaysClosed_relays b w _ c _ _ _ (List.nodup_finRange 8) p (List.mem_finRange p),
    State.relayAtClose_relays, State.relayAtClose_relays, upd_get_self, upd_get_self, State.limitedAt_changes]

theorem State.closeWindow_relay_of_other (hw : s.meters[b].window = some w) (c : Bool) {o : Outlet} (ho : bankOf o ≠ b) :
    (s.closeWindow b c).relays[o] = s.relays[o] := by
  rw [(State.closeWindow_relays hw c).1,
    State.relaysClosed_relays_of_not b w _ c _ _ _ o fun p _ he => ho (he ▸ bankOf_outletAt b p), State.limitedAt_changes]

/-- An action that the close reaches is no longer in flight after it, and no entry of its outlet is ISSUED. -/
theorem State.closeWindow_verified (hw : s.meters[b].window = some w) (c : Bool) (p : Position) {f : Flight}
    {x : ReceivedSet} (hf : s.relays[outletAt b p].flight = some f) (hv : f.verifiedBy w = some x) :
    (s.closeWindow b c).relays[outletAt b p].flight = none ∧ (s.closeWindow b c).NoneIssued (outletAt b p) := by
  refine ⟨?_, ?_⟩
  · rw [State.closeWindow_relay hw, State.relayAtClose_relays, upd_get_self]
    exact Relay.closed_flight hf hv
  · unfold State.NoneIssued
    rw [(State.closeWindow_relays hw c).2]
    refine State.relaysClosed_noneIssued b w _ c _ _ _ p (f := f) ?_ hv (List.mem_finRange p)
    rw [State.limitedAt_changes]
    exact hf

end

/-! ## The table of verdicts -/

section
variable {s : State} {o : Outlet} {f : Flight} {w : Window} {x : ReceivedSet}

/-- The relay record that a verdict leaves, as the statements give it. -/
theorem Flight.verdict_settled (f : Flight) (closed load line : Bool) (irms : Option Nat) (weld : Nat) :
    Relay.settled (f.verdict closed load line irms weld).1 (f.verdict closed load line irms weld).2 =
      { flight := none, weld := 0, dead := 0
        state := match f.action with
          | .close => if closed = true ∧ (line = false ∨ load = true) then .on else .faultOpen
          | .opens => if closed = false ∧ load = false ∧ (∀ i ∈ irms, i < weld) then .off else .faultWelded
        detail := match f.action with
          | .close => if closed = false then some .noOperate
                      else if line = true ∧ load = false then some .noOutput else none
          | .opens => if closed = true then some .contactClosed
                      else if load = false ∧ (∀ i ∈ irms, i < weld) then none else some .outputLive } := by
  unfold Flight.verdict Relay.settled
  cases f.action with
  | close => dsimp only; rw [verifyClose_eq]
  | opens => dsimp only; rw [verifyOpen_eq]

end

/-! ## A set -/

/-- A substituted set tells nothing of a known relay, and no set anything of one that is moving or in fault (R64, R65). -/
theorem State.relaySees_of_unread {s : State} {o : Outlet} {sub : Bool} (closed : Bool) (c : ReconcileCause)
    (hknown : s.relays[o].state ≠ .unknown)
    (h : sub = true ∨ s.relays[o].state ≠ .off ∧ s.relays[o].state ≠ .on) : s.relaySees o closed sub c = s := by
  unfold State.relaySees
  split
  · exact absurd ‹_› hknown
  · rename_i hoff
    obtain rfl | ⟨hne, -⟩ := h
    · exact if_neg (by simp)
    · exact absurd hoff hne
  · rename_i hon
    obtain rfl | ⟨-, hne⟩ := h
    · exact if_neg (by simp)
    · exact absurd hon hne
  all_goals rfl

/-- Settles O23: the close by the stages of the bank's blocks, and each outlet's part by its flight or its state; a set by
the outlet's state. -/
theorem actionsAreVerified : Obligations.ActionsAreVerified := by
  refine ⟨fun b w c s hw => ?_, fun o w k line irms f s hf => ⟨fun x hx hlast hnum => ?_, fun h => ?_⟩,
    fun o w k line irms s hf => ⟨fun x hx hst => ?_, fun x hx hst => ?_, fun h => ?_⟩, fun o closed sub cause s => ?_⟩
  · intro t kind irms
    have hkind : kind = w.kind c := w.kind_eq c
    have hirms : irms = w.irmsAt kind := rfl
    rw [hirms]
    clear_value kind
    subst hkind
    refine ⟨fun p => ⟨State.closeWindow_relay hw c p, fun f x hf hx hlast hnum => ?_⟩,
      fun o ho => State.closeWindow_relay_of_other hw c ho, s.limitedAt b w c, s.limitedAt_changes b w c, ?_⟩
    · exact State.closeWindow_verified hw c p hf (Flight.verifiedBy_of_reached hx hlast hnum)
    · rw [show t = s.closeWindow b c from rfl, State.closeWindow_eq_stages hw c, State.relaysAtClose_eq_relaysClosed]
      rfl
  · have hv := Flight.verifiedBy_of_reached hx hlast hnum
    have hclose := State.relayAtClose_of_verified k line irms hf hv
    intro closed load r
    have hr : r = .settled _ _ := (f.verdict_settled closed load line irms s.outletTable.active[o].weld).symm
    rw [show s.relayAtClose o w k line irms = s.verified o f closed load irms _ from hclose, hr]
    refine ⟨?_, State.verified_noneIssued _ _ _ _ _ _ _, s.verified_eq o f closed load line irms _⟩
    rw [State.verified_relays, upd_get_self]
    rfl
  · exact State.relayAtClose_of_before k line irms hf (Flight.verifiedBy_of_before h)
  · subst hx
    intro live
    rw [State.relayAtClose_of_off w k line hf hst]
    exact s.weldWatch_cases o _ x
  · subst hx
    rw [State.relayAtClose_of_on w k line hf hst]
    exact s.openWatch_cases o k _ (some x)
  · exact State.relayAtClose_of_unwatched w k line hf h
  · intro t seen
    have ht : t = s.relaySees o closed sub cause := rfl
    rw [ht]
    refine ⟨fun h => ?_, fun h hc hs => ?_, fun h hc hs => ?_, fun h hs => ?_, fun h hc => ?_, fun h hc => ?_,
      fun hu ho hn => ?_⟩
    · unfold State.relaySees; rw [h]; rfl
    · unfold State.relaySees; rw [h, hc, hs]; rfl
    · unfold State.relaySees; rw [h, hc, hs]; rfl
    · exact State.relaySees_of_unread closed cause h (.inl hs)
    · unfold State.relaySees; rw [h, hc]; rfl
    · unfold State.relaySees; rw [h, hc]; rfl
    · exact State.relaySees_of_unread closed cause hu (.inr ⟨ho, hn⟩)

end Sys2Proof.Machine
end

