-- ==== Sys2Proof/Proofs/ModesKept.lean ====
section
/-! Every step keeps the shown modes those that R80 gives: each act on what they are read from has them computed again. -/

namespace Sys2Proof.Machine

/-- From a state whose shown modes are those of R80, `t` is such a state too. -/
structure State.KeepsModes (s t : State) : Prop where
  modes : s.ModesKept → t.ModesKept

theorem State.KeepsModes.refl (s : State) : s.KeepsModes s := ⟨id⟩

theorem State.KeepsModes.trans {s t u : State} (h : s.KeepsModes t) (h' : t.KeepsModes u) : s.KeepsModes u :=
  ⟨h'.modes ∘ h.modes⟩

theorem State.Follows.keeps {s t : State} (h : s.Follows t) : s.KeepsModes t := ⟨h.modes⟩

theorem State.KeepsModes.of_face {s t : State} (h : s.SameFace t) (hs : t.shown = s.shown) : s.KeepsModes t :=
  ⟨h.modesKept hs⟩

/-- The fields that modes are read from, and the shown modes themselves. -/
def State.faceFields (s : State) := (s.relays, s.shown, s.sheds, s.outletTable, s.groupTable, s.groups)

/-- A change of other fields. -/
theorem State.KeepsModes.of_same {s t : State} (h : t.faceFields = s.faceFields) : s.KeepsModes t := by
  simp only [State.faceFields, Prod.mk.injEq] at h
  obtain ⟨hrelays, hshown, hsheds, houtlets, hlists, hgroups⟩ := h
  exact .of_face (.of_same hrelays hsheds houtlets hlists hgroups) hshown

theorem State.foldl_keepsModes {α : Type} (f : State → α → State) (h : ∀ (s : State) (a : α), s.KeepsModes (f s a))
    (l : List α) (s : State) : s.KeepsModes (l.foldl f s) :=
  List.foldlRecOn (motive := s.KeepsModes) l f (.refl s) fun t ht a _ => ht.trans (h t a)

theorem State.ite_keepsModes {c : Prop} [Decidable c] {s t : State} (h : c → s.KeepsModes t) :
    s.KeepsModes (if c then t else s) := by
  split
  · exact h ‹_›
  · exact .refl s

/-! ## Reports, lanes, link 0 -/

theorem State.raise_keepsModes (s : State) (k : EventKind) (n : Nat) (d : Detail) : s.KeepsModes (s.raise k n d) :=
  .of_same rfl

theorem State.onLane_keepsModes (s : State) (b : Bank) (f : Lane → Lane) : s.KeepsModes (s.onLane b f) := .of_same rfl

theorem State.onMonitor_keepsModes (s : State) (g : Group) (f : Monitor → Monitor) : s.KeepsModes (s.onMonitor g f) :=
  .of_same rfl

theorem State.raiseLinkError_keepsModes (s : State) (n : Nat) (r r' : ErrorRecord) (k : ErrorKind) :
    s.KeepsModes (s.raiseLinkError n r r' k) := by
  unfold State.raiseLinkError
  split
  · exact .refl s
  · exact s.raise_keepsModes _ _ _

theorem State.placeIndicate_keepsModes (s : State) (b : Bank) : s.KeepsModes (s.placeIndicate b) :=
  State.ite_keepsModes fun _ => s.onLane_keepsModes b _

/-! ## Relays -/

/-- A watch count or a flight is not what modes are read from. -/
theorem State.onRelay_keepsModes (s : State) (o : Outlet) {f : Relay → Relay}
    (hf : (f s.relays[o]).state = s.relays[o].state) : s.KeepsModes (s.onRelay o f) := by
  refine .of_face ⟨fun x => ?_, fun _ => rfl, rfl, rfl, fun _ => Iff.rfl⟩ rfl
  rw [State.onRelay_relays, upd_get]
  split
  · rename_i e
    subst e
    exact hf
  · rfl

theorem State.setRelay_keepsModes (s : State) (o : Outlet) (f : Relay → Relay) : s.KeepsModes (s.setRelay o f) := by
  refine ⟨fun h => ?_⟩
  have hshown : ((s.onRelay o f).refreshModes (bankOf o)).ModesKept :=
    State.refreshModes_modesKept fun c hc => (s.modesKept_iff.1 h c).congr rfl fun x hx => by
      refine State.modeOf_congr ?_ rfl rfl rfl
      rw [State.onRelay_relays, upd_get_ne _ fun e => hc (by rw [← hx, ← e])]
  exact (State.notePowerOf_follows _ s o).modes hshown

theorem State.reconcile_keepsModes (s : State) (o : Outlet) (old new : RelayState) (c : ReconcileCause) :
    s.KeepsModes (s.reconcile o old new c) :=
  (s.setRelay_keepsModes o _).trans (State.raise_keepsModes _ _ _ _)

theorem State.relaySees_keepsModes (s : State) (o : Outlet) (closed sub : Bool) (c : ReconcileCause) :
    s.KeepsModes (s.relaySees o closed sub c) := by
  unfold State.relaySees
  split
  · exact s.setRelay_keepsModes o _
  · exact State.ite_keepsModes fun _ => s.reconcile_keepsModes o _ _ c
  · exact State.ite_keepsModes fun _ => s.reconcile_keepsModes o _ _ c
  all_goals exact .refl s

theorem State.relaySet_keepsModes (s : State) (b : Bank) (closed : BitVec 8) (sub : Bool) (c : ReconcileCause) :
    s.KeepsModes (s.relaySet b closed sub c) :=
  State.foldl_keepsModes _ (fun u p => u.relaySees_keepsModes (outletAt b p) _ sub c) _ s

theorem State.complete_keepsModes (s : State) (o : Outlet) (r : Completion) (a : Option SetNo) :
    s.KeepsModes (s.complete o r a) := ⟨State.complete_modesKept o r a⟩

theorem State.verified_keepsModes (s : State) (o : Outlet) (f : Flight) (closed load : Bool) (irms : Option Nat)
    (v : RelayState × Option FaultDetail) : s.KeepsModes (s.verified o f closed load irms v) := by
  have hset := s.setRelay_keepsModes o fun _ => .settled v.1 v.2
  unfold State.verified
  dsimp only
  split
  · exact (hset.trans (State.complete_keepsModes _ o _ _)).trans (State.raise_keepsModes _ _ _ _)
  · exact hset.trans (State.complete_keepsModes _ o _ _)

theorem State.watchFault_keepsModes (s : State) (o : Outlet) (x : RelayState) (d : FaultDetail) (load : Bool)
    (irms : Option Nat) : s.KeepsModes (s.watchFault o x d load irms) :=
  (s.setRelay_keepsModes o _).trans (State.raise_keepsModes _ _ _ _)

theorem State.weldWatch_keepsModes (s : State) (o : Outlet) (load : Bool) (x : Nat) :
    s.KeepsModes (s.weldWatch o load x) := by
  unfold State.weldWatch
  dsimp only
  split
  · split
    · exact s.watchFault_keepsModes o _ _ _ _
    · exact s.onRelay_keepsModes o rfl
  · exact s.onRelay_keepsModes o rfl

theorem State.openWatch_keepsModes (s : State) (o : Outlet) (k : WindowKind) (load : Bool) (x : Option Nat) :
    s.KeepsModes (s.openWatch o k load x) := by
  unfold State.openWatch
  dsimp only
  split
  · split
    · exact s.watchFault_keepsModes o _ _ _ _
    · exact s.onRelay_keepsModes o rfl
  · exact s.onRelay_keepsModes o rfl

theorem State.relayAtClose_keepsModes (s : State) (o : Outlet) (w : Window) (k : WindowKind) (line : Bool)
    (irms : Option Nat) : s.KeepsModes (s.relayAtClose o w k line irms) := by
  unfold State.relayAtClose
  dsimp only
  split
  · split
    · exact .refl s
    · exact s.verified_keepsModes o _ _ _ _ _
  · split
    · exact s.weldWatch_keepsModes o _ _
    · exact s.openWatch_keepsModes o k _ _
    · exact .refl s

theorem State.relaysAtClose_keepsModes (s : State) (b : Bank) (w : Window) (k : WindowKind) (line : Bool) :
    s.KeepsModes (s.relaysAtClose b w k line) :=
  State.foldl_keepsModes _ (fun u p => u.relayAtClose_keepsModes (outletAt b p) w k line _) _ s

theorem State.relayLost_keepsModes (s : State) (o : Outlet) : s.KeepsModes (s.relayLost o) := by
  unfold State.relayLost
  split
  · exact (s.setRelay_keepsModes o _).trans (State.complete_keepsModes _ o _ _)
  · exact s.onRelay_keepsModes o rfl

/-! ## Shed stacks -/

/-- A shed unit's timers, flights and mark are not what modes are read from. -/
theorem State.onShed_keepsModes (s : State) (b : Bank) {f : ShedUnit → ShedUnit}
    (hf : (f s.sheds[b]).stack = s.sheds[b].stack) : s.KeepsModes (s.onShed b f) := by
  refine .of_face ⟨fun _ => rfl, fun c => ?_, rfl, rfl, fun _ => Iff.rfl⟩ rfl
  show (upd s.sheds b f)[c].stack = _
  rw [upd_get]
  split
  · rename_i e
    subst e
    exact hf
  · rfl

theorem State.refreshSheds_keepsModes (s : State) (b : Bank) : s.KeepsModes (s.refreshSheds b) :=
  (s.refreshSheds_follows b).keeps

theorem State.refreshAllSheds_keepsModes (s : State) : s.KeepsModes s.refreshAllSheds :=
  State.foldl_keepsModes _ State.refreshSheds_keepsModes _ s

theorem State.setStack_keepsModes (s : State) (o : Outlet) (f : List Outlet → List Outlet) :
    s.KeepsModes (s.setStack o f) := by
  refine ⟨fun h => ?_⟩
  have hshown : ((s.onShed (bankOf o) fun u => { u with stack := f u.stack }).refreshModes (bankOf o)).ModesKept :=
    State.refreshModes_modesKept fun c hc => (s.modesKept_iff.1 h c).congr rfl fun x hx => by
      refine State.modeOf_congr rfl ?_ rfl rfl
      have hunit : (upd s.sheds (bankOf o) fun u => { u with stack := f u.stack })[bankOf x] = s.sheds[bankOf x] :=
        upd_get_ne _ (fun e => hc (by rw [← hx, ← e])) _
      unfold State.isShed State.onShed
      rw [hunit]
  exact ((State.notePowerOf_follows _ s o).trans (State.refreshSheds_follows _ _)).modes hshown

theorem State.unshed_keepsModes (s : State) (o : Outlet) : s.KeepsModes (s.unshed o) :=
  State.ite_keepsModes fun _ => s.setStack_keepsModes o _

theorem State.unshedMembers_keepsModes (s : State) (g : Group) : s.KeepsModes (s.unshedMembers g) :=
  State.foldl_keepsModes _ (fun u o => by
    split
    · exact .refl u
    · exact u.unshed_keepsModes o) _ s

theorem State.request_keepsModes (s : State) (o : Outlet) (a : Action) (r : Origin) :
    s.KeepsModes (s.request o a r).2 := (s.request_follows o a r).keeps

theorem State.shedFirst_keepsModes (b : Bank) (os : List Outlet) (s : State) :
    s.KeepsModes (State.shedFirst b os s) := by
  induction os generalizing s with
  | nil =>
    unfold State.shedFirst
    split
    · exact .refl s
    · exact (s.onShed_keepsModes b rfl).trans (State.raise_keepsModes _ _ _ _)
  | cons o os ih =>
    unfold State.shedFirst
    dsimp only
    split
    · exact (((s.request_keepsModes o _ _).trans (State.onShed_keepsModes _ b rfl)).trans
        (State.setStack_keepsModes _ o _)).trans (State.raise_keepsModes _ _ _ _)
    · exact ih s

theorem State.restoreTop_keepsModes (s : State) (b : Bank) : s.KeepsModes (s.restoreTop b) := by
  unfold State.restoreTop
  split
  · exact .refl s
  · rename_i o _ _
    split
    · exact .refl s
    · exact State.ite_keepsModes fun _ => (((s.request_keepsModes o _ _).trans (State.onShed_keepsModes _ b rfl)).trans
        (State.unshed_keepsModes _ o)).trans (State.raise_keepsModes _ _ _ _)

/-! ## Issued actions -/

theorem State.issue_keepsModes (s : State) (o : Outlet) (a : Action) : s.KeepsModes (s.issue o a) := by
  have hqueue : ∀ q : List QueueEntry, s.KeepsModes { s with queue := q } := fun _ => .of_same rfl
  exact ((hqueue _).trans (State.setRelay_keepsModes _ o _)).trans (State.onLane_keepsModes _ _ _)

theorem State.issueOpens_keepsModes (s : State) : s.KeepsModes s.issueOpens :=
  State.foldl_keepsModes _ (fun u (e : QueueEntry) => u.issue_keepsModes e.outlet .opens) _ s

theorem State.grantTurn_keepsModes (s : State) : s.KeepsModes s.grantTurn := by
  have htoken : ∀ (p : SupplyPhase) (v : Vector (Option Outlet) 6), s.KeepsModes { s.takeToken p with turnOn := v } :=
    fun _ _ => .of_same rfl
  unfold State.grantTurn
  split
  · exact .refl s
  · split
    · exact .refl s
    · exact (htoken _ _).trans (State.issue_keepsModes _ _ _)

/-! ## Group operations -/

theorem State.startOp_busy (s : State) (g : Group) {x : OpState} (hx : x ≠ .idle) (k : OpKind) (c : OpCause) :
    (s.startOp g x k c).groups[g].op ≠ .idle := by
  have hgroups : (s.startOp g x k c).groups = (s.onGroup g fun r =>
      r.started x k c (s.members g).length s.uptime).groups := by
    unfold State.startOp
    rw [State.refreshModesOf_changes]
    rfl
  rw [hgroups, State.onGroup_get_self]
  exact hx

theorem State.startCycle_keepsModes (s : State) (g : Group) (c : OpCause) : s.KeepsModes (s.startCycle g c) :=
  ((s.startOp_follows g _ _ _).trans (State.enterOffing_follows (s.startOp_busy g (by exact nofun) _ _))).keeps

theorem State.startOff_keepsModes (s : State) (g : Group) : s.KeepsModes (s.startOff g) :=
  ((s.startOp_follows g _ _ _).trans (State.enterOffing_follows (s.startOp_busy g (by exact nofun) _ _))).keeps

theorem State.startOn_keepsModes (s : State) (g : Group) : s.KeepsModes (s.startOn g) := by
  have hon : ∀ u : State, u.Follows ((u.startOp g .oning .on .manual).enterOning g) := fun u =>
    (u.startOp_follows g _ _ _).trans (State.enterOning_follows (u.startOp_busy g (by exact nofun) _ _))
  exact (s.unshedMembers_keepsModes g).trans (hon _).keeps

theorem State.retryOp_keepsModes {s : State} {g : Group} (hg : s.groups[g].op ≠ .idle) :
    s.KeepsModes (s.retryOp g) := by
  have hpass : ∀ f : GroupOp → GroupOp, (f s.groups[g]).op = s.groups[g].op → s.Follows (s.onGroup g f) := fun f hf =>
    State.onGroup_follows (by rw [hf])
  unfold State.retryOp
  dsimp only
  split
  · refine State.Follows.keeps (.trans (hpass _ ?_) (.trans (State.onGroup_follows Iff.rfl)
      (State.enterOffing_follows (State.onGroup_busy ?_))))
    · rfl
    · rw [State.onGroup_get_self]
      exact hg
  · exact ((hpass _ (by rfl)).trans (State.failOp_follows _ g _)).keeps

theorem State.endOp_keepsModes (s : State) (g : Group) (r : OpResult) (w : Option OpReason) (v : Bool) :
    s.KeepsModes (s.endOp g r w v) := (s.endOp_follows g r w v).keeps

theorem State.groupBankLost_keepsModes (s : State) (b : Bank) : s.KeepsModes (s.groupBankLost b) :=
  State.foldl_keepsModes _ (fun u g => State.ite_keepsModes fun _ => (u.failOp_follows g _).keeps) _ s

theorem State.groupsSafe_keepsModes (s : State) : s.KeepsModes s.groupsSafe :=
  State.foldl_keepsModes _ (fun u g => by
    split
    · exact .refl u
    · exact u.endOp_keepsModes g _ _ _) _ s

theorem State.groupToken_keepsModes (s : State) (g : Group) : s.KeepsModes (s.groupToken g) :=
  State.ite_keepsModes fun _ => s.endOp_keepsModes g _ _ _

theorem State.appendHistories_keepsModes (s : State) (power : Outlet → Option Int) :
    s.KeepsModes (s.appendHistories power) :=
  State.foldl_keepsModes _ (fun u g => (State.onGroup_follows (by
    unfold State.appended
    split <;> exact Iff.rfl)).keeps) _ s

theorem State.verifyCurrent_keepsModes (s : State) (irms : Outlet → Nat) : s.KeepsModes (s.verifyCurrent irms) :=
  State.foldl_keepsModes _ (fun u g => State.ite_keepsModes fun _ => u.endOp_keepsModes g _ _ _) _ s

/-! ## Safe control -/

theorem State.requestSafe_keepsModes (s : State) : s.KeepsModes s.requestSafe.2 :=
  List.foldlRecOn (motive := fun x : SafeTally × State => s.KeepsModes x.2) _ _ (.refl s) fun x hx o _ => by
    split
    · exact hx
    · exact hx.trans (x.2.request_keepsModes o _ _)

theorem State.enterSafe_keepsModes (s : State) (c : SafeCause) : s.KeepsModes (s.enterSafe c) := by
  have hset : ∀ (u : State) (v : SafeControl), u.KeepsModes { u with safe := v } := fun _ _ => .of_same rfl
  have hmonitors : ∀ u : State, u.KeepsModes u.monitorsOffline := fun _ =>
    .of_same (by simp only [State.faceFields, State.monitorsOffline])
  have hends : ∀ u : State, u.KeepsModes u.groupsSafe.monitorsOffline.refreshAllSheds := fun u =>
    (u.groupsSafe_keepsModes.trans (hmonitors _)).trans (State.refreshAllSheds_keepsModes _)
  have hwithdraw : ∀ u : State, u.KeepsModes (u.withdraw QueueEntry.notSafeOrShed) := fun u =>
    (u.withdraw_follows _).keeps
  unfold State.enterSafe
  dsimp only
  exact (hset _ _).trans ((hwithdraw _).trans ((State.requestSafe_keepsModes _).trans ((hset _ _).trans
    ((State.raise_keepsModes _ _ _ _).trans (hends _)))))

theorem State.enterSafeOnce_keepsModes (s : State) (c : SafeCause) : s.KeepsModes (s.enterSafeOnce c) := by
  unfold State.enterSafeOnce
  split
  · exact .refl s
  · exact s.enterSafe_keepsModes c

theorem State.leaveSafe_keepsModes (s : State) : s.KeepsModes s.leaveSafe := by
  have hset : ∀ (v : SafeControl) (m : Vector Monitor 32), s.KeepsModes { s with safe := v, monitors := m } :=
    fun _ _ => .of_same rfl
  exact (hset _ _).trans (State.refreshAllSheds_keepsModes _)

/-! ## Monitors -/

theorem State.hangBusy_keepsModes (s : State) (g : Group) (r : BusyReport) : s.KeepsModes (s.hangBusy g r) :=
  (s.onMonitor_keepsModes g _).trans (State.raise_keepsModes _ _ _ _)

theorem State.hangAccepted_keepsModes (s : State) (g : Group) (x : Option Nat) : s.KeepsModes (s.hangAccepted g x) :=
  ((s.onMonitor_keepsModes g _).trans (State.startCycle_keepsModes _ g _)).trans (State.raise_keepsModes _ _ _ _)

theorem State.hangCycle_keepsModes (s : State) (g : Group) (x : Option Nat) : s.KeepsModes (s.hangCycle g x) := by
  unfold State.hangCycle
  dsimp only
  generalize hu : s.onMonitor g _ = u
  have hwindow : s.KeepsModes u := hu ▸ s.onMonitor_keepsModes g _
  refine hwindow.trans ?_
  split
  · exact (State.onMonitor_keepsModes _ g _).trans (State.raise_keepsModes _ _ _ _)
  · split
    · exact State.hangAccepted_keepsModes _ g x
    · exact State.onMonitor_keepsModes _ g _
    · exact State.hangBusy_keepsModes _ g _
    · exact State.hangBusy_keepsModes _ g _

theorem State.graceActs_keepsModes (s : State) (g : Group) : s.KeepsModes (s.graceActs g) := by
  unfold State.graceActs
  dsimp only
  split
  · exact .refl s
  · exact (s.onMonitor_keepsModes g _).trans (State.raise_keepsModes _ _ _ _)
  · exact s.hangCycle_keepsModes g _
  · split
    · exact s.hangCycle_keepsModes g _
    · exact s.hangBusy_keepsModes g _
    · exact s.hangBusy_keepsModes g _

theorem State.monitorToken_keepsModes (s : State) (g : Group) : s.KeepsModes (s.monitorToken g) := by
  unfold State.monitorToken
  split
  · exact State.ite_keepsModes fun _ => s.onMonitor_keepsModes g _
  · exact s.onMonitor_keepsModes g _
  · exact (s.onMonitor_keepsModes g _).trans (State.raise_keepsModes _ _ _ _)
  · exact (s.onMonitor_keepsModes g _).trans (State.raise_keepsModes _ _ _ _)
  all_goals exact .refl s

theorem State.takeTokens_keepsModes (s : State) (numbers : List Byte) : s.KeepsModes (s.takeTokens numbers) := by
  refine State.foldl_keepsModes _ (fun u n => ?_) _ s
  split
  · exact .refl u
  · rename_i g _
    exact State.ite_keepsModes fun _ => ((u.onMonitor_keepsModes g _).trans
      (State.monitorToken_keepsModes _ g)).trans (State.groupToken_keepsModes _ g)

/-! ## Sets and closes -/

theorem State.limitsAt_keepsModes (s : State) (b : Bank) (w : Window) (k : WindowKind) :
    s.KeepsModes (s.limitsAt b w k) := by
  have hstack : ∀ c : Bank, (s.limitsAt b w k).sheds[c].stack = s.sheds[c].stack := fun c => by
    unfold State.limitsAt
    split
    · obtain ⟨-, -, -, -, -, hsheds⟩ := s.limitsAtClose_fields b (fun o => w.irms (posOf o)) w.bankIrms
      rw [hsheds, State.evalBank_stack]
    · rfl
    · rfl
  have hlimited := s.limitsAt_limited b w k
  generalize s.limitsAt b w k = t at hlimited hstack
  unfold State.Limited at hlimited
  generalize t.outletLimits = x1, t.bankLimits = x2, t.phaseLimits = x3, t.loadLost = x4, t.phaseElements = x5,
    t.sheds = x6, t.notifier = x7, t.link0 = x8 at hlimited
  subst hlimited
  exact .of_face ⟨fun _ => rfl, hstack, rfl, rfl, fun _ => Iff.rfl⟩ rfl

theorem State.captureAtClose_keepsModes (s : State) (b : Bank) (k : WindowKind) : s.KeepsModes (s.captureAtClose b k) := by
  rw [State.captureAtClose_changes]
  exact .of_same rfl

theorem State.boundary_keepsModes (s : State) (b : Bank) : s.KeepsModes (s.boundary b) := by
  rw [State.boundary_changes]
  exact .of_same rfl

theorem State.closeWindow_keepsModes (s : State) (b : Bank) (c : Bool) : s.KeepsModes (s.closeWindow b c) := by
  have hmeters : ∀ (w : Window) (k : WindowKind), s.KeepsModes (s.metersAtClose b w k) := fun w k => by
    rw [State.metersAtClose_eq]
    exact .of_same rfl
  unfold State.closeWindow
  split
  · exact .refl s
  · exact ((((hmeters _ _).trans (State.limitsAt_keepsModes _ b _ _)).trans
      (State.relaysAtClose_keepsModes _ b _ _ c)).trans (State.captureAtClose_keepsModes _ b _)).trans
      (State.boundary_keepsModes _ b)

theorem State.openWindow_keepsModes (s : State) (b : Bank) (num : SetNo) (aligned : Bool) :
    s.KeepsModes (s.openWindow b num aligned) := .of_same rfl

theorem State.placeSet_keepsModes (s : State) (b : Bank) (num : SetNo) (c : Bool) : s.KeepsModes (s.placeSet b num c) := by
  unfold State.placeSet
  split
  · exact s.openWindow_keepsModes b num c
  · exact State.ite_keepsModes fun _ => (s.closeWindow_keepsModes b true).trans (State.openWindow_keepsModes _ b num true)

theorem State.handSet_keepsModes (s : State) (b : Bank) (num : SetNo) (raw : RawSet) (sub : Bool) :
    s.KeepsModes (s.handSet b num raw sub) := by
  have hmeter : ∀ f : BankMeter → BankMeter, s.KeepsModes (s.onMeter b f) := fun _ => .of_same rfl
  have hadd : ∀ (u : State) (x : CalSet), u.KeepsModes (u.addSet b x) := fun _ _ => .of_same rfl
  have hfull : ∀ u : State, u.KeepsModes (u.closeFull b) := fun u =>
    State.ite_keepsModes fun _ => u.closeWindow_keepsModes b false
  exact ((((hmeter _).trans (State.placeSet_keepsModes _ b num _)).trans
    (State.relaySet_keepsModes _ b raw.closed sub .uncommanded)).trans (hadd _ _)).trans (hfull _)

/-! ## Lanes -/

theorem State.enterUp_keepsModes (s : State) (b : Bank) (c : SampleCell) : s.KeepsModes (s.enterUp b c) := by
  have hreset : ∀ (u : State) (v : Vector (Option Nat) 6),
      u.KeepsModes { u.onMeter b BankMeter.windowReset with phaseElements := v } := fun _ _ => .of_same rfl
  unfold State.enterUp
  exact ((((((s.onLane_keepsModes b _).trans (hreset _ _)).trans (State.raise_keepsModes _ _ _ _)).trans
    (State.relaySet_keepsModes _ b _ _ _)).trans (State.placeIndicate_keepsModes _ b)).trans
    (State.refreshSheds_keepsModes _ b)).trans (State.handSet_keepsModes _ b _ _ _)

theorem State.enterLost_keepsModes (s : State) (b : Bank) : s.KeepsModes (s.enterLost b) := by
  have hstopped : s.KeepsModes (((s.onLane b Lane.enterLost).discardWindow b).raise .bankLost (numberOf b)
      (.bankLost s.lanes[b].counter)) := .of_same rfl
  have hcapture : ∀ u : State, u.KeepsModes (u.captureLost b) := fun u => by
    rw [State.captureLost_changes]
    exact .of_same rfl
  unfold State.enterLost
  exact ((((hstopped.trans (State.refreshSheds_keepsModes _ b)).trans (State.groupBankLost_keepsModes _ b)).trans
    (State.foldl_keepsModes _ State.relayLost_keepsModes _ _)).trans (hcapture _)).trans (State.boundary_keepsModes _ b)

/-! ## Intervals -/

theorem State.closeInterval_keepsModes (s : State) : s.KeepsModes s.closeInterval := by
  have hevents : s.KeepsModes (allBanks.foldl (fun t b => t.raiseEvent (s.intervalEvent b s.intervalEnd)) s) :=
    State.foldl_keepsModes _ (fun u b => (u.raiseEvent_follows _).keeps) _ s
  have hnext : ∀ (u : State) (v : IntervalClock), u.KeepsModes { u.clearSums with interval := v } :=
    fun _ _ => .of_same (by simp only [State.faceFields, State.clearSums])
  exact ((hevents.trans (hnext _ _)).trans (State.appendHistories_keepsModes _ _)).trans
    (State.verifyCurrent_keepsModes _ _)

/-! ## Tables -/

theorem Staged.discard_active {α : Type} {n m : Nat} (t : Staged α n m) (waits : Fin n → Bool) :
    (t.discard waits).active = t.active := by
  unfold Staged.discard
  split <;> rfl

/-- The outlet table changes, but for its entries in force. -/
theorem State.withOutletTable_keepsModes {s : State} {v : Staged OutletEntry 48 48}
    (hv : v.active = s.outletTable.active) : s.KeepsModes { s with outletTable := v } :=
  ⟨State.withOutletTable_modesKept hv⟩

theorem State.withGroupTable_keepsModes {s : State} {v : Staged GroupEntry 32 32}
    (hv : v.active = s.groupTable.active) : s.KeepsModes { s with groupTable := v } :=
  (State.withGroupTable_follows hv).keeps

theorem State.writeEntry_keepsModes (s : State) (t : TableId) (k : Nat) (area : List Byte) :
    s.KeepsModes (s.writeEntry t k area).state := by
  cases t
  case outlet =>
    simp only [State.writeEntry, State.writeOutlet]
    repeat' split
    · exact State.withOutletTable_keepsModes rfl
    all_goals exact .refl s
  case group =>
    simp only [State.writeEntry, State.writeGroup]
    repeat' split
    · exact State.withGroupTable_keepsModes rfl
    all_goals exact .refl s
  all_goals
    simp only [State.writeEntry, State.writeBank, State.writePhase, State.writeCal, State.writeGrant, State.writeSystem]
    repeat' split
  all_goals exact .of_same rfl

theorem State.discardTable_keepsModes (s : State) (t : TableId) : s.KeepsModes (s.discardTable t).state := by
  cases t
  case outlet => exact State.withOutletTable_keepsModes (Staged.discard_active _ _)
  case group => exact State.withGroupTable_keepsModes (Staged.discard_active _ _)
  all_goals exact .of_same rfl

theorem State.commitOutlets_keepsModes (s : State) : s.KeepsModes s.commitOutlets.state := by
  have happly : ∀ l : List Outlet, s.KeepsModes (l.foldl State.applyOutlet s) := fun l =>
    State.foldl_keepsModes _ (fun _ o => ⟨State.applyOutlet_modesKept o⟩) l s
  unfold State.commitOutlets
  dsimp only
  split
  · exact (happly _).trans (State.withOutletTable_keepsModes rfl)
  · exact (happly _).trans (State.withOutletTable_keepsModes rfl)

theorem State.commitGroups_keepsModes (s : State) : s.KeepsModes s.commitGroups.state := by
  have hclean : ∀ u : State, u.KeepsModes { u with groupTable := { u.groupTable with state := .clean } } := fun _ =>
    State.withGroupTable_keepsModes rfl
  have hdefer : ∀ (u : State) (gs : List Group), u.KeepsModes { u with groupTable := u.groupTable.defer gs } :=
    fun _ _ => State.withGroupTable_keepsModes rfl
  unfold State.commitGroups
  dsimp only
  split
  · exact .refl s
  · split
    · exact (s.applyGroups_follows _).keeps.trans (hclean _)
    · exact (s.applyGroups_follows _).keeps.trans (hdefer _ _)

theorem State.commitPhases_keepsModes (s : State) : s.KeepsModes s.commitPhases.state := by
  have htable : s.KeepsModes { s with phaseTable := s.phaseTable.applyAll } := .of_same rfl
  refine htable.trans (State.foldl_keepsModes _ (fun u p => ?_) _ _)
  unfold State.alignPhase
  dsimp only
  repeat' split
  all_goals exact .of_same rfl

theorem State.commitTable_keepsModes (s : State) (t : TableId) (tag : Byte) :
    s.KeepsModes (s.commitTable t tag).state := by
  have hcal : s.KeepsModes (s.commitCal tag).state := by
    unfold State.commitCal
    rw [State.replyByBank_state]
    exact .of_same rfl
  have hbanks : s.KeepsModes (s.commitBanks tag).state := by
    unfold State.commitBanks
    rw [State.replyByBank_state]
    exact .of_same rfl
  have hgrants : s.KeepsModes s.commitGrants.state := by
    unfold State.commitGrants
    split <;> exact .of_same rfl
  have hsystem : s.KeepsModes s.commitSystem.state := .of_same rfl
  cases t
  all_goals
    simp only [State.commitTable]
    split
  case outlet.isTrue => exact s.commitOutlets_keepsModes
  case bank.isTrue => exact hbanks
  case phase.isTrue => exact s.commitPhases_keepsModes
  case calibration.isFalse =>
    split
    · exact hcal
    · exact .refl s
  case group.isTrue => exact s.commitGroups_keepsModes
  case grant.isTrue => exact hgrants
  case system.isTrue => exact hsystem
  all_goals exact .refl s

/-! ## Restarts -/

/-- All modes computed again are those of R80, whatever was shown before (R79). -/
theorem State.showModes_modesKept (s : State) : s.showModes.ModesKept := by
  have hplace : ({ s with shown := Vector.ofFn fun b => s.modesOf b } : State).KeepsModes s.showModes :=
    State.foldl_keepsModes _ State.placeIndicate_keepsModes _ _
  refine hplace.modes ((State.modesKept_iff _).2 fun b => ?_)
  exact ofFn_get (fun b : Bank => s.modesOf b) b

theorem State.safeByPin_keepsModes (s : State) : s.KeepsModes s.safeByPin :=
  State.ite_keepsModes fun _ => s.enterSafe_keepsModes _

theorem State.restartEngine_modesKept (s : State) : s.restartEngine.ModesKept := State.showModes_modesKept _

theorem State.restartAll_modesKept (s : State) : s.restartAll.ModesKept :=
  (State.safeByPin_keepsModes _).modes (State.showModes_modesKept _)

end Sys2Proof.Machine
end

