-- ==== Sys2Proof/Proofs/ModesEveryStep.lean ====
section
/-! Command by command: the shown modes stay those of R80. -/

namespace Sys2Proof.Machine

/-- A command that, when its condition holds, keeps the modes, and else changes nothing. -/
theorem keepsModes_of_ite {s t u : State} {c : Prop} [Decidable c]
    (h : (if c then Host.Outcome.next u else .next s : Result) = .next t) (hu : c → s.KeepsModes u) :
    s.KeepsModes t := by
  split at h
  · cases h; exact hu ‹_›
  · cases h; exact .refl s

/-- A command is taken and keeps what its owner keeps, or changes nothing. -/
theorem State.take_keepsModes {s t : State} {kind tag : Byte} {payload : List Byte} {len : Nat} {run : State → Reply}
    (h : s.take kind tag payload len run = .next t) (hrun : ∀ u : State, u.KeepsModes (run u).state) :
    s.KeepsModes t := by
  have hpop : s.KeepsModes s.popCommand := .of_same rfl
  have hfill : ∀ (u : State) (x : Option (Status × Answer)), u.KeepsModes (u.fillSlot tag kind x) := fun u x => by
    cases x <;> exact .of_same rfl
  have hreply : ∀ u : State, u.KeepsModes (u.replyTo payload len run).state := fun u => by
    unfold State.replyTo
    split
    · exact hrun u
    · exact .refl u
  exact keepsModes_of_ite h fun _ => (hpop.trans (hreply _)).trans (hfill _ _)

theorem State.KeepsModes.reply {s t : State} (h : s.KeepsModes t) (st : Status) : s.KeepsModes (t.reply st).state := h

/-! ## Lanes -/

theorem State.laneError_keepsModes (s : State) (b : Bank) (k : ErrorKind) (bytes : List Byte) :
    s.KeepsModes (s.laneError b k bytes) :=
  (s.onLane_keepsModes b _).trans (State.raiseLinkError_keepsModes _ _ _ _ _)

theorem State.laneCell_keepsModes (s : State) (b : Bank) (cell : List LineChar) : s.KeepsModes (s.laneCell b cell) := by
  unfold State.laneCell State.offerSample
  split
  · exact s.laneError_keepsModes b _ _
  · split
    · exact s.onLane_keepsModes b _
    · exact s.laneError_keepsModes b _ _

theorem execLaneCellReceived_keepsModes (b : Bank) (chars : List LineChar) {s t : State}
    (h : execLaneCellReceived b chars s = .next t) : s.KeepsModes t := by
  unfold execLaneCellReceived at h
  dsimp only at h
  split at h
  · cases h
    split
    · exact .refl s
    · exact s.onLane_keepsModes b _
  · cases h
    split
    · exact s.onLane_keepsModes b _
    · exact (s.onLane_keepsModes b _).trans (State.laneCell_keepsModes _ b _)

theorem execLaneBreak_keepsModes (b : Bank) {s t : State} (h : execLaneBreak b s = .next t) : s.KeepsModes t :=
  keepsModes_of_ite h fun _ => (s.onLane_keepsModes b _).trans (State.laneError_keepsModes _ b _ _)

theorem execSignalTimerExpiry_keepsModes (b : Bank) {s t : State} (h : execSignalTimerExpiry b s = .next t) :
    s.KeepsModes t := by
  unfold execSignalTimerExpiry at h
  split at h
  · split at h <;> cases h
    · exact s.onLane_keepsModes b _
    · exact (s.onLane_keepsModes b _).trans (State.raise_keepsModes _ _ _ _)
    · exact .refl s
    · exact .refl s
  · cases h; exact .refl s

theorem State.handNext_keepsModes (s : State) (b : Bank) (raw : RawSet) (sub : Bool) :
    s.KeepsModes (s.handNext b raw sub) :=
  (s.onLane_keepsModes b _).trans (State.handSet_keepsModes _ b _ raw sub)

theorem State.handSubstitutes_keepsModes (n : Nat) (b : Bank) (raw : RawSet) (s : State) :
    s.KeepsModes (State.handSubstitutes n b raw s) := by
  induction n generalizing s with
  | zero => exact .refl s
  | succ n ih => exact (s.handNext_keepsModes b raw true).trans (ih _)

theorem State.takeInUp_keepsModes (s : State) (b : Bank) (c : SampleCell) : s.KeepsModes (s.takeInUp b c) :=
  State.ite_keepsModes fun _ => ((State.handSubstitutes_keepsModes _ b _ s).trans
    (State.handNext_keepsModes _ b _ _)).trans (State.onLane_keepsModes _ b _)

theorem State.takeInRun_keepsModes (s : State) (b : Bank) (c : SampleCell) : s.KeepsModes (s.takeInRun b c) := by
  unfold State.takeInRun
  split
  · exact s.enterUp_keepsModes b c
  · exact s.onLane_keepsModes b _

theorem execTakeSampleCell_keepsModes (b : Bank) {s t : State} (h : execTakeSampleCell b s = .next t) :
    s.KeepsModes t := by
  unfold execTakeSampleCell at h
  split at h
  · cases h; exact .refl s
  · split at h
    · dsimp only at h
      split at h <;> cases h
      · exact .refl s
      · exact (s.onLane_keepsModes b _).trans (State.takeInRun_keepsModes _ b _)
      · exact (s.onLane_keepsModes b _).trans (State.takeInUp_keepsModes _ b _)
      · exact (s.onLane_keepsModes b _).trans (State.takeInRun_keepsModes _ b _)
    · cases h; exact .refl s

/-! ## Timers -/

theorem execShedTimerExpiry_keepsModes (b : Bank) {s t : State} (h : execShedTimerExpiry b s = .next t) :
    s.KeepsModes t :=
  keepsModes_of_ite h fun _ => ((s.onShed_keepsModes b (by rfl)).trans (State.shedFirst_keepsModes b _ _)).trans
    (State.refreshSheds_keepsModes _ b)

theorem execRestoreTimerExpiry_keepsModes (b : Bank) {s t : State} (h : execRestoreTimerExpiry b s = .next t) :
    s.KeepsModes t :=
  keepsModes_of_ite h fun _ => ((s.onShed_keepsModes b (by rfl)).trans (State.restoreTop_keepsModes _ b)).trans
    (State.refreshSheds_keepsModes _ b)

theorem execDispatchOpportunity_keepsModes {s t : State} (h : execDispatchOpportunity s = .next t) :
    s.KeepsModes t := by
  have hmark : ∀ u : State, u.KeepsModes { u with grantPtr := u.grantPtr + 1, opportunityTaken := true } := fun _ =>
    .of_same rfl
  exact keepsModes_of_ite h fun _ => (s.issueOpens_keepsModes.trans (State.grantTurn_keepsModes _)).trans (hmark _)

theorem execGrantTimeout_keepsModes (o : Outlet) {s t : State} (h : execGrantTimeout o s = .next t) :
    s.KeepsModes t := by
  unfold execGrantTimeout at h
  split at h
  · cases h; exact .refl s
  · exact keepsModes_of_ite h fun _ => s.complete_keepsModes _ _ _

theorem execDwellExpiry_keepsModes (g : Group) {s t : State} (h : execDwellExpiry g s = .next t) : s.KeepsModes t := by
  refine keepsModes_of_ite h fun hdue => ?_
  have hbusy : s.groups[g].op ≠ .idle := by rw [hdue.1]; exact nofun
  exact ((State.onGroup_follows (by exact Iff.rfl)).trans (State.enterOning_follows (State.onGroup_busy hbusy))).keeps

theorem execStaggerExpiry_keepsModes (g : Group) {s t : State} (h : execStaggerExpiry g s = .next t) :
    s.KeepsModes t := by
  refine keepsModes_of_ite h fun hdue => ?_
  have hbusy : s.groups[g].op ≠ .idle := by rw [hdue.1]; exact nofun
  exact ((State.onGroup_follows (by exact Iff.rfl)).trans (State.turnsFrom_follows _ (State.onGroup_busy hbusy))).keeps

theorem execBootWindowExpiry_keepsModes (g : Group) {s t : State} (h : execBootWindowExpiry g s = .next t) :
    s.KeepsModes t := by
  unfold execBootWindowExpiry at h
  split at h
  · rename_i hdue
    split at h
    · obtain ⟨rfl⟩ := Host.Outcome.next.inj h
      exact State.retryOp_keepsModes (by rw [hdue.1]; exact nofun)
    · obtain ⟨rfl⟩ := Host.Outcome.next.inj h
      exact (s.failOp_follows g _).keeps
  · cases h; exact .refl s

theorem execDeadlineExpiry_keepsModes (g : Group) {s t : State} (h : execDeadlineExpiry g s = .next t) :
    s.KeepsModes t := by
  refine keepsModes_of_ite h fun _ => ?_
  generalize hu : (s.onMonitor g _).raise _ _ _ = u
  have hsuspect : s.KeepsModes u := hu ▸ (s.onMonitor_keepsModes g _).trans (State.raise_keepsModes _ _ _ _)
  exact hsuspect.trans (State.ite_keepsModes fun _ => u.graceActs_keepsModes g)

/-! ## Link 0 -/

theorem State.linkError_keepsModes (s : State) (k : ErrorKind) (bytes : List Byte) :
    s.KeepsModes (s.linkError k bytes) := by
  have hrecord : ∀ f : Link0 → Link0, s.KeepsModes (s.onLink0 f) := fun _ => .of_same rfl
  exact (hrecord _).trans (State.raiseLinkError_keepsModes _ _ _ _ _)

theorem State.offerCommand_keepsModes (s : State) (c : CommandCell) (bytes : List Byte) :
    s.KeepsModes (s.offerCommand c bytes) := by
  unfold State.offerCommand
  split
  · exact .of_same rfl
  · exact s.linkError_keepsModes _ _

theorem execLink0CellReceived_keepsModes (chars : List LineChar) {s t : State}
    (h : execLink0CellReceived chars s = .next t) : s.KeepsModes t := by
  have hgap : ∀ f : Link0 → Link0, s.KeepsModes (s.onLink0 f) := fun _ => .of_same rfl
  unfold execLink0CellReceived at h
  obtain ⟨rfl⟩ := Host.Outcome.next.inj h
  split
  · exact hgap _
  · split
    · exact (hgap _).trans (State.linkError_keepsModes _ _ _)
    · exact (hgap _).trans (State.offerCommand_keepsModes _ _ _)

theorem execLink0Break_keepsModes (chars : List LineChar) {s t : State} (h : execLink0Break chars s = .next t) :
    s.KeepsModes t := by
  have hflush : ∀ f : Link0 → Link0, s.KeepsModes (s.onLink0 f) := fun _ => .of_same rfl
  cases h
  exact (hflush _).trans (State.linkError_keepsModes _ _ _)

theorem execUpstreamCellStart_keepsModes {s t : State} (h : execUpstreamCellStart s = .next t) : s.KeepsModes t := by
  unfold execUpstreamCellStart State.startUpstream at h
  split at h <;> cases h
  · exact .refl s
  · split <;> exact .of_same rfl

/-! ## Safe control and restarts -/

theorem execSafePinChange_keepsModes (asserted : Bool) {s t : State} (h : execSafePinChange asserted s = .next t) :
    s.KeepsModes t := by
  have hpin : ∀ x : Bool, s.KeepsModes { s with safePin := x } := fun _ => .of_same rfl
  unfold execSafePinChange at h
  split at h
  · cases h; exact .refl s
  · split at h <;> cases h
    · exact (hpin _).trans (State.enterSafeOnce_keepsModes _ _)
    · exact hpin _

theorem execRestartTakesEffect_keepsModes {s t : State} (h : execRestartTakesEffect s = .next t) : s.KeepsModes t := by
  unfold execRestartTakesEffect at h
  split at h
  · cases h; exact .refl s
  · split at h
    · obtain ⟨rfl⟩ := Host.Outcome.next.inj h
      split
      · exact ⟨fun _ => s.restartEngine_modesKept⟩
      · exact ⟨fun _ => s.restartAll_modesKept⟩
    · cases h; exact .refl s

theorem execPowerOn_keepsModes {s t : State} (h : execPowerOn s = .next t) : s.KeepsModes t := by
  have hlines : State.reset.KeepsModes { State.reset with pending := s.pending, safePin := s.safePin, holdIn := s.holdIn } :=
    .of_same rfl
  cases h
  exact ⟨fun _ => (hlines.trans (State.safeByPin_keepsModes _)).modes State.reset_modesKept⟩

/-! ## Commands of link 0: tables, reads, notifier and capture unit -/

section
variable (tag : Byte) (payload : List Byte) {s t : State}

theorem execWriteEntry_keepsModes (h : execWriteEntry tag payload s = .next t) : s.KeepsModes t := by
  refine State.take_keepsModes h fun u => ?_
  split
  · exact .refl u
  · exact u.writeEntry_keepsModes _ _ _

theorem execDiscard_keepsModes (h : execDiscard tag payload s = .next t) : s.KeepsModes t := by
  refine State.take_keepsModes h fun u => ?_
  split
  · exact .refl u
  · exact u.discardTable_keepsModes _

theorem execCommit_keepsModes (h : execCommit tag payload s = .next t) : s.KeepsModes t := by
  refine State.take_keepsModes h fun u => ?_
  split
  · exact .refl u
  · exact u.commitTable_keepsModes _ tag

theorem execReadEntry_keepsModes (h : execReadEntry tag payload s = .next t) : s.KeepsModes t := by
  refine State.take_keepsModes h fun u => ?_
  repeat' split
  all_goals exact .refl u

theorem execLockCal_keepsModes (h : execLockCal tag payload s = .next t) : s.KeepsModes t := by
  refine State.take_keepsModes h fun u => ?_
  repeat' split
  all_goals exact .of_same rfl

theorem execReadOutlet_keepsModes (h : execReadOutlet tag payload s = .next t) : s.KeepsModes t := by
  refine State.take_keepsModes h fun u => ?_
  split <;> exact .refl u

theorem execReadGroup_keepsModes (h : execReadGroup tag payload s = .next t) : s.KeepsModes t := by
  refine State.take_keepsModes h fun u => ?_
  split <;> exact .refl u

theorem execClearLockout_keepsModes (h : execClearLockout tag payload s = .next t) : s.KeepsModes t := by
  refine State.take_keepsModes h fun u => ?_
  split
  · exact .refl u
  · exact u.onMonitor_keepsModes _ _

theorem execClearEnergy_keepsModes (h : execClearEnergy tag payload s = .next t) : s.KeepsModes t := by
  refine State.take_keepsModes h fun u => ?_
  have houtlets : ∀ v : Vector OutletMeter 48, u.KeepsModes { u with outlets := v } := fun _ => .of_same rfl
  repeat' split
  · exact houtlets _
  · exact .refl u
  · exact houtlets _

theorem execSetLevel_keepsModes (h : execSetLevel tag payload s = .next t) : s.KeepsModes t := by
  refine State.take_keepsModes h fun u => ?_
  repeat' split
  all_goals exact .of_same rfl

theorem execSetMask_keepsModes (h : execSetMask tag payload s = .next t) : s.KeepsModes t := by
  refine State.take_keepsModes h fun u => ?_
  split <;> exact .of_same rfl

theorem execBindStream_keepsModes (h : execBindStream tag payload s = .next t) : s.KeepsModes t := by
  refine State.take_keepsModes h fun u => ?_
  dsimp only
  repeat' split
  all_goals exact .of_same rfl

theorem execUnbindStream_keepsModes (h : execUnbindStream tag payload s = .next t) : s.KeepsModes t := by
  refine State.take_keepsModes h fun u => ?_
  repeat' split
  all_goals exact .of_same rfl

theorem execTriggerStream_keepsModes (h : execTriggerStream tag payload s = .next t) : s.KeepsModes t := by
  refine State.take_keepsModes h fun u => ?_
  unfold State.triggerBound
  repeat' split
  all_goals exact .of_same rfl

theorem execCapture_keepsModes (h : execCapture tag payload s = .next t) : s.KeepsModes t := by
  refine State.take_keepsModes h fun u => ?_
  repeat' split
  all_goals exact .of_same rfl

theorem execReadCapture_keepsModes (h : execReadCapture tag payload s = .next t) : s.KeepsModes t := by
  refine State.take_keepsModes h fun u => ?_
  dsimp only
  repeat' split
  all_goals exact .refl u

theorem execRestart_keepsModes (h : execRestart tag payload s = .next t) : s.KeepsModes t := by
  refine State.take_keepsModes h fun u => ?_
  split <;> exact .of_same rfl

theorem execUnknownCommand_keepsModes (kind : Byte) (h : execUnknownCommand kind tag payload s = .next t) :
    s.KeepsModes t := by
  unfold execUnknownCommand at h
  split at h
  · cases h; exact .refl s
  · exact State.take_keepsModes h fun u => .refl u

/-! ## Commands of link 0: switching, groups and safe control -/

theorem State.switched_keepsModes (s : State) (o : Outlet) (a : Action) : s.KeepsModes (s.switched o a) := by
  unfold State.switched
  split
  · exact (s.request_keepsModes o a .manual).trans (State.unshed_keepsModes _ o)
  · exact s.request_keepsModes o a .manual

theorem State.switchOutlet_keepsModes (s : State) (o : Outlet) (a : Action) :
    s.KeepsModes (s.switchOutlet o a).state := by
  unfold State.switchOutlet
  dsimp only
  split
  · exact .refl s
  · split
    · exact .refl s
    · split
      · exact .refl s
      · exact (s.switched_keepsModes o a).reply _

theorem execSwitch_keepsModes (h : execSwitch tag payload s = .next t) : s.KeepsModes t := by
  refine State.take_keepsModes h fun u => ?_
  split
  · exact u.switchOutlet_keepsModes _ _
  · exact .refl u
  · exact .refl u

theorem execClearFault_keepsModes (h : execClearFault tag payload s = .next t) : s.KeepsModes t := by
  refine State.take_keepsModes h fun u => ?_
  split
  · exact .refl u
  · split
    · exact u.setRelay_keepsModes _ _
    · exact .refl u

end

/-! ## Group operations by command -/

section
variable {s : State} {g : Group}

/-- An operation in progress stays in its state. -/
theorem State.onGroup_follows_op (s : State) (g : Group) {f : GroupOp → GroupOp}
    (hf : (f s.groups[g]).op = s.groups[g].op) : s.Follows (s.onGroup g f) :=
  State.onGroup_follows (by rw [hf])

theorem State.onGroup_op {f : GroupOp → GroupOp} (hf : (f s.groups[g]).op = s.groups[g].op) :
    (s.onGroup g f).groups[g].op = s.groups[g].op := by
  rw [State.onGroup_get_self, hf]

theorem State.withdrawAwaited_op (s : State) (g : Group) : (s.withdrawAwaited g).groups[g].op = s.groups[g].op := by
  unfold State.withdrawAwaited
  rw [State.onGroup_op (by rfl), (s.withdraw_groups _).1]

/-- GROUP_OFF in DWELL (R117). -/
theorem State.offDwell_follows (s : State) (g : Group) :
    s.Follows ((s.onGroup g fun r => { r with dwell := none }).endOp g .done none false) :=
  (s.onGroup_follows_op g (by rfl)).trans (State.endOp_follows _ g _ _ _)

/-- GROUP_OFF in ONING (R117). -/
theorem State.offOning_follows (hg : s.groups[g].op ≠ .idle) : s.Follows
    (((s.onGroup g fun r => { r with stagger := none, repower := false }).withdrawAwaited g).enterOffing g) := by
  refine (s.onGroup_follows_op g (by rfl)).trans ((State.withdrawAwaited_follows _ g).trans
    (State.enterOffing_follows ?_))
  rw [State.withdrawAwaited_op, State.onGroup_op (by rfl)]
  exact hg

/-- GROUP_OFF in VERIFYING (R117). -/
theorem State.offVerifying_follows (hg : s.groups[g].op ≠ .idle) :
    s.Follows ((s.onGroup g fun r => { r with boot := none }).enterOffing g) := by
  refine (s.onGroup_follows_op g (by rfl)).trans (State.enterOffing_follows ?_)
  rw [State.onGroup_op (by rfl)]
  exact hg

theorem State.cancelOffing_follows (hg : s.groups[g].op ≠ .idle) : s.Follows (s.cancelOffing g) := by
  refine (s.withdrawAwaited_follows g).trans ((State.onGroup_follows_op _ g (by rfl)).trans
    (State.offingOver_follows ?_))
  rw [State.onGroup_op (by rfl), State.withdrawAwaited_op]
  exact hg

theorem State.cycleGroup_keepsModes (s : State) (g : Group) : s.KeepsModes (s.cycleGroup g).state := by
  unfold State.cycleGroup
  dsimp only
  split
  · exact .refl s
  · split
    · split
      · exact .refl s
      · exact (s.startCycle_keepsModes g _).reply _
    · split
      · exact .refl s
      · exact (s.onGroup_follows_op g (by rfl)).keeps.reply _
    · split <;> exact .refl s
    · exact .refl s
    · exact .refl s

theorem State.offGroup_keepsModes (s : State) (g : Group) : s.KeepsModes (s.offGroup g).state := by
  generalize hu : (s.onGroup g fun r => { r with kind := some .off, cause := some .manual }) = u
  have hturn : s.Follows u := hu ▸ s.onGroup_follows_op g (by rfl)
  have hop : u.groups[g].op = s.groups[g].op := hu ▸ State.onGroup_op (by rfl)
  unfold State.offGroup
  dsimp only
  rw [hu]
  split
  · exact .refl s
  · split
    · exact .refl s
    · split
      · exact (s.startOff_keepsModes g).reply _
      · exact hturn.keeps.reply _
      · exact (hturn.trans (u.offDwell_follows g)).keeps.reply _
      · rename_i hoffing
        exact (hturn.trans (State.offOning_follows (by rw [hop, hoffing]; exact nofun))).keeps.reply _
      · rename_i hverifying
        exact (hturn.trans (State.offVerifying_follows (by rw [hop, hverifying]; exact nofun))).keeps.reply _

theorem State.onGroupPower_keepsModes (s : State) (g : Group) : s.KeepsModes (s.onGroupPower g).state := by
  unfold State.onGroupPower
  dsimp only
  split
  · exact .refl s
  · split
    · exact (s.startOn_keepsModes g).reply _
    · exact .refl s
    · exact .refl s
    · split
      · exact .refl s
      · exact (s.unshedMembers_keepsModes g).reply _
    · split
      · exact .refl s
      · exact (s.unshedMembers_keepsModes g).reply _

theorem State.cancelGroup_keepsModes (s : State) (g : Group) : s.KeepsModes (s.cancelGroup g).state := by
  have hend : s.KeepsModes (s.endOp g .cancelled (some .command) false) := s.endOp_keepsModes g _ _ _
  unfold State.cancelGroup
  dsimp only
  split
  · exact .refl s
  · rename_i hoffing
    split
    · exact .refl s
    · exact (State.cancelOffing_follows (by rw [hoffing]; exact nofun)).keeps.reply _
  · split
    · exact .refl s
    · exact hend.reply _
  · split
    · exact .refl s
    · exact ((s.withdrawAwaited_follows g).trans (State.endOp_follows _ g _ _ _)).keeps.reply _
  · split
    · exact .refl s
    · exact hend.reply _

end

section
variable (tag : Byte) (payload : List Byte) {s t : State}

theorem execCycle_keepsModes (h : execCycle tag payload s = .next t) : s.KeepsModes t := by
  refine State.take_keepsModes h fun u => ?_
  split
  · exact .refl u
  · exact u.cycleGroup_keepsModes _

theorem execGroupOff_keepsModes (h : execGroupOff tag payload s = .next t) : s.KeepsModes t := by
  refine State.take_keepsModes h fun u => ?_
  split
  · exact .refl u
  · exact u.offGroup_keepsModes _

theorem execGroupOn_keepsModes (h : execGroupOn tag payload s = .next t) : s.KeepsModes t := by
  refine State.take_keepsModes h fun u => ?_
  split
  · exact .refl u
  · exact u.onGroupPower_keepsModes _

theorem execCancel_keepsModes (h : execCancel tag payload s = .next t) : s.KeepsModes t := by
  refine State.take_keepsModes h fun u => ?_
  split
  · exact .refl u
  · exact u.cancelGroup_keepsModes _

theorem execToken_keepsModes (h : execToken tag payload s = .next t) : s.KeepsModes t := by
  have hpop : s.KeepsModes s.popCommand := .of_same rfl
  exact keepsModes_of_ite h fun _ => hpop.trans (State.takeTokens_keepsModes _ _)

theorem execResume_keepsModes (h : execResume tag payload s = .next t) : s.KeepsModes t := by
  refine State.take_keepsModes h fun u => ?_
  split
  · exact u.leaveSafe_keepsModes
  · exact .refl u

theorem execClearLinkErrors_keepsModes (h : execClearLinkErrors tag payload s = .next t) : s.KeepsModes t := by
  refine State.take_keepsModes h fun u => ?_
  exact .of_same (by simp only [State.faceFields, State.clearLinkErrors, State.reply])

end

/-! ## Every command -/

theorem exec_keepsModes {c : Instr} {s t : State} (h : exec c s = .next t) : s.KeepsModes t := by
  have hrefill : ∀ (v : Vector Nat 3) (r : Vector Timer 3), s.KeepsModes { s with tokens := v, refill := r } :=
    fun _ _ => .of_same rfl
  have hsettle : ∀ v : Vector Timer 6, s.KeepsModes { s with settle := v } := fun _ => .of_same rfl
  cases c with
  | powerOn => exact execPowerOn_keepsModes h
  | laneCharacter b c => cases h; exact s.onLane_keepsModes b _
  | laneCellReceived b chars => exact execLaneCellReceived_keepsModes b chars h
  | laneBreak b => exact execLaneBreak_keepsModes b h
  | takeSampleCell b => exact execTakeSampleCell_keepsModes b h
  | silenceTimerExpiry b => exact keepsModes_of_ite h fun _ => s.enterLost_keepsModes b
  | signalTimerExpiry b => exact execSignalTimerExpiry_keepsModes b h
  | laneCellStart b => cases h; exact s.onLane_keepsModes b _
  | intervalClose => exact keepsModes_of_ite h fun _ => s.closeInterval_keepsModes
  | shedTimerExpiry b => exact execShedTimerExpiry_keepsModes b h
  | restoreTimerExpiry b => exact execRestoreTimerExpiry_keepsModes b h
  | dispatchOpportunity => exact execDispatchOpportunity_keepsModes h
  | settleTimerExpiry b => exact keepsModes_of_ite h fun _ => hsettle _
  | refillTimerExpiry p => exact keepsModes_of_ite h fun _ => hrefill _ _
  | grantTimeout o => exact execGrantTimeout_keepsModes o h
  | dwellExpiry g => exact execDwellExpiry_keepsModes g h
  | staggerExpiry g => exact execStaggerExpiry_keepsModes g h
  | bootWindowExpiry g => exact execBootWindowExpiry_keepsModes g h
  | deadlineExpiry g => exact execDeadlineExpiry_keepsModes g h
  | graceExpiry g => exact keepsModes_of_ite h fun _ => s.graceActs_keepsModes g
  | budgetWindowExpiry g => exact keepsModes_of_ite h fun _ => s.onMonitor_keepsModes g _
  | link0CellReceived chars => exact execLink0CellReceived_keepsModes chars h
  | link0Break chars => exact execLink0Break_keepsModes chars h
  | upstreamCellStart => exact execUpstreamCellStart_keepsModes h
  | holdInChange asserted => cases h; exact .of_same rfl
  | safePinChange asserted => exact execSafePinChange_keepsModes asserted h
  | restartTakesEffect => exact execRestartTakesEffect_keepsModes h
  | unknownCommand kind tag payload => exact execUnknownCommand_keepsModes tag payload kind h
  | readEntry tag payload => exact execReadEntry_keepsModes tag payload h
  | writeEntry tag payload => exact execWriteEntry_keepsModes tag payload h
  | discard tag payload => exact execDiscard_keepsModes tag payload h
  | commit tag payload => exact execCommit_keepsModes tag payload h
  | lockCal tag payload => exact execLockCal_keepsModes tag payload h
  | switch tag payload => exact execSwitch_keepsModes tag payload h
  | clearFault tag payload => exact execClearFault_keepsModes tag payload h
  | clearEnergy tag payload => exact execClearEnergy_keepsModes tag payload h
  | readOutlet tag payload => exact execReadOutlet_keepsModes tag payload h
  | cycle tag payload => exact execCycle_keepsModes tag payload h
  | groupOff tag payload => exact execGroupOff_keepsModes tag payload h
  | groupOn tag payload => exact execGroupOn_keepsModes tag payload h
  | cancel tag payload => exact execCancel_keepsModes tag payload h
  | readGroup tag payload => exact execReadGroup_keepsModes tag payload h
  | clearLockout tag payload => exact execClearLockout_keepsModes tag payload h
  | token tag payload => exact execToken_keepsModes tag payload h
  | setLevel tag payload => exact execSetLevel_keepsModes tag payload h
  | setMask tag payload => exact execSetMask_keepsModes tag payload h
  | bindStream tag payload => exact execBindStream_keepsModes tag payload h
  | unbindStream tag payload => exact execUnbindStream_keepsModes tag payload h
  | triggerStream tag payload => exact execTriggerStream_keepsModes tag payload h
  | capture tag payload => exact execCapture_keepsModes tag payload h
  | readCapture tag payload => exact execReadCapture_keepsModes tag payload h
  | forceSafe tag payload => exact State.take_keepsModes h fun u => u.enterSafeOnce_keepsModes _
  | resume tag payload => exact execResume_keepsModes tag payload h
  | status tag payload => exact State.take_keepsModes h fun u => .refl u
  | restart tag payload => exact execRestart_keepsModes tag payload h
  | clearLinkErrors tag payload => exact execClearLinkErrors_keepsModes tag payload h

theorem step_keepsModes {s t : State} (h : step s = .next t) : s.KeepsModes t := by
  unfold step at h
  split at h
  · cases h
    unfold State.tick
    dsimp only
    split <;> exact .of_same rfl
  · rename_i c rest _
    have hrest : s.KeepsModes (s.withPending rest) := .of_same rfl
    exact hrest.trans (exec_keepsModes h)

end Sys2Proof.Machine
end

