-- ==== Sys2Proof/Proofs/ClearFault.lean ====
section
/-! CLEAR_FAULT (R77), the mode table (R80), and what a changed relay record has told (R81, R103). -/

namespace Sys2Proof.Machine

/-! ## A changed relay record -/

section
variable (s : State) (o : Outlet) (f : Relay → Relay)

/-- After the record has changed, what modes are read from stays. -/
theorem State.setRelay_sameFace : (s.onRelay o f).SameFace (s.setRelay o f) := by
  have hnote : ∀ u : State, u.SameFace (u.notePowerOf s o) := fun u => by
    rw [(u.notePowerOf_eq s o).1]
    exact .of_same rfl rfl rfl rfl rfl
  exact ((s.onRelay o f).refreshModes_sameFace (bankOf o)).trans (hnote _)

/-- The outlet's bank alone has its modes computed again. -/
theorem State.setRelay_shown (c : Bank) :
    (s.setRelay o f).shown[c] = if c = bankOf o then (s.setRelay o f).modesOf c else s.shown[c] := by
  rw [(s.setRelay_sameFace o f).modesOf]
  unfold State.setRelay
  rw [(State.notePowerOf_eq _ s o).1]
  refine ((s.onRelay o f).refreshModes_shown (bankOf o) c).trans ?_
  split
  · rename_i hc
    rw [hc]
  · rfl

/-- The monitor of the outlet's group follows the derived power state, and no other. -/
theorem State.setRelay_eq : s.setRelay o f =
      { State.refreshModes { s with relays := upd s.relays o f } (bankOf o) with monitors := (s.setRelay o f).monitors }
    ∧ ∀ g : Group, (s.setRelay o f).monitors[g] = if s.groupOf o = some g
        then s.monitors[g].afterPower (s.power g) ((s.setRelay o f).power g) else s.monitors[g] := by
  have hset : s.setRelay o f = ((s.onRelay o f).refreshModes (bankOf o)).notePowerOf s o := rfl
  have hmodes := (s.onRelay o f).refreshModes_changes (bankOf o)
  have hrefresh : State.refreshModes { s with relays := upd s.relays o f } (bankOf o) =
      (s.onRelay o f).refreshModes (bankOf o) := rfl
  generalize (s.onRelay o f).refreshModes (bankOf o) = v at hset hmodes hrefresh
  obtain ⟨hnote, hmonitors⟩ := v.notePowerOf_eq s o
  have hgroup : v.groupOf o = s.groupOf o ∧ v.monitors = s.monitors := by
    rw [hmodes]
    exact ⟨rfl, rfl⟩
  have hpower : (s.setRelay o f).power = v.power := by
    rw [hset, hnote]
    exact State.power_congr rfl rfl rfl
  rw [hgroup.1, hgroup.2, ← hpower] at hmonitors
  rw [hrefresh]
  rw [← hset] at hnote hmonitors
  exact ⟨hnote, hmonitors⟩

end

/-! ## The table of modes -/

section
variable {s : State} {o : Outlet}

theorem State.blinks_iff : s.blinks o = true ↔ s.relays[o].state = .closing ∨ s.relays[o].state = .opening
    ∨ s.relays[o].state = .faultOpen ∨ s.relays[o].state = .faultWelded ∨ o ∈ s.sheds[bankOf o].stack
    ∨ ∃ g : Group, s.groupOf o = some g ∧ s.groups[g].op ≠ .idle := by
  simp only [State.blinks, Bool.or_eq_true, beq_iff_eq, RelayState.faulted_iff, State.isShed_iff, State.groupBusy_iff,
    or_assoc]

theorem State.modeOf_of_auto (h : s.outletTable.active[o].indicator = .auto) : s.modeOf o =
    if s.blinks o = true then .blink else if s.relays[o].state = .on then .on else .off := by
  unfold State.modeOf
  rw [h]
  simp only [beq_iff_eq]

end

/-! ## CLEAR_FAULT -/

/-- A cleared fault leaves an UNKNOWN relay, and has the modes of its bank computed again. -/
def State.faultCleared (s : State) (o : Outlet) : State := s.setRelay o fun _ => .settled .unknown none

section
variable {s : State} {tag n : Byte} {o : Outlet}

theorem exec_clearFault_of_badArg (h : s.ready 0x07 tag [n]) (hn : n.toNat = 0 ∨ 48 < n.toNat) :
    exec (.clearFault tag [n]) s = .next (s.taken.answered 0x07 tag .badArg (.offending none)) := by
  refine State.take_answered h rfl ?_
  rw [show indexed 48 (arg [n] 0) = none from indexed_eq_none_iff.2 hn]
  rfl

theorem exec_clearFault_of_sound (h : s.ready 0x07 tag [n]) (hn : n.toNat = o.val + 1)
    (hopen : s.relays[o].state ≠ .faultOpen) (hwelded : s.relays[o].state ≠ .faultWelded) :
    exec (.clearFault tag [n]) s = .next (s.taken.answered 0x07 tag .state .empty) := by
  refine State.take_answered h rfl ?_
  rw [indexed_eq_some (show arg [n] 0 = o.val + 1 from hn)]
  exact if_neg fun hfault => ((RelayState.faulted_iff _).1 hfault).elim hopen hwelded

theorem exec_clearFault_of_fault (h : s.ready 0x07 tag [n]) (hn : n.toNat = o.val + 1)
    (hfault : s.relays[o].state = .faultOpen ∨ s.relays[o].state = .faultWelded) :
    exec (.clearFault tag [n]) s = .next ((s.taken.faultCleared o).answered 0x07 tag .ok .empty) := by
  refine State.take_answered h rfl ?_
  rw [indexed_eq_some (show arg [n] 0 = o.val + 1 from hn)]
  exact if_pos ((RelayState.faulted_iff _).2 hfault)

end

/-- Settles O26: a changed relay record by its equation, and every step by the commands. -/
theorem clearFaultForgetsTheFault : Obligations.ClearFaultForgetsTheFault := by
  refine ⟨fun tag n s h => ⟨exec_clearFault_of_badArg h, fun o hn => ⟨exec_clearFault_of_sound h hn, fun hfault => ?_⟩⟩,
    fun o s => ?_, fun b s => ⟨fun hsame => State.refreshModes_of_shown hsame,
      fun hchanged => State.refreshModes_of_changed hchanged⟩,
    fun o f s => ?_, fun g s => s.power_allOff g, fun s t hs h => (step_keepsModes h).modes hs⟩
  · refine ⟨_, exec_clearFault_of_fault h hn hfault, ?_⟩
    have hchanges := s.taken.setRelay_changes o fun _ => .settled .unknown none
    have hlanes := (s.taken.setRelay_rereads (bankOf o) o rfl fun _ => .settled .unknown none).otherLanes
    have hshown := s.taken.setRelay_shown o fun _ => .settled .unknown none
    have hmeasures : s.taken.sameMeasures (s.taken.faultCleared o) := State.sameMeasures_of_quiet (State.setRelay_quiet _ _ _)
    unfold State.faultCleared at *
    generalize s.taken.setRelay o _ = u at *
    have hface : u.SameFace (u.answered 0x07 tag .ok .empty) := .of_same rfl rfl rfl rfl rfl
    have hlink : u.link0 = s.taken.link0 := by rw [hchanges]
    refine ⟨⟨congrArg Link0.fifo hlink, congrArg (·.filled ++ _) hlink⟩, ?_, hmeasures, ?_, ?_, ?_, ?_, ?_, ?_, ?_,
      fun p => ?_, fun b hb => ⟨(hshown b).trans (if_neg hb), hlanes b hb⟩⟩
    iterate 8 exact (by rw [hchanges]; rfl)
    rw [hface.modeOf]
    exact (u.showsModes_iff _).1 ((hshown (bankOf o)).trans (if_pos rfl)) p
  · intro blinks
    have hblinks : s.blinks o = true ↔ blinks := State.blinks_iff
    cases hi : s.outletTable.active[o].indicator with
    | on => unfold State.modeOf; rw [hi]
    | blink => unfold State.modeOf; rw [hi]
    | off => unfold State.modeOf; rw [hi]
    | auto =>
      rw [State.modeOf_of_auto hi]
      refine ⟨fun hb => if_pos (hblinks.2 hb), fun hb hon => ?_, fun hb hon => ?_⟩
      · rw [if_neg (hblinks.not.2 hb), if_pos hon]
      · rw [if_neg (hblinks.not.2 hb), if_neg hon]
  · intro t
    obtain ⟨hset, hmonitors⟩ := s.setRelay_eq o f
    exact ⟨hset, fun g hg => (hmonitors g).trans (if_neg hg), fun g hg => (hmonitors g).trans (if_pos hg)⟩

end Sys2Proof.Machine
end

