-- ==== Sys2Proof/Proofs/IssuedActions.lean ====
section
/-! What issuing some entries of the queue makes of the state (R67, R89, R92), and when their actions actuate (R68, R69). -/

namespace Sys2Proof.Machine

/-! ## The parts of an issued action -/

/-- The relay record with the entry's action in flight (R67). -/
def State.issuedRelay (s : State) (e : QueueEntry) : Relay :=
  { state := e.action.moving, detail := none, weld := 0, dead := 0
    flight := some { action := e.action, actuateAt := s.actuateAt e.outlet e.action
                     verifyAt := s.actuateAt e.outlet e.action + 24 } }

/-- The RELAY cell of the entry's action (R69). -/
def State.relayCell (s : State) (e : QueueEntry) : RelayCell :=
  { pos := posOf e.outlet, action := e.action, at8 := BitVec.ofNat 8 (s.actuateAt e.outlet e.action).toNat }

/-- The cells of the entries of bank `b`. -/
def State.relayCells (s : State) (l : List QueueEntry) (b : Bank) : List RelayCell :=
  (l.filter fun e => bankOf e.outlet = b).map s.relayCell

/-- An entry once those of `l` are ISSUED. -/
def QueueEntry.afterIssue (l : List QueueEntry) (now : Uptime) (e : QueueEntry) : QueueEntry :=
  if e.outlet ∈ l.map (·.outlet) then { e with state := .issued now } else e

/-- `t` comes from `s` by issuing the entries of `l`; of tokens, refill timers and turn-ons it says nothing. -/
structure State.Issues (s t : State) (l : List QueueEntry) : Prop where
  changes : t = { s with queue := t.queue, relays := t.relays, shown := t.shown, lanes := t.lanes, monitors := t.monitors
                         tokens := t.tokens, refill := t.refill, turnOn := t.turnOn }
  queue : t.queue = s.queue.map (QueueEntry.afterIssue l s.uptime)
  moved : ∀ e ∈ l, t.relays[e.outlet] = s.issuedRelay e
  still : ∀ o : Outlet, o ∉ l.map (·.outlet) → t.relays[o] = s.relays[o]
  lane : ∀ b : Bank, t.lanes[b] = { s.lanes[b] with
    indicator := t.lanes[b].indicator, relayList := s.lanes[b].relayList ++ s.relayCells l b }

/-! ## Entries -/

theorem QueueEntry.afterIssue_of_mem {l : List QueueEntry} {e : QueueEntry} (h : e.outlet ∈ l.map (·.outlet))
    (now : Uptime) : e.afterIssue l now = { e with state := .issued now } := if_pos h

theorem QueueEntry.afterIssue_of_not_mem {l : List QueueEntry} {e : QueueEntry} (h : e.outlet ∉ l.map (·.outlet))
    (now : Uptime) : e.afterIssue l now = e := if_neg h

theorem QueueEntry.afterIssue_nil (now : Uptime) (e : QueueEntry) : e.afterIssue [] now = e :=
  QueueEntry.afterIssue_of_not_mem (by exact List.not_mem_nil) now

/-- Issuing changes nothing of an entry but its state. -/
theorem QueueEntry.afterIssue_fields (l : List QueueEntry) (now : Uptime) (e : QueueEntry) :
    (e.afterIssue l now).outlet = e.outlet ∧ (e.afterIssue l now).action = e.action
    ∧ (e.afterIssue l now).origin = e.origin ∧ (e.afterIssue l now).enqueued = e.enqueued := by
  unfold QueueEntry.afterIssue
  split <;> exact ⟨rfl, rfl, rfl, rfl⟩

theorem QueueEntry.afterIssue_append (l l' : List QueueEntry) (now : Uptime) (e : QueueEntry) :
    (e.afterIssue l now).afterIssue l' now = e.afterIssue (l ++ l') now := by
  have hmem : e.outlet ∈ (l ++ l').map (·.outlet) ↔ e.outlet ∈ l.map (·.outlet) ∨ e.outlet ∈ l'.map (·.outlet) := by
    rw [List.map_append, List.mem_append]
  unfold QueueEntry.afterIssue
  by_cases h : e.outlet ∈ l.map (·.outlet)
  · simp only [hmem, h, if_true, true_or, ite_self]
  · simp only [hmem, h, if_false, false_or]

/-! ## One action -/

/-- The actuate-at set is read from the bank's meter, the lane's counter and the outlet's entry. -/
theorem State.actuateAt_congr {s t : State} (hm : t.meters = s.meters) (he : t.outletTable = s.outletTable)
    (hl : ∀ b : Bank, t.lanes[b].counter = s.lanes[b].counter) : t.actuateAt = s.actuateAt := by
  funext o a
  unfold State.actuateAt
  rw [hm, he, hl]

section
variable (s : State) (e : QueueEntry)

theorem State.issue_eq : s.issue e.outlet e.action =
    (State.setRelay { s with queue := s.queue.map (QueueEntry.afterIssue [e] s.uptime) } e.outlet
      (fun _ => s.issuedRelay e)).onLane (bankOf e.outlet) fun l => { l with relayList := l.relayList ++ [s.relayCell e] } := by
  have hqueue : (fun x : QueueEntry => if x.outlet = e.outlet then { x with state := .issued s.uptime } else x) =
      QueueEntry.afterIssue [e] s.uptime := funext fun x => if_congr (by simp) rfl rfl
  have hcell : s.relayCell e = { pos := posOf e.outlet, action := e.action
                                 at8 := (s.actuateAt e.outlet e.action).truncate 8 } := by
    unfold State.relayCell
    rw [BitVec.eq_of_toNat_eq (x := (s.actuateAt e.outlet e.action).truncate 8)
      (y := BitVec.ofNat 8 (s.actuateAt e.outlet e.action).toNat) (by simp)]
  rw [hcell, ← hqueue]
  rfl

theorem State.issue_lane (b : Bank) : (s.issue e.outlet e.action).lanes[b] = { s.lanes[b] with
    indicator := (s.issue e.outlet e.action).lanes[b].indicator
    relayList := s.lanes[b].relayList ++ s.relayCells [e] b } := by
  rw [State.issue_eq]
  generalize hu : ({ s with queue := s.queue.map (QueueEntry.afterIssue [e] s.uptime) } : State) = u
  have hlanes : u.lanes = s.lanes := by rw [← hu]
  have hreads := u.setRelay_rereads (bankOf e.outlet) e.outlet rfl fun _ => s.issuedRelay e
  generalize u.setRelay e.outlet _ = v at hreads
  have hlane : ∀ f : Lane → Lane, (v.onLane (bankOf e.outlet) f).lanes = upd v.lanes (bankOf e.outlet) f := fun _ => rfl
  rw [hlane]
  by_cases hb : bankOf e.outlet = b
  · subst hb
    have hcells : s.relayCells [e] (bankOf e.outlet) = [s.relayCell e] := by simp [State.relayCells]
    rw [upd_get_self, hcells, hreads.lane, hlanes]
  · have hcells : s.relayCells [e] b = [] := by simp [State.relayCells, hb]
    rw [upd_get_ne _ hb, hcells, hreads.otherLanes b (Ne.symm hb), hlanes, List.append_nil]

theorem State.issue_changes : s.issue e.outlet e.action = { s with
    queue := s.queue.map (QueueEntry.afterIssue [e] s.uptime), relays := upd s.relays e.outlet fun _ => s.issuedRelay e
    shown := (s.issue e.outlet e.action).shown, lanes := (s.issue e.outlet e.action).lanes
    monitors := (s.issue e.outlet e.action).monitors } := by
  rw [State.issue_eq, State.setRelay_changes]
  rfl

/-- An issued action takes no token and starts no timer. -/
theorem State.issue_grants : ((s.issue e.outlet e.action).tokens, (s.issue e.outlet e.action).refill,
    (s.issue e.outlet e.action).turnOn) = (s.tokens, s.refill, s.turnOn) := by
  rw [State.issue_changes]

theorem State.issue_issues : s.Issues (s.issue e.outlet e.action) [e] := by
  have hchanges := s.issue_changes e
  have hlane := s.issue_lane e
  generalize s.issue e.outlet e.action = t at hchanges hlane
  have hrelays : t.relays = upd s.relays e.outlet fun _ => s.issuedRelay e := by rw [hchanges]
  refine ⟨?_, by rw [hchanges], fun x hx => ?_, fun o ho => ?_, hlane⟩
  · generalize t.shown = x1, t.lanes = x2, t.monitors = x3 at hchanges
    rw [hchanges]
  · obtain rfl := List.mem_singleton.1 hx
    rw [hrelays, upd_get_self]
  · rw [hrelays, upd_get_ne _ fun h => ho (by simp [h])]

end

/-! ## Several actions -/

/-- Tokens, refill timers and turn-ons alone may differ. -/
theorem State.Issues.of_grants {s t : State} (h : t = { s with tokens := t.tokens, refill := t.refill, turnOn := t.turnOn }) :
    s.Issues t [] := by
  have hrelays : t.relays = s.relays := by rw [h]
  have hlanes : t.lanes = s.lanes := by rw [h]
  refine ⟨?_, ?_, nofun, fun o _ => by rw [hrelays], fun b => ?_⟩
  · generalize t.tokens = x1, t.refill = x2, t.turnOn = x3 at h
    rw [h]
  · rw [List.map_congr_left fun e _ => e.afterIssue_nil s.uptime, List.map_id', h]
  · rw [hlanes]
    simp [State.relayCells]

section
variable {s t u : State} {l l' : List QueueEntry}

theorem State.Issues.fields (h : s.Issues t l) : t.uptime = s.uptime ∧ t.meters = s.meters
    ∧ t.outletTable = s.outletTable ∧ t.settle = s.settle ∧ t.bankLimits = s.bankLimits ∧ t.bankTable = s.bankTable
    ∧ t.grantTable = s.grantTable ∧ t.grantPtr = s.grantPtr ∧ t.sheds = s.sheds ∧ t.groups = s.groups
    ∧ t.safe = s.safe := by
  rw [h.changes]
  repeat' constructor

theorem State.Issues.actuateAt (h : s.Issues t l) : t.actuateAt = s.actuateAt := by
  obtain ⟨-, hmeters, hentries, -⟩ := h.fields
  exact State.actuateAt_congr hmeters hentries fun b => by rw [h.lane b]

theorem State.Issues.sameMeasures (h : s.Issues t l) : s.sameMeasures t := by
  have hlane : ∀ b : Bank, _ := fun b => h.lane b
  unfold State.sameMeasures
  rw [h.changes]
  refine ⟨rfl, rfl, rfl, rfl, rfl, rfl, rfl, rfl, rfl, rfl, rfl, rfl, rfl, rfl, rfl, rfl, rfl, rfl, rfl, rfl, fun b => ?_⟩
  dsimp only
  rw [hlane b]
  exact ⟨rfl, rfl, rfl, rfl, rfl, rfl, rfl, rfl⟩

/-- Issuing first `l`, then entries of other outlets. -/
theorem State.Issues.append (h : s.Issues t l) (h' : t.Issues u l')
    (hne : ∀ e ∈ l, e.outlet ∉ l'.map (·.outlet)) : s.Issues u (l ++ l') := by
  obtain ⟨huptime, -⟩ := h.fields
  have hact := h.actuateAt
  have hrelay : t.issuedRelay = s.issuedRelay := by
    funext e
    unfold State.issuedRelay
    rw [hact]
  have hcell : t.relayCell = s.relayCell := by
    funext e
    unfold State.relayCell
    rw [hact]
  refine ⟨?_, ?_, fun e he => ?_, fun o ho => ?_, fun b => ?_⟩
  · have ht := h.changes
    have hu := h'.changes
    generalize u.queue = x1, u.relays = x2, u.shown = x3, u.lanes = x4, u.monitors = x5, u.tokens = x6, u.refill = x7,
      u.turnOn = x8 at hu ⊢
    rw [hu, ht]
  · rw [h'.queue, h.queue, huptime, List.map_map]
    exact List.map_congr_left fun e _ => e.afterIssue_append l l' s.uptime
  · obtain he | he := List.mem_append.1 he
    · rw [h'.still _ (hne e he), h.moved e he]
    · rw [h'.moved e he, hrelay]
  · rw [List.map_append, List.mem_append, not_or] at ho
    rw [h'.still o ho.2, h.still o ho.1]
  · have hcells : s.relayCells (l ++ l') b = s.relayCells l b ++ t.relayCells l' b := by
      unfold State.relayCells
      rw [hcell, List.filter_append, List.map_append]
    rw [h'.lane b, h.lane b, hcells, List.append_assoc]

/-- Entries of different outlets are issued one after the other. -/
theorem State.foldl_issue_issues (l : List QueueEntry) (hl : (l.map (·.outlet)).Nodup) (s : State) :
    s.Issues (l.foldl (fun u e => u.issue e.outlet e.action) s) l := by
  induction l generalizing s with
  | nil => exact .of_grants rfl
  | cons e l ih =>
    obtain ⟨hnot, hnodup⟩ := List.nodup_cons.1 hl
    refine (s.issue_issues e).append (ih hnodup _) fun x hx => ?_
    obtain rfl := List.mem_singleton.1 hx
    exact hnot

end

/-! ## The actuate-at set -/

/-- The smallest prediction index of 1 or more whose actuate-at leaves 4 or more sets. -/
theorem predictionIndex_isLeast {len : Nat} (hlen : 0 < len) (od ofs gone : Int) :
    ∃ j : Nat, predictionIndex len od ofs gone = j ∧ 1 ≤ j ∧ 4 ≤ j * len - od + ofs - gone
      ∧ ∀ i : Nat, 1 ≤ i → i < j → i * len - od + ofs - gone < 4 := by
  have hpos : (0 : Int) < len := by exact_mod_cast hlen
  unfold predictionIndex Config.leadSets
  generalize hx : od - ofs + gone + ((4 : Nat) : Int) = x
  have hdiv := Int.mul_ediv_add_emod (-x) len
  have hlow := Int.emod_nonneg (-x) hpos.ne'
  have hhigh := Int.emod_lt_of_pos (-x) hpos
  generalize hq : -(-x / (len : Int)) = q
  have hreach : x ≤ q * len ∧ (q - 1) * len < x := by
    rw [← hq]
    constructor <;> nlinarith
  refine ⟨(max 1 q).toNat, by omega, by omega, ?_, fun i hi hij => ?_⟩
  · have hcast : (((max 1 q).toNat : Nat) : Int) = max 1 q := by omega
    have hmul : q * len ≤ max 1 q * len := by nlinarith [le_max_right 1 q]
    rw [hcast]
    push_cast at hx
    linarith [hreach.1]
  · have hiq : (i : Int) ≤ q - 1 := by omega
    have hmul : (i : Int) * len ≤ (q - 1) * len := by nlinarith
    push_cast at hx
    linarith [hreach.2]

/-- The offset of an action from its prediction: an OPEN's off offset (R68). -/
def State.actuateOffset (s : State) (o : Outlet) (a : Action) : Int :=
  match a with
  | .opens => s.outletTable.active[o].offOffset
  | .close => 0

section
variable {s : State} {o : Outlet}

/-- With no prediction the action actuates 4 sets after the newest (R69). -/
theorem State.actuateAt_untimed (a : Action)
    (h : s.meters[bankOf o].winLen = none ∨ s.meters[bankOf o].lastKind = some .noLine) :
    s.actuateAt o a = s.lanes[bankOf o].counter + 4 := by
  unfold State.actuateAt
  dsimp only
  split
  · rename_i hlen hkind
    rw [hlen, hkind] at h
    obtain h | h := h
    · nomatch h
    · cases h
      rfl
  · rfl

theorem State.actuateAt_timed (a : Action) {c : SetNo} {len : Nat} (hc : s.meters[bankOf o].crossing = some c)
    (hlen : s.meters[bankOf o].winLen = some len)
    (hkind : s.meters[bankOf o].lastKind = some .valid ∨ s.meters[bankOf o].lastKind = some .invalid) :
    s.actuateAt o a = c + BitVec.ofInt 32
      (predictionIndex len s.outletTable.active[o].operateDelay (s.actuateOffset o a)
          (setDiff s.lanes[bankOf o].counter c) * len
        - s.outletTable.active[o].operateDelay + s.actuateOffset o a) := by
  unfold State.actuateAt State.actuateOffset
  dsimp only
  rw [hc, hlen]
  obtain hkind | hkind := hkind
  · rw [hkind] <;> rfl
  · rw [hkind] <;> rfl

end

end Sys2Proof.Machine
end

