-- ==== Sys2Proof/Proofs/Dispatch.lean ====
section
/-! A dispatch opportunity issues the WAITING OPENs and at most one granted CLOSE (R88 to R92). -/

namespace Sys2Proof.Machine

/-! ## What a dispatch opportunity issues -/

theorem QueueEntry.isWaiting_iff (e : QueueEntry) : e.isWaiting = true ↔ e.state = .waiting := by
  unfold QueueEntry.isWaiting
  cases e.state <;> simp

/-- The WAITING OPENs whose bank is UP (R89). -/
def State.opensDue (s : State) : List QueueEntry :=
  s.queue.filter fun e => e.state = .waiting ∧ e.action = .opens ∧ s.lanes[bankOf e.outlet].link = .up

/-- The CLOSE that the phase at the pointer grants (R91, R92). -/
def State.closeGranted (s : State) : Option QueueEntry :=
  (s.grantTable.active[s.grantPtr]).bind fun b => s.queue.find? (s.eligible b)

theorem State.eligible_iff (s : State) (b : Bank) (e : QueueEntry) : s.eligible b e = true ↔
    e.state = .waiting ∧ e.action = .close ∧ bankOf e.outlet = b ∧ s.lanes[b].link = .up ∧ s.turnOn[b] = none
      ∧ s.settle[b] = none ∧ s.bankLimits[b].level ≠ .critical ∧ s.relays[e.outlet].state ≠ .faultOpen
      ∧ s.relays[e.outlet].state ≠ .faultWelded ∧ 0 < s.tokens[s.bankTable.active[b].phase] := by
  have hsound : s.relays[e.outlet].state.faulted = false ↔ s.relays[e.outlet].state ≠ .faultOpen
      ∧ s.relays[e.outlet].state ≠ .faultWelded := by
    rw [← Bool.not_eq_true, RelayState.faulted_iff, not_or]
  simp only [State.eligible, Bool.and_eq_true, QueueEntry.isWaiting_iff, beq_iff_eq, State.isUp, Option.isNone_iff_eq_none,
    bne_iff_ne, Bool.not_eq_true', hsound, decide_eq_true_iff, and_assoc]

theorem State.mem_opensDue (s : State) (e : QueueEntry) : e ∈ s.opensDue ↔
    e ∈ s.queue ∧ e.state = .waiting ∧ e.action = .opens ∧ s.lanes[bankOf e.outlet].link = .up := by
  unfold State.opensDue
  rw [List.mem_filter, decide_eq_true_iff]

theorem State.closeGranted_mem {s : State} {e : QueueEntry} (h : s.closeGranted = some e) :
    e ∈ s.queue ∧ ∃ b : Bank, s.grantTable.active[s.grantPtr] = some b ∧ s.eligible b e = true := by
  obtain ⟨b, hb, hfind⟩ := Option.bind_eq_some_iff.1 h
  exact ⟨List.mem_of_find?_eq_some hfind, b, hb, List.find?_some hfind⟩

/-- With one entry an outlet, entries are told apart by their outlets. -/
theorem State.QueueKept.inj {s : State} (h : s.QueueKept) {e x : QueueEntry} (he : e ∈ s.queue) (hx : x ∈ s.queue)
    (ho : e.outlet = x.outlet) : e = x := List.inj_on_of_nodup_map h he hx ho

/-! ## OPENs -/

theorem State.opensDue_issues {s : State} (h : s.QueueKept) : s.Issues s.issueOpens s.opensDue := by
  have hopens : s.issueOpens = s.opensDue.foldl (fun u e => u.issue e.outlet e.action) s := by
    have hlist : (s.queue.filter fun e => e.isWaiting && e.action == .opens && s.isUp (bankOf e.outlet)) = s.opensDue := by
      unfold State.opensDue
      refine List.filter_congr fun e _ => ?_
      rw [Bool.eq_iff_iff, decide_eq_true_iff]
      simp only [Bool.and_eq_true, QueueEntry.isWaiting_iff, beq_iff_eq, State.isUp, and_assoc]
    unfold State.issueOpens
    rw [hlist]
    refine List.foldl_ext _ _ _ fun u e he => ?_
    obtain ⟨-, -, haction, -⟩ := (s.mem_opensDue e).1 he
    rw [haction]
  rw [hopens]
  exact State.foldl_issue_issues _ (h.sublist (List.filter_sublist.map _)) s

theorem State.issueOpens_grants (s : State) :
    (s.issueOpens.tokens, s.issueOpens.refill, s.issueOpens.turnOn) = (s.tokens, s.refill, s.turnOn) :=
  foldl_keeps (fun u : State => (u.tokens, u.refill, u.turnOn)) _
    (fun u (e : QueueEntry) => u.issue_grants { e with action := .opens }) _ s

/-! ## The grant -/

section
variable {s t : State}

/-- The OPENs issued first leave the choice of the CLOSE. -/
theorem State.Issues.closeGranted (hq : s.QueueKept) (h : s.Issues t s.opensDue)
    (hgrants : (t.tokens, t.refill, t.turnOn) = (s.tokens, s.refill, s.turnOn)) : t.closeGranted = s.closeGranted := by
  obtain ⟨-, -, -, hsettle, hlimits, hbanks, hgrantTable, hptr, -⟩ := h.fields
  simp only [Prod.mk.injEq] at hgrants
  obtain ⟨htokens, -, hturnOn⟩ := hgrants
  have hlink : ∀ b : Bank, t.lanes[b].link = s.lanes[b].link := fun b => by rw [h.lane b]
  have hother : ∀ e ∈ s.queue, e.action = .close → e.outlet ∉ s.opensDue.map (·.outlet) := fun e he hclose hmem => by
    obtain ⟨x, hx, ho⟩ := List.mem_map.1 hmem
    obtain ⟨hxq, -, hopens, -⟩ := (s.mem_opensDue x).1 hx
    rw [hq.inj hxq he ho, hclose] at hopens
    nomatch hopens
  have heligible : ∀ (b : Bank), ∀ e ∈ s.queue,
      (t.eligible b ∘ QueueEntry.afterIssue s.opensDue s.uptime) e = s.eligible b e := fun b e he => by
    have htoken : t.tokens[t.bankTable.active[b].phase] = s.tokens[s.bankTable.active[b].phase] := by
      simp only [htokens, hbanks]
    by_cases hclose : e.action = .close
    · rw [Function.comp_apply, QueueEntry.afterIssue_of_not_mem (hother e he hclose), Bool.eq_iff_iff,
        State.eligible_iff, State.eligible_iff, h.still _ (hother e he hclose), hlink, hsettle, hlimits, hturnOn, htoken]
    · obtain ⟨-, haction, -⟩ := e.afterIssue_fields s.opensDue s.uptime
      rw [Function.comp_apply, Bool.eq_iff_iff, State.eligible_iff, State.eligible_iff, haction]
      exact iff_of_false (fun hx => hclose hx.2.1) fun hx => hclose hx.2.1
  have hslot : t.grantTable.active[t.grantPtr] = s.grantTable.active[s.grantPtr] := by simp only [hgrantTable, hptr]
  unfold State.closeGranted
  rw [hslot]
  refine congrArg _ (funext fun b => ?_)
  rw [h.queue, List.find?_map, List.find?_congr (heligible b)]
  cases hfind : s.queue.find? (s.eligible b) with
  | none => rfl
  | some e =>
    obtain ⟨-, hclose, -⟩ := (s.eligible_iff b e).1 (List.find?_some hfind)
    exact congrArg some (QueueEntry.afterIssue_of_not_mem (hother e (List.mem_of_find?_eq_some hfind) hclose) _)

theorem State.grantTurn_of_none (h : s.closeGranted = none) : s.grantTurn = s := by
  unfold State.closeGranted at h
  unfold State.grantTurn
  split
  · rfl
  · rename_i b hb
    rw [hb] at h
    split
    · rfl
    · rename_i e hfind
      exact absurd (hfind.symm.trans h) nofun

/-- The granted CLOSE takes a token, becomes the bank's turn-on in flight and is issued. -/
theorem State.grantTurn_of_some {e : QueueEntry} (h : s.closeGranted = some e) : s.grantTurn = State.issue
    { s.takeToken s.bankTable.active[bankOf e.outlet].phase with
      turnOn := upd s.turnOn (bankOf e.outlet) fun _ => some e.outlet } e.outlet e.action := by
  obtain ⟨b, hb, hfind⟩ := Option.bind_eq_some_iff.1 h
  obtain ⟨-, hclose, hbank, -⟩ := (s.eligible_iff b e).1 (List.find?_some hfind)
  subst hbank
  unfold State.grantTurn
  rw [hb]
  dsimp only
  rw [hfind, hclose]
  rfl

/-- The tokens, refill timers and turn-ons after a dispatch opportunity that grants `x` (R92, R95). -/
def State.Grants (s t : State) (x : Option QueueEntry) : Prop :=
  match x with
  | none => (t.tokens, t.refill, t.turnOn) = (s.tokens, s.refill, s.turnOn)
  | some e => (t.tokens, t.refill, t.turnOn) =
      (upd s.tokens s.bankTable.active[bankOf e.outlet].phase (fun n => n - 1),
       upd s.refill s.bankTable.active[bankOf e.outlet].phase (fun u => some (u.getD s.uptime)),
       upd s.turnOn (bankOf e.outlet) fun _ => some e.outlet)

theorem State.takeToken_refill (s : State) (p : SupplyPhase) :
    (s.takeToken p).refill = upd s.refill p fun u => some (u.getD s.uptime) := by
  have htaken : (s.takeToken p).refill =
      upd s.refill p fun t => match t with | none => some s.uptime | some u => some u := rfl
  rw [htaken]
  refine upd_congr ?_
  cases s.refill[p] <;> rfl

theorem State.grantTurn_issues (s : State) :
    s.Issues s.grantTurn s.closeGranted.toList ∧ s.Grants s.grantTurn s.closeGranted := by
  cases h : s.closeGranted with
  | none =>
    rw [State.grantTurn_of_none h]
    exact ⟨.of_grants rfl, rfl⟩
  | some e =>
    rw [State.grantTurn_of_some h]
    generalize hp : s.bankTable.active[bankOf e.outlet].phase = p
    generalize hu : ({ s.takeToken p with turnOn := upd s.turnOn (bankOf e.outlet) fun _ => some e.outlet } : State) = u
    have hnone : s.Issues u [] := .of_grants (by rw [← hu]; rfl)
    refine ⟨hnone.append (u.issue_issues e) nofun, ?_⟩
    refine (u.issue_grants e).trans ?_
    rw [hp, ← s.takeToken_refill p, ← hu]
    rfl

end

/-! ## The whole opportunity -/

/-- The state in which a dispatch opportunity leaves pointer and mark to be moved. -/
def State.dispatched (s : State) : State := s.issueOpens.grantTurn

theorem State.dispatched_issues {s : State} (h : s.QueueKept) :
    s.Issues s.dispatched (s.opensDue ++ s.closeGranted.toList) ∧ s.Grants s.dispatched s.closeGranted := by
  have hopens := State.opensDue_issues h
  have hkept := s.issueOpens_grants
  have hgranted := hopens.closeGranted h hkept
  obtain ⟨hissues, hgrants⟩ := s.issueOpens.grantTurn_issues
  rw [hgranted] at hissues hgrants
  refine ⟨hopens.append hissues fun x hx hmem => ?_, ?_⟩
  · obtain ⟨e, he, ho⟩ := List.mem_map.1 hmem
    obtain ⟨hxq, -, hopen, -⟩ := (s.mem_opensDue x).1 hx
    obtain ⟨heq, b, -, heligible⟩ := State.closeGranted_mem (Option.mem_toList.1 he)
    obtain ⟨-, hclose, -⟩ := (s.eligible_iff b e).1 heligible
    rw [← h.inj heq hxq ho, hclose] at hopen
    nomatch hopen
  · obtain ⟨huptime, -, -, -, -, hbanks, -⟩ := hopens.fields
    simp only [Prod.mk.injEq] at hkept
    obtain ⟨htokens, hrefill, hturnOn⟩ := hkept
    unfold State.Grants at hgrants ⊢
    rw [htokens, hrefill, hturnOn, hbanks, huptime] at hgrants
    exact hgrants

theorem execDispatchOpportunity_of_due {s : State} (hdue : s.uptime.toNat % 5 = 0) (hfree : s.opportunityTaken = false) :
    exec .dispatchOpportunity s =
      .next { s.dispatched with grantPtr := s.dispatched.grantPtr + 1, opportunityTaken := true } :=
  if_pos ⟨hdue, hfree⟩

theorem execDispatchOpportunity_of_not {s : State} (h : s.uptime.toNat % 5 ≠ 0 ∨ s.opportunityTaken = true) :
    exec .dispatchOpportunity s = .next s := by
  refine if_neg fun ⟨hdue, hfree⟩ => ?_
  obtain h | h := h
  · exact h hdue
  · rw [hfree] at h
    nomatch h

/-- Settles O27: the opportunity issues the OPENs due and the CLOSE granted, each once. -/
theorem dispatchIssuesOpensAndOneGrant : Obligations.DispatchIssuesOpensAndOneGrant := by
  refine ⟨fun s => ⟨execDispatchOpportunity_of_not, fun hdue hfree hq => ?_⟩, fun o a s => ⟨s.actuateAt_untimed a, ?_⟩⟩
  · intro grant opens granted opened
    obtain ⟨hissues, hgrants⟩ := State.dispatched_issues hq
    have hexec := execDispatchOpportunity_of_due hdue hfree
    generalize s.dispatched = t at *
    have hopens : s.opensDue = opens := rfl
    have hgrant : s.closeGranted = grant := by
      unfold State.closeGranted
      refine congrArg _ (funext fun b => congrArg (fun p => s.queue.find? p) (funext fun e => ?_))
      rw [Bool.eq_iff_iff, decide_eq_true_iff]
      exact s.eligible_iff b e
    obtain ⟨-, -, -, hsettle, -, -, -, hptr, hsheds, hgroups, hsafe⟩ := hissues.fields
    rw [hopens, hgrant] at hissues
    rw [hgrant] at hgrants
    have hmem : ∀ e ∈ s.queue, opened e ∨ granted e ↔ e ∈ opens ++ grant.toList := fun e he => by
      rw [List.mem_append, Option.mem_toList, ← hopens, s.mem_opensDue e]
      exact or_congr_left ⟨fun h => ⟨he, h⟩, fun h => h.2⟩
    have hsub : ∀ e ∈ opens ++ grant.toList, e ∈ s.queue := fun e he => by
      obtain he | he := List.mem_append.1 he
      · exact ((s.mem_opensDue e).1 he).1
      · exact (State.closeGranted_mem (hgrant.trans (Option.mem_toList.1 he))).1
    refine ⟨_, hexec, by rw [hptr], rfl, ?_, fun e he hissued => ⟨?_, ?_⟩, fun e he hopen hclose => ?_, fun e he hclose => ?_,
      fun hnone => ?_, hissues.lane, hissues.sameMeasures, hsettle, hsafe, hgroups, fun b => by rw [hsheds]⟩
    · dsimp only
      rw [hissues.queue, List.map_map]
      refine List.map_congr_left fun e _ => ?_
      obtain ⟨houtlet, haction, horigin, henqueued⟩ := e.afterIssue_fields (opens ++ grant.toList) s.uptime
      rw [Function.comp_apply, houtlet, haction, horigin, henqueued]
    · dsimp only
      rw [hissues.queue, ← QueueEntry.afterIssue_of_mem (List.mem_map_of_mem ((hmem e he).1 hissued)) s.uptime]
      exact List.mem_map_of_mem he
    · refine (hissues.moved e ((hmem e he).1 hissued)).trans ?_
      unfold State.issuedRelay
      cases e.action <;> rfl
    · have hnot : e.outlet ∉ (opens ++ grant.toList).map (·.outlet) := fun hin => by
        obtain ⟨x, hx, ho⟩ := List.mem_map.1 hin
        rw [hq.inj (hsub x hx) he ho] at hx
        exact ((hmem e he).2 hx).elim hopen hclose
      refine ⟨?_, hissues.still _ hnot⟩
      dsimp only
      rw [hissues.queue]
      exact List.mem_map.2 ⟨e, he, QueueEntry.afterIssue_of_not_mem hnot _⟩
    · rw [show grant = some e from hclose] at hgrants
      unfold State.Grants at hgrants
      simp only [Prod.mk.injEq] at hgrants
      obtain ⟨htokens, hrefill, hturnOn⟩ := hgrants
      exact ⟨hturnOn, htokens, hrefill⟩
    · cases hg : grant with
      | none =>
        rw [hg] at hgrants
        unfold State.Grants at hgrants
        simp only [Prod.mk.injEq] at hgrants
        obtain ⟨htokens, hrefill, hturnOn⟩ := hgrants
        exact ⟨htokens, hturnOn, hrefill⟩
      | some e => exact absurd hg (hnone e (State.closeGranted_mem (hgrant.trans hg)).1)
  · intro c len hc hlen hpos hkind ahead
    have hact := s.actuateAt_timed a hc hlen hkind
    obtain ⟨j, hj, hone, hreach, hleast⟩ := predictionIndex_isLeast hpos s.outletTable.active[o].operateDelay
      (s.actuateOffset o a) (setDiff s.lanes[bankOf o].counter c)
    rw [hj] at hact
    exact ⟨j, hone, hreach, hleast, hact⟩

end Sys2Proof.Machine
end

