-- ==== Sys2Proof/Proofs/QueueRequests.lean ====
section
/-! Requests to the switching queue are settled against the one entry that it holds for the outlet (R84 to R86). -/

namespace Sys2Proof.Machine

/-! ## The entry of an outlet -/

theorem State.entryOf_eq_none_iff {s : State} {o : Outlet} : s.entryOf o = none ↔ ∀ e ∈ s.queue, e.outlet ≠ o := by
  rw [State.entryOf_none_iff, List.mem_map, not_exists]
  exact forall_congr' fun e => not_and

theorem State.entryOf_mem {s : State} {o : Outlet} {e : QueueEntry} (h : s.entryOf o = some e) :
    e ∈ s.queue ∧ e.outlet = o :=
  ⟨List.mem_of_find?_eq_some h, by simpa using List.find?_some h⟩

/-- With one entry an outlet, an entry of the queue is its outlet's. -/
theorem State.QueueKept.entryOf_eq {s : State} (h : s.QueueKept) {e : QueueEntry} (he : e ∈ s.queue) :
    s.entryOf e.outlet = some e := by
  cases hfind : s.entryOf e.outlet with
  | none => exact absurd rfl (State.entryOf_eq_none_iff.1 hfind e he)
  | some x =>
    obtain ⟨hx, ho⟩ := State.entryOf_mem hfind
    rw [h.inj hx he ho]

section
variable {s : State} {o : Outlet} {pre post : List QueueEntry} {e : QueueEntry}

theorem State.entryOf_of_one (hq : s.queue = pre ++ e :: post) (he : e.outlet = o)
    (hone : ∀ e' ∈ pre ++ post, e'.outlet ≠ o) : s.entryOf o = some e := by
  unfold State.entryOf
  rw [hq, List.find?_eq_some_iff_append]
  exact ⟨by simp [he], pre, post, rfl, fun x hx => by simpa using hone x (List.mem_append_left _ hx)⟩

theorem State.dropEntry_of_one (hq : s.queue = pre ++ e :: post) (he : e.outlet = o)
    (hone : ∀ e' ∈ pre ++ post, e'.outlet ≠ o) : s.dropEntry o = { s with queue := pre ++ post } := by
  have hkeep : ∀ l : List QueueEntry, (∀ x ∈ l, x.outlet ≠ o) → l.filter (fun x => x.outlet != o) = l := fun l hl =>
    List.filter_eq_self.2 fun x hx => by simpa using hl x hx
  unfold State.dropEntry
  rw [hq, List.filter_append, List.filter_cons_of_neg (by simp [he]),
    hkeep pre fun x hx => hone x (List.mem_append_left _ hx),
    hkeep post fun x hx => hone x (List.mem_append_right _ hx)]

end

/-! ## The table of R85 -/

/-- Settles O24, by the entry that the queue holds for the outlet. -/
theorem queueSettlesRequests : Obligations.QueueSettlesRequests := by
  intro o a r s rank new
  have hrank : rank = Origin.rank := funext fun x => by cases x <;> rfl
  rw [hrank]
  refine ⟨fun hno => State.request_of_noEntry a r (State.entryOf_eq_none_iff.2 hno), fun pre post e hq ho hone => ?_⟩
  have he := State.entryOf_of_one hq ho hone
  refine ⟨fun hw ha => State.request_of_sameAction r he hw ha, fun hw ha hle => ?_,
    fun hw ha hlt => State.request_of_higherRank he hw ha hlt, fun ⟨u, hu⟩ => State.request_of_issued a r he hu⟩
  rw [State.request_of_replaced he hw ha hle, State.dropEntry_of_one hq ho hone]
  exact ⟨rfl, rfl⟩

end Sys2Proof.Machine
end

