-- ==== Sys2Proof/Proofs/QueueActs.lean ====
section
/-! What requests, withdrawals and the group engine make of the switching queue (R84 to R87, R108, R111, R121): entries
that were not there before are WAITING and of now, ISSUED entries stay, and no flight of a shed unit begins. -/

namespace Sys2Proof.Machine

/-! ## The relation -/

/-- A shed unit in which no flight began. -/
def ShedUnit.Lands (d d' : ShedUnit) : Prop :=
  (d'.shedFlight = d.shedFlight ∨ d'.shedFlight = none)
    ∧ (d'.restoreFlight = d.restoreFlight ∨ d'.restoreFlight = none)

theorem ShedUnit.Lands.refl (d : ShedUnit) : d.Lands d := ⟨.inl rfl, .inl rfl⟩

theorem ShedUnit.Lands.trans {d d' d'' : ShedUnit} (h : d.Lands d') (h' : d'.Lands d'') : d.Lands d'' :=
  ⟨h'.1.elim (fun e => h.1.imp e.trans e.trans) .inr, h'.2.elim (fun e => h.2.imp e.trans e.trans) .inr⟩

/-- `t` comes from `s` by requests, withdrawals and acts of the group engine: relays, turn-ons, settle timers and safe
control stay; an entry that was not there before is WAITING and of now; with one entry an outlet before there is one
after, and ISSUED entries stay; and no flight of a shed unit begins. -/
structure State.Requeues (s t : State) : Prop where
  quiet : t.quiet = s.quiet
  relays : t.relays = s.relays
  turnOn : t.turnOn = s.turnOn
  settle : t.settle = s.settle
  safe : t.safe = s.safe
  queue : ∀ e ∈ t.queue, e ∈ s.queue ∨ e.state = .waiting ∧ e.enqueued = s.uptime
  kept : s.QueueKept → t.QueueKept
  issued : s.QueueKept → ∀ e ∈ s.queue, e.state ≠ .waiting → e ∈ t.queue
  lands : ∀ b : Bank, s.sheds[b].Lands t.sheds[b]

theorem State.Requeues.uptime {s t : State} (h : s.Requeues t) : t.uptime = s.uptime :=
  (State.quiet_fields h.quiet).2.1

theorem State.Requeues.refl (s : State) : s.Requeues s :=
  ⟨rfl, rfl, rfl, rfl, rfl, fun _ he => .inl he, id, fun _ _ he _ => he, fun _ => .refl _⟩

theorem State.Requeues.trans {s t u : State} (h : s.Requeues t) (h' : t.Requeues u) : s.Requeues u :=
  ⟨h'.quiet.trans h.quiet, h'.relays.trans h.relays, h'.turnOn.trans h.turnOn, h'.settle.trans h.settle,
    h'.safe.trans h.safe, fun e he => (h'.queue e he).elim (h.queue e) fun hnew => .inr (h.uptime ▸ hnew),
    h'.kept ∘ h.kept, fun hk e he hi => h'.issued (h.kept hk) e (h.issued hk e he hi) hi,
    fun b => (h.lands b).trans (h'.lands b)⟩

theorem State.foldl_requeues {α : Type} (f : State → α → State) (h : ∀ (s : State) (a : α), s.Requeues (f s a))
    (l : List α) (s : State) : s.Requeues (l.foldl f s) :=
  List.foldlRecOn (motive := s.Requeues) l f (.refl s) fun t ht a _ => ht.trans (h t a)

/-- Group operations, monitors, group entries, shown modes and reports are not what the relation speaks of. -/
theorem State.Regroups.requeues {s t : State} (h : s.Regroups t) (hq : t.quiet = s.quiet) : s.Requeues t := by
  unfold State.Regroups at h
  generalize t.lanes = x1, t.shown = x2, t.groups = x3, t.monitors = x4, t.groupTable = x5, t.notifier = x6,
    t.link0 = x7 at h
  subst h
  exact ⟨hq, rfl, rfl, rfl, rfl, fun _ he => .inl he, id, fun _ _ he _ => he, fun _ => .refl _⟩

/-! ## The switching queue -/

/-- Entries other than ISSUED ones leave the queue. -/
theorem State.Requeues.of_sublist {s : State} {q : List QueueEntry} (hq : q.Sublist s.queue)
    (hi : s.QueueKept → ∀ e ∈ s.queue, e.state ≠ .waiting → e ∈ q) : s.Requeues { s with queue := q } :=
  ⟨rfl, rfl, rfl, rfl, rfl, fun _ he => .inl (hq.subset he), fun h => State.queueKept_of_sublist h hq, hi,
    fun _ => .refl _⟩

theorem ShedUnit.lands_timed (s : State) (b : Bank) (d : ShedUnit) (o : Outlet) :
    d.Lands (s.timedShed b (d.landed o)) := by
  have hor : ∀ x : Option Outlet, (if x = some o then none else x) = x ∨ (if x = some o then none else x) = none :=
    fun x => by
      split
      · exact .inr rfl
      · exact .inl rfl
  exact ⟨hor d.shedFlight, hor d.restoreFlight⟩

theorem State.endFlights_requeues (s : State) (o : Outlet) : s.Requeues (s.endFlights o) := by
  rw [State.endFlights_eq_landed]
  refine ⟨rfl, rfl, rfl, rfl, rfl, fun _ he => .inl he, id, fun _ _ he _ => he, fun b => ?_⟩
  show ShedUnit.Lands _ (upd s.sheds _ _)[b]
  rw [upd_get]
  split
  · rename_i hb
    subst hb
    exact ShedUnit.lands_timed s _ _ o
  · exact .refl _

/-- An outlet without an entry gets one. -/
theorem State.joinQueue_requeues {s : State} {o : Outlet} (a : Action) (r : Origin) (h : s.entryOf o = none) :
    s.Requeues (s.joinQueue o a r) := by
  refine ⟨rfl, rfl, rfl, rfl, rfl, fun e he => ?_, fun hk => ?_, fun _ e he _ => List.mem_append_left _ he,
    fun _ => .refl _⟩
  · obtain he | he := List.mem_append.1 he
    · exact .inl he
    · rw [List.mem_singleton.1 he]
      exact .inr ⟨rfl, rfl⟩
  · have hrequest := State.request_queueKept o a r hk
    rw [State.request_of_noEntry a r h] at hrequest
    exact hrequest

/-- The WAITING entry of an outlet leaves the queue. -/
theorem State.dropEntry_requeues {s : State} {o : Outlet} {e : QueueEntry} (he : s.entryOf o = some e)
    (hw : e.state = .waiting) : s.Requeues (s.dropEntry o) := by
  refine .of_sublist List.filter_sublist fun hk x hx hi => List.mem_filter.2 ⟨hx, ?_⟩
  rw [bne_iff_ne]
  rintro rfl
  rw [hk.entryOf_eq hx] at he
  cases he
  exact hi hw

theorem State.dropEntry_entryOf (s : State) (o : Outlet) : (s.dropEntry o).entryOf o = none :=
  State.entryOf_eq_none_iff.2 fun e he => by simpa using (List.mem_filter.1 he).2

theorem State.request_requeues (s : State) (o : Outlet) (a : Action) (r : Origin) : s.Requeues (s.request o a r).2 := by
  cases he : s.entryOf o with
  | none =>
    rw [State.request_of_noEntry a r he]
    exact State.joinQueue_requeues a r he
  | some e =>
    cases hst : e.state with
    | issued t =>
      rw [State.request_of_issued a r he hst]
      exact .refl s
    | waiting =>
      by_cases ha : e.action = a
      · rw [State.request_of_sameAction r he hst ha]
        exact .refl s
      · by_cases hr : e.origin.rank < r.rank
        · rw [State.request_of_higherRank he hst ha hr]
          exact .refl s
        · rw [State.request_of_replaced he hst ha (Nat.not_lt.1 hr)]
          exact ((State.dropEntry_requeues he hst).trans (State.endFlights_requeues _ o)).trans
            (State.joinQueue_requeues a r (s.dropEntry_entryOf o))

theorem State.withdraw_requeues (s : State) (p : QueueEntry → Bool) : s.Requeues (s.withdraw p) := by
  unfold State.withdraw
  refine .trans (.of_sublist List.filter_sublist fun _ e he hi => List.mem_filter.2 ⟨he, ?_⟩)
    (State.foldl_requeues _ (fun u (e : QueueEntry) => u.endFlights_requeues e.outlet) _ _)
  rw [Bool.not_eq_true', Bool.and_eq_false_iff]
  exact .inl (Bool.eq_false_iff.2 fun hw => hi ((QueueEntry.isWaiting_iff e).1 hw))

/-! ## Group operations -/

theorem State.onGroup_requeues (s : State) (g : Group) (f : GroupOp → GroupOp) : s.Requeues (s.onGroup g f) :=
  State.Regroups.requeues rfl rfl

theorem State.mark_requeues (s : State) (g : Group) (o : Outlet) (p : Progress) : s.Requeues (s.mark g o p) :=
  s.onGroup_requeues g _

theorem State.await_requeues (s : State) (g : Group) (o : Outlet) : s.Requeues (s.await g o) :=
  (s.onGroup_requeues g _).trans (State.mark_requeues _ g o _)

theorem State.addFaulted_requeues (s : State) (g : Group) (o : Outlet) : s.Requeues (s.addFaulted g o) :=
  (s.onGroup_requeues g _).trans (State.mark_requeues _ g o _)

theorem State.withdrawAwaited_requeues (s : State) (g : Group) : s.Requeues (s.withdrawAwaited g) :=
  (s.withdraw_requeues _).trans (State.onGroup_requeues _ g _)

theorem State.endOp_requeues (s : State) (g : Group) (r : OpResult) (w : Option OpReason) (v : Bool) :
    s.Requeues (s.endOp g r w v) := (s.endOp_regroups g r w v).requeues (s.endOp_quiet g r w v)

theorem State.failOp_requeues (s : State) (g : Group) (r : OpReason) : s.Requeues (s.failOp g r) :=
  (s.withdrawAwaited_requeues g).trans (State.endOp_requeues _ g _ _ _)

theorem State.startOp_requeues (s : State) (g : Group) (x : OpState) (k : OpKind) (c : OpCause) :
    s.Requeues (s.startOp g x k c) := by
  refine State.Regroups.requeues ?_ (s.startOp_quiet g x k c)
  unfold State.Regroups
  rw [State.startOp_changes]

theorem State.enterVerifying_requeues (s : State) (g : Group) : s.Requeues (s.enterVerifying g) := by
  unfold State.enterVerifying
  dsimp only
  split
  · exact (s.onGroup_requeues g _).trans (State.endOp_requeues _ g _ _ _)
  · exact s.onGroup_requeues g _

theorem State.oningOver_requeues (s : State) (g : Group) : s.Requeues (s.oningOver g) := by
  unfold State.oningOver
  split
  · exact s.endOp_requeues g _ _ _
  · exact s.enterVerifying_requeues g

theorem State.takeTurns_requeues (k : Nat) (g : Group) (i : Nat) (s : State) :
    s.Requeues (State.takeTurns k g i s) := by
  induction k generalizing i s with
  | zero => exact .refl s
  | succ k ih =>
    rw [State.takeTurns_succ]
    split
    · exact s.oningOver_requeues g
    · split
      · exact (s.onGroup_requeues g _).trans (ih _ _)
      · rename_i m _ _ _
        rw [← s.request_groups m .close (.group g)]
        exact (s.request_requeues m .close (.group g)).trans (State.onGroup_requeues _ g _)

theorem State.turnsFrom_requeues (s : State) (g : Group) (i : Nat) : s.Requeues (s.turnsFrom g i) :=
  State.takeTurns_requeues _ g i s

theorem State.enterOning_requeues (s : State) (g : Group) : s.Requeues (s.enterOning g) :=
  (s.onGroup_requeues g _).trans (State.turnsFrom_requeues _ g 0)

theorem State.afterClose_requeues (s : State) (g : Group) : s.Requeues (s.afterClose g) := by
  unfold State.afterClose
  dsimp only
  split
  · exact s.oningOver_requeues g
  · split
    · exact s.turnsFrom_requeues g _
    · exact s.onGroup_requeues g _

theorem State.requestOpen_requeues (s : State) (g : Group) (o : Outlet) : s.Requeues (s.requestOpen g o) :=
  (s.request_requeues o _ _).trans (State.await_requeues _ g o)

theorem State.offingOver_requeues (s : State) (g : Group) : s.Requeues (s.offingOver g) := by
  unfold State.offingOver
  dsimp only
  split
  · exact .refl s
  · split
    · exact s.endOp_requeues g _ _ _
    · split
      · split <;> exact s.endOp_requeues g _ _ _
      · split
        · exact (s.onGroup_requeues g _).trans (State.enterOning_requeues _ g)
        · exact s.onGroup_requeues g _

/-- What OFFING asks of one member (R108). -/
def State.offMember (g : Group) (s : State) (o : Outlet) : State :=
  if s.relays[o].state = .off then s.mark g o .opened else s.requestOpen g o

theorem State.enterOffing_eq (s : State) (g : Group) : s.enterOffing g = State.offingOver
    ((s.members g).foldl (State.offMember g) (s.onGroup g fun r => { r with op := .offing, busyWait := false })) g :=
  rfl

theorem State.offMember_requeues (s : State) (g : Group) (o : Outlet) : s.Requeues (s.offMember g o) := by
  unfold State.offMember
  split
  · exact s.mark_requeues g o _
  · exact s.requestOpen_requeues g o

theorem State.enterOffing_requeues (s : State) (g : Group) : s.Requeues (s.enterOffing g) :=
  ((s.onGroup_requeues g _).trans (State.foldl_requeues _ (fun u o => u.offMember_requeues g o) _ _)).trans
    (State.offingOver_requeues _ g)

/-! ## Completions -/

theorem State.offingCompletion_requeues (s : State) (g : Group) (o : Outlet) (a : Action) (res : Completion) :
    s.Requeues (s.offingCompletion g o a res) := by
  have hopened : s.Requeues ((s.mark g o .opened).offingOver g) :=
    (s.mark_requeues g o _).trans (State.offingOver_requeues _ g)
  unfold State.offingCompletion
  split
  · exact s.failOp_requeues g _
  · exact s.offingOver_requeues g
  · split
    · exact hopened
    · split
      · exact s.offingOver_requeues g
      · split
        · exact hopened
        · exact (s.requestOpen_requeues g o).trans (State.offingOver_requeues _ g)

theorem State.oningCompletion_requeues (s : State) (g : Group) (o : Outlet) (res : Completion) :
    s.Requeues (s.oningCompletion g o res) := by
  have hfails : ∀ w : OpReason, s.Requeues ((s.mark g o .pending).failOp g w) := fun w =>
    (s.mark_requeues g o _).trans (State.failOp_requeues _ g w)
  unfold State.oningCompletion
  split
  · split
    · exact hfails _
    · exact s.turnsFrom_requeues g _
  · split
    · exact (s.mark_requeues g o _).trans (State.afterClose_requeues _ g)
    · exact (s.addFaulted_requeues g o).trans (State.afterClose_requeues _ g)
    · exact hfails _
    · exact hfails _

theorem State.groupCompletion_requeues (s : State) (o : Outlet) (a : Action) (res : Completion) :
    s.Requeues (s.groupCompletion o a res) := by
  unfold State.groupCompletion
  split
  · exact .refl s
  · rename_i g _
    have hleave := s.onGroup_requeues g fun r => { r with awaited := r.awaited.filter (· != o) }
    dsimp only
    generalize (s.onGroup g fun r => { r with awaited := r.awaited.filter (· != o) }) = u at hleave ⊢
    refine hleave.trans ?_
    split
    · exact u.offingCompletion_requeues g o a res
    · exact u.oningCompletion_requeues g o res
    all_goals exact .refl u

/-- A completion, as safe control takes it, changes the follow-up set and may then ask for the safe action again
(R183). -/
theorem State.safeFollowUp_requeues (s : State) (o : Outlet) : ∃ l : List Outlet,
    State.Requeues { s with safe := { s.safe with followUp := l } } (s.safeFollowUp o) := by
  unfold State.safeFollowUp
  split
  · refine ⟨s.safe.followUp.filter (· != o), ?_⟩
    dsimp only
    split
    · split
      · exact .refl _
      · split
        · exact .refl _
        · exact State.request_requeues _ _ _ _
      · split
        · exact .refl _
        · exact State.request_requeues _ _ _ _
    · exact .refl _
  · exact ⟨s.safe.followUp, .refl s⟩

end Sys2Proof.Machine
end

