-- ==== Sys2Proof/Proofs/QueueCompletions.lean ====
section
/-! A completion in its parts (R98): the entry leaves the queue, its outlet's deferred table entry applies, turn-on and
flights end with SWITCH_DONE raised, and then the group engine and safe control are told. -/

namespace Sys2Proof.Machine

/-! ## The deferred entry of the outlet table -/

/-- `t` comes from `s` as deferred entries of the outlet table apply: that table, shown modes and reports alone may
differ. -/
def State.Releases (s t : State) : Prop :=
  t = { s with outletTable := t.outletTable, lanes := t.lanes, shown := t.shown, notifier := t.notifier
               link0 := t.link0 }

theorem State.Releases.trans {s t u : State} (h : s.Releases t) (h' : t.Releases u) : s.Releases u := by
  unfold State.Releases at *
  generalize u.outletTable = x1, u.lanes = x2, u.shown = x3, u.notifier = x4, u.link0 = x5 at h' ⊢
  rw [h', h]

theorem State.applyOutlet_releases (s : State) (o : Outlet) : s.Releases (s.applyOutlet o) := by
  unfold State.Releases State.applyOutlet
  rw [State.refreshModes_changes]

theorem State.releaseOutlet_releases (s : State) (o : Outlet) : s.Releases (s.releaseOutlet o) := by
  have happly := s.applyOutlet_releases o
  unfold State.releaseOutlet
  split
  · refine happly.trans ?_
    generalize s.applyOutlet o = u
    dsimp only
    split <;> exact rfl
  · exact rfl

def State.withQueue (s : State) (q : List QueueEntry) : State := { s with queue := q }

theorem State.ite_withQueue (c : Prop) [Decidable c] (s t : State) (q : List QueueEntry) :
    (if c then s else t).withQueue q = if c then s.withQueue q else t.withQueue q := apply_ite (·.withQueue q) c s t

theorem State.applyOutlet_withQueue (s : State) (o : Outlet) (q : List QueueEntry) :
    (s.withQueue q).applyOutlet o = (s.applyOutlet o).withQueue q := by
  unfold State.applyOutlet State.refreshModes State.placeIndicate
  rw [State.ite_withQueue, State.ite_withQueue]
  rfl

/-- What waits in the queue is nothing to the table store. -/
theorem State.releaseOutlet_withQueue (s : State) (o : Outlet) (q : List QueueEntry) :
    (s.withQueue q).releaseOutlet o = (s.releaseOutlet o).withQueue q := by
  unfold State.releaseOutlet
  dsimp only
  rw [State.applyOutlet_withQueue, State.ite_withQueue, State.ite_withQueue]
  rfl

/-! ## The parts of a completion -/

/-- The entry `e` of outlet `o` has left the queue with `res`, and the deferred table entry has applied. -/
def State.entryLeft (s : State) (o : Outlet) (e : QueueEntry) (res : Completion) : State :=
  let u := (s.dropEntry o).releaseOutlet o
  if e.action = .close ∧ e.isWaiting = false then u.endTurnOn (bankOf o) res else u

/-- The state that the group engine is handed. -/
def State.entryDone (s : State) (o : Outlet) (e : QueueEntry) (res : Completion) (act : Option SetNo) : State :=
  ((s.entryLeft o e res).raiseSwitchDone ((s.entryLeft o e res).actionRecord e res act)).endFlights o

section
variable {s : State} {o : Outlet} {e : QueueEntry}

theorem State.complete_of_entry (h : s.entryOf o = some e) (res : Completion) (act : Option SetNo) :
    s.complete o res act = ((s.entryDone o e res act).groupCompletion o e.action res).safeFollowUp o := by
  unfold State.complete
  rw [h]
  rfl

variable (s o e) (res : Completion) (act : Option SetNo)

theorem State.entryLeft_changes : s.entryLeft o e res = { s.releaseOutlet o with
    queue := (s.dropEntry o).queue, turnOn := (s.entryLeft o e res).turnOn
    settle := (s.entryLeft o e res).settle } := by
  have hqueue : (s.dropEntry o).releaseOutlet o = (s.releaseOutlet o).withQueue (s.dropEntry o).queue :=
    s.releaseOutlet_withQueue o _
  unfold State.entryLeft
  rw [hqueue]
  dsimp only
  split <;> rfl

/-- An ISSUED CLOSE ends the bank's turn-on in flight; DONE and FAULT start the settle timer. -/
theorem State.entryLeft_of_issuedClose {e : QueueEntry} (h : e.action = .close ∧ e.isWaiting = false) :
    (s.entryLeft o e res).turnOn = upd s.turnOn (bankOf o) (fun _ => none)
    ∧ (s.entryLeft o e res).settle = if res = .done ∨ res = .fault
        then upd s.settle (bankOf o) fun _ => some s.uptime else s.settle := by
  unfold State.entryLeft
  dsimp only
  rw [if_pos h, (s.dropEntry o).releaseOutlet_releases o]
  refine ⟨rfl, ?_⟩
  cases res with
  | done => exact (if_pos (.inl rfl)).symm
  | fault => exact (if_pos (.inr rfl)).symm
  | lost => exact upd_id _ _
  | expired => exact upd_id _ _

theorem State.entryLeft_of_not_issuedClose {e : QueueEntry} (h : ¬ (e.action = .close ∧ e.isWaiting = false)) :
    (s.entryLeft o e res).turnOn = s.turnOn ∧ (s.entryLeft o e res).settle = s.settle := by
  unfold State.entryLeft
  dsimp only
  rw [if_neg h, (s.dropEntry o).releaseOutlet_releases o]
  exact ⟨rfl, rfl⟩

theorem State.entryDone_eq : s.entryDone o e res act =
    let u := s.releaseOutlet o
    let x := notify s.uptime { kind := .switchDone, source := numberOf e.outlet
                               detail := .switchDone (s.actionRecord e res act)
                               records := [.action (s.actionRecord e res act)] } (u.notifier, u.link0)
    { u with queue := (s.dropEntry o).queue
             turnOn := (s.entryLeft o e res).turnOn, settle := (s.entryLeft o e res).settle
             sheds := upd s.sheds (bankOf o) fun d => s.timedShed (bankOf o) (d.landed o)
             notifier := x.1, link0 := x.2 } := by
  have hleft := s.entryLeft_changes o e res
  have hrelease := s.releaseOutlet_releases o
  have hlink : (s.releaseOutlet o).lanes[bankOf o].link = s.lanes[bankOf o].link := by
    have hlane := State.quiet_lane (s.releaseOutlet_quiet o) (bankOf o)
    exact (congrArg Lane.link hlane :)
  unfold State.Releases at hrelease
  unfold State.entryDone
  generalize s.entryLeft o e res = v at hleft ⊢
  generalize s.releaseOutlet o = u at hleft hrelease hlink ⊢
  generalize v.turnOn = x1, v.settle = x2 at hleft ⊢
  generalize u.outletTable = y1, u.lanes = y2, u.shown = y3, u.notifier = y4, u.link0 = y5 at hrelease hlink
  subst hrelease hleft
  rw [State.endFlights_eq_landed, State.timedShed_congr (s := s) (by rfl) hlink (by rfl) (by rfl)]
  rfl

end

end Sys2Proof.Machine
end

