-- ==== Sys2Proof/Proofs/GrantsKept.lean ====
section
/-! Every step keeps each phase's tokens within its capacity, the refill timer running just below it, and one entry an
outlet in the switching queue (R84, R94, R95). -/

namespace Sys2Proof.Machine

/-! ## What keeps tokens and entries -/

/-- From a state whose tokens, refill timers and entries are as R84, R94 and R95 say, `t` is such a state too. -/
structure State.KeepsGrants (s t : State) : Prop where
  tokens : s.TokensKept → t.TokensKept
  queue : s.QueueKept → t.QueueKept

theorem State.KeepsGrants.refl (s : State) : s.KeepsGrants s := ⟨id, id⟩

theorem State.KeepsGrants.trans {s t u : State} (h : s.KeepsGrants t) (h' : t.KeepsGrants u) : s.KeepsGrants u :=
  ⟨h'.tokens ∘ h.tokens, h'.queue ∘ h.queue⟩

/-- The fields that a phase's promise is about. -/
def State.bucketFields (s : State) := (s.tokens, s.refill, s.phaseTable.active)

theorem State.TokensKept.congr {s t : State} (h : t.bucketFields = s.bucketFields) (hs : s.TokensKept) :
    t.TokensKept := by
  simp only [State.bucketFields, Prod.mk.injEq] at h
  obtain ⟨htokens, hrefill, htable⟩ := h
  unfold State.TokensKept
  rw [htokens, hrefill, htable]
  exact hs

/-- Entries leave the queue, and other fields change. -/
theorem State.KeepsGrants.of_sublist {s t : State} (h : t.bucketFields = s.bucketFields)
    (hq : t.queue.Sublist s.queue) : s.KeepsGrants t :=
  ⟨.congr h, fun hs => State.queueKept_of_sublist hs hq⟩

/-- A change of other fields. -/
theorem State.KeepsGrants.of_same {s t : State} (h : (t.queue, t.bucketFields) = (s.queue, s.bucketFields)) :
    s.KeepsGrants t := by
  obtain ⟨hqueue, hbuckets⟩ := Prod.mk.inj h
  exact .of_sublist hbuckets (hqueue ▸ .refl _)

theorem State.bucketFields_of_quiet {s t : State} (h : t.quiet = s.quiet) : t.bucketFields = s.bucketFields :=
  (congrArg State.bucketFields h :)

theorem State.Requeues.keepsGrants {s t : State} (h : s.Requeues t) : s.KeepsGrants t :=
  ⟨.congr (State.bucketFields_of_quiet h.quiet), h.kept⟩

theorem State.foldl_keepsGrants {α : Type} (f : State → α → State) (h : ∀ (s : State) (a : α), s.KeepsGrants (f s a))
    (l : List α) (s : State) : s.KeepsGrants (l.foldl f s) :=
  List.foldlRecOn (motive := s.KeepsGrants) l f (.refl s) fun t ht a _ => ht.trans (h t a)

theorem State.ite_keepsGrants {c : Prop} [Decidable c] {s t : State} (h : c → s.KeepsGrants t) :
    s.KeepsGrants (if c then t else s) := by
  split
  · exact h ‹_›
  · exact .refl s

/-! ## Reports, lanes, monitors -/

section
variable (s : State)

theorem State.raise_keepsGrants (k : EventKind) (n : Nat) (d : Detail) : s.KeepsGrants (s.raise k n d) := .of_same rfl

theorem State.onLane_keepsGrants (b : Bank) (f : Lane → Lane) : s.KeepsGrants (s.onLane b f) := .of_same rfl

theorem State.onMonitor_keepsGrants (g : Group) (f : Monitor → Monitor) : s.KeepsGrants (s.onMonitor g f) :=
  .of_same rfl

theorem State.onShed_keepsGrants (b : Bank) (f : ShedUnit → ShedUnit) : s.KeepsGrants (s.onShed b f) := .of_same rfl

theorem State.onRelay_keepsGrants (o : Outlet) (f : Relay → Relay) : s.KeepsGrants (s.onRelay o f) := .of_same rfl

theorem State.onGroup_keepsGrants (g : Group) (f : GroupOp → GroupOp) : s.KeepsGrants (s.onGroup g f) := .of_same rfl

theorem State.raiseLinkError_keepsGrants (n : Nat) (r r' : ErrorRecord) (k : ErrorKind) :
    s.KeepsGrants (s.raiseLinkError n r r' k) := by
  unfold State.raiseLinkError
  split
  · exact .refl s
  · exact s.raise_keepsGrants _ _ _

end

/-! ## Requests, completions and relays -/

theorem State.request_keepsGrants (s : State) (o : Outlet) (a : Action) (r : Origin) :
    s.KeepsGrants (s.request o a r).2 := (s.request_requeues o a r).keepsGrants

theorem State.entryDone_keepsGrants (s : State) (o : Outlet) (e : QueueEntry) (res : Completion)
    (act : Option SetNo) : s.KeepsGrants (s.entryDone o e res act) := by
  rw [State.entryDone_eq, s.releaseOutlet_releases o]
  exact .of_sublist rfl List.filter_sublist

theorem State.complete_keepsGrants (s : State) (o : Outlet) (res : Completion) (act : Option SetNo) :
    s.KeepsGrants (s.complete o res act) := by
  cases he : s.entryOf o with
  | none =>
    rw [State.complete_of_noEntry he]
    exact .refl s
  | some e =>
    rw [State.complete_of_entry he]
    have hgroups := (s.entryDone o e res act).groupCompletion_requeues o e.action res
    refine (s.entryDone_keepsGrants o e res act).trans (hgroups.keepsGrants.trans ?_)
    generalize (s.entryDone o e res act).groupCompletion o e.action res = u
    obtain ⟨l, hfollow⟩ := u.safeFollowUp_requeues o
    have hset : u.KeepsGrants { u with safe := { u.safe with followUp := l } } := .of_same rfl
    exact hset.trans hfollow.keepsGrants

theorem State.setRelay_keepsGrants (s : State) (o : Outlet) (f : Relay → Relay) : s.KeepsGrants (s.setRelay o f) := by
  rw [State.setRelay_changes]
  exact .of_same rfl

theorem State.reconcile_keepsGrants (s : State) (o : Outlet) (old new : RelayState) (c : ReconcileCause) :
    s.KeepsGrants (s.reconcile o old new c) :=
  (s.setRelay_keepsGrants o _).trans (State.raise_keepsGrants _ _ _ _)

theorem State.relaySees_keepsGrants (s : State) (o : Outlet) (closed sub : Bool) (c : ReconcileCause) :
    s.KeepsGrants (s.relaySees o closed sub c) := by
  unfold State.relaySees
  split
  · exact s.setRelay_keepsGrants o _
  · exact State.ite_keepsGrants fun _ => s.reconcile_keepsGrants o _ _ c
  · exact State.ite_keepsGrants fun _ => s.reconcile_keepsGrants o _ _ c
  all_goals exact .refl s

theorem State.relaySet_keepsGrants (s : State) (b : Bank) (closed : BitVec 8) (sub : Bool) (c : ReconcileCause) :
    s.KeepsGrants (s.relaySet b closed sub c) :=
  State.foldl_keepsGrants _ (fun u p => u.relaySees_keepsGrants (outletAt b p) _ sub c) _ s

theorem State.verified_keepsGrants (s : State) (o : Outlet) (f : Flight) (closed load : Bool) (irms : Option Nat)
    (v : RelayState × Option FaultDetail) : s.KeepsGrants (s.verified o f closed load irms v) := by
  have hset := s.setRelay_keepsGrants o fun _ => .settled v.1 v.2
  unfold State.verified
  dsimp only
  split
  · exact (hset.trans (State.complete_keepsGrants _ o _ _)).trans (State.raise_keepsGrants _ _ _ _)
  · exact hset.trans (State.complete_keepsGrants _ o _ _)

theorem State.watchFault_keepsGrants (s : State) (o : Outlet) (x : RelayState) (d : FaultDetail) (load : Bool)
    (irms : Option Nat) : s.KeepsGrants (s.watchFault o x d load irms) :=
  (s.setRelay_keepsGrants o _).trans (State.raise_keepsGrants _ _ _ _)

theorem State.weldWatch_keepsGrants (s : State) (o : Outlet) (load : Bool) (x : Nat) :
    s.KeepsGrants (s.weldWatch o load x) := by
  unfold State.weldWatch
  dsimp only
  split
  · split
    · exact s.watchFault_keepsGrants o _ _ _ _
    · exact s.onRelay_keepsGrants o _
  · exact s.onRelay_keepsGrants o _

theorem State.openWatch_keepsGrants (s : State) (o : Outlet) (k : WindowKind) (load : Bool) (x : Option Nat) :
    s.KeepsGrants (s.openWatch o k load x) := by
  unfold State.openWatch
  dsimp only
  split
  · split
    · exact s.watchFault_keepsGrants o _ _ _ _
    · exact s.onRelay_keepsGrants o _
  · exact s.onRelay_keepsGrants o _

theorem State.relayAtClose_keepsGrants (s : State) (o : Outlet) (w : Window) (k : WindowKind) (line : Bool)
    (irms : Option Nat) : s.KeepsGrants (s.relayAtClose o w k line irms) := by
  unfold State.relayAtClose
  dsimp only
  split
  · split
    · exact .refl s
    · exact s.verified_keepsGrants o _ _ _ _ _
  · split
    · exact s.weldWatch_keepsGrants o _ _
    · exact s.openWatch_keepsGrants o k _ _
    · exact .refl s

theorem State.relaysAtClose_keepsGrants (s : State) (b : Bank) (w : Window) (k : WindowKind) (line : Bool) :
    s.KeepsGrants (s.relaysAtClose b w k line) :=
  State.foldl_keepsGrants _ (fun u p => u.relayAtClose_keepsGrants (outletAt b p) w k line _) _ s

theorem State.relayLost_keepsGrants (s : State) (o : Outlet) : s.KeepsGrants (s.relayLost o) := by
  unfold State.relayLost
  split
  · exact (s.setRelay_keepsGrants o _).trans (State.complete_keepsGrants _ o _ _)
  · exact s.onRelay_keepsGrants o _

/-! ## Shed stacks -/

theorem State.refreshSheds_keepsGrants (s : State) (b : Bank) : s.KeepsGrants (s.refreshSheds b) := .of_same rfl

theorem State.refreshAllSheds_keepsGrants (s : State) : s.KeepsGrants s.refreshAllSheds :=
  State.foldl_keepsGrants _ State.refreshSheds_keepsGrants _ s

theorem State.setStack_keepsGrants (s : State) (o : Outlet) (f : List Outlet → List Outlet) :
    s.KeepsGrants (s.setStack o f) := by
  rw [(s.setStack_eq o f).1]
  exact .of_same rfl

theorem State.unshed_keepsGrants (s : State) (o : Outlet) : s.KeepsGrants (s.unshed o) :=
  State.ite_keepsGrants fun _ => s.setStack_keepsGrants o _

theorem State.unshedMembers_keepsGrants (s : State) (g : Group) : s.KeepsGrants (s.unshedMembers g) := by
  rw [(s.unshedMembers_changes g).1]
  exact .of_same rfl

theorem State.shedFirst_keepsGrants (b : Bank) (os : List Outlet) (s : State) :
    s.KeepsGrants (State.shedFirst b os s) := by
  induction os generalizing s with
  | nil =>
    unfold State.shedFirst
    split
    · exact .refl s
    · exact (s.onShed_keepsGrants b _).trans (State.raise_keepsGrants _ _ _ _)
  | cons o os ih =>
    unfold State.shedFirst
    dsimp only
    split
    · exact (((s.request_keepsGrants o _ _).trans (State.onShed_keepsGrants _ b _)).trans
        (State.setStack_keepsGrants _ o _)).trans (State.raise_keepsGrants _ _ _ _)
    · exact ih s

theorem State.restoreTop_keepsGrants (s : State) (b : Bank) : s.KeepsGrants (s.restoreTop b) := by
  unfold State.restoreTop
  split
  · exact .refl s
  · rename_i o _ _
    split
    · exact .refl s
    · exact State.ite_keepsGrants fun _ => (((s.request_keepsGrants o _ _).trans (State.onShed_keepsGrants _ b _)).trans
        (State.unshed_keepsGrants _ o)).trans (State.raise_keepsGrants _ _ _ _)

/-! ## Dispatch: tokens go with grants and come back with refills -/

/-- Entries change, but for their outlets. -/
theorem State.mapQueue_keepsGrants (s : State) {f : QueueEntry → QueueEntry} (hf : ∀ e, (f e).outlet = e.outlet) :
    s.KeepsGrants { s with queue := s.queue.map f } := by
  refine ⟨.congr rfl, fun h => ?_⟩
  have houtlets : (s.queue.map f).map (·.outlet) = s.queue.map (·.outlet) := by
    rw [List.map_map]
    exact List.map_congr_left fun e _ => hf e
  unfold State.QueueKept
  dsimp only
  rw [houtlets]
  exact h

theorem State.issue_keepsGrants (s : State) (o : Outlet) (a : Action) : s.KeepsGrants (s.issue o a) := by
  refine .trans (s.mapQueue_keepsGrants fun e => ?_) ((State.setRelay_keepsGrants _ o _).trans
    (State.onLane_keepsGrants _ _ _))
  split <;> rfl

theorem State.issueOpens_keepsGrants (s : State) : s.KeepsGrants s.issueOpens :=
  State.foldl_keepsGrants _ (fun u (e : QueueEntry) => u.issue_keepsGrants e.outlet .opens) _ s

/-- One phase's tokens and refill timer change, within the promise. -/
theorem State.KeepsGrants.of_phase {s t : State} (p : SupplyPhase) {f : Nat → Nat} {r : Timer → Timer}
    (ht : t = { s with tokens := upd s.tokens p f, refill := upd s.refill p r })
    (hp : s.tokens[p] ≤ s.phaseTable.active[p].capacity →
      (s.refill[p].isSome ↔ s.tokens[p] < s.phaseTable.active[p].capacity) →
      f s.tokens[p] ≤ s.phaseTable.active[p].capacity
        ∧ ((r s.refill[p]).isSome ↔ f s.tokens[p] < s.phaseTable.active[p].capacity)) : s.KeepsGrants t := by
  subst ht
  refine ⟨fun h q => ?_, id⟩
  dsimp only
  by_cases hq : p = q
  · subst hq
    rw [upd_get_self, upd_get_self]
    exact hp (h p).1 (h p).2
  · rw [upd_get_ne _ hq, upd_get_ne _ hq]
    exact h q

/-- A token is there to be taken (R95). -/
theorem State.takeToken_keepsGrants {s : State} {p : SupplyPhase} (hp : 0 < s.tokens[p]) :
    s.KeepsGrants (s.takeToken p) := by
  refine .of_phase p (f := fun n => n - 1) (r := fun u => some (u.getD s.uptime)) ?_ fun hle _ => ⟨?_, ?_⟩
  · rw [← s.takeToken_refill p]
    rfl
  · exact (Nat.sub_le _ _).trans hle
  · exact iff_of_true rfl (by omega)

theorem State.grantTurn_keepsGrants (s : State) : s.KeepsGrants s.grantTurn := by
  cases hgrant : s.closeGranted with
  | none =>
    rw [State.grantTurn_of_none hgrant]
    exact .refl s
  | some e =>
    obtain ⟨-, b, -, heligible⟩ := State.closeGranted_mem hgrant
    obtain ⟨-, -, hbank, -, -, -, -, -, -, htoken⟩ := (s.eligible_iff b e).1 heligible
    subst hbank
    have hturnOn : ∀ (u : State) (v : Vector (Option Outlet) 6), u.KeepsGrants { u with turnOn := v } := fun _ _ =>
      .of_same rfl
    rw [State.grantTurn_of_some hgrant]
    exact (State.takeToken_keepsGrants htoken).trans ((hturnOn _ _).trans (State.issue_keepsGrants _ _ _))

theorem due_isSome {t : Timer} {now : Uptime} {len : Nat} (h : due t now len = true) : t.isSome := by
  cases t with
  | none => nomatch h
  | some u => rfl

/-- A refill timer that runs out runs below the capacity, and goes on just if the phase stays below it (R95). -/
theorem execRefillTimerExpiry_keepsGrants (p : SupplyPhase) {s t : State} (h : execRefillTimerExpiry p s = .next t) :
    s.KeepsGrants t := by
  unfold execRefillTimerExpiry at h
  dsimp only at h
  split at h
  · rename_i hdue
    cases h
    refine .of_phase p rfl fun _ hiff => ⟨hiff.1 (due_isSome hdue), ?_⟩
    split
    · exact iff_of_true rfl ‹_›
    · exact iff_of_false Bool.false_ne_true ‹_›
  · cases h
    exact .refl s

/-! ## Group operations -/

section
variable (s : State) (g : Group)

theorem State.enterOffing_keepsGrants : s.KeepsGrants (s.enterOffing g) := (s.enterOffing_requeues g).keepsGrants

theorem State.startOp_keepsGrants (x : OpState) (k : OpKind) (c : OpCause) : s.KeepsGrants (s.startOp g x k c) :=
  (s.startOp_requeues g x k c).keepsGrants

theorem State.endOp_keepsGrants (r : OpResult) (w : Option OpReason) (v : Bool) :
    s.KeepsGrants (s.endOp g r w v) := (s.endOp_requeues g r w v).keepsGrants

theorem State.failOp_keepsGrants (r : OpReason) : s.KeepsGrants (s.failOp g r) := (s.failOp_requeues g r).keepsGrants

theorem State.startCycle_keepsGrants (c : OpCause) : s.KeepsGrants (s.startCycle g c) :=
  (s.startOp_keepsGrants g _ _ _).trans (State.enterOffing_keepsGrants _ g)

theorem State.startOff_keepsGrants : s.KeepsGrants (s.startOff g) :=
  (s.startOp_keepsGrants g _ _ _).trans (State.enterOffing_keepsGrants _ g)

theorem State.startOn_keepsGrants : s.KeepsGrants (s.startOn g) :=
  (s.unshedMembers_keepsGrants g).trans ((State.startOp_keepsGrants _ g _ _ _).trans
    (State.enterOning_requeues _ g).keepsGrants)

theorem State.retryOp_keepsGrants : s.KeepsGrants (s.retryOp g) := by
  unfold State.retryOp
  dsimp only
  split
  · exact (s.onGroup_keepsGrants g _).trans ((State.onGroup_keepsGrants _ g _).trans
      (State.enterOffing_keepsGrants _ g))
  · exact (s.onGroup_keepsGrants g _).trans (State.failOp_keepsGrants _ g _)

theorem State.groupToken_keepsGrants : s.KeepsGrants (s.groupToken g) :=
  State.ite_keepsGrants fun _ => s.endOp_keepsGrants g _ _ _

theorem State.groupBankLost_keepsGrants (b : Bank) : s.KeepsGrants (s.groupBankLost b) :=
  State.foldl_keepsGrants _ (fun u g => State.ite_keepsGrants fun _ => u.failOp_keepsGrants g _) _ s

theorem State.groupsSafe_keepsGrants : s.KeepsGrants s.groupsSafe :=
  State.foldl_keepsGrants _ (fun u g => by
    split
    · exact .refl u
    · exact u.endOp_keepsGrants g _ _ _) _ s

theorem State.verifyCurrent_keepsGrants (irms : Outlet → Nat) : s.KeepsGrants (s.verifyCurrent irms) :=
  State.foldl_keepsGrants _ (fun u g => State.ite_keepsGrants fun _ => u.endOp_keepsGrants g _ _ _) _ s

theorem State.appendHistories_keepsGrants (power : Outlet → Option Int) : s.KeepsGrants (s.appendHistories power) :=
  State.foldl_keepsGrants _ (fun u g => u.onGroup_keepsGrants g _) _ s

end

/-! ## Safe control -/

theorem State.requestSafe_keepsGrants (s : State) : s.KeepsGrants s.requestSafe.2 :=
  List.foldlRecOn (motive := fun x : SafeTally × State => s.KeepsGrants x.2) _ _ (.refl s) fun x hx o _ => by
    split
    · exact hx
    · exact hx.trans (x.2.request_keepsGrants o _ _)

theorem State.enterSafe_keepsGrants (s : State) (c : SafeCause) : s.KeepsGrants (s.enterSafe c) := by
  have hset : ∀ (u : State) (v : SafeControl), u.KeepsGrants { u with safe := v } := fun _ _ => .of_same rfl
  have hmonitors : ∀ u : State, u.KeepsGrants u.monitorsOffline := fun _ =>
    .of_same (by simp only [State.bucketFields, State.monitorsOffline])
  have hwithdraw : ∀ u : State, u.KeepsGrants (u.withdraw QueueEntry.notSafeOrShed) := fun u =>
    (u.withdraw_requeues _).keepsGrants
  unfold State.enterSafe
  dsimp only
  exact (hset _ _).trans ((hwithdraw _).trans ((State.requestSafe_keepsGrants _).trans ((hset _ _).trans
    ((State.raise_keepsGrants _ _ _ _).trans ((State.groupsSafe_keepsGrants _).trans
    ((hmonitors _).trans (State.refreshAllSheds_keepsGrants _)))))))

theorem State.enterSafeOnce_keepsGrants (s : State) (c : SafeCause) : s.KeepsGrants (s.enterSafeOnce c) := by
  unfold State.enterSafeOnce
  split
  · exact .refl s
  · exact s.enterSafe_keepsGrants c

theorem State.leaveSafe_keepsGrants (s : State) : s.KeepsGrants s.leaveSafe := by
  have hset : ∀ (v : SafeControl) (m : Vector Monitor 32), s.KeepsGrants { s with safe := v, monitors := m } :=
    fun _ _ => .of_same rfl
  exact (hset _ _).trans (State.refreshAllSheds_keepsGrants _)

/-! ## Monitors -/

section
variable (s : State) (g : Group)

theorem State.hangBusy_keepsGrants (r : BusyReport) : s.KeepsGrants (s.hangBusy g r) :=
  (s.onMonitor_keepsGrants g _).trans (State.raise_keepsGrants _ _ _ _)

theorem State.hangAccepted_keepsGrants (x : Option Nat) : s.KeepsGrants (s.hangAccepted g x) :=
  ((s.onMonitor_keepsGrants g _).trans (State.startCycle_keepsGrants _ g _)).trans (State.raise_keepsGrants _ _ _ _)

theorem State.hangCycle_keepsGrants (x : Option Nat) : s.KeepsGrants (s.hangCycle g x) := by
  unfold State.hangCycle
  dsimp only
  generalize hu : s.onMonitor g _ = u
  have hwindow : s.KeepsGrants u := hu ▸ s.onMonitor_keepsGrants g _
  refine hwindow.trans ?_
  split
  · exact (State.onMonitor_keepsGrants _ g _).trans (State.raise_keepsGrants _ _ _ _)
  · split
    · exact State.hangAccepted_keepsGrants _ g x
    · exact State.onMonitor_keepsGrants _ g _
    · exact State.hangBusy_keepsGrants _ g _
    · exact State.hangBusy_keepsGrants _ g _

theorem State.graceActs_keepsGrants : s.KeepsGrants (s.graceActs g) := by
  unfold State.graceActs
  dsimp only
  split
  · exact .refl s
  · exact (s.onMonitor_keepsGrants g _).trans (State.raise_keepsGrants _ _ _ _)
  · exact s.hangCycle_keepsGrants g _
  · split
    · exact s.hangCycle_keepsGrants g _
    · exact s.hangBusy_keepsGrants g _
    · exact s.hangBusy_keepsGrants g _

theorem State.monitorToken_keepsGrants : s.KeepsGrants (s.monitorToken g) := by
  unfold State.monitorToken
  split
  · exact State.ite_keepsGrants fun _ => s.onMonitor_keepsGrants g _
  · exact s.onMonitor_keepsGrants g _
  · exact (s.onMonitor_keepsGrants g _).trans (State.raise_keepsGrants _ _ _ _)
  · exact (s.onMonitor_keepsGrants g _).trans (State.raise_keepsGrants _ _ _ _)
  all_goals exact .refl s

theorem State.takeTokens_keepsGrants (numbers : List Byte) : s.KeepsGrants (s.takeTokens numbers) := by
  refine State.foldl_keepsGrants _ (fun u n => ?_) _ s
  split
  · exact .refl u
  · rename_i g _
    exact State.ite_keepsGrants fun _ => ((u.onMonitor_keepsGrants g _).trans
      (State.monitorToken_keepsGrants _ g)).trans (State.groupToken_keepsGrants _ g)

end

/-! ## Sets, closes and lanes -/

section
variable (s : State) (b : Bank)

theorem State.limitsAt_keepsGrants (w : Window) (k : WindowKind) : s.KeepsGrants (s.limitsAt b w k) := by
  have hlimited := s.limitsAt_limited b w k
  unfold State.Limited at hlimited
  rw [hlimited]
  exact .of_same rfl

theorem State.captureAtClose_keepsGrants (k : WindowKind) : s.KeepsGrants (s.captureAtClose b k) := by
  rw [State.captureAtClose_changes]
  exact .of_same rfl

theorem State.captureLost_keepsGrants : s.KeepsGrants (s.captureLost b) := by
  rw [State.captureLost_changes]
  exact .of_same rfl

theorem State.boundary_keepsGrants : s.KeepsGrants (s.boundary b) := by
  rw [State.boundary_changes]
  exact .of_same rfl

theorem State.metersAtClose_keepsGrants (w : Window) (k : WindowKind) : s.KeepsGrants (s.metersAtClose b w k) := by
  rw [State.metersAtClose_eq]
  exact .of_same rfl

theorem State.closeWindow_keepsGrants (c : Bool) : s.KeepsGrants (s.closeWindow b c) := by
  unfold State.closeWindow
  split
  · exact .refl s
  · exact ((((s.metersAtClose_keepsGrants b _ _).trans (State.limitsAt_keepsGrants _ b _ _)).trans
      (State.relaysAtClose_keepsGrants _ b _ _ c)).trans (State.captureAtClose_keepsGrants _ b _)).trans
      (State.boundary_keepsGrants _ b)

theorem State.openWindow_keepsGrants (num : SetNo) (aligned : Bool) : s.KeepsGrants (s.openWindow b num aligned) :=
  .of_same rfl

theorem State.placeSet_keepsGrants (num : SetNo) (c : Bool) : s.KeepsGrants (s.placeSet b num c) := by
  unfold State.placeSet
  split
  · exact s.openWindow_keepsGrants b num c
  · exact State.ite_keepsGrants fun _ =>
      (s.closeWindow_keepsGrants b true).trans (State.openWindow_keepsGrants _ b num true)

theorem State.handSet_keepsGrants (num : SetNo) (raw : RawSet) (sub : Bool) :
    s.KeepsGrants (s.handSet b num raw sub) := by
  have hmeter : ∀ f : BankMeter → BankMeter, s.KeepsGrants (s.onMeter b f) := fun _ => .of_same rfl
  have hadd : ∀ (u : State) (x : CalSet), u.KeepsGrants (u.addSet b x) := fun _ _ => .of_same rfl
  have hfull : ∀ u : State, u.KeepsGrants (u.closeFull b) := fun u =>
    State.ite_keepsGrants fun _ => u.closeWindow_keepsGrants b false
  exact ((((hmeter _).trans (State.placeSet_keepsGrants _ b num _)).trans
    (State.relaySet_keepsGrants _ b raw.closed sub .uncommanded)).trans (hadd _ _)).trans (hfull _)

theorem State.placeIndicate_keepsGrants : s.KeepsGrants (s.placeIndicate b) :=
  State.ite_keepsGrants fun _ => s.onLane_keepsGrants b _

theorem State.enterUp_keepsGrants (c : SampleCell) : s.KeepsGrants (s.enterUp b c) := by
  have hreset : ∀ (u : State) (v : Vector (Option Nat) 6),
      u.KeepsGrants { u.onMeter b BankMeter.windowReset with phaseElements := v } := fun _ _ => .of_same rfl
  unfold State.enterUp
  exact ((((((s.onLane_keepsGrants b _).trans (hreset _ _)).trans (State.raise_keepsGrants _ _ _ _)).trans
    (State.relaySet_keepsGrants _ b _ _ _)).trans (State.placeIndicate_keepsGrants _ b)).trans
    (State.refreshSheds_keepsGrants _ b)).trans (State.handSet_keepsGrants _ b _ _ _)

theorem State.enterLost_keepsGrants : s.KeepsGrants (s.enterLost b) := by
  have hstopped : s.KeepsGrants (((s.onLane b Lane.enterLost).discardWindow b).raise .bankLost (numberOf b)
      (.bankLost s.lanes[b].counter)) := .of_same rfl
  unfold State.enterLost
  exact ((((hstopped.trans (State.refreshSheds_keepsGrants _ b)).trans (State.groupBankLost_keepsGrants _ b)).trans
    (State.foldl_keepsGrants _ State.relayLost_keepsGrants _ _)).trans (State.captureLost_keepsGrants _ b)).trans
    (State.boundary_keepsGrants _ b)

theorem State.laneError_keepsGrants (k : ErrorKind) (bytes : List Byte) : s.KeepsGrants (s.laneError b k bytes) :=
  (s.onLane_keepsGrants b _).trans (State.raiseLinkError_keepsGrants _ _ _ _ _)

theorem State.laneCell_keepsGrants (cell : List LineChar) : s.KeepsGrants (s.laneCell b cell) := by
  unfold State.laneCell State.offerSample
  split
  · exact s.laneError_keepsGrants b _ _
  · split
    · exact s.onLane_keepsGrants b _
    · exact s.laneError_keepsGrants b _ _

theorem State.handNext_keepsGrants (raw : RawSet) (sub : Bool) : s.KeepsGrants (s.handNext b raw sub) :=
  (s.onLane_keepsGrants b _).trans (State.handSet_keepsGrants _ b _ raw sub)

theorem State.handSubstitutes_keepsGrants (n : Nat) (b : Bank) (raw : RawSet) (s : State) :
    s.KeepsGrants (State.handSubstitutes n b raw s) := by
  induction n generalizing s with
  | zero => exact .refl s
  | succ n ih => exact (s.handNext_keepsGrants b raw true).trans (ih _)

theorem State.takeInUp_keepsGrants (c : SampleCell) : s.KeepsGrants (s.takeInUp b c) :=
  State.ite_keepsGrants fun _ => ((State.handSubstitutes_keepsGrants _ b _ s).trans
    (State.handNext_keepsGrants _ b _ _)).trans (State.onLane_keepsGrants _ b _)

theorem State.takeInRun_keepsGrants (c : SampleCell) : s.KeepsGrants (s.takeInRun b c) := by
  unfold State.takeInRun
  split
  · exact s.enterUp_keepsGrants b c
  · exact s.onLane_keepsGrants b _

end

theorem State.closeInterval_keepsGrants (s : State) : s.KeepsGrants s.closeInterval := by
  have hraise : ∀ (u : State) (e : Event), u.KeepsGrants (u.raiseEvent e) := fun _ _ => .of_same rfl
  have hevents : s.KeepsGrants (allBanks.foldl (fun t b => t.raiseEvent (s.intervalEvent b s.intervalEnd)) s) :=
    State.foldl_keepsGrants _ (fun u b => hraise u _) _ s
  have hnext : ∀ (u : State) (v : IntervalClock), u.KeepsGrants { u.clearSums with interval := v } :=
    fun _ _ => .of_same (by simp only [State.bucketFields, State.clearSums])
  exact ((hevents.trans (hnext _ _)).trans (State.appendHistories_keepsGrants _ _)).trans
    (State.verifyCurrent_keepsGrants _ _)

/-! ## Tables -/

theorem State.writeEntry_keepsGrants (s : State) (t : TableId) (k : Nat) (area : List Byte) :
    s.KeepsGrants (s.writeEntry t k area).state := by
  cases t
  all_goals
    simp only [State.writeEntry, State.writeOutlet, State.writeBank, State.writePhase, State.writeCal, State.writeGroup,
      State.writeGrant, State.writeSystem]
    repeat' split
  all_goals exact .of_same rfl

theorem State.discardTable_keepsGrants (s : State) (t : TableId) : s.KeepsGrants (s.discardTable t).state := by
  cases t
  case phase =>
    refine .of_same (Prod.ext rfl (Prod.ext rfl (Prod.ext rfl ?_)))
    exact Staged.discard_active _ _
  all_goals exact .of_same rfl

theorem State.applyOutlets_keepsGrants (s : State) (l : List Outlet) : s.KeepsGrants (l.foldl State.applyOutlet s) :=
  State.foldl_keepsGrants _ (fun u o => by
    rw [u.applyOutlet_releases o]
    exact .of_same rfl) l s

theorem State.commitOutlets_keepsGrants (s : State) : s.KeepsGrants s.commitOutlets.state := by
  have htable : ∀ (u : State) (v : Staged OutletEntry 48 48), u.KeepsGrants { u with outletTable := v } := fun _ _ =>
    .of_same rfl
  unfold State.commitOutlets
  dsimp only
  split <;> exact (s.applyOutlets_keepsGrants _).trans (htable _ _)

theorem State.commitGroups_keepsGrants (s : State) : s.KeepsGrants s.commitGroups.state := by
  have happly : ∀ gs : List Group, s.KeepsGrants (s.applyGroups gs) := fun gs =>
    ((s.applyGroups_regroups gs).requeues (s.applyGroups_quiet gs)).keepsGrants
  have htable : ∀ (u : State) (v : Staged GroupEntry 32 32), u.KeepsGrants { u with groupTable := v } := fun _ _ =>
    .of_same rfl
  unfold State.commitGroups
  dsimp only
  split
  · exact .refl s
  · split <;> exact (happly _).trans (htable _ _)

/-! ## New capacities -/

/-- The promise of one phase. -/
def State.TokenKept (s : State) (p : SupplyPhase) : Prop :=
  s.tokens[p] ≤ s.phaseTable.active[p].capacity
    ∧ (s.refill[p].isSome ↔ s.tokens[p] < s.phaseTable.active[p].capacity)

/-- The tokens are cut to the capacity, and the timer runs just below it (R94, R150). -/
theorem State.alignPhase_eq (s : State) (p : SupplyPhase) : s.alignPhase p =
    let cap := s.phaseTable.active[p].capacity
    { s with tokens := upd s.tokens p fun n => min n cap
             refill := upd s.refill p fun u => if s.tokens[p] < cap then some (u.getD s.uptime) else none } := by
  have hwithin : s.tokens[p] ≤ s.phaseTable.active[p].capacity →
      upd s.tokens p (fun n => min n s.phaseTable.active[p].capacity) = s.tokens := fun h =>
    (upd_congr (f := fun n => min n s.phaseTable.active[p].capacity) (g := fun n => n) (Nat.min_eq_left h)).trans
      (upd_id _ p)
  unfold State.alignPhase
  dsimp only
  split
  · rename_i hover
    rw [upd_congr (f := fun n => min n _) (g := fun _ => s.phaseTable.active[p].capacity)
      (Nat.min_eq_right (Nat.le_of_lt hover))]
    simp only [if_neg (Nat.lt_asymm hover)]
  · rename_i hover
    rw [hwithin (Nat.not_lt.1 hover)]
    split
    · rename_i hfull
      simp only [if_neg (Nat.not_lt.2 (Nat.le_of_eq hfull.symm))]
    · rename_i hfull
      simp only [if_pos (Nat.lt_of_le_of_ne (Nat.not_lt.1 hover) hfull)]
      congr 1
      refine upd_congr ?_
      cases s.refill[p] <;> rfl

/-- A phase keeps its promise once it is aligned, whatever its tokens were; the others stay. -/
theorem State.alignPhase_tokenKept (s : State) (p q : SupplyPhase) (hq : q = p ∨ s.TokenKept q) :
    (s.alignPhase p).TokenKept q := by
  rw [State.alignPhase_eq]
  unfold State.TokenKept
  dsimp only
  by_cases heq : p = q
  · subst heq
    rw [upd_get_self, upd_get_self]
    refine ⟨Nat.min_le_right _ _, ?_⟩
    split
    · exact iff_of_true rfl (Nat.lt_of_le_of_lt (Nat.min_le_left _ _) ‹_›)
    · exact iff_of_false Bool.false_ne_true (by omega)
  · rw [upd_get_ne _ heq, upd_get_ne _ heq]
    exact hq.resolve_left (Ne.symm heq)

theorem State.alignPhases_tokenKept (l : List SupplyPhase) (q : SupplyPhase) (s : State)
    (hq : q ∈ l ∨ s.TokenKept q) : (l.foldl State.alignPhase s).TokenKept q := by
  induction l generalizing s with
  | nil => exact hq.resolve_left List.not_mem_nil
  | cons p l ih =>
    refine ih _ ?_
    by_cases hl : q ∈ l
    · exact .inl hl
    · exact .inr (s.alignPhase_tokenKept p q (hq.imp_left fun h => (List.mem_cons.1 h).resolve_right hl))

/-- A phase whose entry does not change keeps its capacity. -/
theorem State.commitPhases_keepsGrants (s : State) : s.KeepsGrants s.commitPhases.state := by
  refine ⟨fun h q => State.alignPhases_tokenKept _ q _ ?_, ?_⟩
  · by_cases hq : s.phaseTable.pending[q] = s.phaseTable.active[q]
    · refine .inr ?_
      have hkept := h q
      rw [← hq] at hkept
      exact hkept
    · exact .inl (List.mem_filter.2 ⟨List.mem_finRange q, decide_eq_true hq⟩)
  · have hqueue : s.commitPhases.state.queue = s.queue := by
      refine foldl_keeps State.queue State.alignPhase (fun u p => ?_) _ _
      rw [State.alignPhase_eq]
    unfold State.QueueKept
    rw [hqueue]
    exact id

theorem State.commitTable_keepsGrants (s : State) (t : TableId) (tag : Byte) :
    s.KeepsGrants (s.commitTable t tag).state := by
  have hcal : s.KeepsGrants (s.commitCal tag).state := by
    unfold State.commitCal
    rw [State.replyByBank_state]
    exact .of_same rfl
  have hbanks : s.KeepsGrants (s.commitBanks tag).state := by
    unfold State.commitBanks
    rw [State.replyByBank_state]
    exact .of_same rfl
  have hgrants : s.KeepsGrants s.commitGrants.state := by
    unfold State.commitGrants
    split <;> exact .of_same rfl
  cases t
  all_goals
    simp only [State.commitTable]
    split
  case outlet.isTrue => exact s.commitOutlets_keepsGrants
  case bank.isTrue => exact hbanks
  case phase.isTrue => exact s.commitPhases_keepsGrants
  case calibration.isFalse =>
    split
    · exact hcal
    · exact .refl s
  case group.isTrue => exact s.commitGroups_keepsGrants
  case grant.isTrue => exact hgrants
  case system.isTrue => exact .of_same rfl
  all_goals exact .refl s

/-! ## Restarts -/

/-- Full buckets, no timers and no entries. -/
theorem State.resetBlocks_grants (s : State) : s.resetBlocks.TokensKept ∧ s.resetBlocks.QueueKept := by
  refine ⟨fun p => ?_, List.nodup_nil⟩
  unfold State.resetBlocks
  dsimp only
  rw [ofFn_get (fun p : SupplyPhase => s.phaseTable.active[p].capacity) p]
  refine ⟨Nat.le_refl _, iff_of_false ?_ (Nat.lt_irrefl _)⟩
  simp

theorem State.showModes_keepsGrants (s : State) : s.KeepsGrants s.showModes := by
  have hshown : ∀ v : Vector (Vector Mode 8) 6, s.KeepsGrants { s with shown := v } := fun _ => .of_same rfl
  exact (hshown _).trans (State.foldl_keepsGrants _ State.placeIndicate_keepsGrants _ _)

theorem State.safeByPin_keepsGrants (s : State) : s.KeepsGrants s.safeByPin :=
  State.ite_keepsGrants fun _ => s.enterSafe_keepsGrants _

theorem State.KeepsGrants.of_reset {s t u : State} (h : u.resetBlocks.KeepsGrants t) : s.KeepsGrants t :=
  ⟨fun _ => h.tokens u.resetBlocks_grants.1, fun _ => h.queue u.resetBlocks_grants.2⟩

theorem State.restartEngine_keepsGrants (s : State) : s.KeepsGrants s.restartEngine := by
  refine .of_reset (u := s.restartTables) (.trans (.of_same ?_) (State.showModes_keepsGrants _))
  rfl

theorem State.restartAll_keepsGrants (s : State) : s.KeepsGrants s.restartAll := by
  refine .of_reset (u := s.defaultTables) (.trans (.of_same ?_) ((State.showModes_keepsGrants _).trans
    (State.safeByPin_keepsGrants _)))
  rfl

end Sys2Proof.Machine
end

