-- ==== Sys2Proof/Proofs/GrantsEveryStep.lean ====
section
/-! Command by command: tokens stay within their capacities, and outlets have one entry each. -/

namespace Sys2Proof.Machine

/-- A command that, when its condition holds, keeps tokens and entries, and else changes nothing. -/
theorem keepsGrants_of_ite {s t u : State} {c : Prop} [Decidable c]
    (h : (if c then Host.Outcome.next u else .next s : Result) = .next t) (hu : c → s.KeepsGrants u) :
    s.KeepsGrants t := by
  split at h
  · cases h; exact hu ‹_›
  · cases h; exact .refl s

/-- A command is taken and keeps what its owner keeps, or changes nothing. -/
theorem State.take_keepsGrants {s t : State} {kind tag : Byte} {payload : List Byte} {len : Nat} {run : State → Reply}
    (h : s.take kind tag payload len run = .next t) (hrun : ∀ u : State, u.KeepsGrants (run u).state) :
    s.KeepsGrants t := by
  have hpop : s.KeepsGrants s.popCommand := .of_same rfl
  have hfill : ∀ (u : State) (x : Option (Status × Answer)), u.KeepsGrants (u.fillSlot tag kind x) := fun u x => by
    cases x <;> exact .of_same rfl
  have hreply : ∀ u : State, u.KeepsGrants (u.replyTo payload len run).state := fun u => by
    unfold State.replyTo
    split
    · exact hrun u
    · exact .refl u
  exact keepsGrants_of_ite h fun _ => (hpop.trans (hreply _)).trans (hfill _ _)

theorem State.KeepsGrants.reply {s t : State} (h : s.KeepsGrants t) (st : Status) :
    s.KeepsGrants (t.reply st).state := h

/-! ## Lanes and link 0 -/

section
variable {s t : State}

theorem execLaneCellReceived_keepsGrants (b : Bank) (chars : List LineChar)
    (h : execLaneCellReceived b chars s = .next t) : s.KeepsGrants t := by
  unfold execLaneCellReceived at h
  dsimp only at h
  split at h
  · cases h
    split
    · exact .refl s
    · exact s.onLane_keepsGrants b _
  · cases h
    split
    · exact s.onLane_keepsGrants b _
    · exact (s.onLane_keepsGrants b _).trans (State.laneCell_keepsGrants _ b _)

theorem execSignalTimerExpiry_keepsGrants (b : Bank) (h : execSignalTimerExpiry b s = .next t) :
    s.KeepsGrants t := by
  unfold execSignalTimerExpiry at h
  split at h
  · split at h <;> cases h
    · exact s.onLane_keepsGrants b _
    · exact (s.onLane_keepsGrants b _).trans (State.raise_keepsGrants _ _ _ _)
    · exact .refl s
    · exact .refl s
  · cases h; exact .refl s

theorem execTakeSampleCell_keepsGrants (b : Bank) (h : execTakeSampleCell b s = .next t) : s.KeepsGrants t := by
  unfold execTakeSampleCell at h
  split at h
  · cases h; exact .refl s
  · split at h
    · dsimp only at h
      split at h <;> cases h
      · exact .refl s
      · exact (s.onLane_keepsGrants b _).trans (State.takeInRun_keepsGrants _ b _)
      · exact (s.onLane_keepsGrants b _).trans (State.takeInUp_keepsGrants _ b _)
      · exact (s.onLane_keepsGrants b _).trans (State.takeInRun_keepsGrants _ b _)
    · cases h; exact .refl s

theorem State.onLink0_keepsGrants (s : State) (f : Link0 → Link0) : s.KeepsGrants (s.onLink0 f) := .of_same rfl

theorem State.linkError_keepsGrants (s : State) (k : ErrorKind) (bytes : List Byte) :
    s.KeepsGrants (s.linkError k bytes) :=
  (s.onLink0_keepsGrants _).trans (State.raiseLinkError_keepsGrants _ _ _ _ _)

theorem State.offerCommand_keepsGrants (s : State) (c : CommandCell) (bytes : List Byte) :
    s.KeepsGrants (s.offerCommand c bytes) := by
  unfold State.offerCommand
  split
  · exact .of_same rfl
  · exact s.linkError_keepsGrants _ _

theorem execLink0CellReceived_keepsGrants (chars : List LineChar) (h : execLink0CellReceived chars s = .next t) :
    s.KeepsGrants t := by
  unfold execLink0CellReceived at h
  obtain ⟨rfl⟩ := Host.Outcome.next.inj h
  split
  · exact s.onLink0_keepsGrants _
  · split
    · exact (s.onLink0_keepsGrants _).trans (State.linkError_keepsGrants _ _ _)
    · exact (s.onLink0_keepsGrants _).trans (State.offerCommand_keepsGrants _ _ _)

theorem execUpstreamCellStart_keepsGrants (h : execUpstreamCellStart s = .next t) : s.KeepsGrants t := by
  unfold execUpstreamCellStart State.startUpstream at h
  split at h <;> cases h
  · exact .refl s
  · split <;> exact .of_same rfl

/-! ## Timers -/

theorem execDispatchOpportunity_keepsGrants (h : execDispatchOpportunity s = .next t) : s.KeepsGrants t := by
  have hmark : ∀ u : State, u.KeepsGrants { u with grantPtr := u.grantPtr + 1, opportunityTaken := true } := fun _ =>
    .of_same rfl
  exact keepsGrants_of_ite h fun _ => (s.issueOpens_keepsGrants.trans (State.grantTurn_keepsGrants _)).trans (hmark _)

theorem execGrantTimeout_keepsGrants (o : Outlet) (h : execGrantTimeout o s = .next t) : s.KeepsGrants t := by
  unfold execGrantTimeout at h
  split at h
  · cases h; exact .refl s
  · exact keepsGrants_of_ite h fun _ => s.complete_keepsGrants _ _ _

theorem execBootWindowExpiry_keepsGrants (g : Group) (h : execBootWindowExpiry g s = .next t) : s.KeepsGrants t := by
  unfold execBootWindowExpiry at h
  split at h
  · split at h
    · obtain ⟨rfl⟩ := Host.Outcome.next.inj h
      exact s.retryOp_keepsGrants g
    · obtain ⟨rfl⟩ := Host.Outcome.next.inj h
      exact s.failOp_keepsGrants g _
  · cases h; exact .refl s

theorem execDeadlineExpiry_keepsGrants (g : Group) (h : execDeadlineExpiry g s = .next t) : s.KeepsGrants t := by
  refine keepsGrants_of_ite h fun _ => ?_
  generalize hu : (s.onMonitor g _).raise _ _ _ = u
  have hsuspect : s.KeepsGrants u := hu ▸ (s.onMonitor_keepsGrants g _).trans (State.raise_keepsGrants _ _ _ _)
  exact hsuspect.trans (State.ite_keepsGrants fun _ => u.graceActs_keepsGrants g)

/-! ## Safe control and restarts -/

theorem execSafePinChange_keepsGrants (asserted : Bool) (h : execSafePinChange asserted s = .next t) :
    s.KeepsGrants t := by
  have hpin : ∀ x : Bool, s.KeepsGrants { s with safePin := x } := fun _ => .of_same rfl
  unfold execSafePinChange at h
  split at h
  · cases h; exact .refl s
  · split at h <;> cases h
    · exact (hpin _).trans (State.enterSafeOnce_keepsGrants _ _)
    · exact hpin _

theorem execRestartTakesEffect_keepsGrants (h : execRestartTakesEffect s = .next t) : s.KeepsGrants t := by
  unfold execRestartTakesEffect at h
  split at h
  · cases h; exact .refl s
  · split at h
    · obtain ⟨rfl⟩ := Host.Outcome.next.inj h
      split
      · exact s.restartEngine_keepsGrants
      · exact s.restartAll_keepsGrants
    · cases h; exact .refl s

theorem execPowerOn_keepsGrants (h : execPowerOn s = .next t) : s.KeepsGrants t := by
  have hlines : State.reset.KeepsGrants
      { State.reset with pending := s.pending, safePin := s.safePin, holdIn := s.holdIn } := .of_same rfl
  cases h
  have hpower := hlines.trans (State.safeByPin_keepsGrants _)
  exact ⟨fun _ => hpower.tokens State.reset_tokensKept, fun _ => hpower.queue List.nodup_nil⟩

end

/-! ## Commands of link 0 -/

section
variable (s : State)

theorem State.switched_keepsGrants (o : Outlet) (a : Action) : s.KeepsGrants (s.switched o a) := by
  unfold State.switched
  split
  · exact (s.request_keepsGrants o a .manual).trans (State.unshed_keepsGrants _ o)
  · exact s.request_keepsGrants o a .manual

theorem State.switchOutlet_keepsGrants (o : Outlet) (a : Action) : s.KeepsGrants (s.switchOutlet o a).state := by
  unfold State.switchOutlet
  dsimp only
  split
  · exact .refl s
  · split
    · exact .refl s
    · split
      · exact .refl s
      · exact (s.switched_keepsGrants o a).reply _

variable (g : Group)

theorem State.cycleGroup_keepsGrants : s.KeepsGrants (s.cycleGroup g).state := by
  unfold State.cycleGroup
  dsimp only
  split
  · exact .refl s
  · split
    · split
      · exact .refl s
      · exact (s.startCycle_keepsGrants g _).reply _
    · split
      · exact .refl s
      · exact (s.onGroup_keepsGrants g _).reply _
    · split <;> exact .refl s
    · exact .refl s
    · exact .refl s

theorem State.withdrawAwaited_keepsGrants : s.KeepsGrants (s.withdrawAwaited g) :=
  (s.withdrawAwaited_requeues g).keepsGrants

theorem State.offGroup_keepsGrants : s.KeepsGrants (s.offGroup g).state := by
  have hturn := s.onGroup_keepsGrants g fun r => { r with kind := some .off, cause := some .manual }
  unfold State.offGroup
  dsimp only
  split
  · exact .refl s
  · split
    · exact .refl s
    · split
      · exact (s.startOff_keepsGrants g).reply _
      · exact hturn.reply _
      · exact ((hturn.trans (State.onGroup_keepsGrants _ g _)).trans (State.endOp_keepsGrants _ g _ _ _)).reply _
      · exact (((hturn.trans (State.onGroup_keepsGrants _ g _)).trans (State.withdrawAwaited_keepsGrants _ g)).trans
          (State.enterOffing_keepsGrants _ g)).reply _
      · exact ((hturn.trans (State.onGroup_keepsGrants _ g _)).trans (State.enterOffing_keepsGrants _ g)).reply _

theorem State.onGroupPower_keepsGrants : s.KeepsGrants (s.onGroupPower g).state := by
  unfold State.onGroupPower
  dsimp only
  split
  · exact .refl s
  · split
    · exact (s.startOn_keepsGrants g).reply _
    · exact .refl s
    · exact .refl s
    · split
      · exact .refl s
      · exact (s.unshedMembers_keepsGrants g).reply _
    · split
      · exact .refl s
      · exact (s.unshedMembers_keepsGrants g).reply _

theorem State.cancelGroup_keepsGrants : s.KeepsGrants (s.cancelGroup g).state := by
  have hend : s.KeepsGrants (s.endOp g .cancelled (some .command) false) := s.endOp_keepsGrants g _ _ _
  unfold State.cancelGroup
  dsimp only
  split
  · exact .refl s
  · split
    · exact .refl s
    · exact (((s.withdrawAwaited_keepsGrants g).trans (State.onGroup_keepsGrants _ g _)).trans
        (State.offingOver_requeues _ g).keepsGrants).reply _
  · split
    · exact .refl s
    · exact hend.reply _
  · split
    · exact .refl s
    · exact ((s.withdrawAwaited_keepsGrants g).trans (State.endOp_keepsGrants _ g _ _ _)).reply _
  · split
    · exact .refl s
    · exact hend.reply _

end

theorem execUnknownCommand_keepsGrants (kind tag : Byte) (payload : List Byte) {s t : State}
    (h : execUnknownCommand kind tag payload s = .next t) : s.KeepsGrants t := by
  unfold execUnknownCommand at h
  split at h
  · cases h; exact .refl s
  · exact State.take_keepsGrants h fun u => .refl u

/-! ## Every command -/

theorem exec_keepsGrants {c : Instr} {s t : State} (h : exec c s = .next t) : s.KeepsGrants t := by
  have hsettle : ∀ v : Vector Timer 6, s.KeepsGrants { s with settle := v } := fun _ => .of_same rfl
  have hpop : s.KeepsGrants s.popCommand := .of_same rfl
  have houtlets : ∀ (u : State) (v : Vector OutletMeter 48), u.KeepsGrants { u with outlets := v } := fun _ _ =>
    .of_same rfl
  cases c with
  | powerOn => exact execPowerOn_keepsGrants h
  | laneCharacter b c => cases h; exact s.onLane_keepsGrants b _
  | laneCellReceived b chars => exact execLaneCellReceived_keepsGrants b chars h
  | laneBreak b =>
    exact keepsGrants_of_ite h fun _ => (s.onLane_keepsGrants b _).trans (State.laneError_keepsGrants _ b _ _)
  | takeSampleCell b => exact execTakeSampleCell_keepsGrants b h
  | silenceTimerExpiry b => exact keepsGrants_of_ite h fun _ => s.enterLost_keepsGrants b
  | signalTimerExpiry b => exact execSignalTimerExpiry_keepsGrants b h
  | laneCellStart b => cases h; exact s.onLane_keepsGrants b _
  | intervalClose => exact keepsGrants_of_ite h fun _ => s.closeInterval_keepsGrants
  | shedTimerExpiry b =>
    exact keepsGrants_of_ite h fun _ => ((s.onShed_keepsGrants b _).trans (State.shedFirst_keepsGrants b _ _)).trans
      (State.refreshSheds_keepsGrants _ b)
  | restoreTimerExpiry b =>
    exact keepsGrants_of_ite h fun _ => ((s.onShed_keepsGrants b _).trans (State.restoreTop_keepsGrants _ b)).trans
      (State.refreshSheds_keepsGrants _ b)
  | dispatchOpportunity => exact execDispatchOpportunity_keepsGrants h
  | settleTimerExpiry b => exact keepsGrants_of_ite h fun _ => hsettle _
  | refillTimerExpiry p => exact execRefillTimerExpiry_keepsGrants p h
  | grantTimeout o => exact execGrantTimeout_keepsGrants o h
  | dwellExpiry g =>
    exact keepsGrants_of_ite h fun _ => (s.onGroup_keepsGrants g _).trans (State.enterOning_requeues _ g).keepsGrants
  | staggerExpiry g =>
    exact keepsGrants_of_ite h fun _ => (s.onGroup_keepsGrants g _).trans (State.turnsFrom_requeues _ g _).keepsGrants
  | bootWindowExpiry g => exact execBootWindowExpiry_keepsGrants g h
  | deadlineExpiry g => exact execDeadlineExpiry_keepsGrants g h
  | graceExpiry g => exact keepsGrants_of_ite h fun _ => s.graceActs_keepsGrants g
  | budgetWindowExpiry g => exact keepsGrants_of_ite h fun _ => s.onMonitor_keepsGrants g _
  | link0CellReceived chars => exact execLink0CellReceived_keepsGrants chars h
  | link0Break chars => cases h; exact (s.onLink0_keepsGrants _).trans (State.linkError_keepsGrants _ _ _)
  | upstreamCellStart => exact execUpstreamCellStart_keepsGrants h
  | holdInChange asserted => cases h; exact .of_same rfl
  | safePinChange asserted => exact execSafePinChange_keepsGrants asserted h
  | restartTakesEffect => exact execRestartTakesEffect_keepsGrants h
  | unknownCommand kind tag payload => exact execUnknownCommand_keepsGrants kind tag payload h
  | writeEntry tag payload =>
    refine State.take_keepsGrants h fun u => ?_
    split
    · exact .refl u
    · exact u.writeEntry_keepsGrants _ _ _
  | discard tag payload =>
    refine State.take_keepsGrants h fun u => ?_
    split
    · exact .refl u
    · exact u.discardTable_keepsGrants _
  | commit tag payload =>
    refine State.take_keepsGrants h fun u => ?_
    split
    · exact .refl u
    · exact u.commitTable_keepsGrants _ tag
  | switch tag payload =>
    refine State.take_keepsGrants h fun u => ?_
    split
    · exact u.switchOutlet_keepsGrants _ _
    · exact .refl u
    · exact .refl u
  | clearFault tag payload =>
    refine State.take_keepsGrants h fun u => ?_
    split
    · exact .refl u
    · split
      · exact u.setRelay_keepsGrants _ _
      · exact .refl u
  | cycle tag payload =>
    refine State.take_keepsGrants h fun u => ?_
    split
    · exact .refl u
    · exact u.cycleGroup_keepsGrants _
  | groupOff tag payload =>
    refine State.take_keepsGrants h fun u => ?_
    split
    · exact .refl u
    · exact u.offGroup_keepsGrants _
  | groupOn tag payload =>
    refine State.take_keepsGrants h fun u => ?_
    split
    · exact .refl u
    · exact u.onGroupPower_keepsGrants _
  | cancel tag payload =>
    refine State.take_keepsGrants h fun u => ?_
    split
    · exact .refl u
    · exact u.cancelGroup_keepsGrants _
  | token tag payload => exact keepsGrants_of_ite h fun _ => hpop.trans (State.takeTokens_keepsGrants _ _)
  | forceSafe tag payload => exact State.take_keepsGrants h fun u => u.enterSafeOnce_keepsGrants _
  | resume tag payload =>
    refine State.take_keepsGrants h fun u => ?_
    split
    · exact u.leaveSafe_keepsGrants
    · exact .refl u
  | triggerStream tag payload =>
    refine State.take_keepsGrants h fun u => ?_
    unfold State.triggerBound
    repeat' split
    all_goals exact .of_same rfl
  | clearLinkErrors tag payload =>
    refine State.take_keepsGrants h fun u => ?_
    exact .of_same (by simp only [State.bucketFields, State.clearLinkErrors, State.reply])
  | bindStream tag payload | readCapture tag payload =>
    refine State.take_keepsGrants h fun u => ?_
    dsimp only
    repeat' split
    all_goals exact .of_same rfl
  | status tag payload => exact State.take_keepsGrants h fun u => .refl u
  | readEntry tag payload | readOutlet tag payload | readGroup tag payload =>
    refine State.take_keepsGrants h fun u => ?_
    repeat' split
    all_goals exact .refl u
  | clearEnergy tag payload =>
    refine State.take_keepsGrants h fun u => ?_
    repeat' split
    · exact houtlets u _
    · exact .refl u
    · exact houtlets u _
  | lockCal tag payload | clearLockout tag payload | setLevel tag payload | setMask tag payload
  | unbindStream tag payload | capture tag payload | restart tag payload =>
    refine State.take_keepsGrants h fun u => ?_
    repeat' split
    all_goals exact .of_same rfl

theorem step_keepsGrants {s t : State} (h : step s = .next t) : s.KeepsGrants t := by
  unfold step at h
  split at h
  · cases h
    unfold State.tick
    dsimp only
    split <;> exact .of_same rfl
  · rename_i c rest _
    have hrest : s.KeepsGrants (s.withPending rest) := .of_same rfl
    exact hrest.trans (exec_keepsGrants h)

/-- Settles O53: tokens move with grants, refills and new capacities, and every way into the queue is a request. -/
theorem everyStepKeepsTokensAndEntries : Obligations.EveryStepKeepsTokensAndEntries :=
  ⟨fun _ _ hs h => (step_keepsGrants h).tokens hs, fun _ _ hs h => (step_keepsGrants h).queue hs⟩

end Sys2Proof.Machine
end

