-- ==== Sys2Proof/Proofs/SwitchingTimers.lean ====
section
/-! The timers of switching run out (R93, R95, R97), and what every completion does (R98, R99). -/

namespace Sys2Proof.Machine

/-! ## The blocks that a completion is handed to -/

theorem State.groupCompletion_of_unawaited {s : State} {o : Outlet} (h : ∀ g : Group, o ∉ s.groups[g].awaited)
    (a : Action) (res : Completion) : s.groupCompletion o a res = s := by
  have hnone : s.awaiter o = none := List.find?_eq_none.2 fun g _ => by simpa using h g
  unfold State.groupCompletion
  rw [hnone]

theorem State.safeFollowUp_of_not_mem {s : State} {o : Outlet} (h : o ∉ s.safe.followUp) : s.safeFollowUp o = s :=
  if_neg h

/-- Out of SAFE, nothing follows. -/
theorem State.safeFollowUp_of_notSafe {s : State} (h : s.safe.cause = none) (o : Outlet) :
    s.safeFollowUp o = { s with safe := (s.safeFollowUp o).safe } := by
  unfold State.safeFollowUp State.inSafe
  dsimp only
  rw [h]
  split <;> rfl

/-- Group engine and safe control leave turn-ons, settle timers and relays; they begin no flight of a shed unit; and
what they put into the queue is WAITING and of now. -/
theorem State.told_fields (s : State) (o : Outlet) (a : Action) (res : Completion) :
    let t := (s.groupCompletion o a res).safeFollowUp o
    t.turnOn = s.turnOn ∧ t.settle = s.settle ∧ t.relays = s.relays
    ∧ (∀ e ∈ t.queue, e ∈ s.queue ∨ e.state = .waiting ∧ e.enqueued = s.uptime)
    ∧ ∀ b : Bank, s.sheds[b].Lands t.sheds[b] := by
  have hgroups := s.groupCompletion_requeues o a res
  obtain ⟨l, hfollow⟩ := (s.groupCompletion o a res).safeFollowUp_requeues o
  refine ⟨hfollow.turnOn.trans hgroups.turnOn, hfollow.settle.trans hgroups.settle,
    hfollow.relays.trans hgroups.relays, fun e he => ?_, fun b => (hgroups.lands b).trans (hfollow.lands b)⟩
  obtain he | he := hfollow.queue e he
  · exact hgroups.queue e he
  · exact .inr (hgroups.uptime ▸ he)

/-- Neither the release of the deferred entry nor the end of the turn-on is anything to group operations and SAFE. -/
theorem State.entryDone_untouched (s : State) (o : Outlet) (e : QueueEntry) (res : Completion)
    (act : Option SetNo) : (s.entryDone o e res act).groups = s.groups
    ∧ (s.entryDone o e res act).safe = s.safe := by
  rw [State.entryDone_eq, s.releaseOutlet_releases o]
  exact ⟨rfl, rfl⟩

/-! ## The completion of an outlet's one entry -/

/-- A flight that ended with outlet `o`, whatever ended after it, is not in flight with `o`. -/
theorem ShedUnit.flight_over {x y : Option Outlet} {o : Outlet}
    (h : y = (if x = some o then none else x) ∨ y = none) : y ≠ some o := by
  obtain rfl | rfl := h
  · split
    · exact nofun
    · assumption
  · exact nofun

section
variable {s : State} {o : Outlet} {pre post : List QueueEntry} {e : QueueEntry} (hq : s.queue = pre ++ e :: post)
  (ho : e.outlet = o) (hone : ∀ e' ∈ pre ++ post, e'.outlet ≠ o) (res : Completion) (act : Option SetNo)
include hq ho hone

theorem State.complete_of_one :
    s.complete o res act = ((s.entryDone o e res act).groupCompletion o e.action res).safeFollowUp o :=
  State.complete_of_entry (State.entryOf_of_one hq ho hone) res act

theorem State.entryDone_queue : (s.entryDone o e res act).queue = pre ++ post := by
  rw [State.entryDone_eq, State.dropEntry_of_one hq ho hone]

theorem State.complete_queue_outlet :
    ∀ e' ∈ (s.complete o res act).queue, e'.outlet = o → e'.enqueued = s.uptime ∧ e'.state = .waiting := by
  obtain ⟨-, -, -, hqueue, -⟩ := (s.entryDone o e res act).told_fields o e.action res
  have huptime : (s.entryDone o e res act).uptime = s.uptime := by
    rw [State.entryDone_eq, s.releaseOutlet_releases o]
  rw [State.complete_of_one hq ho hone]
  intro e' he' ho'
  obtain he | ⟨hwaiting, hnow⟩ := hqueue e' he'
  · rw [State.entryDone_queue hq ho hone] at he
    exact absurd ho' (hone e' he)
  · exact ⟨hnow.trans huptime, hwaiting⟩

theorem State.complete_turnOn_settle :
    (s.complete o res act).turnOn = (s.entryLeft o e res).turnOn
    ∧ (s.complete o res act).settle = (s.entryLeft o e res).settle := by
  obtain ⟨hturnOn, hsettle, -⟩ := (s.entryDone o e res act).told_fields o e.action res
  rw [State.complete_of_one hq ho hone]
  exact ⟨hturnOn.trans (by rw [State.entryDone_eq]), hsettle.trans (by rw [State.entryDone_eq])⟩

theorem State.complete_flights :
    (s.complete o res act).sheds[bankOf o].shedFlight ≠ some o
    ∧ (s.complete o res act).sheds[bankOf o].restoreFlight ≠ some o
    ∧ (s.sheds[bankOf o].restoreFlight = some o → (s.complete o res act).sheds[bankOf o].restoreFlight = none) := by
  have hlands : (s.entryDone o e res act).sheds[bankOf o].Lands (s.complete o res act).sheds[bankOf o] := by
    rw [State.complete_of_one hq ho hone]
    exact ((s.entryDone o e res act).told_fields o e.action res).2.2.2.2 (bankOf o)
  have hdone : (s.entryDone o e res act).sheds[bankOf o] = s.timedShed (bankOf o) (s.sheds[bankOf o].landed o) := by
    rw [State.entryDone_eq]
    exact upd_get_self _ _ _
  obtain ⟨hshed, hrestore⟩ := hdone ▸ hlands
  exact ⟨ShedUnit.flight_over hshed, ShedUnit.flight_over hrestore,
    fun h => hrestore.elim (fun e => e.trans (if_pos h)) id⟩

/-- Out of SAFE and awaited by no group, the outlet loses its entry and nothing follows. -/
theorem State.complete_of_alone (hsafe : s.safe.cause = none) (hawaited : ∀ g : Group, o ∉ s.groups[g].awaited) :
    (s.complete o res act).queue = pre ++ post ∧ (s.complete o res act).groups = s.groups := by
  have hqueue := State.entryDone_queue hq ho hone res act
  obtain ⟨hgroups, hcause⟩ := s.entryDone_untouched o e res act
  rw [State.complete_of_one hq ho hone, State.groupCompletion_of_unawaited (by rw [hgroups]; exact hawaited),
    State.safeFollowUp_of_notSafe (by rw [hcause]; exact hsafe)]
  exact ⟨hqueue, hgroups⟩

/-- Awaited by no group and in no follow-up set, the outlet's completion concerns no other block. -/
theorem State.complete_of_untold (hawaited : ∀ g : Group, o ∉ s.groups[g].awaited) (hfollow : o ∉ s.safe.followUp) :
    s.complete o res act = s.entryDone o e res act := by
  obtain ⟨hgroups, hsafe⟩ := s.entryDone_untouched o e res act
  rw [State.complete_of_one hq ho hone, State.groupCompletion_of_unawaited (by rw [hgroups]; exact hawaited),
    State.safeFollowUp_of_not_mem (by rw [hsafe]; exact hfollow)]

end

/-! ## The timers -/

theorem due_of_some {t : Timer} {u now : Uptime} {len : Nat} (ht : t = some u) (h : len ≤ (now - u).toNat) :
    due t now len = true := by
  rw [ht, due_some]
  exact h

section
variable {s : State} {o : Outlet} {pre post : List QueueEntry} {e : QueueEntry}

theorem execGrantTimeout_of_noEntry (h : ∀ e ∈ s.queue, e.outlet ≠ o) : exec (.grantTimeout o) s = .next s := by
  show execGrantTimeout o s = _
  unfold execGrantTimeout
  rw [State.entryOf_eq_none_iff.2 h]

theorem execGrantTimeout_of_entry (he : s.entryOf o = some e) : exec (.grantTimeout o) s =
    if e.action = .close ∧ e.isWaiting ∧ s.systemTable.active[0].grantTimeout * 1000 ≤ elapsed s.uptime e.enqueued
    then .next (s.complete o .expired none) else .next s := by
  show execGrantTimeout o s = _
  unfold execGrantTimeout
  rw [he]

end

theorem QueueEntry.isWaiting_eq_false_iff (e : QueueEntry) : e.isWaiting = false ↔ e.state ≠ .waiting := by
  rw [← Bool.not_eq_true, QueueEntry.isWaiting_iff]

/-- The outlet action record, its issue as the statements write it. -/
theorem State.actionRecord_eq (s : State) (e : QueueEntry) (res : Completion) (act : Option SetNo) :
    s.actionRecord e res act =
      { outlet := e.outlet, request := some (e.action, e.origin, e.enqueued), result := some (res, s.uptime)
        issue := match e.state, act with | .issued u, some a => some (u, a) | _, _ => none
        relay := s.relays[e.outlet].state, detail := s.relays[e.outlet].detail } := by
  unfold State.actionRecord
  cases e.state <;> cases act <;> rfl

section
variable {s : State} {o : Outlet} {pre post : List QueueEntry} {e : QueueEntry} (hq : s.queue = pre ++ e :: post)
  (ho : e.outlet = o) (hone : ∀ e' ∈ pre ++ post, e'.outlet ≠ o) (res : Completion) (act : Option SetNo)
include hq ho hone

/-- What the group engine is handed, written out. -/
theorem State.entryDone_of_one :
    let done : ActionRecord :=
      { outlet := o, request := some (e.action, e.origin, e.enqueued), result := some (res, s.uptime)
        issue := match e.state, act with | .issued u, some a => some (u, a) | _, _ => none
        relay := s.relays[o].state, detail := s.relays[o].detail }
    let u := s.releaseOutlet o
    let x := notify s.uptime { kind := .switchDone, source := o.val + 1, detail := .switchDone done
                               records := [.action done] } (u.notifier, u.link0)
    let y := s.entryDone o e res act
    y = { u with queue := pre ++ post, turnOn := y.turnOn, settle := y.settle
                 sheds := upd s.sheds (bankOf o) fun d => s.timedShed (bankOf o) (d.landed o)
                 notifier := x.1, link0 := x.2 }
    ∧ y.turnOn = (s.entryLeft o e res).turnOn ∧ y.settle = (s.entryLeft o e res).settle := by
  have hdone := s.entryDone_eq o e res act
  rw [State.dropEntry_of_one hq ho hone, State.actionRecord_eq] at hdone
  subst ho
  dsimp only
  generalize s.entryDone e.outlet e res act = y at hdone
  have hturnOn : y.turnOn = (s.entryLeft e.outlet e res).turnOn := by rw [hdone]
  have hsettle : y.settle = (s.entryLeft e.outlet e res).settle := by rw [hdone]
  rw [hturnOn, hsettle]
  exact ⟨hdone, rfl, rfl⟩

end

/-- Settles O28: each timer by its condition, and the completion by the parts that it is made of. -/
theorem switchingTimersExpire : Obligations.SwitchingTimersExpire := by
  refine ⟨⟨fun b s => ⟨fun h => if_neg (by rw [h]; exact Bool.false_ne_true), fun u hu h => if_pos (due_of_some hu h)⟩,
    fun p s => ⟨fun h => if_neg (by rw [h]; exact Bool.false_ne_true), fun u hu h => if_pos (due_of_some hu h)⟩⟩,
    fun o s => ⟨execGrantTimeout_of_noEntry, fun pre post e hq ho hone => ?_⟩,
    fun o res act s pre post e hq ho hone => ?_⟩
  · have hexec := execGrantTimeout_of_entry (State.entryOf_of_one hq ho hone)
    refine ⟨fun h => hexec.trans (if_neg ?_), fun hclose hwaiting hlate => ?_⟩
    · rintro ⟨hclose, hwaiting, hlate⟩
      obtain hopens | hissued | hearly := h
      · exact absurd (hclose.symm.trans hopens) nofun
      · exact hissued ((QueueEntry.isWaiting_iff e).1 hwaiting)
      · exact Nat.not_lt.2 hlate hearly
    · obtain ⟨hturnOn, hsettle⟩ := State.complete_turnOn_settle hq ho hone .expired none
      obtain ⟨hkeptTurnOn, hkeptSettle⟩ := s.entryLeft_of_not_issuedClose o .expired (e := e) fun h =>
        (QueueEntry.isWaiting_eq_false_iff e).1 h.2 hwaiting
      obtain ⟨-, -, hrestore⟩ := State.complete_flights hq ho hone .expired none
      have hquiet := s.complete_quiet o .expired none
      obtain ⟨-, -, -, -, -, -, -, -, -, -, -, -, -, -, -, htokens, hrefill, -, -, -, -, -, -, -, hcause, -⟩ :=
        State.quiet_fields hquiet
      exact ⟨_, hexec.trans (if_pos ⟨hclose, (QueueEntry.isWaiting_iff e).2 hwaiting, hlate⟩), rfl,
        State.complete_queue_outlet hq ho hone .expired none, hturnOn.trans hkeptTurnOn, hsettle.trans hkeptSettle,
        htokens, hrefill, s.complete_relays o _ _, State.sameMeasures_of_quiet hquiet, hcause, hrestore,
        State.complete_of_alone hq ho hone .expired none⟩
  · intro t issuedClose
    have hissued : issuedClose ↔ e.action = .close ∧ e.isWaiting = false :=
      and_congr_right fun _ => (QueueEntry.isWaiting_eq_false_iff e).symm
    obtain ⟨hturnOn, hsettle⟩ := State.complete_turnOn_settle hq ho hone res act
    obtain ⟨hshed, hrestore, -⟩ := State.complete_flights hq ho hone res act
    have hquiet := s.complete_quiet o res act
    obtain ⟨-, -, -, -, -, -, -, -, -, -, -, -, -, -, hptr, htokens, hrefill, -, -, -, -, -, -, -, hcause, -⟩ :=
      State.quiet_fields hquiet
    have hleft := fun h => s.entryLeft_of_issuedClose o res (e := e) (hissued.1 h)
    have hkept := fun h => s.entryLeft_of_not_issuedClose o res (e := e) (mt hissued.2 h)
    refine ⟨State.complete_queue_outlet hq ho hone res act, fun h => ⟨hturnOn.trans (hleft h).1, ?_⟩,
      fun h => ⟨hturnOn.trans (hkept h).1, hsettle.trans (hkept h).2⟩, hshed, hrestore,
      State.sameMeasures_of_quiet hquiet, s.complete_relays o res act, htokens, hrefill, hptr, hcause, ?_, ?_⟩
    · rw [hsettle, (hleft h).2]
      cases res <;> rfl
    · refine ⟨_, State.complete_of_one hq ho hone res act, ?_⟩
      obtain ⟨hdone, hturnOn', hsettle'⟩ := State.entryDone_of_one hq ho hone res act
      rw [← hturnOn', ← hsettle'] at hleft hkept
      exact ⟨hdone, hleft, hkept⟩
    · intro hawaited hfollow
      obtain ⟨hdone, -⟩ := State.entryDone_of_one hq ho hone res act
      have ht : t = s.entryDone o e res act := State.complete_of_untold hq ho hone res act hawaited hfollow
      refine ⟨?_, fun b => State.stacks_get (s.complete_stacks o res act) b⟩
      rw [ht]
      generalize s.entryDone o e res act = y at hdone ⊢
      have hsheds : y.sheds = upd s.sheds (bankOf o) fun d => s.timedShed (bankOf o) (d.landed o) := by rw [hdone]
      rw [hsheds]
      exact hdone

end Sys2Proof.Machine
end

