-- ==== Sys2Proof/Proofs/GroupCancel.lean ====
section
/-! CANCEL (R118): what it withdraws, what it still awaits, and the record of the operation that it ends. -/

namespace Sys2Proof.Machine

/-! ## The end of an operation -/

theorem State.releaseGroups_awaited (s : State) (h : Group) :
    s.releaseGroups.groups[h].awaited = s.groups[h].awaited := by
  have happly : ∀ gs : List Group, (s.applyGroups gs).groups[h].awaited = s.groups[h].awaited := fun gs =>
    foldl_keeps (fun u : State => u.groups[h].awaited) _ (fun u g => by
      obtain ⟨-, hgroups, -⟩ := State.groupApplied_groups s u g
      rw [hgroups, upd_get]
      split
      · rename_i e
        subst e
        rfl
      · rfl) gs _
  unfold State.releaseGroups
  dsimp only
  split
  · rfl
  · have hset := happly (s.applicable s.groupTable.waiting)
    generalize s.applyGroups _ = u at hset ⊢
    split <;> exact hset

/-- The group is IDLE with its record, and awaits nothing (R121). -/
theorem State.endOp_ended (s : State) (g : Group) (r : OpResult) (w : Option OpReason) (v : Bool) :
    (s.endOp g r w v).groups[g].op = .idle ∧ (s.endOp g r w v).groups[g].awaited = []
    ∧ (s.endOp g r w v).groups[g].lastRecord = some (s.groups[g].record g r w s.uptime) := by
  obtain ⟨-, -, ⟨hop, hrecord, -⟩, -⟩ := s.endOp_groups g r w v
  obtain ⟨x, hx, he⟩ := s.endOp_eq g r w v
  refine ⟨hop, ?_, hrecord⟩
  have hgroups : x.groups = upd s.groups g fun r' => r'.toIdle (s.groups[g].record g r w s.uptime) := by rw [he]
  rw [hx, State.releaseGroups_awaited, hgroups, upd_get_self]
  rfl

theorem State.endOp_queue (s : State) (g : Group) (r : OpResult) (w : Option OpReason) (v : Bool) :
    (s.endOp g r w v).queue = s.queue := by
  have hend := s.endOp_regroups g r w v
  unfold State.Regroups at hend
  rw [hend]

/-! ## Withdrawing a group's WAITING entries -/

/-- With one entry an outlet, ISSUED is a matter of the entries alone. -/
theorem State.QueueKept.isIssued_iff {s : State} (h : s.QueueKept) (o : Outlet) :
    s.isIssued o = true ↔ ∃ e ∈ s.queue, e.outlet = o ∧ e.state ≠ .waiting := by
  unfold State.isIssued
  cases he : s.entryOf o with
  | none => exact iff_of_false Bool.false_ne_true fun ⟨e, hq, ho, _⟩ => State.entryOf_eq_none_iff.1 he e hq ho
  | some e =>
    obtain ⟨hq, ho⟩ := State.entryOf_mem he
    dsimp only
    rw [Bool.not_eq_true', QueueEntry.isWaiting_eq_false_iff]
    refine ⟨fun hi => ⟨e, hq, ho, hi⟩, fun ⟨x, hxq, hxo, hi⟩ => ?_⟩
    rw [h.inj hq hxq (ho.trans hxo.symm)]
    exact hi

theorem State.withdraw_isIssued {s : State} (h : s.QueueKept) (p : QueueEntry → Bool) :
    (s.withdraw p).isIssued = s.isIssued := by
  funext o
  have hmoves := s.withdraw_requeues p
  rw [Bool.eq_iff_iff, (hmoves.kept h).isIssued_iff, h.isIssued_iff]
  refine exists_congr fun e => ⟨fun ⟨he, ho, hi⟩ => ⟨?_, ho, hi⟩, fun ⟨he, ho, hi⟩ => ⟨hmoves.issued h e he hi, ho, hi⟩⟩
  exact (hmoves.queue e he).resolve_right fun hw => hi hw.1

theorem State.withdrawAwaited_queue (s : State) (g : Group) : (s.withdrawAwaited g).queue = s.queue.filter fun e =>
    ¬ (e.state = .waiting ∧ e.origin = .group g ∧ e.outlet ∈ s.groups[g].awaited) := by
  refine (s.withdraw_queue _).trans (List.filter_congr fun e _ => ?_)
  rw [Bool.eq_iff_iff, decide_eq_true_iff, Bool.not_eq_true', ← Bool.not_eq_true, Bool.and_eq_true, Bool.and_eq_true,
    QueueEntry.isWaiting_iff, beq_iff_eq, decide_eq_true_iff]

/-- The outlets with an ISSUED entry stay awaited. -/
theorem State.withdrawAwaited_group {s : State} (h : s.QueueKept) (g : Group) : (s.withdrawAwaited g).groups[g] =
    { s.groups[g] with awaited := s.groups[g].awaited.filter s.isIssued } := by
  unfold State.withdrawAwaited
  dsimp only
  rw [State.onGroup_get_self, State.withdraw_isIssued h, (s.withdraw_groups _).1]

/-! ## CANCEL -/

/-- What CANCEL makes of an operation without the cancel mark. -/
def State.cancelled (s : State) (g : Group) : State :=
  match s.groups[g].op with
  | .idle => s
  | .offing => s.cancelOffing g
  | .oning => (s.withdrawAwaited g).endOp g .cancelled (some .command) false
  | .dwell => s.endOp g .cancelled (some .command) false
  | .verifying => s.endOp g .cancelled (some .command) false

section
variable {s : State} {g : Group}

theorem State.cancelGroup_of_idle (h : s.groups[g].op = .idle) : s.cancelGroup g = s.reply .state := by
  unfold State.cancelGroup
  dsimp only
  rw [h]

theorem State.cancelGroup_of_marked (h : s.groups[g].op ≠ .idle) (hc : s.groups[g].cancel = true) :
    s.cancelGroup g = s.reply .merged := by
  unfold State.cancelGroup
  dsimp only
  rw [hc]
  cases hop : s.groups[g].op with
  | idle => exact absurd hop h
  | _ => rfl

theorem State.cancelGroup_of_unmarked (h : s.groups[g].op ≠ .idle) (hc : s.groups[g].cancel = false) :
    s.cancelGroup g = (s.cancelled g).reply .ok := by
  unfold State.cancelGroup State.cancelled
  dsimp only
  rw [hc]
  cases hop : s.groups[g].op with
  | idle => exact absurd hop h
  | _ => rfl

theorem State.cancelOffing_requeues (s : State) (g : Group) : s.Requeues (s.cancelOffing g) :=
  (s.withdrawAwaited_requeues g).trans ((State.onGroup_requeues _ g _).trans (State.offingOver_requeues _ g))

theorem State.cancelled_requeues (s : State) (g : Group) : s.Requeues (s.cancelled g) := by
  unfold State.cancelled
  split
  · exact .refl s
  · exact s.cancelOffing_requeues g
  · exact (s.withdrawAwaited_requeues g).trans (State.endOp_requeues _ g _ _ _)
  · exact s.endOp_requeues g _ _ _
  · exact s.endOp_requeues g _ _ _

/-- The group's operation has ended CANCELLED by command. -/
def State.EndedByCancel (s t : State) (g : Group) : Prop :=
  t.groups[g].op = .idle ∧ t.groups[g].awaited = [] ∧ ∃ r : OpRecord, t.groups[g].lastRecord = some r
    ∧ r.result = .cancelled ∧ r.reason = some .command ∧ r.stop = s.uptime ∧ r.start = s.groups[g].start

theorem State.endOp_endedByCancel {u : State} (huptime : u.uptime = s.uptime)
    (hstart : u.groups[g].start = s.groups[g].start) :
    s.EndedByCancel (u.endOp g .cancelled (some .command) false) g := by
  obtain ⟨hop, hawaited, hrecord⟩ := u.endOp_ended g .cancelled (some .command) false
  exact ⟨hop, hawaited, _, hrecord, rfl, rfl, huptime, hstart⟩

theorem State.cancelled_of_not_offing (h : s.groups[g].op ≠ .idle) (ho : s.groups[g].op ≠ .offing)
    (hk : s.QueueKept) : s.EndedByCancel (s.cancelled g) g := by
  unfold State.cancelled
  cases hop : s.groups[g].op with
  | idle => exact absurd hop h
  | offing => exact absurd hop ho
  | dwell => exact State.endOp_endedByCancel rfl rfl
  | verifying => exact State.endOp_endedByCancel rfl rfl
  | oning =>
    refine State.endOp_endedByCancel (s.withdrawAwaited_groups g).2.2 ?_
    rw [State.withdrawAwaited_group hk]

/-- In OFFING, CANCEL awaits the outlets with an ISSUED entry, and ends the operation if there is none. -/
theorem State.cancelOffing_eq (hk : s.QueueKept) : ∃ u : State, u.uptime = s.uptime
    ∧ u.queue = (s.withdrawAwaited g).queue
    ∧ u.groups[g] = { s.groups[g] with awaited := s.groups[g].awaited.filter s.isIssued, cancel := true }
    ∧ s.cancelOffing g = if s.groups[g].awaited.filter s.isIssued ≠ [] then u
        else u.endOp g .cancelled (some .command) false := by
  generalize hu : (s.withdrawAwaited g).onGroup g (fun r => { r with cancel := true }) = u
  have hgroup : u.groups[g] =
      { s.groups[g] with awaited := s.groups[g].awaited.filter s.isIssued, cancel := true } := by
    rw [← hu, State.onGroup_get_self, State.withdrawAwaited_group hk]
  refine ⟨u, ?_, by rw [← hu]; rfl, hgroup, ?_⟩
  · rw [← hu]
    exact (s.withdrawAwaited_groups g).2.2
  · unfold State.cancelOffing State.offingOver
    rw [hu]
    dsimp only
    rw [hgroup]
    dsimp only
    rw [if_pos rfl]

theorem State.cancelled_queue (hk : s.QueueKept) (h : s.groups[g].op = .offing ∨ s.groups[g].op = .oning) :
    (s.cancelled g).queue = (s.withdrawAwaited g).queue := by
  unfold State.cancelled
  obtain hop | hop := h
  · rw [hop]
    obtain ⟨u, -, hqueue, -, heq⟩ := State.cancelOffing_eq (g := g) hk
    dsimp only
    rw [heq]
    split
    · exact hqueue
    · exact (u.endOp_queue g _ _ _).trans hqueue
  · rw [hop]
    exact State.endOp_queue _ g _ _ _

theorem State.cancelled_of_noneIssued (hk : s.QueueKept) (hop : s.groups[g].op = .offing)
    (h : ∀ o ∈ s.groups[g].awaited, s.isIssued o = false) : s.EndedByCancel (s.cancelled g) g := by
  obtain ⟨u, huptime, -, hgroup, heq⟩ := State.cancelOffing_eq (g := g) hk
  have hnone : s.groups[g].awaited.filter s.isIssued = [] := List.filter_eq_nil_iff.2 fun o ho => by simp [h o ho]
  unfold State.cancelled
  rw [hop]
  dsimp only
  rw [heq, if_neg (not_not.2 hnone)]
  exact State.endOp_endedByCancel huptime (by rw [hgroup])

theorem State.cancelled_of_someIssued (hk : s.QueueKept) (hop : s.groups[g].op = .offing)
    (h : ∃ o ∈ s.groups[g].awaited, s.isIssued o = true) : (s.cancelled g).groups[g] =
      { s.groups[g] with awaited := s.groups[g].awaited.filter s.isIssued, cancel := true } := by
  obtain ⟨u, -, -, hgroup, heq⟩ := State.cancelOffing_eq (g := g) hk
  obtain ⟨o, ho, hi⟩ := h
  unfold State.cancelled
  rw [hop]
  dsimp only
  rw [heq, if_pos (List.ne_nil_of_mem (List.mem_filter.2 ⟨ho, hi⟩))]
  exact hgroup

end

end Sys2Proof.Machine
end

