-- ==== Sys2Proof/Proofs/GroupTurnedOff.lean ====
section
/-! GROUP_OFF of a running operation (R108, R117): OFFING is entered with OPENs for the members that are not OFF. -/

namespace Sys2Proof.Machine

/-! ## Entries that a request leaves -/

/-- A request finds the outlet's entry and leaves the queue, or puts a new entry at its tail. -/
theorem State.request_queue (s : State) (o : Outlet) (a : Action) (r : Origin) :
    ((s.request o a r).2.queue = s.queue ∧ ∃ e ∈ s.queue, e.outlet = o)
    ∨ (s.request o a r).2.queue = s.queue.filter (fun e => e.outlet != o) ++
        [{ outlet := o, action := a, origin := r, enqueued := s.uptime, state := .waiting }] := by
  cases he : s.entryOf o with
  | none =>
    have hall : s.queue.filter (fun e => e.outlet != o) = s.queue := List.filter_eq_self.2 fun e hq => by
      simpa using State.entryOf_eq_none_iff.1 he e hq
    rw [State.request_of_noEntry a r he, hall]
    exact .inr rfl
  | some e =>
    have hentry : ∃ e ∈ s.queue, e.outlet = o := ⟨e, State.entryOf_mem he⟩
    cases hst : e.state with
    | issued t =>
      rw [State.request_of_issued a r he hst]
      exact .inl ⟨rfl, hentry⟩
    | waiting =>
      by_cases ha : e.action = a
      · rw [State.request_of_sameAction r he hst ha]
        exact .inl ⟨rfl, hentry⟩
      · by_cases hr : e.origin.rank < r.rank
        · rw [State.request_of_higherRank he hst ha hr]
          exact .inl ⟨rfl, hentry⟩
        · rw [State.request_of_replaced he hst ha (Nat.not_lt.1 hr)]
          exact .inr rfl

/-- The outlets that have an entry. -/
def State.hasEntry (s : State) (o : Outlet) : Prop := ∃ e ∈ s.queue, e.outlet = o

theorem State.request_hasEntry (s : State) (o : Outlet) (a : Action) (r : Origin) (x : Outlet) :
    (s.request o a r).2.hasEntry x ↔ s.hasEntry x ∨ x = o := by
  unfold State.hasEntry
  obtain ⟨hq, hentry⟩ | hq := s.request_queue o a r
  · rw [hq]
    exact ⟨.inl, fun h => h.elim id fun e => e ▸ hentry⟩
  · rw [hq]
    simp only [List.mem_append, List.mem_filter, List.mem_singleton, bne_iff_ne]
    constructor
    · rintro ⟨e, ⟨he, -⟩ | rfl, rfl⟩
      · exact .inl ⟨e, he, rfl⟩
      · exact .inr rfl
    · intro h
      by_cases hx : x = o
      · exact ⟨_, .inr rfl, hx.symm⟩
      · obtain ⟨e, he, ho⟩ := h.resolve_right hx
        exact ⟨e, .inl ⟨he, fun e' => hx (ho.symm.trans e')⟩, ho⟩

theorem State.request_added (s : State) (o : Outlet) (a : Action) (r : Origin) :
    ∀ e ∈ (s.request o a r).2.queue, e ∈ s.queue ∨ e.action = a := by
  obtain ⟨hq, -⟩ | hq := s.request_queue o a r
  · rw [hq]
    exact fun e => .inl
  · rw [hq]
    intro e he
    obtain he | he := List.mem_append.1 he
    · exact .inl (List.mem_filter.1 he).1
    · rw [List.mem_singleton.1 he]
      exact .inr rfl

/-! ## One member -/

section
variable (s : State) (g : Group) (o : Outlet)

theorem State.requestOpen_group : (s.requestOpen g o).groups[g] = { s.groups[g] with
    awaited := if o ∈ s.groups[g].awaited then s.groups[g].awaited else s.groups[g].awaited ++ [o]
    progress := s.groups[g].progress.set ((s.members g).idxOf o) .awaiting } := by
  have hgroups := s.request_groups o .opens (.group g)
  have hmembers : (s.request o .opens (.group g)).2.members = s.members := by
    rw [State.request_changes]
    rfl
  unfold State.requestOpen State.await State.mark
  generalize (s.request o .opens (.group g)).2 = u at hgroups hmembers ⊢
  rw [State.onGroup_get_self, State.onGroup_get_self, hgroups]
  have hidx : (u.onGroup g fun r => { r with
      awaited := if o ∈ r.awaited then r.awaited else r.awaited ++ [o] }).members g = s.members g :=
    congrFun hmembers g
  rw [hidx]

theorem State.mark_group (p : Progress) : (s.mark g o p).groups[g] = { s.groups[g] with
    progress := s.groups[g].progress.set ((s.members g).idxOf o) p } := s.onGroup_get_self g _

end

/-- The progress of a member that OFFING has looked at (R108). -/
def State.offProgress (s : State) (o : Outlet) : Progress := if s.relays[o].state = .off then .opened else .awaiting

/-- `t` comes from `s` as OFFING looks at the members `l` of group `g` (R108): those that are not OFF are awaited, with
an entry in the queue, and progress follows. -/
structure State.LooksOff (g : Group) (l : List Outlet) (s t : State) : Prop where
  requeues : s.Requeues t
  members : t.members g = s.members g
  group : t.groups[g] = { s.groups[g] with awaited := t.groups[g].awaited, progress := t.groups[g].progress }
  awaited : ∀ o, o ∈ t.groups[g].awaited ↔ o ∈ s.groups[g].awaited ∨ o ∈ l ∧ s.relays[o].state ≠ .off
  progress : ∀ o ∈ s.members g, t.groups[g].progress[(s.members g).idxOf o]? =
    if o ∈ l then s.groups[g].progress[(s.members g).idxOf o]?.map (fun _ => s.offProgress o)
    else s.groups[g].progress[(s.members g).idxOf o]?
  entries : ∀ o, t.hasEntry o ↔ s.hasEntry o ∨ o ∈ l ∧ s.relays[o].state ≠ .off
  added : ∀ e ∈ t.queue, e ∈ s.queue ∨ e.action = .opens

theorem State.LooksOff.refl (g : Group) (s : State) : State.LooksOff g [] s s :=
  ⟨.refl s, rfl, rfl, fun _ => by simp, fun _ _ => by simp, fun _ => by simp, fun _ => .inl⟩

/-- The progress of one member is marked, and no other's. -/
theorem progress_set {l : List Progress} {ms : List Outlet} {o x : Outlet} (p : Outlet → Progress) (hx : x ∈ ms) :
    (l.set (ms.idxOf o) (p o))[ms.idxOf x]? =
      if x ∈ [o] then l[ms.idxOf x]?.map (fun _ => p x) else l[ms.idxOf x]? := by
  by_cases h : x = o
  · subst h
    rw [if_pos (List.mem_singleton.2 rfl), List.getElem?_set_self']
    rfl
  · rw [if_neg (fun hm => h (List.mem_singleton.1 hm)),
      List.getElem?_set_ne fun hidx => h ((List.idxOf_inj hx).1 hidx.symm)]

theorem State.offMember_looksOff (s : State) (g : Group) (o : Outlet) :
    State.LooksOff g [o] s (s.offMember g o) := by
  have hrequeues := s.offMember_requeues g o
  unfold State.offMember at hrequeues ⊢
  by_cases hoff : s.relays[o].state = .off
  · rw [if_pos hoff] at hrequeues ⊢
    have hnone : ∀ x : Outlet, ¬ (x ∈ [o] ∧ s.relays[x].state ≠ .off) := fun x hx =>
      hx.2 (List.mem_singleton.1 hx.1 ▸ hoff)
    have hopened : s.offProgress o = .opened := if_pos hoff
    refine ⟨hrequeues, rfl, by rw [State.mark_group], fun x => ?_, fun x hx => ?_, fun x => ?_, fun e => .inl⟩
    · rw [State.mark_group, or_iff_left (hnone x)]
    · rw [State.mark_group, ← hopened]
      exact progress_set s.offProgress hx
    · exact (or_iff_left (hnone x)).symm
  · rw [if_neg hoff] at hrequeues ⊢
    have hsome : ∀ x : Outlet, (x ∈ [o] ∧ s.relays[x].state ≠ .off) ↔ x = o := fun x =>
      ⟨fun h => List.mem_singleton.1 h.1, by
        rintro rfl
        exact ⟨List.mem_singleton.2 rfl, hoff⟩⟩
    have hawaiting : s.offProgress o = .awaiting := if_neg hoff
    refine ⟨hrequeues, ?_, by rw [State.requestOpen_group], fun x => ?_, fun x hx => ?_, fun x => ?_,
      s.request_added o .opens (.group g)⟩
    · have htable : (s.requestOpen g o).groupTable = (s.request o .opens (.group g)).2.groupTable := rfl
      unfold State.members
      rw [htable, State.request_changes]
    · rw [State.requestOpen_group, hsome]
      dsimp only
      split
      · exact (or_iff_left_of_imp fun h => h ▸ ‹_›).symm
      · rw [List.mem_append, List.mem_singleton]
    · rw [State.requestOpen_group, ← hawaiting]
      exact progress_set s.offProgress hx
    · rw [hsome]
      exact s.request_hasEntry o .opens (.group g) x

theorem State.LooksOff.cons {g : Group} {o : Outlet} {l : List Outlet} {s t u : State} (h : State.LooksOff g [o] s t)
    (h' : State.LooksOff g l t u) : State.LooksOff g (o :: l) s u := by
  have hrelays := h.requeues.relays
  have hcons : ∀ x : Outlet, (x ∈ o :: l ∧ s.relays[x].state ≠ .off) ↔
      (x ∈ [o] ∧ s.relays[x].state ≠ .off) ∨ (x ∈ l ∧ s.relays[x].state ≠ .off) := fun x => by
    rw [List.mem_cons, List.mem_singleton, or_and_right]
  refine ⟨h.requeues.trans h'.requeues, h'.members.trans h.members, ?_, fun x => ?_, fun x hx => ?_, fun x => ?_,
    fun e he => ?_⟩
  · rw [h'.group, h.group]
  · rw [h'.awaited, h.awaited, hrelays, hcons, or_assoc]
  · have hprogress := h'.progress x (h.members ▸ hx)
    rw [h.members, h.progress x hx] at hprogress
    have hsame : t.offProgress x = s.offProgress x := by
      unfold State.offProgress
      rw [hrelays]
    rw [hprogress, hsame]
    by_cases hl : x ∈ l
    · rw [if_pos hl, if_pos (List.mem_cons_of_mem o hl)]
      split
      · exact Option.map_map _ _ _
      · rfl
    · rw [if_neg hl]
      exact if_congr (by simp [hl]) rfl rfl
  · rw [h'.entries, h.entries, hrelays, hcons, or_assoc]
  · exact (h'.added e he).elim (h.added e) .inr

theorem State.looksOff_members (g : Group) (l : List Outlet) (s : State) :
    State.LooksOff g l s (l.foldl (State.offMember g) s) := by
  induction l generalizing s with
  | nil => exact .refl g s
  | cons o l ih => exact (s.offMember_looksOff g o).cons (ih _)

/-! ## OFFING is entered, and may be over at once -/

/-- OFFING before its members are looked at. -/
def State.offingBegun (s : State) (g : Group) : State :=
  s.onGroup g fun r => { r with op := .offing, busyWait := false }

section
variable {s : State} {g : Group}

theorem State.offingBegun_group : (s.offingBegun g).groups[g] = { s.groups[g] with op := .offing, busyWait := false } :=
  s.onGroup_get_self g _

/-- A switching off that no welded member fails ends DONE once nothing is awaited (R109). -/
theorem State.offingOver_of_off (hc : s.groups[g].cancel = false) (hk : s.groups[g].kind = some .off)
    (hw : s.groups[g].awaited = [] → s.anyWelded g = false) :
    s.offingOver g = if s.groups[g].awaited ≠ [] then s else s.endOp g .done none false := by
  unfold State.offingOver
  dsimp only
  rw [hc, hk, if_neg Bool.false_ne_true, if_pos rfl]
  by_cases ha : s.groups[g].awaited = []
  · rw [hw ha, if_neg Bool.false_ne_true]
  · rw [if_pos ha, if_pos ha]

/-- With kind OFF, OFFING goes on while an outlet is awaited: those awaited before and the members that are not OFF. -/
theorem State.enterOffing_of_off (hc : s.groups[g].cancel = false) (hk : s.groups[g].kind = some .off) :
    ∃ t : State, State.LooksOff g (s.members g) (s.offingBegun g) t
      ∧ s.enterOffing g = if t.groups[g].awaited ≠ [] then t else t.endOp g .done none false := by
  have hlooks := State.looksOff_members g (s.members g) (s.offingBegun g)
  refine ⟨_, hlooks, ?_⟩
  rw [State.enterOffing_eq]
  show State.offingOver (List.foldl (State.offMember g) (s.offingBegun g) (s.members g)) g = _
  generalize (s.members g).foldl (State.offMember g) (s.offingBegun g) = t at hlooks
  have hgroup := hlooks.group
  rw [State.offingBegun_group] at hgroup
  refine State.offingOver_of_off (by rw [hgroup]; exact hc) (by rw [hgroup]; exact hk) fun ha => ?_
  have hoff : ∀ o ∈ s.members g, s.relays[o].state = .off := fun o ho => by
    by_contra hon
    have hmem := (hlooks.awaited o).2 (.inr ⟨ho, hon⟩)
    rw [ha] at hmem
    exact List.not_mem_nil hmem
  have hrelays : t.relays = s.relays := hlooks.requeues.relays
  have hmembers : t.members g = s.members g := hlooks.members
  unfold State.anyWelded
  rw [hrelays, hmembers, List.any_eq_false]
  intro o ho
  rw [hoff o ho]
  exact Bool.false_ne_true

end

/-! ## GROUP_OFF -/

/-- A running operation as GROUP_OFF makes it a switching off, before OFFING is entered (R117). -/
def State.turnedOff (s : State) (g : Group) : State :=
  let u := s.onGroup g fun r => { r with kind := some .off, cause := some .manual }
  match s.groups[g].op with
  | .oning => (u.onGroup g fun r => { r with stagger := none, repower := false }).withdrawAwaited g
  | _ => u.onGroup g fun r => { r with boot := none }

/-- An operation in DWELL as GROUP_OFF ends it (R117). -/
def State.dwellOff (s : State) (g : Group) : State :=
  State.endOp ((s.onGroup g fun r => { r with kind := some .off, cause := some .manual }).onGroup g fun r =>
    { r with dwell := none }) g .done none false

section
variable {s : State} {g : Group}

theorem State.turnedOff_of_oning (hop : s.groups[g].op = .oning) (hk : s.QueueKept) :
    (s.turnedOff g).groups[g] = { s.groups[g] with
      kind := some .off, cause := some .manual, stagger := none, repower := false
      awaited := s.groups[g].awaited.filter s.isIssued }
    ∧ (s.turnedOff g).queue = s.queue.filter (fun e =>
        ¬ (e.state = .waiting ∧ e.origin = .group g ∧ e.outlet ∈ s.groups[g].awaited)) := by
  have hpart : s.turnedOff g = ((s.onGroup g fun r => { r with kind := some .off, cause := some .manual }).onGroup g
      fun r => { r with stagger := none, repower := false }).withdrawAwaited g := by
    unfold State.turnedOff
    dsimp only
    rw [hop]
  generalize hu : (s.onGroup g fun r => { r with kind := some .off, cause := some .manual }).onGroup g
    (fun r => { r with stagger := none, repower := false }) = u at hpart
  have hgroup : u.groups[g] = { s.groups[g] with
      kind := some .off, cause := some .manual, stagger := none, repower := false } := by
    rw [← hu, State.onGroup_get_self, State.onGroup_get_self]
  have hqueue : u.queue = s.queue := by rw [← hu]; rfl
  have hissued : u.isIssued = s.isIssued := by rw [← hu]; rfl
  have hkept : u.QueueKept := by
    unfold State.QueueKept
    rw [hqueue]
    exact hk
  rw [hpart, State.withdrawAwaited_group hkept, State.withdrawAwaited_queue, hgroup, hqueue, hissued]
  exact ⟨rfl, rfl⟩

theorem State.turnedOff_of_verifying (hop : s.groups[g].op = .verifying) :
    (s.turnedOff g).groups[g] = { s.groups[g] with kind := some .off, cause := some .manual, boot := none }
    ∧ (s.turnedOff g).queue = s.queue := by
  have hpart : s.turnedOff g = (s.onGroup g fun r => { r with kind := some .off, cause := some .manual }).onGroup g
      fun r => { r with boot := none } := by
    unfold State.turnedOff
    dsimp only
    rw [hop]
  rw [hpart, State.onGroup_get_self, State.onGroup_get_self]
  exact ⟨rfl, rfl⟩

theorem State.turnedOff_requeues (s : State) (g : Group) : s.Requeues (s.turnedOff g) := by
  unfold State.turnedOff
  dsimp only
  split
  · exact ((s.onGroup_requeues g _).trans (State.onGroup_requeues _ g _)).trans (State.withdrawAwaited_requeues _ g)
  · exact (s.onGroup_requeues g _).trans (State.onGroup_requeues _ g _)

theorem State.turnedOff_members (s : State) (g : Group) : (s.turnedOff g).members g = s.members g := by
  have htable : (s.turnedOff g).groupTable = s.groupTable := by
    unfold State.turnedOff
    dsimp only
    split
    · exact (State.withdrawAwaited_groups _ g).2.1
    · rfl
  unfold State.members
  rw [htable]

/-- Out of SAFE, enabled and with its members' banks UP, a group refuses no command (R116). -/
theorem State.groupRefusal_eq_none (hsafe : s.safe.cause = none) (henabled : s.groupTable.active[g].enabled = true)
    (hup : ∀ o ∈ s.members g, s.lanes[bankOf o].link = .up) : s.groupRefusal g = none := by
  have hin : s.inSafe = false := by
    unfold State.inSafe
    rw [hsafe]
    rfl
  have hbanks : s.banksUp g = true := List.all_eq_true.2 fun o ho => by
    unfold State.isUp
    rw [hup o ho]
    rfl
  unfold State.groupRefusal State.groupEntry
  rw [hin, henabled, hbanks]
  rfl

theorem State.offGroup_of_dwell (href : s.groupRefusal g = none) (hc : s.groups[g].cancel = false)
    (hop : s.groups[g].op = .dwell) : s.offGroup g = (s.dwellOff g).reply .ok := by
  unfold State.offGroup State.dwellOff
  rw [href]
  dsimp only
  rw [hc, if_neg fun h => Bool.false_ne_true h.2, hop]

theorem State.offGroup_of_running (href : s.groupRefusal g = none) (hc : s.groups[g].cancel = false)
    (hop : s.groups[g].op = .oning ∨ s.groups[g].op = .verifying) :
    s.offGroup g = ((s.turnedOff g).enterOffing g).reply .ok := by
  unfold State.offGroup State.turnedOff
  rw [href]
  dsimp only
  rw [hc, if_neg fun h => Bool.false_ne_true h.2]
  obtain hop | hop := hop <;> rw [hop]

theorem State.onGroupPower_of_running (href : s.groupRefusal g = none) (hc : s.groups[g].cancel = false)
    (hop : s.groups[g].op = .oning ∨ s.groups[g].op = .verifying) :
    s.onGroupPower g = (s.unshedMembers g).reply .merged := by
  unfold State.onGroupPower
  rw [href]
  dsimp only
  rw [hc]
  obtain hop | hop := hop <;> rw [hop] <;> exact if_neg Bool.false_ne_true

end

end Sys2Proof.Machine
end

