-- ==== Sys2Proof/Proofs/GroupCommandsEnd.lean ====
section
/-! CANCEL, and GROUP_OFF and GROUP_ON of a running operation, as commands of link 0 (R117, R118, R122). -/

namespace Sys2Proof.Machine

/-! ## Commands taken -/

/-- What an owner leaves, of the quiet part, relays, turn-ons, settle timers and safe control, the answer leaves. -/
theorem State.answered_kept {s v : State} (hquiet : v.quiet = s.taken.quiet)
    (hfields : (v.relays, v.turnOn, v.settle, v.safe) = (s.relays, s.turnOn, s.settle, s.safe)) (kind tag : Byte)
    (st : Status) (a : Answer) :
    s.answers (v.answered kind tag st a) kind tag st a
    ∧ s.sameMeasures (v.answered kind tag st a) ∧ (v.answered kind tag st a).relays = s.relays
    ∧ (v.answered kind tag st a).tokens = s.tokens ∧ (v.answered kind tag st a).turnOn = s.turnOn
    ∧ (v.answered kind tag st a).settle = s.settle ∧ (v.answered kind tag st a).safe = s.safe := by
  obtain ⟨-, -, -, -, -, -, -, -, -, -, -, -, -, -, -, htokens, -, -, -, -, -, -, -, -, -, -, hlink⟩ :=
    State.quiet_fields hquiet
  obtain ⟨-, -, hfifo, -, hfilled, -⟩ := Link0.quiet_fields hlink
  simp only [Prod.mk.injEq] at hfields
  obtain ⟨hrelays, hturnOn, hsettle, hsafe⟩ := hfields
  have hmeasures : s.taken.sameMeasures v := State.sameMeasures_of_quiet hquiet
  exact ⟨⟨hfifo, congrArg (· ++ _) hfilled⟩, hmeasures, hrelays, htokens, hturnOn, hsettle, hsafe⟩

theorem State.Requeues.fields {s t : State} (h : s.Requeues t) :
    (t.relays, t.turnOn, t.settle, t.safe) = (s.relays, s.turnOn, s.settle, s.safe) := by
  rw [h.relays, h.turnOn, h.settle, h.safe]

section
variable {s v : State} {tag n : Byte} {g : Group} {st : Status} (hn : n.toNat = g.val + 1)
include hn

theorem execCancel_of_group (hready : s.ready 0x0D tag [n])
    (h : s.taken.cancelGroup g = { answer := some (st, .empty), state := v }) :
    exec (.cancel tag [n]) s = .next (v.answered 0x0D tag st .empty) := by
  refine State.take_answered hready rfl ?_
  rw [show indexed 32 (arg [n] 0) = some g from indexed_eq_some hn]
  exact h

theorem execGroupOff_of_group (hready : s.ready 0x0B tag [n])
    (h : s.taken.offGroup g = { answer := some (st, .empty), state := v }) :
    exec (.groupOff tag [n]) s = .next (v.answered 0x0B tag st .empty) := by
  refine State.take_answered hready rfl ?_
  rw [show indexed 32 (arg [n] 0) = some g from indexed_eq_some hn]
  exact h

theorem execGroupOn_of_group (hready : s.ready 0x0C tag [n])
    (h : s.taken.onGroupPower g = { answer := some (st, .empty), state := v }) :
    exec (.groupOn tag [n]) s = .next (v.answered 0x0C tag st .empty) := by
  refine State.take_answered hready rfl ?_
  rw [show indexed 32 (arg [n] 0) = some g from indexed_eq_some hn]
  exact h

end

/-! ## GROUP_OFF of a running operation -/

/-- The operation has ended DONE as a switching off by command, begun and retried as in `s`. -/
def State.DoneOff (s t : State) (g : Group) : Prop :=
  t.groups[g].op = .idle ∧ ∃ rec : OpRecord, t.groups[g].lastRecord = some rec ∧ rec.kind = .off ∧ rec.cause = .manual
    ∧ rec.result = .done ∧ rec.reason = none ∧ rec.start = s.groups[g].start ∧ rec.stop = s.uptime
    ∧ rec.retries = s.groups[g].retry

theorem State.endOp_doneOff {s u : State} {g : Group} (huptime : u.uptime = s.uptime)
    (hkind : u.groups[g].kind = some .off) (hcause : u.groups[g].cause = some .manual)
    (hstart : u.groups[g].start = s.groups[g].start) (hretry : u.groups[g].retry = s.groups[g].retry) :
    s.DoneOff (u.endOp g .done none false) g := by
  obtain ⟨hop, -, hrecord⟩ := u.endOp_ended g .done none false
  refine ⟨hop, _, hrecord, ?_, ?_, rfl, rfl, hstart, huptime, hretry⟩
  · unfold GroupOp.record
    rw [hkind]
    rfl
  · unfold GroupOp.record
    rw [hcause]
    rfl

theorem State.dwellOff_requeues (s : State) (g : Group) : s.Requeues (s.dwellOff g) :=
  ((s.onGroup_requeues g _).trans (State.onGroup_requeues _ g _)).trans (State.endOp_requeues _ g _ _ _)

theorem State.dwellOff_queue (s : State) (g : Group) : (s.dwellOff g).queue = s.queue := State.endOp_queue _ g _ _ _

theorem State.dwellOff_doneOff (s : State) (g : Group) : s.DoneOff (s.dwellOff g) g := by
  refine State.endOp_doneOff rfl ?_ ?_ ?_ ?_
  all_goals rw [State.onGroup_get_self, State.onGroup_get_self]

section
variable {s : State} {g : Group}

/-- An outlet that GROUP_OFF finds awaited and that stays so. -/
def State.staysAwaited (s : State) (g : Group) (o : Outlet) : Prop :=
  o ∈ s.groups[g].awaited ∧ (s.groups[g].op = .oning → s.isIssued o = true)

/-- A member for which OFFING requests an OPEN. -/
def State.toOpen (s : State) (g : Group) (o : Outlet) : Prop := o ∈ s.members g ∧ s.relays[o].state ≠ .off

theorem State.turnedOff_awaited (hk : s.QueueKept) (hop : s.groups[g].op = .oning ∨ s.groups[g].op = .verifying)
    (o : Outlet) : o ∈ (s.turnedOff g).groups[g].awaited ↔ s.staysAwaited g o := by
  unfold State.staysAwaited
  obtain hop | hop := hop
  · rw [(State.turnedOff_of_oning hop hk).1, List.mem_filter]
    exact and_congr_right fun _ => ⟨fun h _ => h, fun h => h hop⟩
  · rw [(State.turnedOff_of_verifying hop).1]
    exact ⟨fun h => ⟨h, fun ho => absurd (hop.symm.trans ho) nofun⟩, fun h => h.1⟩

theorem State.turnedOff_group (hk : s.QueueKept) (hop : s.groups[g].op = .oning ∨ s.groups[g].op = .verifying) :
    let r := (s.turnedOff g).groups[g]
    r.kind = some .off ∧ r.cause = some .manual ∧ r.start = s.groups[g].start ∧ r.retry = s.groups[g].retry
    ∧ r.faulted = s.groups[g].faulted ∧ r.cancel = s.groups[g].cancel
    ∧ (s.groups[g].op = .oning → r.stagger = none ∧ r.repower = false)
    ∧ (s.groups[g].op = .verifying → r.boot = none) := by
  obtain hop | hop := hop
  · rw [(State.turnedOff_of_oning hop hk).1]
    exact ⟨rfl, rfl, rfl, rfl, rfl, rfl, fun _ => ⟨rfl, rfl⟩, fun h => absurd (hop.symm.trans h) nofun⟩
  · rw [(State.turnedOff_of_verifying hop).1]
    exact ⟨rfl, rfl, rfl, rfl, rfl, rfl, fun h => absurd (hop.symm.trans h) nofun, fun _ => rfl⟩

/-- GROUP_OFF has OFFING go on while an outlet is awaited, and else ends the operation. -/
theorem State.offRunning_looksOff (hk : s.QueueKept) (hc : s.groups[g].cancel = false)
    (hop : s.groups[g].op = .oning ∨ s.groups[g].op = .verifying) :
    ∃ t : State, State.LooksOff g (s.members g) ((s.turnedOff g).offingBegun g) t
      ∧ (∀ o, o ∈ t.groups[g].awaited ↔ s.staysAwaited g o ∨ s.toOpen g o)
      ∧ (s.turnedOff g).enterOffing g = if t.groups[g].awaited ≠ [] then t else t.endOp g .done none false := by
  obtain ⟨hkind, -, -, -, -, hcancel, -⟩ := State.turnedOff_group hk hop
  obtain ⟨t, hlooks, heq⟩ := State.enterOffing_of_off (hcancel.trans hc) hkind
  rw [State.turnedOff_members] at hlooks
  refine ⟨t, hlooks, fun o => ?_, heq⟩
  have hrelays : ((s.turnedOff g).offingBegun g).relays = s.relays := (s.turnedOff_requeues g).relays
  have hawaited : o ∈ ((s.turnedOff g).offingBegun g).groups[g].awaited ↔ s.staysAwaited g o := by
    rw [State.offingBegun_group]
    exact State.turnedOff_awaited hk hop o
  rw [hlooks.awaited, hawaited, hrelays]
  rfl

/-- What GROUP_OFF leaves in the queue. -/
theorem State.offRunning_entries (hk : s.QueueKept) (hc : s.groups[g].cancel = false)
    (hop : s.groups[g].op = .oning ∨ s.groups[g].op = .verifying) :
    let t := (s.turnedOff g).enterOffing g
    (∀ e ∈ t.queue, s.groups[g].op = .oning → e.state = .waiting → e.origin = .group g →
        e.outlet ∈ s.groups[g].awaited → e.action = .opens)
    ∧ ∀ o : Outlet, s.toOpen g o → ∃ e ∈ t.queue, e.outlet = o := by
  obtain ⟨t, hlooks, -, heq⟩ := State.offRunning_looksOff hk hc hop
  have hqueue : ((s.turnedOff g).enterOffing g).queue = t.queue := by
    rw [heq]
    split
    · rfl
    · exact t.endOp_queue g _ _ _
  have hrelays : ((s.turnedOff g).offingBegun g).relays = s.relays := (s.turnedOff_requeues g).relays
  dsimp only
  rw [hqueue]
  refine ⟨fun e he honing hwaiting horigin hawaited => ?_, fun o ho => (hlooks.entries o).2 (.inr (hrelays ▸ ho))⟩
  refine (hlooks.added e he).resolve_left fun hold => ?_
  have hfiltered : e ∈ (s.turnedOff g).queue := hold
  rw [(State.turnedOff_of_oning honing hk).2, List.mem_filter, decide_eq_true_iff] at hfiltered
  exact hfiltered.2 ⟨hwaiting, horigin, hawaited⟩

/-- With an outlet to await, OFFING goes on. -/
theorem State.offRunning_goesOn (hk : s.QueueKept) (hc : s.groups[g].cancel = false)
    (hop : s.groups[g].op = .oning ∨ s.groups[g].op = .verifying)
    (hsome : ∃ o : Outlet, s.staysAwaited g o ∨ s.toOpen g o) :
    let r := ((s.turnedOff g).enterOffing g).groups[g]
    r = { (s.turnedOff g).groups[g] with
      op := .offing, busyWait := false, awaited := r.awaited, progress := r.progress }
    ∧ (∀ o : Outlet, o ∈ r.awaited ↔ s.staysAwaited g o ∨ s.toOpen g o)
    ∧ ∀ o ∈ s.members g, ∀ x : Progress, r.progress[(s.members g).idxOf o]? = some x →
        x = if s.relays[o].state = .off then .opened else .awaiting := by
  obtain ⟨t, hlooks, hawaited, heq⟩ := State.offRunning_looksOff hk hc hop
  obtain ⟨o, ho⟩ := hsome
  rw [if_pos (List.ne_nil_of_mem ((hawaited o).2 ho))] at heq
  have hrelays : ((s.turnedOff g).offingBegun g).relays = s.relays := (s.turnedOff_requeues g).relays
  have hmembers : ((s.turnedOff g).offingBegun g).members g = s.members g := s.turnedOff_members g
  have hgroup := hlooks.group
  rw [State.offingBegun_group] at hgroup
  rw [heq]
  refine ⟨hgroup, hawaited, fun m hm x hx => ?_⟩
  have hprogress := hlooks.progress m (hmembers ▸ hm)
  rw [hmembers, if_pos hm] at hprogress
  unfold State.offProgress at hprogress
  rw [hrelays, hx] at hprogress
  obtain ⟨-, -, hshown⟩ := Option.map_eq_some_iff.1 hprogress.symm
  exact hshown.symm

/-- With no outlet to await, the operation ends DONE. -/
theorem State.offRunning_ends (hk : s.QueueKept) (hc : s.groups[g].cancel = false)
    (hop : s.groups[g].op = .oning ∨ s.groups[g].op = .verifying)
    (hnone : ∀ o : Outlet, ¬ s.staysAwaited g o ∧ ¬ s.toOpen g o) : s.DoneOff ((s.turnedOff g).enterOffing g) g := by
  obtain ⟨t, hlooks, hawaited, heq⟩ := State.offRunning_looksOff hk hc hop
  obtain ⟨hkind, hcause, hstart, hretry, -⟩ := State.turnedOff_group hk hop
  have hempty : t.groups[g].awaited = [] := List.eq_nil_iff_forall_not_mem.2 fun o ho =>
    ((hawaited o).1 ho).elim (hnone o).1 (hnone o).2
  have hgroup := hlooks.group
  rw [State.offingBegun_group] at hgroup
  have huptime : t.uptime = s.uptime := hlooks.requeues.uptime.trans (s.turnedOff_requeues g).uptime
  rw [heq, if_neg (not_not.2 hempty)]
  exact State.endOp_doneOff huptime (by rw [hgroup]; exact hkind) (by rw [hgroup]; exact hcause)
    (by rw [hgroup]; exact hstart) (by rw [hgroup]; exact hretry)

end

/-! ## The obligation -/

/-- Settles O32: CANCEL by the operation's state, and GROUP_OFF and GROUP_ON past the tests of R116. -/
theorem cancelEndsTheOperation : Obligations.CancelEndsTheOperation := by
  refine ⟨fun tag n s hready => ⟨fun hn => ?_, fun g hn =>
      ⟨fun hidle => ?_, fun hop hmark => ?_, fun hop hmark hk => ?_⟩⟩,
    fun tag n g s hn hsafe henabled hup hmark hk =>
      ⟨fun hready => ⟨fun hop => ?_, fun hop => ?_⟩, fun hready hop => ?_⟩⟩
  · refine State.take_answered hready rfl ?_
    rw [show indexed 32 (arg [n] 0) = none from indexed_eq_none_iff.2 hn]
    rfl
  · exact execCancel_of_group hn hready (State.cancelGroup_of_idle hidle)
  · exact execCancel_of_group hn hready (State.cancelGroup_of_marked hop hmark)
  · have hexec := execCancel_of_group hn hready
      (v := s.taken.cancelled g) (State.cancelGroup_of_unmarked hop hmark)
    have hmoves := s.taken.cancelled_requeues g
    obtain ⟨hanswers, hmeasures, hrelays, htokens, hturnOn, -, hsafe⟩ :=
      State.answered_kept hmoves.quiet hmoves.fields 0x0D tag .ok .empty
    refine ⟨_, hexec, hanswers, hmeasures, hrelays, htokens, hturnOn, hsafe, fun ho => ?_, fun ho hnone => ?_,
      fun ho hsome => ?_, fun ho => ?_⟩
    · exact State.cancelled_of_not_offing (s := s.taken) hop ho hk
    · exact State.cancelled_of_noneIssued (s := s.taken) hk ho hnone
    · have hgroup := State.cancelled_of_someIssued (s := s.taken) hk ho hsome
      exact ⟨(congrArg GroupOp.op hgroup).trans ho, congrArg GroupOp.cancel hgroup, congrArg GroupOp.awaited hgroup⟩
    · exact (State.cancelled_queue (s := s.taken) hk ho).trans (s.taken.withdrawAwaited_queue g)
  · have href := State.groupRefusal_eq_none (s := s.taken) hsafe henabled hup
    have hexec := execGroupOff_of_group hn hready
      (v := s.taken.dwellOff g) (State.offGroup_of_dwell href hmark hop)
    have hmoves := s.taken.dwellOff_requeues g
    have hqueue := s.taken.dwellOff_queue g
    have hdone := s.taken.dwellOff_doneOff g
    generalize s.taken.dwellOff g = v at hexec hmoves hqueue hdone
    obtain ⟨hanswers, hkept⟩ := State.answered_kept hmoves.quiet hmoves.fields 0x0B tag .ok .empty
    exact ⟨_, hexec, hanswers, hkept, hqueue, hdone⟩
  · have href := State.groupRefusal_eq_none (s := s.taken) hsafe henabled hup
    have hexec := execGroupOff_of_group hn hready
      (v := (s.taken.turnedOff g).enterOffing g) (State.offGroup_of_running href hmark hop)
    have hmoves := (s.taken.turnedOff_requeues g).trans (State.enterOffing_requeues _ g)
    obtain ⟨hopens, hentries⟩ := State.offRunning_entries (s := s.taken) hk hmark hop
    have hgoes := State.offRunning_goesOn (s := s.taken) hk hmark hop
    have hends := State.offRunning_ends (s := s.taken) hk hmark hop
    have hturned := State.turnedOff_group (s := s.taken) hk hop
    generalize (s.taken.turnedOff g).groups[g] = r at hgoes hturned
    generalize (s.taken.turnedOff g).enterOffing g = v at hexec hmoves hopens hentries hgoes hends
    obtain ⟨hanswers, hkept⟩ := State.answered_kept hmoves.quiet hmoves.fields 0x0B tag .ok .empty
    refine ⟨_, hexec, hanswers, hkept, hmoves.issued hk, hopens, hentries, fun hsome => ?_, hends⟩
    obtain ⟨hgroup, hawaited, hprogress⟩ := hgoes hsome
    obtain ⟨hkind, hcause, hstart, hretry, hfaulted, hcancel, honing, hverifying⟩ := hturned
    exact ⟨congrArg GroupOp.op hgroup, (congrArg GroupOp.kind hgroup).trans hkind,
      (congrArg GroupOp.cause hgroup).trans hcause, (congrArg GroupOp.start hgroup).trans hstart,
      (congrArg GroupOp.retry hgroup).trans hretry, (congrArg GroupOp.faulted hgroup).trans hfaulted,
      (congrArg GroupOp.cancel hgroup).trans (hcancel.trans hmark),
      fun ho => ⟨(congrArg GroupOp.stagger hgroup).trans (honing ho).1,
        (congrArg GroupOp.repower hgroup).trans (honing ho).2⟩,
      fun ho => (congrArg GroupOp.boot hgroup).trans (hverifying ho), hawaited, hprogress⟩
  · have href := State.groupRefusal_eq_none (s := s.taken) hsafe henabled hup
    have hexec := execGroupOn_of_group hn hready
      (v := s.taken.unshedMembers g) (State.onGroupPower_of_running href hmark hop)
    obtain ⟨hchanges, hstacks⟩ := s.taken.unshedMembers_changes g
    have hquiet := s.taken.unshedMembers_quiet g
    generalize s.taken.unshedMembers g = v at hexec hchanges hstacks hquiet
    have hfields : (v.relays, v.turnOn, v.settle, v.safe) = (s.relays, s.turnOn, s.settle, s.safe) := by
      rw [hchanges]
      rfl
    have hgroups : v.groups = s.groups := by rw [hchanges]; rfl
    have hqueue : v.queue = s.queue := by rw [hchanges]; rfl
    obtain ⟨hanswers, hkept⟩ := State.answered_kept hquiet hfields 0x0C tag .merged .empty
    exact ⟨_, hexec, hanswers, hkept, hgroups, hqueue, hstacks⟩

end Sys2Proof.Machine
end

