-- ==== Sys2Proof/Proofs/GroupTests.lean ====
section
/-! CYCLE, GROUP_OFF and GROUP_ON as commands of link 0: the tests that come before the operation state, and what each
operation state answers (R106, R116, R117). -/

namespace Sys2Proof.Machine

/-! ## The three commands -/

/-- `c` is the group command of kind `kind` with tag `tag` and payload byte `n`. -/
def IsGroupCommand (kind tag n : Byte) (c : Instr) : Prop :=
  (kind = 0x0A ∧ c = .cycle tag [n]) ∨ (kind = 0x0B ∧ c = .groupOff tag [n]) ∨ (kind = 0x0C ∧ c = .groupOn tag [n])

/-- The owner's reply to the group command of kind `kind` once its group is known. -/
def State.groupReply (s : State) (kind : Byte) (g : Group) : Reply :=
  if kind = 0x0A then s.cycleGroup g else if kind = 0x0B then s.offGroup g else s.onGroupPower g

section
variable {kind tag n : Byte} {c : Instr} {s v : State} {g : Group} {st : Status} {a : Answer}

theorem exec_groupCommand_badArg (hc : IsGroupCommand kind tag n c) (hready : s.ready kind tag [n])
    (hn : n.toNat = 0 ∨ 32 < n.toNat) :
    exec c s = .next (s.taken.answered kind tag .badArg (.offending none)) := by
  have hnone : indexed 32 (arg [n] 0) = none := indexed_eq_none_iff.2 hn
  obtain ⟨rfl, rfl⟩ | ⟨rfl, rfl⟩ | ⟨rfl, rfl⟩ := hc
  all_goals
    refine State.take_answered hready rfl ?_
    rw [hnone]
    rfl

theorem exec_groupCommand (hc : IsGroupCommand kind tag n c) (hready : s.ready kind tag [n])
    (hn : n.toNat = g.val + 1) (h : s.taken.groupReply kind g = { answer := some (st, a), state := v }) :
    exec c s = .next (v.answered kind tag st a) := by
  have hsome : indexed 32 (arg [n] 0) = some g := indexed_eq_some hn
  obtain ⟨rfl, rfl⟩ | ⟨rfl, rfl⟩ | ⟨rfl, rfl⟩ := hc
  all_goals
    refine State.take_answered hready rfl ?_
    rw [hsome]
    exact h

/-- But for BAD_ARG a status is answered with no fields. -/
theorem State.reply_of_ne_badArg (s : State) (h : st ≠ .badArg) :
    s.reply st = { answer := some (st, .empty), state := s } := by
  unfold State.reply
  split
  · exact absurd rfl h
  · rfl

/-! ## The tests before the operation state -/

theorem State.groupRefusal_of_safe (h : s.safe.cause ≠ none) : s.groupRefusal g = some .safe :=
  if_pos (Option.isSome_iff_ne_none.2 h)

theorem State.groupRefusal_of_disabled (hsafe : s.safe.cause = none)
    (h : s.groupTable.active[g].enabled = false) : s.groupRefusal g = some .state := by
  unfold State.groupRefusal State.inSafe State.groupEntry
  rw [hsafe, h]
  rfl

theorem State.groupRefusal_of_bankDown (hsafe : s.safe.cause = none) (henabled : s.groupTable.active[g].enabled = true)
    (h : ¬ ∀ o ∈ s.members g, s.lanes[bankOf o].link = .up) : s.groupRefusal g = some .bankDown := by
  have hdown : s.banksUp g = false := Bool.eq_false_iff.2 fun hup =>
    h fun o ho => by simpa [State.isUp] using List.all_eq_true.1 hup o ho
  unfold State.groupRefusal State.inSafe State.groupEntry
  rw [hsafe, henabled, hdown]
  rfl

theorem State.groupReply_of_refused (kind : Byte) (h : s.groupRefusal g = some st) :
    s.groupReply kind g = s.reply st := by
  unfold State.groupReply State.cycleGroup State.offGroup State.onGroupPower
  rw [h]
  dsimp only
  rw [ite_self, ite_self]

/-! ## The operation state -/

theorem State.groupReply_of_marked (kind : Byte) (href : s.groupRefusal g = none) (hop : s.groups[g].op ≠ .idle)
    (hcancel : s.groups[g].cancel = true) : s.groupReply kind g = s.reply .busy := by
  unfold State.groupReply State.cycleGroup State.offGroup State.onGroupPower
  rw [href]
  dsimp only
  rw [hcancel]
  cases h : s.groups[g].op with
  | idle => exact absurd h hop
  | _ => simp

theorem State.cycleGroup_of_running (href : s.groupRefusal g = none)
    (hop : s.groups[g].op = .oning ∨ s.groups[g].op = .verifying) : s.cycleGroup g = s.reply .busy := by
  unfold State.cycleGroup
  rw [href]
  obtain hop | hop := hop <;> simp only [hop]

theorem State.cycleGroup_of_allShed (href : s.groupRefusal g = none) (hop : s.groups[g].op = .idle)
    (h : ∀ o ∈ s.members g, o ∈ s.sheds[bankOf o].stack) : s.cycleGroup g = s.reply .state := by
  have hshed : s.allShed g = true := List.all_eq_true.2 fun o ho => (s.isShed_iff o).2 (h o ho)
  unfold State.cycleGroup
  rw [href]
  simp only [hop, hshed, if_true]

theorem State.cycleGroup_of_offing (href : s.groupRefusal g = none) (hop : s.groups[g].op = .offing)
    (hcancel : s.groups[g].cancel = false) :
    s.cycleGroup g = (s.onGroup g fun r => { r with kind := some .cycle }).reply .merged := by
  unfold State.cycleGroup
  rw [href]
  simp only [hop, hcancel, Bool.false_eq_true, if_false]

theorem State.cycleGroup_of_dwell (href : s.groupRefusal g = none) (hop : s.groups[g].op = .dwell)
    (hcancel : s.groups[g].cancel = false) : s.cycleGroup g = s.reply .merged := by
  unfold State.cycleGroup
  rw [href]
  simp only [hop, hcancel, Bool.false_eq_true, if_false]

theorem State.offGroup_of_offing (href : s.groupRefusal g = none) (hop : s.groups[g].op = .offing)
    (hcancel : s.groups[g].cancel = false) :
    s.offGroup g = (s.onGroup g fun r => { r with kind := some .off, cause := some .manual }).reply .merged := by
  unfold State.offGroup
  rw [href]
  simp only [hop, hcancel, Bool.false_eq_true, and_false, if_false]

theorem State.onGroupPower_of_switchingOff (href : s.groupRefusal g = none)
    (hop : s.groups[g].op = .offing ∨ s.groups[g].op = .dwell) : s.onGroupPower g = s.reply .busy := by
  unfold State.onGroupPower
  rw [href]
  obtain hop | hop := hop <;> simp only [hop]

end

/-- Settles O29: the tests of R106 in their order, then the operation state. -/
theorem groupCommandsAreTested : Obligations.GroupCommandsAreTested := by
  intro tag n kind c s hc hready
  refine ⟨exec_groupCommand_badArg hc hready, fun g hn => ?_⟩
  intro no up op
  have hrefused : ∀ st : Status, s.taken.groupRefusal g = some st → st ≠ .badArg → exec c s = no st :=
    fun st href hst => exec_groupCommand hc hready hn
      ((State.groupReply_of_refused kind href).trans (State.reply_of_ne_badArg _ hst))
  refine ⟨fun hsafe => hrefused _ (State.groupRefusal_of_safe hsafe) nofun,
    fun hsafe hoff => hrefused _ (State.groupRefusal_of_disabled hsafe hoff) nofun,
    fun hsafe hon hdown => hrefused _ (State.groupRefusal_of_bankDown hsafe hon hdown) nofun,
    fun hsafe hon hup => ?_⟩
  have href : s.taken.groupRefusal g = none := State.groupRefusal_eq_none hsafe hon hup
  refine ⟨fun hop hcancel => ?_, ?_, ?_, ?_, ?_, ?_, ?_⟩
  · exact exec_groupCommand hc hready hn (State.groupReply_of_marked kind href hop hcancel)
  · rintro rfl hop
    exact exec_groupCommand hc hready hn (State.cycleGroup_of_running href hop)
  · rintro rfl hop hshed
    exact exec_groupCommand hc hready hn (State.cycleGroup_of_allShed href hop hshed)
  · rintro rfl hop hcancel
    exact exec_groupCommand hc hready hn (State.cycleGroup_of_offing href hop hcancel)
  · rintro rfl hop hcancel
    exact exec_groupCommand hc hready hn (State.cycleGroup_of_dwell href hop hcancel)
  · rintro rfl hop hcancel
    exact exec_groupCommand hc hready hn (State.offGroup_of_offing href hop hcancel)
  · rintro rfl hop
    exact exec_groupCommand hc hready hn (State.onGroupPower_of_switchingOff href hop)

end Sys2Proof.Machine
end

