-- ==== Sys2Proof/Proofs/GroupEntries.lean ====
section
/-! Group table entries that apply together (R126, R136, R140, R152): which of them can, and what they make of the
groups and monitors. -/

namespace Sys2Proof.Machine

/-! ## The largest set that can apply (R152) -/

section
variable {s : State} {changed set : List Group}

/-- No outlet that the pending list of `g` adds is still named by another group of `changed` outside `set`. -/
def State.FreeOfOthers (s : State) (changed set : List Group) (g : Group) : Prop :=
  ∀ o ∈ memberOutlets s.groupTable.pending[g], o ∉ s.members g →
    ∀ h : Group, h ≠ g → h ∈ changed → h ∉ set → o ∉ s.members h

theorem State.mem_freeOfOthers {g : Group} :
    g ∈ s.freeOfOthers changed set ↔ g ∈ set ∧ s.FreeOfOthers changed set g := by
  unfold State.freeOfOthers State.FreeOfOthers
  rw [List.mem_filter, List.all_eq_true]
  refine and_congr_right fun _ => forall₂_congr fun o _ => ?_
  rw [Bool.or_eq_true, decide_eq_true_iff, List.all_eq_true, or_iff_not_imp_left]
  refine imp_congr_right fun _ => forall_congr' fun h => ?_
  simp only [Bool.or_eq_true, beq_iff_eq, decide_eq_true_eq, Bool.not_eq_true', decide_eq_false_iff_not]
  tauto

/-- A pass that holds nothing back is the last that matters. -/
theorem State.pruneGroups_of_stable (h : s.freeOfOthers changed set = set) (n : Nat) :
    s.pruneGroups changed n set = set := by
  induction n with
  | zero => rfl
  | succ n ih =>
    unfold State.pruneGroups
    rw [h, ih]

/-- As many passes as there are groups in the set come to one that no pass makes smaller. -/
theorem State.pruneGroups_stable (n : Nat) (hcard : set.toFinset.card ≤ n) :
    s.freeOfOthers changed (s.pruneGroups changed n set) = s.pruneGroups changed n set := by
  induction n generalizing set with
  | zero =>
    have hempty : set = [] := by simpa using hcard
    rw [hempty]
    rfl
  | succ n ih =>
    by_cases h : s.freeOfOthers changed set = set
    · rw [State.pruneGroups_of_stable h, h]
    · obtain ⟨g, hg, hout⟩ : ∃ g ∈ set, g ∉ s.freeOfOthers changed set := by
        by_contra hall
        push Not at hall
        exact h (List.filter_eq_self.2 fun g hg => (List.mem_filter.1 (hall g hg)).2)
      have hless : (s.freeOfOthers changed set).toFinset ⊂ set.toFinset := by
        refine (Finset.ssubset_iff_of_subset fun x hx => ?_).2
          ⟨g, List.mem_toFinset.2 hg, fun hx => hout (List.mem_toFinset.1 hx)⟩
        exact List.mem_toFinset.2 (State.mem_freeOfOthers.1 (List.mem_toFinset.1 hx)).1
      exact ih (Nat.le_of_lt_succ ((Finset.card_lt_card hless).trans_le hcard))

/-- A set that can apply loses no group in the passes. -/
theorem State.CanApply.mem_pruneGroups {other : Group → Prop} (h : s.CanApply (· ∈ changed) other) (n : Nat)
    (hset : ∀ g, other g → g ∈ set) : ∀ g, other g → g ∈ s.pruneGroups changed n set := by
  induction n generalizing set with
  | zero => exact hset
  | succ n ih =>
    refine ih fun g hg => State.mem_freeOfOthers.2 ⟨hset g hg, fun o ho hnew k hk hchanged hout => ?_⟩
    exact (h g hg).2.2 o ho hnew k hk hchanged fun hin => hout (hset k hin)

theorem State.largestApplicable (s : State) (changed : List Group) :
    s.LargestApplicable (· ∈ changed) (· ∈ s.applicable changed) := by
  have hstable : s.freeOfOthers changed (s.applicable changed) = s.applicable changed :=
    State.pruneGroups_stable 32 ((Finset.card_le_univ _).trans_eq (Fintype.card_fin 32))
  refine ⟨fun g hg => ?_, fun other hother => ?_⟩
  · obtain ⟨hchanged, hidle⟩ := s.mem_applicable changed g hg
    rw [← hstable] at hg
    exact ⟨hchanged, hidle, (State.mem_freeOfOthers.1 hg).2⟩
  · refine hother.mem_pruneGroups 32 fun g hg => List.mem_filter.2 ⟨(hother g hg).1, ?_⟩
    rw [(hother g hg).2.1]
    rfl

/-- When every group is IDLE, all changed entries can apply. -/
theorem State.applicable_of_idle (h : ∀ g : Group, s.groups[g].op = .idle) {g : Group} (hg : g ∈ changed) :
    g ∈ s.applicable changed :=
  (s.largestApplicable changed).2 (· ∈ changed)
    (fun k hk => ⟨hk, h k, fun _ _ _ _ _ hin hout => absurd hin hout⟩) g hg

end

/-! ## One entry applies (R126, R136, R140) -/

theorem GroupOp.entryApplied_eq (r : GroupOp) (old new : GroupEntry) : r.entryApplied old new = { r with
    progress := if new.members = old.members then r.progress else []
    history := if new.members = old.members ∧ new.enabled = old.enabled then r.history else [] } := by
  unfold GroupOp.entryApplied
  by_cases hm : new.members = old.members <;> by_cases he : new.enabled = old.enabled <;>
    simp [hm, he, eq_comm (a := old.members), eq_comm (a := old.enabled)]

theorem GroupOp.entryApplied_twice (r : GroupOp) (old new : GroupEntry) :
    (r.entryApplied old new).entryApplied old new = r.entryApplied old new := by
  simp only [GroupOp.entryApplied_eq]
  split <;> split <;> rfl

/-- A monitor takes its group's entry, and then the power state, the second time as the first. -/
theorem Monitor.entryApplied_twice (m : Monitor) (old new : GroupEntry) (inSafe : Bool) (p q : PowerState) :
    (((m.entryApplied old new inSafe).afterPower p q).entryApplied old new inSafe).afterPower p q
      = (m.entryApplied old new inSafe).afterPower p q := by
  unfold Monitor.entryApplied Monitor.afterPower Monitor.still Monitor.enter
  by_cases hwatched : new.watched = true
  · by_cases hoffline : m.state = .offline
    · cases inSafe <;> simp [hwatched, hoffline]
    · by_cases hmembers : old.members = new.members
      · by_cases hpower : q = .allOff ∧ ¬ p = .allOff
        · by_cases hcycling : m.state = .cycling
          · simp [hwatched, hmembers, hcycling]
          · simp [hwatched, hoffline, hmembers, hpower, hcycling]
        · have hstays : ∀ x : Prop, ¬ (q = .allOff ∧ ¬ p = .allOff ∧ x) := fun _ ⟨hq, hp, _⟩ => hpower ⟨hq, hp⟩
          simp [hwatched, hoffline, hmembers, hstays]
      · simp [hwatched, hoffline, hmembers]
  · simp [hwatched]

/-- What the monitor of `g` becomes as the entry of its group applies: the entry, and then the power state (R139). -/
def State.monitorApplied (before s : State) (g : Group) (m : Monitor) : Monitor :=
  (m.entryApplied before.groupTable.active[g] s.groupTable.active[g] s.inSafe).afterPower (before.power g) (s.power g)

theorem State.groupApplied_changes (before s : State) (g : Group) : State.groupApplied before s g = { s with
    lanes := (State.groupApplied before s g).lanes, shown := (State.groupApplied before s g).shown
    groups := upd s.groups g fun r => r.entryApplied before.groupTable.active[g] s.groupTable.active[g]
    monitors := upd s.monitors g (before.monitorApplied s g) } := by
  unfold State.groupApplied
  dsimp only
  rw [State.notePower_eq_afterPower, State.refreshModesOf_changes]
  simp only [State.onMonitor, State.onGroup, upd_upd]
  rfl

/-! ## Entries apply one after the other -/

theorem foldl_upd_get_of_twice {α : Type} {n : Nat} {f : Fin n → α → α} (hf : ∀ i a, f i (f i a) = f i a)
    (is : List (Fin n)) (v : Vector α n) (j : Fin n) :
    (is.foldl (fun v i => upd v i (f i)) v)[j] = if j ∈ is then f j v[j] else v[j] := by
  induction is generalizing v with
  | nil => rfl
  | cons i is ih =>
    rw [List.foldl_cons, ih]
    by_cases e : i = j
    · subst e
      rw [upd_get_self, hf, if_pos List.mem_cons_self, ite_self]
    · rw [upd_get_ne _ e]
      simp [Ne.symm e]

theorem State.foldl_groupApplied_changes (before : State) (gs : List Group) (s : State) :
    let t := gs.foldl (fun x g => State.groupApplied before x g) s
    t = { s with
      lanes := t.lanes, shown := t.shown
      groups := gs.foldl (fun v g =>
        upd v g fun r => r.entryApplied before.groupTable.active[g] s.groupTable.active[g]) s.groups
      monitors := gs.foldl (fun v g => upd v g (before.monitorApplied s g)) s.monitors } := by
  induction gs generalizing s with
  | nil => rfl
  | cons g gs ih =>
    have happlied := State.groupApplied_changes before s g
    have hrest := ih (State.groupApplied before s g)
    dsimp only at hrest ⊢
    rw [List.foldl_cons, List.foldl_cons, List.foldl_cons]
    generalize gs.foldl (fun x g => State.groupApplied before x g) (State.groupApplied before s g) = t at hrest ⊢
    generalize State.groupApplied before s g = u at happlied hrest
    generalize u.lanes = lanes, u.shown = shown at happlied
    subst happlied
    exact hrest

/-- `t` is `s` with the pending entries of the groups of `set` active, and what blocks make of that: a change of members
or of the enabled field clears the history, one of members the progress; monitors follow (R126, R136, R139, R140). -/
structure State.EntriesApplied (s t : State) (set : List Group) : Prop where
  active : ∀ g : Group, t.groupTable.active[g] = if g ∈ set then s.groupTable.pending[g] else s.groupTable.active[g]
  pending : t.groupTable.pending = s.groupTable.pending
  regroups : s.Regroups t
  quiet : t.quiet = s.quiet
  others : ∀ g : Group, g ∉ set → t.groups[g] = s.groups[g] ∧ t.monitors[g] = s.monitors[g]
  applied : ∀ g ∈ set, t.groups[g] = { s.groups[g] with
      progress := if s.groupTable.pending[g].members = s.groupTable.active[g].members then s.groups[g].progress else []
      history := if s.groupTable.pending[g].members = s.groupTable.active[g].members
          ∧ s.groupTable.pending[g].enabled = s.groupTable.active[g].enabled then s.groups[g].history else [] }
    ∧ t.monitors[g] = (s.monitorWith g s.groupTable.pending[g]).afterPower (s.power g) (t.power g)

theorem Staged.copyEntries_get {α : Type} {n m : Nat} (t : Staged α n m) (is : List (Fin n)) (i : Fin n) :
    (t.copyEntries is).active[i] = if i ∈ is then t.pending[i] else t.active[i] := by
  split
  · rename_i h
    exact t.copyEntries_active_mem h
  · rename_i h
    exact t.copyEntries_active is i h

theorem State.applyGroups_changes (s : State) (set : List Group) :
    let u : State := { s with groupTable := s.groupTable.copyEntries set }
    s.applyGroups set = { u with
      lanes := (s.applyGroups set).lanes, shown := (s.applyGroups set).shown
      groups := set.foldl (fun v g =>
        upd v g fun r => r.entryApplied s.groupTable.active[g] u.groupTable.active[g]) s.groups
      monitors := set.foldl (fun v g => upd v g (s.monitorApplied u g)) s.monitors } :=
  State.foldl_groupApplied_changes s set _

theorem State.applyGroups_entriesApplied (s : State) (set : List Group) : s.EntriesApplied (s.applyGroups set) set := by
  have hregroups := s.applyGroups_regroups set
  have hquiet := s.applyGroups_quiet set
  have hchanges := s.applyGroups_changes set
  have hactive := s.groupTable.copyEntries_get set
  generalize hu : ({ s with groupTable := s.groupTable.copyEntries set } : State) = u at hchanges
  have hutable : u.groupTable = s.groupTable.copyEntries set := by rw [← hu]
  dsimp only at hchanges
  generalize s.applyGroups set = t at hregroups hquiet hchanges ⊢
  have htable : t.groupTable = u.groupTable := by rw [hchanges]
  have hpower : t.power = u.power := by rw [hchanges]; rfl
  have hgroups : ∀ g : Group, t.groups[g] =
      if g ∈ set then s.groups[g].entryApplied s.groupTable.active[g] u.groupTable.active[g] else s.groups[g] := by
    rw [hchanges]
    exact foldl_upd_get_of_twice (fun g r => GroupOp.entryApplied_twice r _ _) set s.groups
  have hmonitors : ∀ g : Group, t.monitors[g] =
      if g ∈ set then s.monitorApplied u g s.monitors[g] else s.monitors[g] := by
    rw [hchanges]
    exact foldl_upd_get_of_twice (fun g m => Monitor.entryApplied_twice m _ _ _ _ _) set s.monitors
  refine ⟨fun g => ?_, ?_, hregroups, hquiet, fun g hg => ⟨?_, ?_⟩, fun g hg => ⟨?_, ?_⟩⟩
  · rw [htable, hutable]
    exact hactive g
  · rw [htable, hutable]
    rfl
  · rw [hgroups, if_neg hg]
  · rw [hmonitors, if_neg hg]
  · rw [hgroups, if_pos hg, hutable, hactive, if_pos hg, GroupOp.entryApplied_eq]
  · have hsafe : u.inSafe = s.inSafe := by rw [← hu]; rfl
    rw [hmonitors, if_pos hg, hpower, ← Monitor.entryApplied_eq_monitorWith]
    unfold State.monitorApplied
    rw [hutable, hactive, if_pos hg, hsafe]

/-- The marks of the table, notices, records and answers are not what the relation speaks of. -/
theorem State.EntriesApplied.congr {s t t' : State} {set : List Group} (h : s.EntriesApplied t set)
    (hactive : t'.groupTable.active = t.groupTable.active) (hpending : t'.groupTable.pending = t.groupTable.pending)
    (ht : t' = { t with groupTable := t'.groupTable, notifier := t'.notifier, link0 := t'.link0 })
    (hquiet : t'.quiet = t.quiet) : s.EntriesApplied t' set := by
  have hregroups : t.Regroups t' := by
    unfold State.Regroups
    generalize t'.groupTable = x, t'.notifier = y, t'.link0 = z at ht
    subst ht
    rfl
  have hgroups : t'.groups = t.groups := by rw [ht]
  have hmonitors : t'.monitors = t.monitors := by rw [ht]
  have hpower : t'.power = t.power := by
    have hmembers : t'.members = t.members := by
      unfold State.members
      rw [hactive]
    have hon : t'.countsOn = t.countsOn := by rw [ht]; rfl
    have hoff : t'.countsOff = t.countsOff := by rw [ht]; rfl
    unfold State.power
    rw [hmembers, hon, hoff]
  refine ⟨?_, hpending.trans h.pending, h.regroups.trans hregroups, hquiet.trans h.quiet, ?_, ?_⟩
  · rw [hactive]
    exact h.active
  · rw [hgroups, hmonitors]
    exact h.others
  · rw [hgroups, hmonitors, hpower]
    exact h.applied

end Sys2Proof.Machine
end

