-- ==== Sys2Proof/Proofs/GroupCommit.lean ====
section
/-! COMMIT of the group table (R148, R152), what waits and when it applies (R30, R150, R151, R153), and the return to
IDLE that lets group entries apply (R121, R138). -/

namespace Sys2Proof.Machine

/-! ## What waits applies at a return to IDLE (R152, R153) -/

section
variable (s : State)

/-- The waiting entries that apply at a return to IDLE. -/
def State.releasable : List Group := s.applicable s.groupTable.waiting

/-- The waiting entries that go on waiting. -/
def State.unreleased : List Group := s.groupTable.waiting.filter fun g => g ∉ s.releasable

/-- TABLE_APPLIED of the group table, with the number of entries that waited (R153). -/
def groupsApplied (count : Nat) : Event :=
  { kind := .tableApplied, source := 5, detail := .tableApplied count, records := [] }

theorem State.releaseGroups_eq : s.releaseGroups =
    if s.releasable = [] then s
    else if s.unreleased = [] then
      let u := s.applyGroups s.releasable
      State.raiseEvent { u with groupTable := { u.groupTable with waiting := [] }.endDeferral }
        (groupsApplied s.groupTable.waited)
    else
      let u := s.applyGroups s.releasable
      { u with groupTable := { u.groupTable with waiting := s.unreleased } } := by
  have hrest : s.groupTable.waiting.filter (fun g => !decide (g ∈ s.releasable)) = s.unreleased :=
    List.filter_congr fun g _ => (decide_not ..).symm
  unfold State.releaseGroups
  dsimp only
  rw [show s.applicable s.groupTable.waiting = s.releasable from rfl, hrest]
  rfl

theorem State.entriesApplied_nil : s.EntriesApplied s [] :=
  ⟨fun _ => (if_neg List.not_mem_nil).symm, rfl, .refl s, rfl, fun _ _ => ⟨rfl, rfl⟩,
    fun _ hg => absurd hg List.not_mem_nil⟩

theorem State.releaseGroups_entriesApplied : s.EntriesApplied s.releaseGroups s.releasable := by
  have happly := s.applyGroups_entriesApplied s.releasable
  rw [State.releaseGroups_eq]
  generalize s.applyGroups s.releasable = u at happly
  split
  · rename_i hnone
    rw [hnone]
    exact s.entriesApplied_nil
  · split
    · exact happly.congr rfl rfl rfl ((State.raiseEvent_quiet _ _).trans (u.setGroupTable_quiet _))
    · exact happly.congr rfl rfl rfl (u.setGroupTable_quiet _)

/-- Entries that apply leave the table's marks and raise nothing. -/
theorem State.applyGroups_marks (set : List Group) :
    (s.applyGroups set).groupTable.state = s.groupTable.state
    ∧ (s.applyGroups set).groupTable.written = s.groupTable.written
    ∧ (s.applyGroups set).notifier = s.notifier ∧ (s.applyGroups set).link0 = s.link0
    ∧ (s.applyGroups set).uptime = s.uptime := by
  rw [s.applyGroups_changes set]
  exact ⟨rfl, rfl, rfl, rfl, rfl⟩

theorem State.unreleased_of_none (h : s.releasable = []) : s.unreleased = s.groupTable.waiting := by
  unfold State.unreleased
  rw [h]
  exact List.filter_eq_self.2 fun g _ => by simp

theorem State.releaseGroups_waiting : s.releaseGroups.groupTable.waiting = s.unreleased := by
  rw [State.releaseGroups_eq]
  split
  · rename_i hnone
    exact (s.unreleased_of_none hnone).symm
  · split
    · rename_i hrest
      exact hrest.symm
    · rfl

/-- While entries go on waiting the table stays as it is, and nothing is raised. -/
theorem State.releaseGroups_of_rest (h : s.unreleased ≠ []) :
    s.releaseGroups.groupTable.state = s.groupTable.state ∧ s.releaseGroups.groupTable.written = s.groupTable.written
    ∧ (s.releaseGroups.notifier, s.releaseGroups.link0) = (s.notifier, s.link0) := by
  obtain ⟨hstate, hwritten, hnotifier, hlink, -⟩ := s.applyGroups_marks s.releasable
  rw [State.releaseGroups_eq]
  generalize s.applyGroups s.releasable = u at hstate hwritten hnotifier hlink
  rw [if_neg h]
  split
  · exact ⟨rfl, rfl, rfl⟩
  · exact ⟨hstate, hwritten, congrArg₂ Prod.mk hnotifier hlink⟩

/-- When the last has applied, TABLE_APPLIED is raised and the deferral is over (R153). -/
theorem State.releaseGroups_of_last (h : s.releasable ≠ []) (hrest : s.unreleased = []) :
    s.releaseGroups.groupTable.state = (if s.groupTable.written then .dirty else .clean)
    ∧ s.releaseGroups.groupTable.written = false
    ∧ (s.releaseGroups.notifier, s.releaseGroups.link0) =
        notify s.uptime (groupsApplied s.groupTable.waited) (s.notifier, s.link0) := by
  obtain ⟨-, hwritten, hnotifier, hlink, huptime⟩ := s.applyGroups_marks s.releasable
  rw [State.releaseGroups_eq]
  generalize s.applyGroups s.releasable = u at hwritten hnotifier hlink huptime
  rw [if_neg h, if_pos hrest, ← hwritten, ← hnotifier, ← hlink, ← huptime]
  exact ⟨rfl, rfl, rfl⟩

end

/-! ## The offending group (R148) -/

/-- Group `g` of the pending table `v` offends: a member number outside 1 to 48, a member twice or also in a
lower-numbered list, or no member though enabled. -/
def OffendsCommit (v : Vector GroupEntry 32) (g : Group) : Prop :=
  (∃ n ∈ v[g].members, n = 0 ∨ 48 < n) ∨ ¬ v[g].members.Nodup
    ∨ (∃ h : Group, h < g ∧ ∃ n ∈ v[g].members, n ∈ v[h].members)
    ∨ (v[g].enabled = true ∧ v[g].members = [])

section
variable {v : Vector GroupEntry 32} {g : Group}

theorem groupOffends_iff : groupOffends v g = true ↔ OffendsCommit v g := by
  unfold groupOffends OffendsCommit
  simp only [Bool.or_eq_true, Bool.and_eq_true, List.any_eq_true, decide_eq_true_eq, Bool.not_eq_true',
    decide_eq_false_iff_not, List.isEmpty_iff, or_assoc, Nat.lt_one_iff, allGroups, List.mem_finRange, true_and]

theorem firstOffender_of_first (h : OffendsCommit v g) (hfirst : ∀ k : Group, k < g → ¬ OffendsCommit v k) :
    firstOffender v = some g := by
  unfold firstOffender
  refine List.find?_eq_some_iff_getElem.2 ⟨groupOffends_iff.2 h, g.val, ?_, ?_, fun j hj => ?_⟩
  · exact g.isLt.trans_eq List.length_finRange.symm
  · exact List.getElem_finRange _
  · rw [Bool.not_eq_true', ← Bool.not_eq_true, groupOffends_iff]
    exact hfirst _ (by simpa [allGroups, Fin.lt_def] using hj)

theorem firstOffender_of_none (h : ∀ g : Group, ¬ OffendsCommit v g) : firstOffender v = none :=
  List.find?_eq_none.2 fun g _ hg => h g (groupOffends_iff.1 hg)

end

/-! ## COMMIT of the group table -/

theorem Staged.mem_changedEntries {α : Type} {n m : Nat} [DecidableEq α] (t : Staged α n m) (i : Fin n) :
    i ∈ t.changedEntries ↔ t.pending[i] ≠ t.active[i] := by
  unfold Staged.changedEntries
  rw [List.mem_filter, decide_eq_true_iff]
  exact and_iff_right (List.mem_finRange i)

section
variable {s v : State} {tag : Byte} {st : Status} {a : Answer}

theorem execCommit_groups (hready : s.ready 0x03 tag [5])
    (hstate : s.groupTable.state = .clean ∨ s.groupTable.state = .dirty)
    (h : s.taken.commitGroups = { answer := some (st, a), state := v }) :
    exec (.commit tag [5]) s = .next (v.answered 0x03 tag st a) := by
  have hcommitable : s.taken.groupTable.commitable = true := by
    unfold Staged.commitable State.taken
    obtain hstate | hstate := hstate <;> rw [hstate]
  refine State.take_answered hready rfl ?_
  show s.taken.commitTable .group tag = _
  unfold State.commitTable
  dsimp only
  rw [if_pos hcommitable, h]

/-- The changed entries that a COMMIT applies. -/
def State.committable (s : State) : List Group := s.applicable s.groupTable.changedEntries

/-- The changed entries that a COMMIT leaves waiting. -/
def State.uncommitted (s : State) : List Group := s.groupTable.changedEntries.filter fun g => g ∉ s.committable

/-- The group table once a COMMIT without offender is over. -/
def State.committedGroups (s : State) : State :=
  let u := s.applyGroups s.committable
  if s.uncommitted = [] then { u with groupTable := { u.groupTable with state := .clean } }
  else { u with groupTable := u.groupTable.defer s.uncommitted }

theorem State.commitGroups_eq (h : firstOffender s.groupTable.pending = none) : s.commitGroups =
    { answer := some (if s.uncommitted = [] then (.ok, .empty) else (.deferred, .waiting s.uncommitted.length))
      state := s.committedGroups } := by
  have hrest : s.groupTable.changedEntries.filter (fun g => !decide (g ∈ s.committable)) = s.uncommitted :=
    List.filter_congr fun g _ => (decide_not ..).symm
  unfold State.commitGroups State.committedGroups
  rw [h]
  dsimp only
  rw [show s.applicable s.groupTable.changedEntries = s.committable from rfl, hrest]
  split <;> rfl

theorem State.committedGroups_entriesApplied (s : State) : s.EntriesApplied s.committedGroups s.committable := by
  have happly := s.applyGroups_entriesApplied s.committable
  unfold State.committedGroups
  generalize s.applyGroups s.committable = u at happly
  dsimp only
  split
  · exact happly.congr rfl rfl rfl (u.setGroupTable_quiet _)
  · exact happly.congr rfl rfl rfl (u.setGroupTable_quiet _)

theorem State.committedGroups_of_none (h : s.uncommitted = []) : s.committedGroups.groupTable.state = .clean := by
  unfold State.committedGroups
  rw [if_pos h]

theorem State.committedGroups_of_some (h : s.uncommitted ≠ []) :
    s.committedGroups.groupTable.state = .deferred ∧ s.committedGroups.groupTable.waiting = s.uncommitted
    ∧ s.committedGroups.groupTable.waited = s.uncommitted.length ∧ s.committedGroups.groupTable.written = false := by
  unfold State.committedGroups
  rw [if_neg h]
  exact ⟨rfl, rfl, rfl, rfl⟩

theorem State.mem_uncommitted {g : Group} :
    g ∈ s.uncommitted ↔ s.groupTable.pending[g] ≠ s.groupTable.active[g] ∧ g ∉ s.committable := by
  unfold State.uncommitted
  rw [List.mem_filter, Staged.mem_changedEntries, decide_eq_true_iff]

theorem State.uncommitted_eq_nil_iff :
    s.uncommitted = [] ↔ ∀ g : Group, s.groupTable.pending[g] ≠ s.groupTable.active[g] → g ∈ s.committable := by
  rw [List.eq_nil_iff_forall_not_mem]
  exact forall_congr' fun g => by rw [State.mem_uncommitted, not_and_not_right]

theorem State.committable_largest (s : State) :
    s.LargestApplicable (fun g => s.groupTable.pending[g] ≠ s.groupTable.active[g]) (· ∈ s.committable) := by
  have hchanged : (fun g : Group => s.groupTable.pending[g] ≠ s.groupTable.active[g])
      = (· ∈ s.groupTable.changedEntries) := funext fun g => propext (s.groupTable.mem_changedEntries g).symm
  rw [hchanged]
  exact s.largestApplicable s.groupTable.changedEntries

/-- Of a table all of whose changed entries apply, the active copy becomes the pending one. -/
theorem State.committedGroups_active (h : s.uncommitted = []) :
    s.committedGroups.groupTable.active = s.groupTable.pending := by
  have hget : ∀ g : Group, s.committedGroups.groupTable.active[g] = s.groupTable.pending[g] := fun g => by
    rw [s.committedGroups_entriesApplied.active]
    split
    · rfl
    · rename_i hg
      exact (by_contra fun hne => hg (State.uncommitted_eq_nil_iff.1 h g (Ne.symm hne)))
  exact Vector.ext fun i hi => hget ⟨i, hi⟩

theorem State.EntriesApplied.op {t : State} {set : List Group} (h : s.EntriesApplied t set) (g : Group) :
    t.groups[g].op = s.groups[g].op := by
  by_cases hg : g ∈ set
  · rw [(h.applied g hg).1]
  · rw [(h.others g hg).1]

/-- What applied entries leave of a command's state, the answer leaves. -/
theorem State.EntriesApplied.answered {t : State} {set : List Group} (h : s.taken.EntriesApplied t set)
    (kind tag : Byte) (st : Status) (a : Answer) :
    let x := t.answered kind tag st a
    s.answers x kind tag st a ∧ s.sameMeasures x ∧ x.relays = s.relays ∧ x.queue = s.queue ∧ x.tokens = s.tokens
    ∧ x.sheds = s.sheds ∧ x.outletTable = s.outletTable := by
  have hmoves := h.regroups.requeues h.quiet
  obtain ⟨hanswers, hmeasures, hrelays, htokens, -⟩ := State.answered_kept h.quiet hmoves.fields kind tag st a
  obtain ⟨-, -, -, -, hqueue, hsheds, -⟩ := h.regroups.fields
  have houtlets : t.outletTable = s.outletTable := by
    have hregroups := h.regroups
    unfold State.Regroups at hregroups
    rw [hregroups]
    rfl
  exact ⟨hanswers, hmeasures, hrelays, hqueue, htokens, hsheds, houtlets⟩

end

end Sys2Proof.Machine
end

