-- ==== Sys2Proof/Proofs/TableReleases.lean ====
section
/-! The moments at which what waits in a table applies: the return to IDLE (R121, R152), the completion of an outlet's
entry (R151), and a bank's window boundary (R30, R150). -/

namespace Sys2Proof.Machine

/-! ## The return to IDLE -/

/-- An operation with a kind and a cause ends with the record of them, told in GROUP_DONE (R121, R138). -/
theorem State.endOp_of_kind {s : State} {g : Group} {k : OpKind} {c : OpCause} (hk : s.groups[g].kind = some k)
    (hc : s.groups[g].cause = some c) (result : OpResult) (reason : Option OpReason) :
    s.groups[g].record g result reason s.uptime =
      { group := g, kind := k, cause := c, result := result, reason := reason, start := s.groups[g].start
        stop := s.uptime, retries := s.groups[g].retry, faulted := s.groups[g].faulted } := by
  unfold GroupOp.record
  rw [hk, hc]
  rfl

theorem State.dwellOff_eq (s : State) (g : Group) : s.dwellOff g = State.endOp
    { s with groups := upd s.groups g fun r => { r with kind := some .off, cause := some .manual, dwell := none } }
    g .done none false := by
  unfold State.dwellOff State.onGroup
  dsimp only
  rw [upd_upd]

/-! ## The completion of an outlet's entry -/

section
variable {s : State} {o : Outlet}

theorem State.releaseOutlet_of_not_waiting (h : o ∉ s.outletTable.waiting) : s.releaseOutlet o = s := if_neg h

theorem State.applyOutlet_marks (s : State) (o : Outlet) :
    (s.applyOutlet o).outletTable =
      { s.outletTable with active := upd s.outletTable.active o fun _ => s.outletTable.pending[o] }
    ∧ (s.applyOutlet o).notifier = s.notifier ∧ (s.applyOutlet o).link0 = s.link0
    ∧ (s.applyOutlet o).uptime = s.uptime := by
  unfold State.applyOutlet
  rw [State.refreshModes_changes]
  exact ⟨rfl, rfl, rfl, rfl⟩

/-- The outlet's entry applies and leaves the waiting set; with the last one the deferral is over (R151, R153). -/
theorem State.releaseOutlet_of_waiting (h : o ∈ s.outletTable.waiting) :
    let rest := s.outletTable.waiting.filter (· ≠ o)
    (s.releaseOutlet o).outletTable = { s.outletTable with
      active := upd s.outletTable.active o fun _ => s.outletTable.pending[o]
      waiting := rest
      state := if rest = [] then (if s.outletTable.written then .dirty else .clean) else s.outletTable.state
      written := if rest = [] then false else s.outletTable.written }
    ∧ ((s.releaseOutlet o).notifier, (s.releaseOutlet o).link0) = if rest = [] then notify s.uptime
          { kind := .tableApplied, source := 1, detail := .tableApplied s.outletTable.waited, records := [] }
          (s.notifier, s.link0)
        else (s.notifier, s.link0) := by
  intro rest
  obtain ⟨htable, hnotifier, hlink, huptime⟩ := s.applyOutlet_marks o
  have hrest : (s.applyOutlet o).outletTable.waiting.filter (fun x => x != o) = rest := by
    rw [htable]
    exact List.filter_congr fun x _ => by by_cases e : x = o <;> simp [e]
  unfold State.releaseOutlet
  rw [if_pos h]
  dsimp only
  rw [hrest]
  generalize s.applyOutlet o = u at htable hnotifier hlink huptime
  rw [← hnotifier, ← hlink, ← huptime]
  by_cases hlast : rest = []
  · rw [if_pos hlast, if_pos hlast, if_pos hlast, if_pos hlast]
    refine ⟨?_, ?_⟩
    · show ({ u.outletTable with waiting := rest } : Staged OutletEntry 48 48).endDeferral = _
      rw [htable]
      rfl
    · rw [show s.outletTable.waited = u.outletTable.waited by rw [htable]]
      rfl
  · rw [if_neg hlast, if_neg hlast, if_neg hlast, if_neg hlast]
    exact ⟨by rw [htable], rfl⟩

end

/-! ## A bank's window boundary -/

/-- A link unit in which the held COMMITs with tags `tags` are answered OK (R150, R162). -/
def Link0.heldAnswered (l : Link0) (tags : List Byte) : Link0 :=
  { l with
    reserved := tags.foldl (fun l x => l.erase { tag := x, kind := 0x03 }) l.reserved
    filled := l.filled ++ tags.map fun x => { tag := x, kind := 0x03, status := .ok, answer := .empty } }

theorem Link0.heldAnswered_append (l : Link0) (xs ys : List Byte) :
    (l.heldAnswered xs).heldAnswered ys = l.heldAnswered (xs ++ ys) := by
  unfold Link0.heldAnswered
  rw [List.foldl_append, List.map_append, List.append_assoc]

theorem Link0.heldAnswered_nil (l : Link0) : l.heldAnswered [] = l := by
  unfold Link0.heldAnswered
  rw [List.map_nil, List.append_nil]
  rfl

theorem State.fillHeld_eq (s : State) (tag : Option Byte) :
    s.fillHeld tag = { s with link0 := s.link0.heldAnswered tag.toList } := by
  cases tag with
  | none => rw [Option.toList_none, Link0.heldAnswered_nil]; rfl
  | some tag => rfl

section
variable {α : Type} {n : Nat} {t : Staged α n 6} {b : Bank}

theorem Staged.filter_ne_eq_nil_iff : t.waiting.filter (fun c => c != b) = [] ↔ ∀ c ∈ t.waiting, c = b := by
  rw [List.filter_eq_nil_iff]
  exact forall₂_congr fun c _ => by rw [bne_iff_ne, not_not]

theorem Staged.completedBy_of_not_waiting (h : b ∉ t.waiting) : t.completedBy b = [] := if_neg fun hb => h hb.1

theorem Staged.answers_eq_completedBy (h : b ∈ t.waiting) : (t.answers b).toList = t.completedBy b := by
  unfold Staged.answers Staged.completedBy
  by_cases hlast : ∀ c ∈ t.waiting, c = b
  · rw [if_pos (Staged.filter_ne_eq_nil_iff.2 hlast), if_pos ⟨h, hlast⟩]
  · rw [if_neg (mt Staged.filter_ne_eq_nil_iff.1 hlast), if_neg fun hb => hlast hb.2, Option.toList_none]

/-- The bank's part applies and the bank leaves the waiting set (R150). -/
theorem Staged.releaseBank_partApplied {is : List (Fin n)} {part : Fin n → Prop} (his : ∀ i, i ∈ is ↔ part i)
    (h : b ∈ t.waiting) : t.PartAppliedTo (t.releaseBank b is) b part := by
  have hactive : ∀ i : Fin n, (part i → (t.copyEntries is).active[i] = t.pending[i])
      ∧ (¬ part i → (t.copyEntries is).active[i] = t.active[i]) := fun i =>
    ⟨fun hi => t.copyEntries_active_mem ((his i).2 hi), fun hi => t.copyEntries_active is i (mt (his i).1 hi)⟩
  have hrest : t.waiting.filter (fun c => c != b) = t.waiting.filter (· ≠ b) :=
    List.filter_congr fun c _ => by by_cases e : c = b <;> simp [e]
  refine ⟨fun hb => absurd h hb, fun _ => ?_⟩
  unfold Staged.releaseBank
  dsimp only
  rw [hrest]
  by_cases hlast : t.waiting.filter (· ≠ b) = []
  · rw [if_pos hlast, hlast]
    exact ⟨rfl, hactive, fun _ => ⟨rfl, rfl⟩, fun hne => absurd rfl hne⟩
  · rw [if_neg hlast]
    exact ⟨rfl, hactive, fun hnil => absurd hnil hlast, fun _ => ⟨rfl, rfl⟩⟩

theorem Staged.partApplied_of_not_waiting {part : Fin n → Prop} (h : b ∉ t.waiting) : t.PartAppliedTo t b part :=
  ⟨fun _ => rfl, fun hb => absurd hb h⟩

end

section
variable (s : State) (b : Bank)

theorem State.releaseCal_applies : ∃ T : Staged CalEntry 54 6,
    s.releaseCal b = { s with calTable := T, link0 := s.link0.heldAnswered (s.calTable.completedBy b) }
    ∧ s.calTable.PartAppliedTo T b (fun i => bankOfCal i = b) := by
  unfold State.releaseCal
  by_cases h : b ∈ s.calTable.waiting
  · rw [if_pos h, State.fillHeld_eq, Staged.answers_eq_completedBy h]
    exact ⟨_, rfl, Staged.releaseBank_partApplied (fun i => mem_calEntriesOf i b) h⟩
  · rw [if_neg h, Staged.completedBy_of_not_waiting h, Link0.heldAnswered_nil]
    exact ⟨_, rfl, Staged.partApplied_of_not_waiting h⟩

theorem State.releaseBankEntry_applies : ∃ T : Staged BankEntry 6 6,
    s.releaseBankEntry b = { s with bankTable := T, link0 := s.link0.heldAnswered (s.bankTable.completedBy b) }
    ∧ s.bankTable.PartAppliedTo T b (fun i => i = b) := by
  unfold State.releaseBankEntry
  by_cases h : b ∈ s.bankTable.waiting
  · rw [if_pos h, State.fillHeld_eq, Staged.answers_eq_completedBy h]
    exact ⟨_, rfl, Staged.releaseBank_partApplied (fun i => List.mem_singleton) h⟩
  · rw [if_neg h, Staged.completedBy_of_not_waiting h, Link0.heldAnswered_nil]
    exact ⟨_, rfl, Staged.partApplied_of_not_waiting h⟩

/-- At a boundary the calibration table's part applies, and then the bank table's (entry 7). -/
theorem State.boundary_applies : ∃ (T : Staged CalEntry 54 6) (U : Staged BankEntry 6 6),
    s.boundary b = { s with
      calTable := T, bankTable := U
      link0 := s.link0.heldAnswered (s.calTable.completedBy b ++ s.bankTable.completedBy b) }
    ∧ s.calTable.PartAppliedTo T b (fun i => bankOfCal i = b) ∧ s.bankTable.PartAppliedTo U b (fun i => i = b) := by
  obtain ⟨T, hcal, hT⟩ := s.releaseCal_applies b
  obtain ⟨U, hbank, hU⟩ := ({ s with
    calTable := T, link0 := s.link0.heldAnswered (s.calTable.completedBy b) } : State).releaseBankEntry_applies b
  unfold State.boundary
  rw [hcal, hbank, Link0.heldAnswered_append]
  exact ⟨T, U, rfl, hT, hU⟩

/-! ## Where boundaries lie (entry 24) -/

theorem State.closeWindow_boundary (h : s.meters[b].window ≠ none) (c : Bool) : ∃ u : State,
    s.closeWindow b c = u.boundary b ∧ u.calTable = s.calTable ∧ u.bankTable = s.bankTable := by
  obtain ⟨w, hw⟩ := Option.ne_none_iff_exists'.1 h
  have hlimits : State.Limited (s.meteredBy (s.closeWindow b c)) (s.limitedAt b w c) :=
    State.limitsAt_limited _ b w (w.kind c)
  have hstages := State.closeWindow_eq_stages hw c
  generalize s.limitedAt b w c = x at hlimits hstages
  obtain ⟨hcalX, hbankX⟩ : x.calTable = s.calTable ∧ x.bankTable = s.bankTable := by
    unfold State.Limited State.meteredBy at hlimits
    rw [hlimits]
    exact ⟨rfl, rfl⟩
  obtain ⟨-, -, -, -, -, -, -, -, -, -, -, -, -, -, -, -, -, hbank, -, hcal, -⟩ :=
    State.quiet_fields (x.relaysAtClose_quiet b w (w.kind c) c)
  generalize x.relaysAtClose b w (w.kind c) c = y at hstages hbank hcal
  have hcapture := y.captureAtClose_changes b (w.kind c)
  generalize y.captureAtClose b (w.kind c) = z at hstages hcapture
  refine ⟨z, hstages, ?_, ?_⟩
  · rw [hcapture]
    exact hcal.trans hcalX
  · rw [hcapture]
    exact hbank.trans hbankX

theorem State.enterLost_boundary : ∃ u : State,
    s.enterLost b = u.boundary b ∧ u.calTable = s.calTable ∧ u.bankTable = s.bankTable := by
  obtain ⟨-, -, -, -, hcal, hbank, -⟩ := s.unknownLost_fields b
  obtain ⟨hcal', hbank'⟩ := (s.unknownLost b).captureLost_tables b
  exact ⟨_, s.enterLost_eq b, hcal'.trans hcal, hbank'.trans hbank⟩

end


end Sys2Proof.Machine
end

-- ==== Sys2Proof/Proofs/GroupTables.lean ====

section

/-! # COMMIT of a group table, and the moments at which table entries that wait apply (O39) -/

namespace Sys2Proof.Machine
/-! ## The obligation -/

/-- COMMIT of a group table that is CLEAN or DIRTY and has no offender: what applied, and the answer. -/
theorem execCommit_groups_of_none {s : State} {tag : Byte} (hready : s.ready 0x03 tag [5])
    (hstate : s.groupTable.state = .clean ∨ s.groupTable.state = .dirty)
    (h : ∀ g : Group, ¬ OffendsCommit s.groupTable.pending g) :
    (s.taken.uncommitted = [] →
      exec (.commit tag [5]) s = .next (s.taken.committedGroups.answered 0x03 tag .ok .empty))
    ∧ (s.taken.uncommitted ≠ [] → exec (.commit tag [5]) s =
      .next (s.taken.committedGroups.answered 0x03 tag .deferred (.waiting s.taken.uncommitted.length))) := by
  have heq := s.taken.commitGroups_eq (firstOffender_of_none h)
  refine ⟨fun hnone => execCommit_groups hready hstate (heq.trans ?_),
    fun hsome => execCommit_groups hready hstate (heq.trans ?_)⟩
  · rw [if_pos hnone]
  · rw [if_neg hsome]

/-- Settles O39: COMMIT by offender, and by what can apply; then the moments at which what waits applies. -/
theorem groupCommitIsValidated : Obligations.GroupCommitIsValidated := by
  refine ⟨fun tag s hready hstate => ?_, fun s => ?_, fun g result reason verified s => ?_,
    fun tag n g s hn hcancel => ⟨fun hready => ⟨fun hop => ?_, fun hop => ?_⟩, fun hready hsafe hon hup hop => ?_⟩,
    fun b s => ⟨State.closeWindow_of_none, s.closeWindow_boundary b, fun hup hdue => ?_⟩, fun o s => ?_, fun b s => ?_⟩
  · intro v offends changed
    have happlied := s.taken.committedGroups_entriesApplied
    refine ⟨fun g hg hfirst => ?_, fun hnone hidle => ?_, fun hnone => ?_⟩
    · refine execCommit_groups hready hstate ?_
      unfold State.commitGroups
      rw [show firstOffender s.taken.groupTable.pending = some g from firstOffender_of_first hg hfirst]
      rfl
    · have hall : s.taken.uncommitted = [] := (State.uncommitted_eq_nil_iff (s := s.taken)).2 fun g hg =>
        State.applicable_of_idle (s := s.taken) hidle ((s.taken.groupTable.mem_changedEntries g).2 hg)
      obtain ⟨hanswers, hmeasures, hrelays, hqueue, htokens, hsheds, houtlets⟩ := happlied.answered 0x03 tag .ok .empty
      exact ⟨_, (execCommit_groups_of_none hready hstate hnone).1 hall, hanswers, State.committedGroups_active hall,
        happlied.pending, State.committedGroups_of_none hall, hmeasures, hrelays, hqueue, htokens, hsheds, houtlets,
        fun g => (happlied.op g).trans (hidle g)⟩
    · obtain ⟨hdone, hdeferred⟩ := execCommit_groups_of_none hready hstate hnone
      have hlargest := s.taken.committable_largest
      by_cases hall : s.taken.uncommitted = []
      · obtain ⟨hanswers, hmeasures, hrelays, hqueue, htokens, hsheds, houtlets⟩ :=
          happlied.answered 0x03 tag .ok .empty
        exact ⟨_, s.taken.committable, hdone hall, hlargest, happlied.active, happlied.pending,
          fun _ => ⟨hanswers, State.committedGroups_of_none hall⟩,
          fun ⟨g, hg, hout⟩ => absurd (State.uncommitted_eq_nil_iff (s := s.taken).1 hall g hg) hout,
          hmeasures, hrelays, hqueue, htokens, hsheds, houtlets, happlied.others, happlied.applied⟩
      · obtain ⟨hmark, hwaiting, hwaited, hwritten⟩ := State.committedGroups_of_some hall
        obtain ⟨hanswers, hmeasures, hrelays, hqueue, htokens, hsheds, houtlets⟩ := happlied.answered 0x03 tag .deferred
          (.waiting s.taken.committedGroups.groupTable.waiting.length)
        have hexec := hdeferred hall
        rw [← hwaiting] at hexec hwaited
        exact ⟨_, s.taken.committable, hexec, hlargest, happlied.active, happlied.pending,
          fun hin => absurd (State.uncommitted_eq_nil_iff (s := s.taken).2 hin) hall,
          fun _ => ⟨hanswers, hmark, fun g => (iff_of_eq (congrArg (g ∈ ·) hwaiting)).trans State.mem_uncommitted,
            hwaited, hwritten⟩,
          hmeasures, hrelays, hqueue, htokens, hsheds, houtlets, happlied.others, happlied.applied⟩
  · have happlied := s.releaseGroups_entriesApplied
    obtain ⟨-, -, -, hrelays, hqueue, hsheds, -, htokens, -⟩ := happlied.regroups.fields
    have hlast := s.releaseGroups_of_last
    have hrest := s.releaseGroups_of_rest
    rw [← State.releaseGroups_waiting] at hlast hrest
    refine ⟨s.releasable, s.largestApplicable _, fun hnone => ?_, happlied.active, happlied.pending,
      s.releaseGroups_waiting, hrest, hlast, State.sameMeasures_of_quiet happlied.quiet, hrelays, hqueue, htokens,
      hsheds, happlied.others, happlied.applied⟩
    rw [State.releaseGroups_eq, if_pos hnone]
  · obtain ⟨x, hend, hx⟩ := s.endOp_eq g result reason verified
    have hgroups : x.groups = upd s.groups g fun r => r.toIdle (s.groups[g].record g result reason s.uptime) := by
      rw [hx]
    refine ⟨x, hend, by rw [hx]; rfl, ?_, fun h hne => ?_, fun k c hk hc => ?_⟩
    · rw [hgroups, upd_get_self]
      rfl
    · rw [hgroups, upd_get_ne _ (Ne.symm hne)]
    · rw [State.endOp_of_kind hk hc] at hx
      exact hx
  · refine execCancel_of_group hn hready (v := s.taken.endOp g .cancelled (some .command) false) ?_
    have hbusy : s.taken.groups[g].op ≠ .idle := by obtain hop | hop := hop <;> exact hop ▸ nofun
    rw [State.cancelGroup_of_unmarked hbusy hcancel]
    unfold State.cancelled
    obtain hop | hop := hop
    · rw [show s.taken.groups[g].op = .dwell from hop]
      rfl
    · rw [show s.taken.groups[g].op = .verifying from hop]
      rfl
  · refine execCancel_of_group hn hready
      (v := (s.taken.withdrawAwaited g).endOp g .cancelled (some .command) false) ?_
    have hbusy : s.taken.groups[g].op ≠ .idle := hop ▸ nofun
    rw [State.cancelGroup_of_unmarked hbusy hcancel]
    unfold State.cancelled
    rw [show s.taken.groups[g].op = .oning from hop]
    rfl
  · have href := State.groupRefusal_eq_none (s := s.taken) hsafe hon hup
    refine execGroupOff_of_group hn hready ?_
    rw [State.offGroup_of_dwell href hcancel hop, State.dwellOff_eq]
    rfl
  · obtain ⟨u, hu, htables⟩ := s.enterLost_boundary b
    exact ⟨u, (if_pos ⟨hup, hdue⟩ : execSilenceTimerExpiry b s = _).trans (congrArg _ hu), htables⟩
  · refine ⟨State.releaseOutlet_of_not_waiting, fun h => ?_⟩
    obtain ⟨htable, hreports⟩ := State.releaseOutlet_of_waiting h
    exact ⟨s.releaseOutlet_releases o, htable, hreports⟩
  · obtain ⟨T, U, hboundary, hcal, hbank⟩ := s.boundary_applies b
    rw [hboundary]
    exact ⟨hcal, hbank, rfl⟩

end Sys2Proof.Machine

end

