-- ==== Sys2Proof/Proofs/GroupStarts.lean ====
section
/-! CYCLE and GROUP_OFF of a group in IDLE (R107, R108): the operation starts, and OFFING looks at every member. -/

namespace Sys2Proof.Machine

/-! ## The start of an operation -/

theorem State.startOp_group (s : State) (g : Group) (op : OpState) (k : OpKind) (c : OpCause) :
    (s.startOp g op k c).groups[g] = s.groups[g].started op k c (s.members g).length s.uptime := by
  rw [State.startOp_changes]
  exact upd_get_self _ _ _

theorem State.startOp_others (s : State) {g h : Group} (hne : h ≠ g) (op : OpState) (k : OpKind) (c : OpCause) :
    (s.startOp g op k c).groups[h] = s.groups[h] ∧ (s.startOp g op k c).monitors[h] = s.monitors[h] := by
  rw [State.startOp_changes]
  exact ⟨upd_get_ne _ hne.symm _, upd_get_ne _ hne.symm _⟩

theorem State.startOp_monitor (s : State) (g : Group) (op : OpState) (k : OpKind) (c : OpCause) :
    (s.startOp g op k c).monitors[g].state = if s.monitors[g].state = .offline then .offline else .cycling := by
  rw [State.startOp_changes]
  dsimp only
  rw [upd_get_self]
  unfold Monitor.opStart
  split
  · assumption
  · rfl

theorem State.startOp_members (s : State) (g : Group) (op : OpState) (k : OpKind) (c : OpCause) :
    (s.startOp g op k c).members = s.members := by
  rw [State.startOp_changes]
  rfl

theorem State.startOp_queue (s : State) (g : Group) (op : OpState) (k : OpKind) (c : OpCause) :
    (s.startOp g op k c).queue = s.queue := by
  rw [State.startOp_changes]

/-! ## What OFFING's look at the members leaves -/

/-- From `s` to `t` OPENs of group `g` are asked for: monitors and other groups stay, the group's progress keeps its
length, and entries that are new are OPENs of the group. -/
structure State.AsksOpens (g : Group) (s t : State) : Prop where
  monitors : t.monitors = s.monitors
  uptime : t.uptime = s.uptime
  others : ∀ h : Group, h ≠ g → t.groups[h] = s.groups[h]
  length : t.groups[g].progress.length = s.groups[g].progress.length
  added : ∀ e ∈ t.queue, e ∈ s.queue ∨ e.action = .opens ∧ e.origin = .group g ∧ e.enqueued = s.uptime

theorem State.AsksOpens.refl (g : Group) (s : State) : State.AsksOpens g s s :=
  ⟨rfl, rfl, fun _ _ => rfl, rfl, fun _ => .inl⟩

theorem State.AsksOpens.trans {g : Group} {s t u : State} (h : State.AsksOpens g s t) (h' : State.AsksOpens g t u) :
    State.AsksOpens g s u :=
  ⟨h'.monitors.trans h.monitors, h'.uptime.trans h.uptime, fun k hk => (h'.others k hk).trans (h.others k hk),
    h'.length.trans h.length, fun e he => (h'.added e he).elim (h.added e) fun hnew => .inr (h.uptime ▸ hnew)⟩

theorem State.requestOpen_asksOpens (s : State) (g : Group) (o : Outlet) : State.AsksOpens g s (s.requestOpen g o) := by
  have hmonitors : (s.request o .opens (.group g)).2.monitors = s.monitors := by rw [State.request_changes]
  have hgroups := s.request_groups o .opens (.group g)
  refine ⟨hmonitors, (s.requestOpen_requeues g o).uptime, fun h hne => ?_, ?_, fun e he => ?_⟩
  · unfold State.requestOpen State.await State.mark
    rw [State.onGroup_get_ne _ hne, State.onGroup_get_ne _ hne, hgroups]
  · rw [State.requestOpen_group]
    exact List.length_set
  · obtain ⟨hq, -⟩ | hq := s.request_queue o .opens (.group g)
    · exact .inl (hq ▸ he)
    · have he' : e ∈ (s.request o .opens (.group g)).2.queue := he
      rw [hq] at he'
      obtain he' | he' := List.mem_append.1 he'
      · exact .inl (List.mem_filter.1 he').1
      · rw [List.mem_singleton.1 he']
        exact .inr ⟨rfl, rfl, rfl⟩

theorem State.offMember_asksOpens (s : State) (g : Group) (o : Outlet) : State.AsksOpens g s (s.offMember g o) := by
  unfold State.offMember
  split
  · refine ⟨rfl, rfl, fun h hne => s.onGroup_get_ne hne _, ?_, fun _ => .inl⟩
    rw [State.mark_group]
    exact List.length_set
  · exact s.requestOpen_asksOpens g o

theorem State.offMembers_asksOpens (g : Group) (l : List Outlet) (s : State) :
    State.AsksOpens g s (l.foldl (State.offMember g) s) :=
  List.foldlRecOn (motive := State.AsksOpens g s) l (State.offMember g) (.refl g s) fun t ht o _ =>
    ht.trans (t.offMember_asksOpens g o)

/-- Members that are OFF are marked, and nothing is asked. -/
theorem State.offMembers_queue_of_off (g : Group) (l : List Outlet) (s : State)
    (h : ∀ o ∈ l, s.relays[o].state = .off) : (l.foldl (State.offMember g) s).queue = s.queue := by
  induction l generalizing s with
  | nil => rfl
  | cons o l ih =>
    have hmark : s.offMember g o = s.mark g o .opened := if_pos (h o List.mem_cons_self)
    rw [List.foldl_cons, hmark]
    exact ih (s.mark g o .opened) fun x hx => h x (List.mem_cons_of_mem _ hx)

/-! ## OFFING is entered -/

/-- State `t` is `s` once group `g` has entered OFFING and looked at every member, before OFFING may be over (R108). -/
structure State.OffingAsked (g : Group) (s t : State) : Prop where
  looks : State.LooksOff g (s.members g) (s.offingBegun g) t
  asks : State.AsksOpens g (s.offingBegun g) t
  queue : (∀ o ∈ s.members g, s.relays[o].state = .off) → t.queue = s.queue

theorem State.enterOffing_asked (s : State) (g : Group) :
    ∃ t : State, State.OffingAsked g s t ∧ s.enterOffing g = t.offingOver g :=
  ⟨_, ⟨State.looksOff_members g (s.members g) (s.offingBegun g), State.offMembers_asksOpens g _ _,
    State.offMembers_queue_of_off g _ (s.offingBegun g)⟩, s.enterOffing_eq g⟩

section
variable {s t : State} {g : Group} (h : State.OffingAsked g s t)
include h

theorem State.OffingAsked.group : t.groups[g] = { s.groups[g] with
    op := .offing, busyWait := false, awaited := t.groups[g].awaited, progress := t.groups[g].progress } := by
  have hgroup := h.looks.group
  rw [State.offingBegun_group] at hgroup
  exact hgroup

theorem State.OffingAsked.relays : t.relays = s.relays := h.looks.requeues.relays

theorem State.OffingAsked.uptime : t.uptime = s.uptime := h.looks.requeues.uptime

theorem State.OffingAsked.members : t.members g = s.members g := h.looks.members

theorem State.OffingAsked.others {k : Group} (hk : k ≠ g) :
    t.groups[k] = s.groups[k] ∧ t.monitors = s.monitors :=
  ⟨(h.asks.others k hk).trans (s.onGroup_get_ne hk _), h.asks.monitors⟩

theorem State.OffingAsked.awaited (o : Outlet) :
    o ∈ t.groups[g].awaited ↔ o ∈ s.groups[g].awaited ∨ o ∈ s.members g ∧ s.relays[o].state ≠ .off := by
  have hawaited := h.looks.awaited o
  rw [State.offingBegun_group] at hawaited
  exact hawaited

theorem State.OffingAsked.entries {o : Outlet} (ho : o ∈ s.members g) (hon : s.relays[o].state ≠ .off) :
    ∃ e ∈ t.queue, e.outlet = o := (h.looks.entries o).2 (.inr ⟨ho, hon⟩)

/-- A member without an entry has now the group's OPEN. -/
theorem State.OffingAsked.opens {o : Outlet} (ho : o ∈ s.members g) (hon : s.relays[o].state ≠ .off)
    (hnone : ∀ e ∈ s.queue, e.outlet ≠ o) :
    ∃ e ∈ t.queue, e.outlet = o ∧ e.action = .opens ∧ e.origin = .group g ∧ e.enqueued = s.uptime := by
  obtain ⟨e, he, heo⟩ := h.entries ho hon
  exact ⟨e, he, heo, (h.asks.added e he).resolve_left fun hold => hnone e hold heo⟩

theorem State.OffingAsked.length : t.groups[g].progress.length = s.groups[g].progress.length := by
  have hlength := h.asks.length
  rw [State.offingBegun_group] at hlength
  exact hlength

/-- With a progress for every member, each reads OPENED or AWAITING. -/
theorem State.OffingAsked.progress (hlength : s.groups[g].progress.length = (s.members g).length) {o : Outlet}
    (ho : o ∈ s.members g) : t.groups[g].progress[(s.members g).idxOf o]? =
      some (if s.relays[o].state = .off then .opened else .awaiting) := by
  have hin : (s.members g).idxOf o < s.groups[g].progress.length := hlength ▸ List.idxOf_lt_length_of_mem ho
  have hprogress := h.looks.progress o ho
  rw [State.offingBegun_group, if_pos ho] at hprogress
  exact hprogress.trans (congrArg (Option.map _) (List.getElem?_eq_getElem hin))

/-- While a member is not OFF, an entry is awaited, and OFFING goes on. -/
theorem State.OffingAsked.goesOn (hon : ∃ o ∈ s.members g, s.relays[o].state ≠ .off) : t.offingOver g = t := by
  obtain ⟨o, ho⟩ := hon
  exact if_pos (List.ne_nil_of_mem ((h.awaited o).2 (.inr ho)))

theorem State.OffingAsked.awaited_eq_nil (hnone : s.groups[g].awaited = [])
    (hoff : ∀ o ∈ s.members g, s.relays[o].state = .off) : t.groups[g].awaited = [] := by
  refine List.eq_nil_iff_forall_not_mem.2 fun o ho => ((h.awaited o).1 ho).elim (fun hold => ?_) fun hnew =>
    hnew.2 (hoff o hnew.1)
  rw [hnone] at hold
  exact List.not_mem_nil hold

theorem State.OffingAsked.anyWelded (hoff : ∀ o ∈ s.members g, s.relays[o].state = .off) :
    t.anyWelded g = false := by
  unfold State.anyWelded
  rw [h.relays, h.members, List.any_eq_false]
  intro o ho
  rw [hoff o ho]
  exact Bool.false_ne_true

end

/-- A cycle that no welded member hinders enters DWELL once nothing is awaited (R109). -/
theorem State.offingOver_of_cycle {s : State} {g : Group} (ha : s.groups[g].awaited = [])
    (hc : s.groups[g].cancel = false) (hk : s.groups[g].kind ≠ some .off) (hw : s.anyWelded g = false) :
    s.offingOver g = s.onGroup g fun r => { r with op := .dwell, dwell := some s.uptime } := by
  unfold State.offingOver
  dsimp only
  rw [ha, hc, hw, if_neg (not_not.2 rfl), if_neg Bool.false_ne_true, if_neg hk, if_neg Bool.false_ne_true]

/-! ## CYCLE and GROUP_OFF from IDLE -/

/-- A switching off of kind `k` by command, from IDLE. -/
def State.switchedOff (s : State) (g : Group) (k : OpKind) : State := (s.startOp g .offing k .manual).enterOffing g

theorem State.switchedOff_requeues (s : State) (g : Group) (k : OpKind) : s.Requeues (s.switchedOff g k) :=
  (s.startOp_requeues g _ k _).trans (State.enterOffing_requeues _ g)

section
variable {s : State} {g : Group}

theorem State.cycleGroup_of_idle (href : s.groupRefusal g = none) (hop : s.groups[g].op = .idle)
    (h : ∃ o ∈ s.members g, o ∉ s.sheds[bankOf o].stack) : s.cycleGroup g = (s.switchedOff g .cycle).reply .ok := by
  have hshed : s.allShed g = false := Bool.eq_false_iff.2 fun hall => by
    obtain ⟨o, ho, hstack⟩ := h
    exact hstack ((s.isShed_iff o).1 (List.all_eq_true.1 hall o ho))
  unfold State.cycleGroup
  rw [href]
  dsimp only
  rw [hop, hshed]
  rfl

theorem State.offGroup_of_idle (href : s.groupRefusal g = none) (hop : s.groups[g].op = .idle) :
    s.offGroup g = (s.switchedOff g .off).reply .ok := by
  unfold State.offGroup
  rw [href]
  dsimp only
  rw [hop, if_neg fun h => h.1 rfl]
  rfl

/-- OFFING after a start by command, before it may be over. -/
theorem State.switchedOff_asked (s : State) (g : Group) (k : OpKind) :
    ∃ t : State, State.OffingAsked g (s.startOp g .offing k .manual) t ∧ s.switchedOff g k = t.offingOver g :=
  State.enterOffing_asked _ g

/-- A switching off with a member to switch awaits it, and every other such member (R107, R108). -/
theorem State.switchedOff_of_on (k : OpKind) (hon : ∃ o ∈ s.members g, s.relays[o].state ≠ .off) :
    let t := s.switchedOff g k
    t.groups[g].op = .offing ∧ t.groups[g].kind = some k ∧ t.groups[g].cause = some .manual
    ∧ t.groups[g].passCause = some .manual ∧ t.groups[g].retry = 0 ∧ t.groups[g].start = s.uptime
    ∧ t.groups[g].cancel = false ∧ t.groups[g].repower = false ∧ t.groups[g].faulted = []
    ∧ (∀ o : Outlet, o ∈ t.groups[g].awaited ↔ o ∈ s.members g ∧ s.relays[o].state ≠ .off)
    ∧ (∀ o ∈ s.members g, s.relays[o].state ≠ .off → ∃ e ∈ t.queue, e.outlet = o)
    ∧ (∀ o ∈ s.members g, s.relays[o].state ≠ .off → (∀ e ∈ s.queue, e.outlet ≠ o) →
        ∃ e ∈ t.queue, e.outlet = o ∧ e.action = .opens ∧ e.origin = .group g ∧ e.enqueued = s.uptime)
    ∧ t.groups[g].progress.length = (s.members g).length
    ∧ (∀ o ∈ s.members g, t.groups[g].progress[(s.members g).idxOf o]? =
        some (if s.relays[o].state = .off then .opened else .awaiting))
    ∧ (t.monitors[g].state = if s.monitors[g].state = .offline then .offline else .cycling)
    ∧ ∀ h : Group, h ≠ g → t.groups[h] = s.groups[h] ∧ t.monitors[h] = s.monitors[h] := by
  obtain ⟨t, hasked, heq⟩ := s.switchedOff_asked g k
  have hgroup := s.startOp_group g .offing k .manual
  have hmembers := congrFun (s.startOp_members g .offing k .manual) g
  have hmoves := s.startOp_requeues g .offing k .manual
  have hqueue := s.startOp_queue g .offing k .manual
  have hmonitor := s.startOp_monitor g .offing k .manual
  have hothers := fun h hne => s.startOp_others (g := g) (h := h) hne .offing k .manual
  generalize s.startOp g .offing k .manual = u at *
  have huptime := hmoves.uptime
  have hrelays := hmoves.relays
  have hlength : u.groups[g].progress.length = (u.members g).length := by
    rw [hgroup, hmembers]
    exact List.length_replicate
  rw [heq, hasked.goesOn (by rw [hmembers, hrelays]; exact hon)]
  have hfields := hasked.group
  rw [hgroup] at hfields
  dsimp only
  refine ⟨by rw [hfields], by rw [hfields]; rfl, by rw [hfields]; rfl, by rw [hfields]; rfl, by rw [hfields]; rfl,
    by rw [hfields]; rfl, by rw [hfields]; rfl, by rw [hfields]; rfl, by rw [hfields]; rfl, fun o => ?_,
    fun o ho hon => ?_, fun o ho hon hnone => ?_, ?_, fun o ho => ?_, ?_, fun h hne => ?_⟩
  · rw [hasked.awaited, hgroup, hmembers, hrelays]
    exact or_iff_right List.not_mem_nil
  · exact hasked.entries (hmembers ▸ ho) (hrelays ▸ hon)
  · rw [← huptime]
    exact hasked.opens (hmembers ▸ ho) (hrelays ▸ hon) (hqueue ▸ hnone)
  · rw [hasked.length, hlength, hmembers]
  · have hprogress := hasked.progress hlength (hmembers ▸ ho)
    rw [hmembers, hrelays] at hprogress
    exact hprogress
  · rw [hasked.asks.monitors]
    exact hmonitor
  · obtain ⟨hother, hmon⟩ := hasked.others hne
    rw [hother, hmon]
    exact hothers h hne

/-- With every member OFF a cycle enters DWELL. -/
theorem State.cycled_of_off (hoff : ∀ o ∈ s.members g, s.relays[o].state = .off) :
    let t := s.switchedOff g .cycle
    t.queue = s.queue ∧ t.groups[g].op = .dwell ∧ t.groups[g].dwell = some s.uptime
    ∧ ∀ o ∈ s.members g, t.groups[g].progress[(s.members g).idxOf o]? = some .opened := by
  obtain ⟨t, hasked, heq⟩ := s.switchedOff_asked g .cycle
  have hgroup := s.startOp_group g .offing .cycle .manual
  have hmembers := congrFun (s.startOp_members g .offing .cycle .manual) g
  have hmoves := s.startOp_requeues g .offing .cycle .manual
  have hqueue := s.startOp_queue g .offing .cycle .manual
  generalize s.startOp g .offing .cycle .manual = u at *
  have huptime := hmoves.uptime
  have hrelays := hmoves.relays
  have hoffs : ∀ o ∈ u.members g, u.relays[o].state = .off := by
    rw [hmembers, hrelays]
    exact hoff
  have hlength : u.groups[g].progress.length = (u.members g).length := by
    rw [hgroup, hmembers]
    exact List.length_replicate
  have hfields := hasked.group
  rw [hgroup] at hfields
  have hover := State.offingOver_of_cycle (hasked.awaited_eq_nil (by rw [hgroup]; rfl) hoffs) (by rw [hfields]; rfl)
    (by rw [hfields]; exact nofun) (hasked.anyWelded hoffs)
  dsimp only
  rw [heq, hover, State.onGroup_get_self]
  refine ⟨(hasked.queue hoffs).trans hqueue, rfl, congrArg some (hasked.uptime.trans huptime), fun o ho => ?_⟩
  have hprogress := hasked.progress hlength (hmembers ▸ ho)
  rw [hoffs o (hmembers ▸ ho), hmembers] at hprogress
  exact hprogress

/-- With every member OFF a switching off ends DONE. -/
theorem State.turnedOffGroup_of_off (hoff : ∀ o ∈ s.members g, s.relays[o].state = .off) :
    let t := s.switchedOff g .off
    t.queue = s.queue ∧ t.groups[g].op = .idle ∧ ∃ r : OpRecord, t.groups[g].lastRecord = some r ∧ r.result = .done
      ∧ r.kind = .off ∧ r.cause = .manual ∧ r.start = s.uptime ∧ r.stop = s.uptime := by
  obtain ⟨t, hasked, heq⟩ := s.switchedOff_asked g .off
  have hgroup := s.startOp_group g .offing .off .manual
  have hmembers := congrFun (s.startOp_members g .offing .off .manual) g
  have hmoves := s.startOp_requeues g .offing .off .manual
  have hqueue := s.startOp_queue g .offing .off .manual
  generalize s.startOp g .offing .off .manual = u at *
  have hoffs : ∀ o ∈ u.members g, u.relays[o].state = .off := by
    rw [hmembers, hmoves.relays]
    exact hoff
  have hfields := hasked.group
  rw [hgroup] at hfields
  have hnone : t.groups[g].awaited = [] := hasked.awaited_eq_nil (by rw [hgroup]; rfl) hoffs
  have hover := State.offingOver_of_off (s := t) (g := g) (by rw [hfields]; rfl) (by rw [hfields]; rfl) fun _ =>
    hasked.anyWelded hoffs
  rw [if_neg (not_not.2 hnone)] at hover
  dsimp only
  rw [heq, hover]
  obtain ⟨hidle, rec, hrecord, hkind, hcause, hresult, -, hstart, hstop, -⟩ := State.endOp_doneOff (s := u) (u := t)
    (g := g) hasked.uptime (by rw [hfields]; rfl) (by rw [hfields]; rfl) (by rw [hfields, hgroup])
    (by rw [hfields, hgroup])
  refine ⟨(t.endOp_queue g _ _ _).trans ((hasked.queue hoffs).trans hqueue), hidle, rec, hrecord, hresult, hkind,
    hcause, ?_, hstop.trans hmoves.uptime⟩
  rw [hstart, hgroup]
  rfl

/-- With every member OFF a cycle enters DWELL, and a switching off ends. -/
theorem State.switchedOff_of_off {k : OpKind} (hk : k = .cycle ∨ k = .off)
    (hoff : ∀ o ∈ s.members g, s.relays[o].state = .off) :
    let t := s.switchedOff g k
    t.queue = s.queue
    ∧ (k = .cycle → t.groups[g].op = .dwell ∧ t.groups[g].dwell = some s.uptime
        ∧ ∀ o ∈ s.members g, t.groups[g].progress[(s.members g).idxOf o]? = some .opened)
    ∧ (k = .off → t.groups[g].op = .idle ∧ ∃ r : OpRecord, t.groups[g].lastRecord = some r ∧ r.result = .done
        ∧ r.kind = .off ∧ r.cause = .manual ∧ r.start = s.uptime ∧ r.stop = s.uptime) := by
  obtain rfl | rfl := hk
  · obtain ⟨hqueue, hdwell⟩ := State.cycled_of_off hoff
    exact ⟨hqueue, fun _ => hdwell, nofun⟩
  · obtain ⟨hqueue, hdone⟩ := State.turnedOffGroup_of_off hoff
    exact ⟨hqueue, nofun, fun _ => hdone⟩

end

/-- Settles O30: CYCLE and GROUP_OFF from IDLE, by whether a member is not OFF. -/
theorem idleGroupIsSwitchedOff : Obligations.IdleGroupIsSwitchedOff := by
  intro tag n g kind c k s hc hready hn hsafe henabled hup hop hshed
  have href : s.taken.groupRefusal g = none := State.groupRefusal_eq_none hsafe henabled hup
  have hk : k = .cycle ∨ k = .off := hc.imp (fun h => h.2.2) fun h => h.2.2
  have hexec : exec c s = .next ((s.taken.switchedOff g k).answered kind tag .ok .empty) := by
    obtain ⟨rfl, rfl, rfl⟩ | ⟨rfl, rfl, rfl⟩ := hc
    · exact exec_groupCommand (.inl ⟨rfl, rfl⟩) hready hn (State.cycleGroup_of_idle href hop (hshed rfl))
    · exact exec_groupCommand (.inr (.inl ⟨rfl, rfl⟩)) hready hn (State.offGroup_of_idle href hop)
  have hmoves := s.taken.switchedOff_requeues g k
  have hon := State.switchedOff_of_on (s := s.taken) (g := g) k
  have hoff := State.switchedOff_of_off (s := s.taken) (g := g) hk
  generalize s.taken.switchedOff g k = v at hexec hmoves hon hoff
  obtain ⟨hanswers, hmeasures, hrelays, htokens, hturnOn, -, hsafe'⟩ :=
    State.answered_kept hmoves.quiet hmoves.fields kind tag .ok .empty
  exact ⟨_, hexec, hanswers, hmeasures, hrelays, htokens, hturnOn, hsafe', hon, hoff⟩

end Sys2Proof.Machine
end

