-- ==== Sys2Proof/Proofs/GroupOperation.lean ====
section
/-! The state with another operation of one group: what the group engine's small steps do to that operation, and the end
of an operation as its record shows it (R121). -/

namespace Sys2Proof.Machine

/-! ## Another operation of a group -/

/-- `s` with `x` as group `g`'s operation. -/
def State.withOp (s : State) (g : Group) (x : GroupOp) : State := { s with groups := upd s.groups g fun _ => x }

/-- Changing an element is putting the changed one in its place. -/
theorem upd_eq_const {α : Type} {n : Nat} (v : Vector α n) (i : Fin n) (f : α → α) :
    upd v i f = upd v i fun _ => f v[i] := rfl

section
variable {s : State} {g : Group} {x : GroupOp}

@[simp] theorem State.withOp_group : (s.withOp g x).groups[g] = x := upd_get_self _ _ _

theorem State.withOp_others {h : Group} (hne : h ≠ g) : (s.withOp g x).groups[h] = s.groups[h] :=
  upd_get_ne _ hne.symm _

theorem State.withOp_requeues (s : State) (g : Group) (x : GroupOp) : s.Requeues (s.withOp g x) :=
  s.onGroup_requeues g fun _ => x

/-- A change of one operation, read off the operation. -/
theorem State.withGroups_eq_withOp (s : State) (g : Group) (f : GroupOp → GroupOp) :
    { s with groups := upd s.groups g f } = s.withOp g (f s.groups[g]) := by
  rw [upd_eq_const]
  rfl

theorem State.onGroup_eq_withOp (s : State) (g : Group) (f : GroupOp → GroupOp) :
    s.onGroup g f = s.withOp g (f s.groups[g]) := s.withGroups_eq_withOp g f

@[simp] theorem State.withOp_onGroup (f : GroupOp → GroupOp) : (s.withOp g x).onGroup g f = s.withOp g (f x) := by
  unfold State.withOp State.onGroup
  rw [upd_upd]

@[simp] theorem State.withOp_withOp (y : GroupOp) : (s.withOp g x).withOp g y = s.withOp g y :=
  State.withOp_onGroup fun _ => y

@[simp] theorem State.withOp_mark (o : Outlet) (p : Progress) : (s.withOp g x).mark g o p =
    s.withOp g { x with progress := x.progress.set ((s.members g).idxOf o) p } := State.withOp_onGroup _

@[simp] theorem State.withOp_addFaulted (o : Outlet) : (s.withOp g x).addFaulted g o =
    s.withOp g { x with
      faulted := (s.members g).filter fun m => m = o ∨ m ∈ x.faulted
      progress := x.progress.set ((s.members g).idxOf o) .faulted } := by
  have hfilter : (s.members g).filter (fun m => m == o || decide (m ∈ x.faulted)) =
      (s.members g).filter fun m => m = o ∨ m ∈ x.faulted :=
    List.filter_congr fun m _ => by rw [Bool.decide_or]; rfl
  rw [← hfilter]
  exact (congrArg (State.mark · g o .faulted) (State.withOp_onGroup _)).trans (State.withOp_mark o .faulted)

end

/-! ## The end of an operation, as its record shows it -/

/-- Group `g` is IDLE, and its last record tells of an end now of the operation that `s` holds. -/
def State.EndedAs (s t : State) (g : Group) (result : OpResult) (reason : Option OpReason) : Prop :=
  t.groups[g].op = .idle ∧ ∃ rec : OpRecord, t.groups[g].lastRecord = some rec ∧ rec.result = result
    ∧ rec.reason = reason ∧ rec.start = s.groups[g].start ∧ rec.stop = s.uptime ∧ rec.retries = s.groups[g].retry

section
variable {s : State} {g : Group} {x : GroupOp}

/-- An operation ends as begun and retried, whatever else of it has changed. -/
theorem State.withOp_endOp_endedAs (hstart : x.start = s.groups[g].start) (hretry : x.retry = s.groups[g].retry)
    {result : OpResult} {reason : Option OpReason} {verified : Bool} :
    s.EndedAs ((s.withOp g x).endOp g result reason verified) g result reason := by
  obtain ⟨hop, -, hrecord⟩ := (s.withOp g x).endOp_ended g result reason verified
  rw [State.withOp_group] at hrecord
  exact ⟨hop, _, hrecord, rfl, rfl, hstart, rfl, hretry⟩

/-- A withdrawal makes the awaited set less, and leaves the rest of the operation. -/
theorem State.withdrawAwaited_get (s : State) (g : Group) : (s.withdrawAwaited g).groups[g] =
    { s.groups[g] with awaited := (s.withdrawAwaited g).groups[g].awaited } := by
  unfold State.withdrawAwaited
  dsimp only
  rw [State.onGroup_get_self, (s.withdraw_groups _).1]

theorem State.failOp_endedAs (s : State) (g : Group) (reason : OpReason) :
    s.EndedAs (s.failOp g reason) g .failed (some reason) := by
  obtain ⟨hop, -, hrecord⟩ := (s.withdrawAwaited g).endOp_ended g .failed (some reason) false
  have hget := s.withdrawAwaited_get g
  refine ⟨hop, _, hrecord, rfl, rfl, ?_, (s.withdrawAwaited_groups g).2.2, ?_⟩
  all_goals unfold GroupOp.record; rw [hget]

/-- An operation fails as begun and retried, whatever else of it has changed. -/
theorem State.withOp_failOp_endedAs (hstart : x.start = s.groups[g].start) (hretry : x.retry = s.groups[g].retry)
    {reason : OpReason} : s.EndedAs ((s.withOp g x).failOp g reason) g .failed (some reason) := by
  obtain ⟨hop, rec, hrecord, hresult, hreason, hstart', hstop, hretry'⟩ := (s.withOp g x).failOp_endedAs g reason
  rw [State.withOp_group] at hstart' hretry'
  exact ⟨hop, rec, hrecord, hresult, hreason, hstart'.trans hstart, hstop, hretry'.trans hretry⟩

end

end Sys2Proof.Machine
end

