-- ==== Sys2Proof/Proofs/GroupTurnsOutcome.lean ====
section
/-! What the turns of ONING come to (R111 to R113): a member awaited, or the end of ONING. -/

namespace Sys2Proof.Machine

/-! ## Members passed over -/

section
variable {s t : State} {g : Group} {i j : Nat} {x : GroupOp}

/-- The operation as turns leave it: its turn, the wait for a refused one, awaited set, progress and faulted members
change. -/
def GroupOp.Turned (r x : GroupOp) : Prop :=
  x = { r with turn := x.turn, busyWait := x.busyWait, awaited := x.awaited, progress := x.progress
               faulted := x.faulted }

theorem State.PassedOver.turned (h : s.PassedOver g i j x) : s.groups[g].Turned x := by
  obtain ⟨hx, -⟩ := h
  unfold GroupOp.Turned
  rw [hx]

/-- No turn taken is nothing changed. -/
theorem State.PassedOver.eq_self (h : s.PassedOver g i i x) : x = s.groups[g] := by
  obtain ⟨hx, -, -, hprogress, hfaulted⟩ := h
  rw [State.turnsBetween_self] at hprogress hfaulted
  have hsame : x.progress = s.groups[g].progress := List.ext_getElem? fun k => hprogress k nofun
  have hnone : ¬ ∃ m ∈ ([] : List Outlet), s.passedAs g m = some .faulted := fun ⟨_, hm, _⟩ => List.not_mem_nil hm
  rw [if_neg hnone] at hfaulted
  rw [hx, hsame, hfaulted, if_neg (Nat.lt_irrefl i), if_neg (Nat.lt_irrefl i)]

/-- Members passed over without a fault add none to the faulted members. -/
theorem State.PassedOver.faulted_eq (h : s.PassedOver g i j x)
    (hnone : ∀ m ∈ s.turnsBetween g i j, s.passedAs g m ≠ some .faulted) : x.faulted = s.groups[g].faulted := by
  obtain ⟨-, -, -, -, hfaulted⟩ := h
  rw [hfaulted]
  exact if_neg fun ⟨m, hm, hp⟩ => hnone m hm hp

/-- A member passed over is marked, where there is a progress for it. -/
theorem State.PassedOver.progress_of (h : s.PassedOver g i j x)
    (hlength : s.groups[g].progress.length = (s.members g).length) {m : Outlet} (hm : m ∈ s.turnsBetween g i j)
    {p : Progress} (hp : s.passedAs g m = some p) : x.progress[(s.members g).idxOf m]? = some p := by
  obtain ⟨-, hlen, hmarks, -⟩ := h
  have hin : (s.members g).idxOf m < x.progress.length := by
    rw [hlen, hlength]
    exact List.idxOf_lt_length_of_mem (State.mem_of_turnsBetween hm)
  have hget := List.getElem?_eq_getElem hin
  rw [hget, hmarks m hm p _ hp hget]

theorem State.turnsBetween_all (s : State) (g : Group) : s.turnsBetween g 0 (s.members g).length = s.members g := by
  unfold State.turnsBetween
  rw [List.take_length, List.drop_zero]

end

/-! ## The outcome -/

/-- VERIFYING of group `g`, its turns having left operation `x`. -/
def State.verifyBegun (s : State) (g : Group) (x : GroupOp) : State :=
  s.withOp g { x with op := .verifying, boot := some s.uptime }

/-- What the end of ONING does, the turns having left operation `x` (R111, R113). -/
structure State.OningEnds (s t : State) (g : Group) (x : GroupOp) : Prop where
  failed : x.repower = true → t = (s.withOp g x).endOp g .failed (some .welded) false
  verifying : x.repower = false → s.groupTable.active[g].verify ≠ .none → t = s.verifyBegun g x
  done : x.repower = false → s.groupTable.active[g].verify = .none → t = (s.verifyBegun g x).endOp g .done none false

section
variable {s t : State} {g : Group} {i : Nat} (h : s.TurnsTaken t g i)
include h

/-- Turns end with a member awaited, ONING going on, or with the end of ONING. -/
theorem State.TurnsTaken.outcome : ∃ x : GroupOp, s.groups[g].Turned x ∧
    ((t.groups = (upd s.groups g fun _ => x) ∧ t.monitors = s.monitors) ∨ s.OningEnds t g x) := by
  obtain ⟨j, hij, hj, hpassed, hnext⟩ := s.turns_end g i
  obtain ⟨x, hx, hask, hend⟩ := h j hij hj hpassed
  have hturned := hx.turned
  unfold GroupOp.Turned at hturned ⊢
  obtain ⟨m, hm, hp⟩ | hlast := hnext
  · obtain ⟨ht, -⟩ := hask m hm hp
    have hgroups := congrArg State.groups ht
    have hmonitors := congrArg State.monitors ht
    rw [State.request_changes] at hmonitors
    refine ⟨_, ?_, .inl ⟨hgroups, hmonitors⟩⟩
    rw [hturned]
  · obtain ⟨hfailed, hverifying, hdone⟩ := hend hlast
    exact ⟨x, hturned, .inr ⟨hfailed, hverifying, hdone⟩⟩

/-- The first turn's member, when it is not passed over, is awaited. -/
theorem State.TurnsTaken.asks {m : Outlet} (hm : (s.members g)[i]? = some m) (hp : s.passedAs g m = none)
    (hnone : ∀ e ∈ s.queue, e.outlet ≠ m) :
    t.groups = (upd s.groups g fun r => { r with
        turn := i, busyWait := false, awaited := if m ∈ r.awaited then r.awaited else r.awaited ++ [m]
        progress := r.progress.set ((s.members g).idxOf m) .awaiting })
    ∧ t.queue = s.queue ++
        [{ outlet := m, action := .close, origin := .group g, enqueued := s.uptime, state := .waiting }] := by
  have hself : ∀ n ∈ s.turnsBetween g i i, s.passedAs g n ≠ none := by
    rw [State.turnsBetween_self]
    exact nofun
  obtain ⟨x, hx, hask, -⟩ := h i le_rfl (.inl rfl) hself
  obtain ⟨ht, hqueue⟩ := hask m hm hp
  refine ⟨?_, hqueue hnone⟩
  rw [State.request_of_noEntry .close (.group g) (State.entryOf_eq_none_iff.2 hnone), hx.eq_self] at ht
  rw [ht]
  simp [upd]

end

/-- When every member from the first on is passed over, ONING is over. -/
theorem State.TurnsTaken.over {s t : State} {g : Group} (h : s.TurnsTaken t g 0)
    (hall : ∀ m ∈ s.members g, s.passedAs g m ≠ none) :
    ∃ x : GroupOp, s.PassedOver g 0 (s.members g).length x ∧ s.OningEnds t g x := by
  obtain ⟨x, hx, -, hend⟩ := h (s.members g).length (Nat.zero_le _) (.inr le_rfl) fun m hm =>
    hall m (State.mem_of_turnsBetween hm)
  obtain ⟨hfailed, hverifying, hdone⟩ := hend le_rfl
  exact ⟨x, hx, hfailed, hverifying, hdone⟩

section
variable {s : State} {g : Group} {x : GroupOp}

@[simp] theorem State.verifyBegun_group :
    (s.verifyBegun g x).groups[g] = { x with op := .verifying, boot := some s.uptime } := upd_get_self _ _ _

theorem State.verifyBegun_others {h : Group} (hne : h ≠ g) : (s.verifyBegun g x).groups[h] = s.groups[h] :=
  State.withOp_others hne

/-- ONING over, VERIFYING has begun or the operation has ended. -/
theorem State.OningEnds.begun_or_ended {t : State} (h : s.OningEnds t g x) :
    t = s.verifyBegun g x
    ∨ ∃ (y : GroupOp) (result : OpResult) (reason : Option OpReason),
        t = (s.withOp g y).endOp g result reason false := by
  by_cases hrepower : x.repower = true
  · exact .inr ⟨_, _, _, h.failed hrepower⟩
  · rw [Bool.not_eq_true] at hrepower
    by_cases hverify : s.groupTable.active[g].verify = .none
    · exact .inr ⟨_, _, _, h.done hrepower hverify⟩
    · exact .inl (h.verifying hrepower hverify)

end

end Sys2Proof.Machine
end

