-- ==== Sys2Proof/Proofs/GroupTurnedOn.lean ====
section
/-! GROUP_ON of a group in IDLE (R107, R111, R122). -/

namespace Sys2Proof.Machine

/-! ## The operation before its first turn -/

/-- The fields of an operation that GROUP_ON starts (R107). -/
def GroupOp.switchingOn (r : GroupOp) (members : Nat) (now : Uptime) : GroupOp :=
  { r with
    op := .oning, kind := some .on, cause := some .manual, passCause := some .manual, repower := false
    cancel := false, start := now, retry := 0, turn := 0, busyWait := false, awaited := [], dwell := none
    faulted := [], progress := List.replicate members .pending }

/-- GROUP_ON from IDLE before the first turn: its members off their stacks, and the operation started. -/
@[irreducible] def State.onBegun (s : State) (g : Group) : State :=
  ((s.unshedMembers g).startOp g .oning .on .manual).onGroup g fun r => { r with op := .oning, dwell := none }

theorem State.startOn_taken (s : State) (g : Group) : (s.onBegun g).TurnsTaken (s.startOn g) g 0 := by
  unfold State.onBegun
  exact State.enterOning_taken _ g

/-- The start of GROUP_ON changes the operation, the group's monitor, shed units, shown modes and indicator slots. -/
theorem State.onBegun_eq (s : State) (g : Group) : s.onBegun g = { s with
    groups := upd s.groups g fun r => r.switchingOn (s.members g).length s.uptime
    monitors := upd s.monitors g Monitor.opStart
    sheds := (s.onBegun g).sheds, shown := (s.onBegun g).shown, lanes := (s.onBegun g).lanes } := by
  have hstart := (s.unshedMembers g).startOp_changes g .oning .on .manual
  have hunshed := (s.unshedMembers_changes g).1
  unfold State.onBegun State.onGroup
  generalize (s.unshedMembers g).startOp g .oning .on .manual = u at hstart
  generalize s.unshedMembers g = v at hstart hunshed
  rw [hstart, hunshed]
  dsimp only
  rw [upd_upd]
  rfl

theorem State.onBegun_sheds (s : State) (g : Group) (b : Bank) :
    (s.onBegun g).sheds[b].shedFlight = s.sheds[b].shedFlight
    ∧ (s.onBegun g).sheds[b].stack = s.sheds[b].stack.filter fun o =>
        ¬ (o ∈ s.members g ∧ bankOf o = b ∧ s.sheds[b].shedFlight ≠ some o) := by
  have hsheds : (s.onBegun g).sheds = (s.unshedMembers g).sheds := by
    have hstart := (s.unshedMembers g).startOp_changes g .oning .on .manual
    unfold State.onBegun State.onGroup
    generalize (s.unshedMembers g).startOp g .oning .on .manual = u at hstart
    rw [hstart]
  rw [hsheds]
  exact (s.unshedMembers_changes g).2 b

section
variable {s : State} {g : Group}

theorem State.onBegun_group : (s.onBegun g).groups[g] = s.groups[g].switchingOn (s.members g).length s.uptime := by
  rw [State.onBegun_eq]
  exact upd_get_self _ _ _

theorem State.onBegun_others {h : Group} (hne : h ≠ g) : (s.onBegun g).groups[h] = s.groups[h] := by
  rw [State.onBegun_eq]
  exact upd_get_ne _ hne.symm _

theorem State.onBegun_monitors : (s.onBegun g).monitors = upd s.monitors g Monitor.opStart := by
  rw [State.onBegun_eq]

theorem State.onBegun_keeps : (s.onBegun g).queue = s.queue ∧ (s.onBegun g).relays = s.relays
    ∧ (s.onBegun g).groupTable = s.groupTable ∧ (s.onBegun g).uptime = s.uptime := by
  rw [State.onBegun_eq]
  exact ⟨rfl, rfl, rfl, rfl⟩

theorem State.onBegun_members : (s.onBegun g).members = s.members := by
  unfold State.members
  rw [State.onBegun_keeps.2.2.1]

/-- A member that is no shed in flight is off its stack. -/
theorem State.onBegun_unshed {o : Outlet} (ho : o ∈ s.members g) (hflight : s.sheds[bankOf o].shedFlight ≠ some o) :
    o ∉ (s.onBegun g).sheds[bankOf o].stack := by
  rw [(s.onBegun_sheds g (bankOf o)).2]
  intro hin
  have hkept := (List.mem_filter.1 hin).2
  rw [decide_eq_true_iff] at hkept
  exact hkept ⟨ho, rfl, hflight⟩

theorem State.onBegun_quiet (s : State) (g : Group) : (s.onBegun g).quiet = s.quiet := by
  unfold State.onBegun
  simp

theorem State.onBegun_fields :
    ((s.onBegun g).relays, (s.onBegun g).turnOn, (s.onBegun g).settle, (s.onBegun g).safe)
      = (s.relays, s.turnOn, s.settle, s.safe) := by
  rw [State.onBegun_eq]

end

/-! ## The first turns -/

section
variable {s : State} {g : Group}

/-- A member is not passed over that is neither shed, faulted nor ON, and has no entry. -/
theorem State.passedAs_eq_none {o : Outlet} (hshed : o ∉ s.sheds[bankOf o].stack) (hon : s.relays[o].state ≠ .on)
    (hopen : s.relays[o].state ≠ .faultOpen) (hwelded : s.relays[o].state ≠ .faultWelded)
    (hnone : ∀ e ∈ s.queue, e.outlet ≠ o) : s.passedAs g o = none := by
  unfold State.passedAs
  rw [State.request_of_noEntry .close (.group g) (State.entryOf_eq_none_iff.2 hnone), if_neg hshed,
    if_neg fun h => h.elim hopen hwelded, if_neg hon]
  exact if_neg nofun

/-- A member that is ON and not shed is passed over as CLOSED. -/
theorem State.passedAs_of_on {o : Outlet} (hshed : o ∉ s.sheds[bankOf o].stack) (hon : s.relays[o].state = .on) :
    s.passedAs g o = some .closed := by
  unfold State.passedAs
  rw [if_neg hshed, hon]
  rfl

/-- The first member, when its CLOSE has to be asked for, is awaited at the first turn. -/
theorem State.startOn_asks {m : Outlet} {ms : List Outlet} (hms : s.members g = m :: ms)
    (hflight : s.sheds[bankOf m].shedFlight ≠ some m) (hon : s.relays[m].state ≠ .on)
    (hopen : s.relays[m].state ≠ .faultOpen) (hwelded : s.relays[m].state ≠ .faultWelded)
    (hnone : ∀ e ∈ s.queue, e.outlet ≠ m) :
    let t := s.startOn g
    t.groups[g].op = .oning ∧ t.groups[g].kind = some .on ∧ t.groups[g].cause = some .manual
    ∧ t.groups[g].progress = .awaiting :: ms.map (fun _ => .pending)
    ∧ t.groups[g].turn = 0 ∧ t.groups[g].awaited = [m] ∧ t.groups[g].start = s.uptime
    ∧ t.queue = s.queue ++ [{ outlet := m, action := .close, origin := .group g, enqueued := s.uptime
                              state := .waiting }]
    ∧ ∀ h : Group, h ≠ g → t.groups[h] = s.groups[h] := by
  obtain ⟨hqueue, hrelays, -, huptime⟩ := State.onBegun_keeps (s := s) (g := g)
  have hmem : m ∈ s.members g := hms ▸ List.mem_cons_self
  have hmembers : (s.onBegun g).members g = m :: ms := (congrFun State.onBegun_members g).trans hms
  have hpassed : (s.onBegun g).passedAs g m = none := State.passedAs_eq_none (State.onBegun_unshed hmem hflight)
    (hrelays ▸ hon) (hrelays ▸ hopen) (hrelays ▸ hwelded) (hqueue ▸ hnone)
  obtain ⟨hgroups, hasked⟩ := (s.startOn_taken g).asks (by rw [hmembers]; rfl) hpassed (hqueue ▸ hnone)
  rw [hqueue, huptime] at hasked
  rw [hmembers] at hgroups
  dsimp only
  rw [hgroups, upd_get_self, State.onBegun_group, hms]
  refine ⟨rfl, rfl, rfl, ?_, rfl, rfl, rfl, hasked, fun h hne => ?_⟩
  · simp [GroupOp.switchingOn, List.replicate_succ]
  · rw [upd_get_ne _ hne.symm]
    exact State.onBegun_others hne

/-- With every member ON and none a shed in flight ONING is over at once. -/
theorem State.startOn_over (hall : ∀ o ∈ s.members g, s.relays[o].state = .on ∧ s.sheds[bankOf o].shedFlight ≠ some o) :
    let t := s.startOn g
    t.queue = s.queue
    ∧ (s.groupTable.active[g].verify ≠ .none →
      t.groups[g].op = .verifying ∧ t.groups[g].boot = some s.uptime
        ∧ ∀ o ∈ s.members g, t.groups[g].progress[(s.members g).idxOf o]? = some .closed)
    ∧ (s.groupTable.active[g].verify = .none → t.groups[g].op = .idle
      ∧ ∃ r : OpRecord, t.groups[g].lastRecord = some r ∧ r.result = .done ∧ r.kind = .on ∧ r.faulted = []) := by
  obtain ⟨hqueue, hrelays, htable, huptime⟩ := State.onBegun_keeps (s := s) (g := g)
  have hmembers : (s.onBegun g).members g = s.members g := congrFun State.onBegun_members g
  have hclosed : ∀ o ∈ s.members g, (s.onBegun g).passedAs g o = some .closed := fun o ho =>
    State.passedAs_of_on (State.onBegun_unshed ho (hall o ho).2) (hrelays ▸ (hall o ho).1)
  have hgroup := State.onBegun_group (s := s) (g := g)
  obtain ⟨x, hx, -, hverifying, hdone⟩ := (s.startOn_taken g).over fun m hm => by
    rw [hclosed m (hmembers ▸ hm)]
    exact nofun
  have hlength : (s.onBegun g).groups[g].progress.length = ((s.onBegun g).members g).length := by
    rw [hgroup, hmembers]
    exact List.length_replicate
  have hprogress : ∀ o ∈ s.members g, x.progress[(s.members g).idxOf o]? = some .closed := fun o ho => by
    rw [← hmembers]
    refine hx.progress_of hlength ?_ (hclosed o ho)
    rw [State.turnsBetween_all, hmembers]
    exact ho
  have hfaulted : x.faulted = [] := by
    rw [hx.faulted_eq fun m hm => ?_, hgroup]
    · rfl
    · rw [hclosed m (hmembers ▸ State.mem_of_turnsBetween hm)]
      exact nofun
  have hturned := hx.turned
  unfold GroupOp.Turned at hturned
  rw [hgroup] at hturned
  have hrepower : x.repower = false := by rw [hturned]; rfl
  have hkind : x.kind = some .on := by rw [hturned]; rfl
  have hverifying := hverifying hrepower
  have hdone := hdone hrepower
  rw [htable] at hverifying hdone
  dsimp only
  refine ⟨?_, fun hverify => ?_, fun hverify => ?_⟩
  · by_cases hverify : s.groupTable.active[g].verify = .none
    · rw [hdone hverify, State.endOp_queue]
      exact hqueue
    · rw [hverifying hverify]
      exact hqueue
  · rw [hverifying hverify, State.verifyBegun_group]
    exact ⟨rfl, congrArg some huptime, hprogress⟩
  · obtain ⟨hop, -, hrecord⟩ := ((s.onBegun g).verifyBegun g x).endOp_ended g .done none false
    rw [hdone hverify]
    refine ⟨hop, _, hrecord, rfl, ?_, ?_⟩
    all_goals unfold GroupOp.record; rw [State.verifyBegun_group]
    · dsimp only
      rw [hkind]
      rfl
    · exact hfaulted

/-- While the operation goes on, its monitor is in CYCLING and other groups stay. -/
theorem State.startOn_goesOn (hop : (s.startOn g).groups[g].op ≠ .idle) :
    (s.startOn g).monitors = upd s.monitors g Monitor.opStart
    ∧ ∀ h : Group, h ≠ g → (s.startOn g).groups[h] = s.groups[h] := by
  obtain ⟨x, -, ⟨hgroups, hmonitors⟩ | hends⟩ := (s.startOn_taken g).outcome
  · refine ⟨hmonitors.trans State.onBegun_monitors, fun h hne => ?_⟩
    rw [hgroups, upd_get_ne _ hne.symm]
    exact State.onBegun_others hne
  · obtain heq | ⟨y, result, reason, heq⟩ := hends.begun_or_ended
    · rw [heq]
      exact ⟨State.onBegun_monitors, fun h hne => (State.verifyBegun_others hne).trans (State.onBegun_others hne)⟩
    · rw [heq] at hop
      exact absurd (State.endOp_ended _ g result reason false).1 hop

/-- A monitor as the start and at once the end of an operation leave it. -/
theorem Monitor.opEnd_opStart (m : Monitor) (now : Uptime) :
    m.opStart.opEnd now false = if m.state = .offline then m else m.still .disarmed := by
  unfold Monitor.opStart
  split
  · rename_i hoff
    exact if_pos hoff
  · rfl

/-- When the operation has ended at once, other groups and monitors stay but for groups whose entries waited. -/
theorem State.startOn_ended (hidle : (s.startOn g).groups[g].op = .idle) (h : Group) (hw : h ∉ s.groupTable.waiting) :
    (s.startOn g).monitors[h] =
      (if h = g ∧ s.monitors[g].state ≠ .offline then s.monitors[g].still .disarmed else s.monitors[h])
    ∧ (h ≠ g → (s.startOn g).groups[h] = s.groups[h]) := by
  have hturned : ∀ x : GroupOp, (s.onBegun g).groups[g].Turned x → x.op = .oning := fun x hx => by
    unfold GroupOp.Turned at hx
    rw [hx, State.onBegun_group]
    rfl
  obtain ⟨x, hx, ⟨hgroups, -⟩ | hends⟩ := (s.startOn_taken g).outcome
  · rw [hgroups, upd_get_self, hturned x hx] at hidle
    exact nomatch hidle
  · obtain heq | ⟨y, result, reason, heq⟩ := hends.begun_or_ended
    · rw [heq, State.verifyBegun_group] at hidle
      exact nomatch hidle
    · obtain ⟨-, -, htable, -⟩ := State.onBegun_keeps (s := s) (g := g)
      have hwaiting : h ∉ ((s.onBegun g).withOp g y).groupTable.waiting := by
        show h ∉ (s.onBegun g).groupTable.waiting
        rw [htable]
        exact hw
      have hmonitors : ((s.onBegun g).withOp g y).monitors = upd s.monitors g Monitor.opStart := State.onBegun_monitors
      obtain ⟨hothers, -, -, -, hself⟩ := ((s.onBegun g).withOp g y).endOp_groups g result reason false
      rw [← heq, hmonitors] at hothers hself
      by_cases hne : h = g
      · subst hne
        refine ⟨?_, fun hn => absurd rfl hn⟩
        rw [hself hwaiting, upd_get_self, Monitor.opEnd_opStart]
        simp
      · obtain ⟨hgroup, hmonitor, -⟩ := hothers h hne (.inr hwaiting)
        rw [upd_get_ne _ (Ne.symm hne)] at hmonitor
        rw [if_neg fun hh => hne hh.1]
        exact ⟨hmonitor, fun _ => hgroup.trans ((State.withOp_others hne).trans (State.onBegun_others hne))⟩

end

/-! ## The obligation -/

theorem State.startOn_moves (s : State) (g : Group) : (s.startOn g).quiet = s.quiet
    ∧ ((s.startOn g).relays, (s.startOn g).turnOn, (s.startOn g).settle, (s.startOn g).safe)
      = (s.relays, s.turnOn, s.settle, s.safe) := by
  have hmoves : (s.onBegun g).Requeues (s.startOn g) := by
    unfold State.onBegun
    exact State.turnsFrom_requeues _ g 0
  exact ⟨hmoves.quiet.trans (s.onBegun_quiet g), hmoves.fields.trans State.onBegun_fields⟩

theorem State.startOn_unshed {s : State} {g : Group} {o : Outlet} (ho : o ∈ s.members g)
    (hflight : s.sheds[bankOf o].shedFlight ≠ some o) : o ∉ (s.startOn g).sheds[bankOf o].stack := by
  have hstacks : (s.startOn g).stacks = (s.onBegun g).stacks := by
    unfold State.onBegun
    exact State.turnsFrom_stacks _ g 0
  rw [(State.stacks_get hstacks (bankOf o)).1]
  exact State.onBegun_unshed ho hflight

theorem State.onGroupPower_of_idle {s : State} {g : Group} (href : s.groupRefusal g = none)
    (hop : s.groups[g].op = .idle) : s.onGroupPower g = (s.startOn g).reply .ok := by
  unfold State.onGroupPower
  rw [href]
  dsimp only
  rw [hop]

/-- Settles O31: GROUP_ON from IDLE, its turns and their outcome. -/
theorem idleGroupIsSwitchedOn : Obligations.IdleGroupIsSwitchedOn := by
  intro tag n g s hready hn hsafe henabled hup hop
  have href : s.taken.groupRefusal g = none := State.groupRefusal_eq_none hsafe henabled hup
  have hexec : exec (.groupOn tag [n]) s = .next ((s.taken.startOn g).answered 0x0C tag .ok .empty) :=
    execGroupOn_of_group hn hready (State.onGroupPower_of_idle href hop)
  obtain ⟨hquiet, hfields⟩ := s.taken.startOn_moves g
  have hunshed := fun o => State.startOn_unshed (s := s.taken) (g := g) (o := o)
  have hasks := fun m ms => State.startOn_asks (s := s.taken) (g := g) (m := m) (ms := ms)
  have hover := State.startOn_over (s := s.taken) (g := g)
  have hgoes := State.startOn_goesOn (s := s.taken) (g := g)
  have hended := State.startOn_ended (s := s.taken) (g := g)
  have htaken := s.taken.startOn_taken g
  have hbegun := s.taken.onBegun_eq g
  have hsheds := s.taken.onBegun_sheds g
  generalize s.taken.onBegun g = u at htaken hbegun hsheds
  generalize s.taken.startOn g = v at hexec hquiet hfields hunshed hasks hover hgoes hended htaken
  obtain ⟨hanswers, hmeasures, hrelays, htokens, hturnOn, -, hsafe'⟩ :=
    State.answered_kept hquiet hfields 0x0C tag .ok .empty
  exact ⟨_, hexec, hanswers, hmeasures, hrelays, htokens, hturnOn, hsafe', hunshed, hasks, hover,
    ⟨u, v, rfl, htaken, hbegun, hsheds⟩, hgoes, hended⟩

end Sys2Proof.Machine
end

