-- ==== Sys2Proof/Proofs/GroupTimers.lean ====
section
/-! The timers of an operation, and the completions it awaits (R104, R109 to R113, R115, R118). -/

namespace Sys2Proof.Machine

/-! ## What is left alone -/

/-- What queue and group changes leave: the quiet parts, the relays with their turn-ons and settle timers, tokens and
safe control. -/
theorem State.Requeues.measures {s t : State} (h : s.Requeues t) : s.sameMeasures t ∧ t.relays = s.relays
    ∧ t.tokens = s.tokens ∧ t.turnOn = s.turnOn ∧ t.settle = s.settle ∧ t.safe = s.safe := by
  obtain ⟨-, -, -, -, -, -, -, -, -, -, -, -, -, -, -, htokens, -⟩ := State.quiet_fields h.quiet
  exact ⟨State.sameMeasures_of_quiet h.quiet, h.relays, htokens, h.turnOn, h.settle, h.safe⟩

theorem State.anyWelded_iff {s : State} {g : Group} :
    s.anyWelded g = true ↔ ∃ o ∈ s.members g, s.relays[o].state = .faultWelded := by
  unfold State.anyWelded
  simp

/-! ## Turns -/

section
variable {s t : State} {g : Group} {x : GroupOp}

/-- ONING of an operation `x`: the turns are taken from the first member on. -/
theorem State.withOp_enterOning_taken (s : State) (g : Group) (x : GroupOp) :
    (s.withOp g { x with op := .oning, dwell := none }).TurnsTaken ((s.withOp g x).enterOning g) g 0 := by
  have htaken := (s.withOp g x).enterOning_taken g
  rw [State.withGroups_eq_withOp, State.withOp_withOp, State.withOp_group] at htaken
  exact htaken

/-- Turns of an operation in ONING end it, or go on to VERIFYING, or keep ONING and the re-power mark. -/
theorem State.TurnsTaken.goesOn_or_ends {i : Nat} (h : (s.withOp g x).TurnsTaken t g i) (hop : x.op = .oning)
    (hstart : x.start = s.groups[g].start) (hretry : x.retry = s.groups[g].retry) :
    (t.groups[g].op = .oning ∧ t.groups[g].repower = x.repower)
    ∨ (x.repower = true ∧ s.EndedAs t g .failed (some .welded))
    ∨ (x.repower = false ∧ (t.groups[g].op = .verifying ∨ t.groups[g].op = .idle)) := by
  obtain ⟨y, hy, ⟨hgroups, -⟩ | hends⟩ := h.outcome
  all_goals
    unfold GroupOp.Turned at hy
    rw [State.withOp_group] at hy
  · rw [hgroups, upd_get_self, hy]
    exact .inl ⟨hop, rfl⟩
  · have hrepower : y.repower = x.repower := by rw [hy]
    cases hx : x.repower with
    | true =>
      rw [hends.failed (hrepower.trans hx), State.withOp_withOp]
      exact .inr (.inl ⟨rfl, State.withOp_endOp_endedAs (by rw [hy]; exact hstart) (by rw [hy]; exact hretry)⟩)
    | false =>
      refine .inr (.inr ⟨rfl, ?_⟩)
      obtain heq | ⟨z, result, reason, heq⟩ := hends.begun_or_ended
      · rw [heq, State.verifyBegun_group]
        exact .inl rfl
      · rw [heq]
        exact .inr (State.endOp_ended _ g result reason false).1

end

/-! ## OFFING, once no entry is awaited -/

section
variable {s : State} {g : Group} {x : GroupOp}

/-- OFFING goes on while an entry is awaited. -/
theorem State.withOp_offingOver_of_awaited (h : x.awaited ≠ []) : (s.withOp g x).offingOver g = s.withOp g x := by
  unfold State.offingOver
  rw [State.withOp_group]
  exact if_pos h

theorem State.withOp_offingOver_of_cancel (ha : x.awaited = []) (hc : x.cancel = true) :
    (s.withOp g x).offingOver g = (s.withOp g x).endOp g .cancelled (some .command) false := by
  unfold State.offingOver
  rw [State.withOp_group]
  dsimp only
  rw [if_neg (not_not.2 ha), if_pos hc]

/-- A switching off ends by whether a member is welded (R109). -/
theorem State.withOp_offingOver_of_off (ha : x.awaited = []) (hc : x.cancel = false) (hk : x.kind = some .off) :
    (s.withOp g x).offingOver g = if s.anyWelded g then (s.withOp g x).endOp g .failed (some .welded) false
      else (s.withOp g x).endOp g .done none false := by
  unfold State.offingOver
  rw [State.withOp_group]
  dsimp only
  rw [if_neg (not_not.2 ha), if_neg (Bool.not_eq_true _ ▸ hc), if_pos hk]
  rfl

theorem State.withOp_offingOver_of_cycle (ha : x.awaited = []) (hc : x.cancel = false) (hk : x.kind ≠ some .off)
    (hw : s.anyWelded g = false) :
    (s.withOp g x).offingOver g = s.withOp g { x with op := .dwell, dwell := some s.uptime } := by
  have hwelded : (s.withOp g x).anyWelded g = false := hw
  rw [State.offingOver_of_cycle (by rwa [State.withOp_group]) (by rwa [State.withOp_group])
    (by rwa [State.withOp_group]) hwelded, State.withOp_onGroup]
  rfl

/-- A cycle with a welded member switches on again, with the re-power mark (R110). -/
theorem State.withOp_offingOver_of_welded (ha : x.awaited = []) (hc : x.cancel = false) (hk : x.kind ≠ some .off)
    (hw : s.anyWelded g = true) :
    (s.withOp g x).offingOver g = (s.withOp g { x with repower := true }).enterOning g := by
  have hwelded : (s.withOp g x).anyWelded g = true := hw
  unfold State.offingOver
  rw [State.withOp_group]
  dsimp only
  rw [if_neg (not_not.2 ha), if_neg (Bool.not_eq_true _ ▸ hc), if_neg hk, if_pos hwelded, State.withOp_onGroup]

end

/-! ## The timers -/

section
variable {s : State} {g : Group}

/-- Dwell expiry: the turns, with the re-power mark when a member is welded (R110). -/
theorem execDwellExpiry_due (hop : s.groups[g].op = .dwell)
    (hdue : due s.groups[g].dwell s.uptime (s.groupTable.active[g].offDwell * 1000) = true) :
    exec (.dwellExpiry g) s = .next
      ((s.withOp g { s.groups[g] with repower := s.groups[g].repower || s.anyWelded g }).enterOning g) := by
  rw [← State.onGroup_eq_withOp s g fun r => { r with repower := r.repower || s.anyWelded g }]
  exact if_pos ⟨hop, hdue⟩

theorem execStaggerExpiry_due (hop : s.groups[g].op = .oning)
    (hdue : due s.groups[g].stagger s.uptime (s.groupTable.active[g].onStagger * 1000) = true) :
    exec (.staggerExpiry g) s = .next ((s.onGroup g fun r => { r with stagger := none }).turnsFrom g
      (s.groups[g].turn + 1)) := if_pos ⟨hop, hdue⟩

/-- The operation as a pass of kind CYCLE, cause RETRY, begins it (R115). -/
def GroupOp.retried (r : GroupOp) (members : Nat) : GroupOp :=
  { r with retry := r.retry + 1, passCause := some .retry, boot := none, kind := some .cycle
           progress := List.replicate members .pending }

theorem State.banksUp_iff : s.banksUp g = true ↔ ∀ o ∈ s.members g, s.lanes[bankOf o].link = .up := by
  unfold State.banksUp State.isUp
  simp

theorem State.retryOp_of_up (hup : ∀ o ∈ s.members g, s.lanes[bankOf o].link = .up) :
    s.retryOp g = (s.withOp g (s.groups[g].retried (s.members g).length)).enterOffing g := by
  unfold State.retryOp
  dsimp only
  rw [if_pos (State.banksUp_iff.2 hup), State.onGroup_eq_withOp s, State.withOp_onGroup]
  rfl

theorem State.retryOp_of_down (hdown : ∃ o ∈ s.members g, s.lanes[bankOf o].link ≠ .up) :
    s.retryOp g = (s.onGroup g fun r =>
      { r with retry := r.retry + 1, passCause := some .retry, boot := none }).failOp g .bankLost := by
  have hbanks : ¬ s.banksUp g = true := fun hup => by
    obtain ⟨o, ho, hlink⟩ := hdown
    exact hlink (State.banksUp_iff.1 hup o ho)
  unfold State.retryOp
  exact if_neg hbanks

theorem State.retryOp_requeues (s : State) (g : Group) : s.Requeues (s.retryOp g) := by
  unfold State.retryOp
  dsimp only
  split
  · exact ((s.onGroup_requeues g _).trans (State.onGroup_requeues _ g _)).trans (State.enterOffing_requeues _ g)
  · exact (s.onGroup_requeues g _).trans (State.failOp_requeues _ g _)

/-- A pass with a member to switch off is in OFFING (R108, R115). -/
theorem State.retryOp_offing (hup : ∀ o ∈ s.members g, s.lanes[bankOf o].link = .up)
    (hon : ∃ o ∈ s.members g, s.relays[o].state ≠ .off) :
    let t := s.retryOp g
    t.groups[g] = { s.groups[g].retried (s.members g).length with
      op := .offing, busyWait := false, awaited := t.groups[g].awaited, progress := t.groups[g].progress }
    ∧ ∀ o ∈ s.members g, t.groups[g].progress[(s.members g).idxOf o]? =
        some (if s.relays[o].state = .off then .opened else .awaiting) := by
  obtain ⟨t, hasked, heq⟩ := State.enterOffing_asked (s.withOp g (s.groups[g].retried (s.members g).length)) g
  have hgroup := hasked.group
  rw [State.withOp_group] at hgroup
  dsimp only
  rw [State.retryOp_of_up hup, heq, hasked.goesOn hon]
  refine ⟨hgroup, fun o ho => hasked.progress ?_ ho⟩
  rw [State.withOp_group]
  exact List.length_replicate

theorem execBootWindowExpiry_due (hop : s.groups[g].op = .verifying)
    (hdue : due s.groups[g].boot s.uptime (s.groupTable.active[g].bootWindow * 1000) = true) :
    exec (.bootWindowExpiry g) s = .next
      (if s.groups[g].retry < s.groupTable.active[g].retries then s.retryOp g else s.failOp g .noBoot) := by
  refine (if_pos ⟨hop, hdue⟩ : execBootWindowExpiry g s = _).trans ?_
  unfold State.groupEntry
  split <;> rfl

end

/-! ## Completions -/

theorem State.groupCompletion_of_none {s : State} {o : Outlet} (h : ∀ g : Group, o ∉ s.groups[g].awaited) (a : Action)
    (res : Completion) : s.groupCompletion o a res = s := by
  have hnone : s.awaiter o = none := List.find?_eq_none.2 fun g _ => by
    rw [decide_eq_true_iff]
    exact h g
  unfold State.groupCompletion
  rw [hnone]

/-- The operation once outlet `o` has left its awaited set. -/
def GroupOp.without (r : GroupOp) (o : Outlet) : GroupOp := { r with awaited := r.awaited.filter (· ≠ o) }

section
variable {s : State} {g : Group} {o : Outlet} {a : Action} {res : Completion}

/-- The completion of an outlet that the group alone awaits is its OFFING's or its ONING's. -/
theorem State.groupCompletion_of_one (h : o ∈ s.groups[g].awaited)
    (hothers : ∀ k : Group, k ≠ g → o ∉ s.groups[k].awaited) (a : Action) (res : Completion) :
    (s.groups[g].op = .offing →
      s.groupCompletion o a res = (s.withOp g (s.groups[g].without o)).offingCompletion g o a res)
    ∧ (s.groups[g].op = .oning →
      s.groupCompletion o a res = (s.withOp g (s.groups[g].without o)).oningCompletion g o res) := by
  obtain ⟨u, rfl, -, hoffing, honing⟩ := s.groupCompletion_of_awaited g o a res h hothers
  rw [State.withGroups_eq_withOp] at hoffing honing
  exact ⟨hoffing, honing⟩

/-! ### In OFFING -/

theorem State.offingCompletion_of_lost (h : s.groups[g].cancel = false) :
    s.offingCompletion g o a .lost = s.failOp g .bankLost := by
  unfold State.offingCompletion
  rw [h]

theorem State.offingCompletion_of_lost_cancel (h : s.groups[g].cancel = true) :
    s.offingCompletion g o a .lost = s.offingOver g := by
  unfold State.offingCompletion
  rw [h]

theorem State.offingCompletion_of_opens (hres : res ≠ .lost) :
    s.offingCompletion g o .opens res = (s.mark g o .opened).offingOver g := by
  unfold State.offingCompletion
  cases res with
  | lost => exact absurd rfl hres
  | _ => rfl

/-- The completion of a CLOSE that OFFING has waited out (R109, R118). -/
theorem State.offingCompletion_of_close (hres : res ≠ .lost) : s.offingCompletion g o .close res =
    if s.groups[g].cancel then s.offingOver g
    else if s.relays[o].state = .off then (s.mark g o .opened).offingOver g
    else (s.requestOpen g o).offingOver g := by
  unfold State.offingCompletion
  cases res with
  | lost => exact absurd rfl hres
  | _ => rfl

/-- Without the cancel mark the member is OPENED by the completion of its OPEN, or of a CLOSE that finds it OFF
(R109). -/
theorem State.offingCompletion_of_opened (hc : s.groups[g].cancel = false) (hres : res ≠ .lost)
    (ha : a = .opens ∨ s.relays[o].state = .off) :
    s.offingCompletion g o a res = (s.mark g o .opened).offingOver g := by
  cases a with
  | opens => exact State.offingCompletion_of_opens hres
  | close =>
    have hoff : s.relays[o].state = .off := ha.resolve_left nofun
    rw [State.offingCompletion_of_close hres, hc, if_neg Bool.false_ne_true, if_pos hoff]

/-- With the cancel mark no OPEN is asked for, and the completion of an OPEN alone marks its member (log entries 13 and
14). -/
theorem State.offingCompletion_of_cancel (hc : s.groups[g].cancel = true) : s.offingCompletion g o a res =
    if res ≠ .lost ∧ a = .opens then (s.mark g o .opened).offingOver g else s.offingOver g := by
  by_cases hres : res = .lost
  · subst hres
    rw [State.offingCompletion_of_lost_cancel hc, if_neg fun h => h.1 rfl]
  · cases a with
    | opens => rw [State.offingCompletion_of_opens hres, if_pos ⟨hres, rfl⟩]
    | close => rw [State.offingCompletion_of_close hres, hc, if_pos rfl, if_neg fun h => nomatch h.2]

/-- A CLOSE that OFFING has waited out and that leaves the member not OFF has its OPEN asked for again (R109). -/
theorem State.offingCompletion_of_closed (hc : s.groups[g].cancel = false) (hres : res ≠ .lost)
    (hon : s.relays[o].state ≠ .off) : s.offingCompletion g o .close res = s.requestOpen g o := by
  have hmem : o ∈ (s.requestOpen g o).groups[g].awaited := by
    rw [State.requestOpen_group]
    dsimp only
    split
    · assumption
    · exact List.mem_append_right _ (List.mem_singleton.2 rfl)
  rw [State.offingCompletion_of_close hres, hc, if_neg Bool.false_ne_true, if_neg hon]
  exact if_pos (List.ne_nil_of_mem hmem)

/-! ### In ONING -/

theorem State.oningCompletion_of_busy (h : s.groups[g].busyWait = true) : s.oningCompletion g o res =
    if res = .lost then (s.mark g o .pending).failOp g .bankLost else s.turnsFrom g s.groups[g].turn := if_pos h

theorem State.oningCompletion_of_expired (h : s.groups[g].busyWait = false) :
    s.oningCompletion g o .expired = (s.mark g o .pending).failOp g .grantTimeout :=
  if_neg (Bool.not_eq_true _ ▸ h)

theorem State.oningCompletion_of_lost (h : s.groups[g].busyWait = false) :
    s.oningCompletion g o .lost = (s.mark g o .pending).failOp g .bankLost := if_neg (Bool.not_eq_true _ ▸ h)

theorem State.oningCompletion_of_done (h : s.groups[g].busyWait = false) :
    s.oningCompletion g o .done = (s.mark g o .closed).afterClose g := if_neg (Bool.not_eq_true _ ▸ h)

theorem State.oningCompletion_of_fault (h : s.groups[g].busyWait = false) :
    s.oningCompletion g o .fault = (s.addFaulted g o).afterClose g := if_neg (Bool.not_eq_true _ ▸ h)

/-- The operation once the CLOSE of member `o`, of the group's `ms`, has completed DONE or FAULT (R112). -/
def GroupOp.closedAt (r : GroupOp) (ms : List Outlet) (o : Outlet) (res : Completion) : GroupOp :=
  { r with
    faulted := if res = .fault then ms.filter (fun m => m = o ∨ m ∈ r.faulted) else r.faulted
    progress := r.progress.set (ms.idxOf o) (if res = .fault then .faulted else .closed) }

variable {x : GroupOp}

theorem State.withOp_oningCompletion_of_closed (h : x.busyWait = false) (hres : res = .done ∨ res = .fault) :
    (s.withOp g x).oningCompletion g o res = (s.withOp g (x.closedAt (s.members g) o res)).afterClose g := by
  have hbusy : (s.withOp g x).groups[g].busyWait = false := by rwa [State.withOp_group]
  obtain rfl | rfl := hres
  · rw [State.oningCompletion_of_done hbusy, State.withOp_mark]
    rfl
  · rw [State.oningCompletion_of_fault hbusy, State.withOp_addFaulted]
    rfl

/-- After a member's CLOSE that is not the last's the stagger timer runs, or with a stagger of 0 the next turn is taken
(R112). -/
theorem State.withOp_afterClose_of_next (h : x.turn + 1 < (s.members g).length) : (s.withOp g x).afterClose g =
    if s.groupTable.active[g].onStagger = 0 then (s.withOp g x).turnsFrom g (x.turn + 1)
    else s.withOp g { x with stagger := some s.uptime } := by
  unfold State.afterClose
  rw [State.withOp_group]
  exact (if_neg (Nat.not_le.2 h)).trans (by rw [State.withOp_onGroup]; rfl)

theorem State.withOp_afterClose_of_last (h : (s.members g).length ≤ x.turn + 1) :
    (s.withOp g x).afterClose g = (s.withOp g x).oningOver g := by
  unfold State.afterClose
  rw [State.withOp_group]
  exact if_pos h

/-- ONING over: a failure with the re-power mark, else VERIFYING, which with verify NONE is over at once (R111,
R113). -/
theorem State.withOp_oningOver : (s.withOp g x).oningOver g =
    if x.repower then (s.withOp g x).endOp g .failed (some .welded) false
    else if s.groupTable.active[g].verify = .none then
      (s.withOp g { x with op := .verifying, boot := some s.uptime }).endOp g .done none false
    else s.withOp g { x with op := .verifying, boot := some s.uptime } := by
  unfold State.oningOver State.enterVerifying
  rw [State.withOp_group, State.withOp_onGroup]
  rfl

end

end Sys2Proof.Machine
end

