-- ==== Sys2Proof/Proofs/GroupTimersExpire.lean ====
section
/-! The timers and the completions of a group's operation, as the obligation states them. -/

namespace Sys2Proof.Machine

section
variable {s t : State} {g : Group}

/-- A timer that is not of its state, or has not run out, does not act. -/
theorem not_due_of {op st : OpState} {d : Bool} (h : op ≠ st ∨ d = false) : ¬ (op = st ∧ d = true) := by
  rintro ⟨hop, hd⟩
  exact h.elim (fun hne => hne hop) fun hfalse => Bool.false_ne_true (hfalse.symm.trans hd)

/-- Turns of a changed operation, read as turns of the state with the change. -/
theorem State.TurnsTaken.of_withOp (f : GroupOp → GroupOp) {i : Nat}
    (h : (s.withOp g (f s.groups[g])).TurnsTaken t g i) :
    State.TurnsTaken { s with groups := upd s.groups g f } t g i := by
  rw [State.withGroups_eq_withOp]
  exact h

theorem GroupOp.without_of_nil {r : GroupOp} {o : Outlet} (h : r.awaited.filter (· ≠ o) = []) :
    r.without o = { r with awaited := [] } := by
  unfold GroupOp.without
  rw [h]

/-- The re-power mark of DWELL's end. -/
theorem or_anyWelded (b : Bool) : (b || s.anyWelded g) =
    (b || decide (∃ o ∈ s.members g, s.relays[o].state = .faultWelded)) := by
  congr 1
  rw [Bool.eq_iff_iff, State.anyWelded_iff, decide_eq_true_iff]

end

/-! ## The timers -/

section
variable {s : State} {g : Group}

/-- What dwell expiry takes of the turns, and what it leaves of the operation (R110). -/
theorem State.dwellExpiry_turns (s : State) (g : Group) :
    let t := (s.withOp g { s.groups[g] with repower := s.groups[g].repower || s.anyWelded g }).enterOning g
    State.TurnsTaken { s with groups := upd s.groups g fun r => { r with
      op := .oning, dwell := none
      repower := r.repower || decide (∃ o ∈ s.members g, s.relays[o].state = .faultWelded) } } t g 0
    ∧ t.groups[g].op ≠ .dwell
    ∧ (t.groups[g].op = .oning → (t.groups[g].repower = true ↔
        s.groups[g].repower = true ∨ ∃ o ∈ s.members g, s.relays[o].state = .faultWelded)) := by
  have htaken := s.withOp_enterOning_taken g { s.groups[g] with repower := s.groups[g].repower || s.anyWelded g }
  have houtcome := htaken.goesOn_or_ends rfl rfl rfl
  rw [or_anyWelded] at htaken houtcome ⊢
  dsimp only
  generalize State.enterOning _ g = t at htaken houtcome
  refine ⟨.of_withOp _ htaken, ?_, fun hop => ?_⟩
  · obtain ⟨hop, -⟩ | ⟨-, hop, -⟩ | ⟨-, hop | hop⟩ := houtcome <;> rw [hop] <;> exact nofun
  · obtain ⟨-, hrepower⟩ | ⟨-, hidle, -⟩ | ⟨-, hop' | hop'⟩ := houtcome
    · rw [hrepower, Bool.or_eq_true, decide_eq_true_iff]
    · exact nomatch hop.symm.trans hidle
    · exact nomatch hop.symm.trans hop'
    · exact nomatch hop.symm.trans hop'

end

/-! ## Completions -/

section
variable {s t : State} {g : Group} {o : Outlet} {a : Action} {res : Completion}

/-- An operation that fails at a completion, as begun and retried (R119). -/
theorem State.without_failOp_endedAs (s : State) (g : Group) (o : Outlet) (reason : OpReason) :
    s.EndedAs ((s.withOp g (s.groups[g].without o)).failOp g reason) g .failed (some reason) := by
  refine State.withOp_failOp_endedAs ?_ ?_ <;> rfl

/-- So it does with the member PENDING again (log entry 14). -/
theorem State.without_mark_failOp_endedAs (s : State) (g : Group) (o : Outlet) (reason : OpReason) :
    s.EndedAs (((s.withOp g (s.groups[g].without o)).mark g o .pending).failOp g reason) g .failed (some reason) := by
  rw [State.withOp_mark]
  refine State.withOp_failOp_endedAs ?_ ?_ <;> rfl

/-- An OPEN asked for again: its outlet is awaited, and what else was awaited stays so (R109). -/
theorem State.withOp_requestOpen (s : State) (g : Group) (o : Outlet) :
    let x := s.groups[g].without o
    let t := (s.withOp g x).requestOpen g o
    t.groups[g].op = s.groups[g].op ∧ o ∈ t.groups[g].awaited
    ∧ (∀ p : Progress, t.groups[g].progress[(s.members g).idxOf o]? = some p → p = .awaiting)
    ∧ (∀ m : Outlet, m ≠ o → (m ∈ t.groups[g].awaited ↔ m ∈ s.groups[g].awaited))
    ∧ t.queue = (s.request o .opens (.group g)).2.queue := by
  have hgroup := State.requestOpen_group (s.withOp g (s.groups[g].without o)) g o
  have hout : o ∉ (s.groups[g].without o).awaited := fun h => by simpa using (List.mem_filter.1 h).2
  rw [State.withOp_group, if_neg hout] at hgroup
  dsimp only
  rw [hgroup]
  refine ⟨rfl, List.mem_append_right _ (List.mem_singleton.2 rfl), fun p hp => ?_, fun m hm => ?_, ?_⟩
  · have hset : ((s.groups[g].without o).progress.set ((s.members g).idxOf o) .awaiting)[(s.members g).idxOf o]?
        = some p := hp
    rw [List.getElem?_set_self', Option.map_eq_map, Option.map_eq_some_iff] at hset
    obtain ⟨-, -, rfl⟩ := hset
    rfl
  · rw [List.mem_append, List.mem_singleton, or_iff_left hm]
    unfold GroupOp.without
    rw [List.mem_filter, decide_eq_true_iff, and_iff_left hm]
  · have hrequest := s.request_withGroups (upd s.groups g fun _ => s.groups[g].without o) o .opens (.group g)
    exact (congrArg (fun q => State.queue (Prod.snd q)) hrequest :)

variable {x : GroupOp} {i : Nat}

/-- OFFING with no entry awaited and no cancel mark, by kind and by whether a member is welded (R109, R110). -/
theorem State.withOp_offingOver (hnone : x.awaited = []) (hc : x.cancel = false) (hstart : x.start = s.groups[g].start)
    (hretry : x.retry = s.groups[g].retry) :
    let t := (s.withOp g x).offingOver g
    let welded : Prop := ∃ m ∈ s.members g, s.relays[m].state = .faultWelded
    (x.kind ≠ some .off → ¬ welded → t = s.withOp g { x with op := .dwell, dwell := some s.uptime })
    ∧ (x.kind ≠ some .off → welded →
        (s.withOp g { x with op := .oning, dwell := none, repower := true }).TurnsTaken t g 0
        ∧ ((t.groups[g].op = .oning ∧ t.groups[g].repower = true) ∨ s.EndedAs t g .failed (some .welded)))
    ∧ (x.kind = some .off → ¬ welded → s.EndedAs t g .done none)
    ∧ (x.kind = some .off → welded → s.EndedAs t g .failed (some .welded)) := by
  have hsound : ¬ (∃ m ∈ s.members g, s.relays[m].state = .faultWelded) → s.anyWelded g = false := fun hw =>
    Bool.eq_false_iff.2 fun h => hw (State.anyWelded_iff.1 h)
  refine ⟨fun hk hw => State.withOp_offingOver_of_cycle hnone hc hk (hsound hw), fun hk hw => ?_, fun hk hw => ?_,
    fun hk hw => ?_⟩
  · have htaken := s.withOp_enterOning_taken g { x with repower := true }
    rw [State.withOp_offingOver_of_welded hnone hc hk (State.anyWelded_iff.2 hw)]
    refine ⟨htaken, ?_⟩
    obtain honing | ⟨-, hended⟩ | ⟨hrepower, -⟩ := htaken.goesOn_or_ends rfl hstart hretry
    · exact .inl honing
    · exact .inr hended
    · exact nomatch hrepower
  · rw [State.withOp_offingOver_of_off hnone hc hk, if_neg (Bool.not_eq_true _ ▸ hsound hw)]
    exact State.withOp_endOp_endedAs hstart hretry
  · rw [State.withOp_offingOver_of_off hnone hc hk, if_pos (State.anyWelded_iff.2 hw)]
    exact State.withOp_endOp_endedAs hstart hretry

/-- With the cancel mark the completion of an OPEN alone marks its member (log entries 13 and 14). -/
theorem State.withOp_offingCompletion_of_cancel (hc : x.cancel = true) : (s.withOp g x).offingCompletion g o a res =
    (s.withOp g { x with progress :=
      if res ≠ .lost ∧ a = .opens then x.progress.set ((s.members g).idxOf o) .opened
      else x.progress }).offingOver g := by
  rw [State.offingCompletion_of_cancel (by rwa [State.withOp_group])]
  split
  · rw [State.withOp_mark]
  · rfl

/-- With the cancel mark OFFING ends CANCELLED once no entry is awaited (R118). -/
theorem State.withOp_offingOver_cancelled (hnone : x.awaited = []) (hc : x.cancel = true)
    (hstart : x.start = s.groups[g].start) (hretry : x.retry = s.groups[g].retry) :
    s.EndedAs ((s.withOp g x).offingOver g) g .cancelled (some .command) := by
  rw [State.withOp_offingOver_of_cancel hnone hc]
  exact State.withOp_endOp_endedAs hstart hretry

/-- After the completion of a CLOSE: the stagger timer or the next turn, and after the last member the end of ONING, by
the re-power mark and by what verifies (R111 to R113). -/
theorem State.withOp_afterClose (hstart : x.start = s.groups[g].start) (hretry : x.retry = s.groups[g].retry) :
    let t := (s.withOp g x).afterClose g
    let last : Prop := (s.members g).length ≤ x.turn + 1
    (x.turn + 1 < (s.members g).length → s.groupTable.active[g].onStagger ≠ 0 →
        t = s.withOp g { x with stagger := some s.uptime })
    ∧ (x.turn + 1 < (s.members g).length → s.groupTable.active[g].onStagger = 0 →
        (s.withOp g x).TurnsTaken t g (x.turn + 1))
    ∧ (last → x.repower = true → s.EndedAs t g .failed (some .welded))
    ∧ (last → x.repower = false → s.groupTable.active[g].verify ≠ .none →
        t = s.withOp g { x with op := .verifying, boot := some s.uptime })
    ∧ (last → x.repower = false → s.groupTable.active[g].verify = .none → s.EndedAs t g .done none) := by
  refine ⟨fun hnext hstagger => ?_, fun hnext hstagger => ?_, fun hlast h => ?_, fun hlast h hv => ?_,
    fun hlast h hv => ?_⟩
  · rw [State.withOp_afterClose_of_next hnext, if_neg hstagger]
  · rw [State.withOp_afterClose_of_next hnext, if_pos hstagger]
    exact State.turnsFrom_taken _ g _
  all_goals rw [State.withOp_afterClose_of_last hlast, State.withOp_oningOver]
  · rw [if_pos h]
    exact State.withOp_endOp_endedAs hstart hretry
  · rw [if_neg (Bool.not_eq_true _ ▸ h), if_neg hv]
  · rw [if_neg (Bool.not_eq_true _ ▸ h), if_pos hv]
    refine State.withOp_endOp_endedAs ?_ ?_
    · exact hstart
    · exact hretry

end

/-- Settles O33: the timers by their states, and completions by the operation that awaits them. -/
theorem groupTimersExpire : Obligations.GroupTimersExpire := by
  intro g s e r kept shows withProgress turns ended
  refine ⟨fun h => if_neg (not_due_of h), fun hop hdue => ?_, fun h => if_neg (not_due_of h), fun hop hdue => ?_,
    fun h => if_neg (not_due_of h), fun hop hdue => ⟨_, execBootWindowExpiry_due hop hdue, ?_, ?_, ?_, ?_⟩,
    fun o a res => ?_⟩
  · have hmoves := (s.withOp_requeues g { r with repower := r.repower || s.anyWelded g }).trans
      (State.enterOning_requeues _ g)
    exact ⟨_, execDwellExpiry_due hop hdue, hmoves.measures, s.dwellExpiry_turns g⟩
  · have hmoves := (s.onGroup_requeues g fun r => { r with stagger := none }).trans
      (State.turnsFrom_requeues _ g (r.turn + 1))
    exact ⟨_, execStaggerExpiry_due hop hdue, hmoves.measures, State.turnsFrom_taken _ g (r.turn + 1)⟩
  · split
    · exact (s.retryOp_requeues g).measures
    · exact (s.failOp_requeues g .noBoot).measures
  · intro hmax
    rw [if_neg (Nat.not_lt.2 hmax)]
    obtain ⟨hidle, rec, hrecord, hresult, hreason, -, -, hretry⟩ := s.failOp_endedAs g .noBoot
    exact ⟨hidle, rec, hrecord, hresult, hreason, hretry⟩
  · intro hless hdown
    rw [if_pos hless, State.retryOp_of_down hdown]
    obtain ⟨hidle, rec, hrecord, hresult, hreason, -⟩ := State.failOp_endedAs (s.onGroup g fun r =>
      { r with retry := r.retry + 1, passCause := some .retry, boot := none }) g .bankLost
    exact ⟨hidle, rec, hrecord, hresult, hreason⟩
  · intro hless hup hon
    obtain ⟨hgroup, hprogress⟩ := State.retryOp_offing hup hon
    rw [if_pos hless]
    exact ⟨congrArg GroupOp.op hgroup, congrArg GroupOp.retry hgroup, congrArg GroupOp.kind hgroup,
      congrArg GroupOp.passCause hgroup, (congrArg GroupOp.start hgroup).trans rfl,
      (congrArg GroupOp.cause hgroup).trans rfl, (congrArg GroupOp.faulted hgroup).trans rfl,
      congrArg GroupOp.boot hgroup, hprogress⟩
  · intro t rest welded
    have hmoves := s.groupCompletion_requeues o a res
    have hnone := fun h => State.groupCompletion_of_none (s := s) (o := o) h a res
    have hone := fun hin hothers => State.groupCompletion_of_one (s := s) (g := g) (o := o) hin hothers a res
    have ht : s.groupCompletion o a res = t := rfl
    clear_value t
    rw [ht] at hmoves hnone hone
    refine ⟨hnone, fun hin hothers => ?_⟩
    obtain ⟨hoffing, honing⟩ := hone hin hothers
    have hempty : rest = [] → r.without o = { r with awaited := [] } := GroupOp.without_of_nil
    have hself : (s.withOp g (r.without o)).groups[g] = r.without o := State.withOp_group
    refine ⟨hmoves.measures, fun hop hc => ?_, fun hop hc => ?_, fun hop hbusy => ?_, fun hop hbusy => ?_⟩
    · have hcancel : (s.withOp g (r.without o)).groups[g].cancel = false := by rw [hself]; exact hc
      rw [hoffing hop]
      refine ⟨?_, ?_, fun hres ha => ?_⟩
      · rintro rfl
        rw [State.offingCompletion_of_lost hcancel]
        exact s.without_failOp_endedAs g o .bankLost
      · rintro hres rfl hon
        rw [State.offingCompletion_of_closed hcancel hres hon]
        obtain ⟨hop', hrequested⟩ := s.withOp_requestOpen g o
        exact ⟨hop'.trans hop, hrequested⟩
      · rw [State.offingCompletion_of_opened hcancel hres ha, State.withOp_mark]
        refine ⟨fun hrest => ?_, ?_⟩
        · rw [State.withOp_offingOver_of_awaited hrest]
          exact ⟨rfl, rfl⟩
        · have hover := fun hrest : rest = [] => s.withOp_offingOver (g := g)
            (x := { r.without o with progress := (r.without o).progress.set ((s.members g).idxOf o) .opened })
            hrest hc rfl rfl
          refine ⟨fun hrest hk hw => ?_, fun hrest hk hw => ?_, fun hrest hk hw => ?_, fun hrest hk hw => ?_⟩
          all_goals obtain ⟨hdwell, honing, hdone, hfailed⟩ := hover hrest
          · rw [hdwell hk hw, State.withOp_group]
            exact ⟨rfl, rfl, hrest, rfl, rfl⟩
          · obtain ⟨htaken, houtcome⟩ := honing hk hw
            rw [hempty hrest] at htaken houtcome ⊢
            exact ⟨.of_withOp _ htaken, houtcome⟩
          · exact hdone hk hw
          · exact hfailed hk hw
    · rw [hoffing hop, State.withOp_offingCompletion_of_cancel (x := s.groups[g].without o) hc]
      refine ⟨fun hrest => ?_, fun hrest => ?_⟩
      · rw [State.withOp_offingOver_of_awaited hrest]
        exact ⟨rfl, rfl⟩
      · exact State.withOp_offingOver_cancelled hrest hc rfl rfl
    · have hbusy' : (s.withOp g (r.without o)).groups[g].busyWait = true := by rw [hself]; exact hbusy
      rw [honing hop, State.oningCompletion_of_busy hbusy']
      refine ⟨fun hlost => ?_, fun hres => ?_⟩
      · rw [if_pos hlost]
        exact s.without_mark_failOp_endedAs g o .bankLost
      · rw [if_neg hres, hself]
        exact .of_withOp _ (State.turnsFrom_taken _ g _)
    · have hbusy' : (s.withOp g (r.without o)).groups[g].busyWait = false := by rw [hself]; exact hbusy
      rw [honing hop]
      refine ⟨?_, ?_, fun hres => ?_⟩
      · rintro rfl
        rw [State.oningCompletion_of_expired hbusy']
        exact s.without_mark_failOp_endedAs g o .grantTimeout
      · rintro rfl
        rw [State.oningCompletion_of_lost hbusy']
        exact s.without_mark_failOp_endedAs g o .bankLost
      · rw [State.withOp_oningCompletion_of_closed (x := s.groups[g].without o) hbusy hres]
        intro faulted mark
        obtain ⟨hstagger, hturn, hfailed, hverifying, hdone⟩ :=
          s.withOp_afterClose (g := g) (x := (s.groups[g].without o).closedAt (s.members g) o res) rfl rfl
        refine ⟨fun hnext hne => ?_, fun hnext hnone => .of_withOp _ (hturn hnext hnone), hfailed,
          fun hlast hrepower hverify => ?_, hdone⟩
        · rw [hstagger hnext hne]
          exact ⟨rfl, rfl⟩
        · rw [hverifying hlast hrepower hverify, State.withOp_group]
          exact ⟨rfl, rfl, rfl, rfl⟩

end Sys2Proof.Machine
end
